-- ==== Sys2Proof/Word.lean ====
section
/-! DEFINITION. The widths the ECU works in (spec/00_scope.md R8, R12). -/

namespace Sys2Proof

/-- A 32-bit register, CSR, command word or block record. -/
abbrev Word := BitVec 32

/-- An 8-bit byte of the code buffer. -/
abbrev Byte := BitVec 8

end Sys2Proof
end

