-- ==== Sys2Proof/Config.lean ====
section
/-! DEFINITION. What an implementation fixes (spec/00_scope.md R7), the constants of the architecture (R8), and the
values the spec leaves open. -/

namespace Sys2Proof

/-- The five implementation parameters (R7). They are constant after reset; State carries them (log 5). -/
structure Params where
  /-- `N_ABM`, number of adaptive bit model slots. -/
  nAbm : Nat
  /-- `N_ADM`, number of adaptive data model slots. -/
  nAdm : Nat
  /-- `MAXSYM`, largest alphabet size of a data model. -/
  maxSym : Nat
  /-- `CB_SIZE`, size of the code buffer in bytes. -/
  cbSize : Nat
  /-- `NBLK`, number of block records. -/
  nblk : Nat
deriving DecidableEq, Repr

/-- The legal ranges of R7. -/
abbrev Params.legal (p : Params) : Prop :=
  (3 ≤ p.nAbm ∧ p.nAbm ≤ 256) ∧ (2 ≤ p.nAdm ∧ p.nAdm ≤ 16) ∧ (3 ≤ p.maxSym ∧ p.maxSym ≤ 255) ∧
    (4 ≤ p.cbSize ∧ p.cbSize ≤ 2 ^ 31) ∧ (1 ≤ p.nblk ∧ p.nblk ≤ 2 ^ 24)

/-- The default values of R7. -/
def Params.default : Params :=
  { nAbm := 64, nAdm := 8, maxSym := 16, cbSize := 1048576, nblk := 65536 }

/-- `MIN_RANGE`, the renormalisation threshold (R8). -/
def minRange : Word := 0x01000000#32

/-- `MAX_RANGE`, the initial range (R8). -/
def maxRange : Word := 0xFFFFFFFF#32

/-- `P_HALF`, the static model's probability of 0 out of 8192 (R8, R31). -/
def pHalf : BitVec 13 := 4096#13

/-- `BM_MAX`, the bit-model count ceiling (R8). -/
def bmMax : Nat := 8192

/-- `DM_MAX`, the data-model count ceiling (R8). -/
def dmMax : Nat := 32768

/-- `VERSION` (spec/10_state.md R38). -/
def versionWord : Word := 0x00010000#32

/-- FREE VALUE (log 6): what the byte of CB at an address holds after the given number of resets, as long as neither
the host nor a command has written it (spec/10_state.md R45, spec/93_implementation_defined.md U1). -/
opaque Config.cbUnwritten : Nat → Nat → Byte

/-- FREE VALUE (log 6): the same for a byte of BM in the byte view of spec/20_memory.md R58 (R45, U2). -/
opaque Config.bmUnwritten : Nat → Nat → Byte

end Sys2Proof
end

