-- ==== Sys2Proof/Syntax.lean ====
section
/-! DEFINITION. The commands of ECU-CS v1.0, one constructor per row of the opcode map (spec/30_encoding.md R74). -/

namespace Sys2Proof

/-- A register number, the field `ra` or `rb` of a command word (R72). -/
abbrev Reg := BitVec 4

/-- A model slot index, the field `m` of a command word (R73). -/
abbrev Slot := BitVec 8

/-- The command set (R74). `ra`, `rb` are register numbers, `m` a slot index, `f` the function field, `imm` the 16-bit
immediate (R70). -/
inductive Instr where
  /-- `NOP`, rule R190. -/
  | nop
  /-- `LI`, rule R191. -/
  | li (ra : Reg) (imm : BitVec 16)
  /-- `LIH`, rule R192. -/
  | lih (ra : Reg) (imm : BitVec 16)
  /-- `CSRR`, rule R193. -/
  | csrr (ra : Reg) (f : BitVec 8)
  /-- `CSRW`, rule R194. -/
  | csrw (ra : Reg) (f : BitVec 8)
  /-- `LDCB`, rule R195. -/
  | ldcb (ra rb : Reg)
  /-- `STCB`, rule R196. -/
  | stcb (ra rb : Reg)
  /-- `LDBM`, rule R197. -/
  | ldbm (ra rb : Reg)
  /-- `STBM`, rule R198. -/
  | stbm (ra rb : Reg)
  /-- `ENC_START`, rule R90. -/
  | encStart (ra rb : Reg)
  /-- `ENC_STOP`, rule R94. -/
  | encStop (ra : Reg)
  /-- `DEC_START`, rule R92. -/
  | decStart (ra rb : Reg)
  /-- `DEC_STOP`, rule R95. -/
  | decStop
  /-- `ABM_RESET`, rule R97. -/
  | abmReset (m : Slot)
  /-- `ADM_INIT`, rule R98. -/
  | admInit (m : Slot) (f : BitVec 8)
  /-- `ADM_RESET`, rule R99. -/
  | admReset (m : Slot)
  /-- `ALL_RESET`, rule R100. -/
  | allReset
  /-- `ENC_BIT_A`, rule R126. -/
  | encBitA (ra : Reg) (m : Slot)
  /-- `ENC_BIT_S`, rule R127. -/
  | encBitS (ra : Reg)
  /-- `DEC_BIT_A`, rule R128. -/
  | decBitA (ra : Reg) (m : Slot)
  /-- `DEC_BIT_S`, rule R129. -/
  | decBitS (ra : Reg)
  /-- `ENC_SYM`, rule R130. -/
  | encSym (ra : Reg) (m : Slot)
  /-- `DEC_SYM`, rule R131. -/
  | decSym (ra : Reg) (m : Slot)
  /-- `ENC_UINT`, rule R161. -/
  | encUint (ra : Reg) (f : BitVec 8)
  /-- `DEC_UINT`, rule R162. -/
  | decUint (ra : Reg) (f : BitVec 8)
  /-- `ZZENC`, rule R142. -/
  | zzenc (ra rb : Reg)
  /-- `ZZDEC`, rule R143. -/
  | zzdec (ra rb : Reg)
  /-- `ENC_EG0`, rule R146. -/
  | encEg0 (ra : Reg) (m : Slot)
  /-- `DEC_EG0`, rule R147. -/
  | decEg0 (ra : Reg) (m : Slot)
  /-- `ENC_SDELTA`, rule R148. -/
  | encSdelta (ra : Reg) (m : Slot)
  /-- `DEC_SDELTA`, rule R149. -/
  | decSdelta (ra : Reg) (m : Slot)
  /-- `OCC_ENC_BLK`, rule R175. -/
  | occEncBlk (ra : Reg)
  /-- `OCC_DEC_BLK`, rule R176. -/
  | occDecBlk (ra : Reg)
  /-- `OCC_ENC_PATCH`, rule R179. -/
  | occEncPatch
  /-- `OCC_DEC_PATCH`, rule R180. -/
  | occDecPatch
deriving DecidableEq, Repr

end Sys2Proof
end

