-- ==== Sys2Proof/WellFormed.lean ====
section
/-! DEFINITION. Which instruction terms stand for a command word. Every field but one is of its encoding's width by its
type; the bit count of `ENC_UINT` and `DEC_UINT` is at most 32 (spec/30_encoding.md R73, R80). -/

namespace Sys2Proof

/-- A bit count the encoding admits (R73). -/
def bitCountOk (f : BitVec 8) : Bool := decide (f.toNat ≤ 32)

/-- The instruction stands for a legal command word (R75, R80). -/
def Instr.wf (i : Instr) : Bool :=
  match i with
  | .nop => true
  | .li _ _ => true
  | .lih _ _ => true
  | .csrr _ _ => true
  | .csrw _ _ => true
  | .ldcb _ _ => true
  | .stcb _ _ => true
  | .ldbm _ _ => true
  | .stbm _ _ => true
  | .encStart _ _ => true
  | .encStop _ => true
  | .decStart _ _ => true
  | .decStop => true
  | .abmReset _ => true
  | .admInit _ _ => true
  | .admReset _ => true
  | .allReset => true
  | .encBitA _ _ => true
  | .encBitS _ => true
  | .decBitA _ _ => true
  | .decBitS _ => true
  | .encSym _ _ => true
  | .decSym _ _ => true
  | .encUint _ f => bitCountOk f
  | .decUint _ f => bitCountOk f
  | .zzenc _ _ => true
  | .zzdec _ _ => true
  | .encEg0 _ _ => true
  | .decEg0 _ _ => true
  | .encSdelta _ _ => true
  | .decSdelta _ _ => true
  | .occEncBlk _ => true
  | .occDecBlk _ => true
  | .occEncPatch => true
  | .occDecPatch => true

end Sys2Proof
end

