-- ==== Sys2Proof/Decode.lean ====
section
/-! DEFINITION. Decoding and encoding of command words (spec/30_encoding.md R70 to R75, R80). -/

namespace Sys2Proof

/-- Why a word is illegal, one name per case of R80. -/
inductive Illegal where
  /-- R80 (a): no row of R74 has the word's opcode. -/
  | unassignedOpcode
  /-- R80 (b): a must-be-zero bit of the format is 1. -/
  | mustBeZero
  /-- R80 (c): a bit count above 32. -/
  | bitCount
deriving DecidableEq, Repr

/-- The eight formats (R71). -/
inductive Format where
  | z | a | ab | am | m | mf | af | i
deriving DecidableEq, Repr

/-- The must-be-zero mask of a format (R71). -/
def Format.mbz (fmt : Format) : Word :=
  match fmt with
  | .z => 0x00FFFFFF#32
  | .a => 0x000FFFFF#32
  | .ab => 0x0000FFFF#32
  | .am => 0x000F00FF#32
  | .m => 0x00FF00FF#32
  | .mf => 0x00FF0000#32
  | .af => 0x000FFF00#32
  | .i => 0x000F0000#32

/-- Field `op`, bits 31:24 (R70). -/
def opField (cw : Word) : BitVec 8 := cw.extractLsb' 24 8

/-- Field `ra`, bits 23:20 (R70). -/
def raField (cw : Word) : Reg := cw.extractLsb' 20 4

/-- Field `rb`, bits 19:16 (R70). -/
def rbField (cw : Word) : Reg := cw.extractLsb' 16 4

/-- Field `m`, bits 15:8 (R70). -/
def mField (cw : Word) : Slot := cw.extractLsb' 8 8

/-- Field `f`, bits 7:0 (R70). -/
def fField (cw : Word) : BitVec 8 := cw.extractLsb' 0 8

/-- Field `imm16`, bits 15:0 (R70). -/
def immField (cw : Word) : BitVec 16 := cw.extractLsb' 0 16

/-- The must-be-zero test of R75. -/
def checkMbz (fmt : Format) (cw : Word) (i : Instr) : Except Illegal Instr :=
  if cw &&& fmt.mbz = 0#32 then .ok i else .error .mustBeZero

/-- The tests of R75 for `ENC_UINT` and `DEC_UINT`: must-be-zero bits, then `f <= 32`. -/
def checkMbzCount (cw : Word) (i : Instr) : Except Illegal Instr :=
  if cw &&& Format.af.mbz = 0#32 then
    if (fField cw).toNat ≤ 32 then .ok i else .error .bitCount
  else .error .mustBeZero

/-- The decoding procedure (R75): total, and every word is one command or illegal. -/
def decode (cw : Word) : Except Illegal Instr :=
  match (opField cw).toNat with
  | 0x00 => checkMbz .z cw .nop
  | 0x01 => checkMbz .i cw (.li (raField cw) (immField cw))
  | 0x02 => checkMbz .i cw (.lih (raField cw) (immField cw))
  | 0x03 => checkMbz .af cw (.csrr (raField cw) (fField cw))
  | 0x04 => checkMbz .af cw (.csrw (raField cw) (fField cw))
  | 0x08 => checkMbz .ab cw (.ldcb (raField cw) (rbField cw))
  | 0x09 => checkMbz .ab cw (.stcb (raField cw) (rbField cw))
  | 0x0A => checkMbz .ab cw (.ldbm (raField cw) (rbField cw))
  | 0x0B => checkMbz .ab cw (.stbm (raField cw) (rbField cw))
  | 0x10 => checkMbz .ab cw (.encStart (raField cw) (rbField cw))
  | 0x11 => checkMbz .a cw (.encStop (raField cw))
  | 0x12 => checkMbz .ab cw (.decStart (raField cw) (rbField cw))
  | 0x13 => checkMbz .z cw .decStop
  | 0x20 => checkMbz .m cw (.abmReset (mField cw))
  | 0x21 => checkMbz .mf cw (.admInit (mField cw) (fField cw))
  | 0x22 => checkMbz .m cw (.admReset (mField cw))
  | 0x23 => checkMbz .z cw .allReset
  | 0x30 => checkMbz .am cw (.encBitA (raField cw) (mField cw))
  | 0x31 => checkMbz .a cw (.encBitS (raField cw))
  | 0x32 => checkMbz .am cw (.decBitA (raField cw) (mField cw))
  | 0x33 => checkMbz .a cw (.decBitS (raField cw))
  | 0x34 => checkMbz .am cw (.encSym (raField cw) (mField cw))
  | 0x35 => checkMbz .am cw (.decSym (raField cw) (mField cw))
  | 0x38 => checkMbzCount cw (.encUint (raField cw) (fField cw))
  | 0x39 => checkMbzCount cw (.decUint (raField cw) (fField cw))
  | 0x40 => checkMbz .ab cw (.zzenc (raField cw) (rbField cw))
  | 0x41 => checkMbz .ab cw (.zzdec (raField cw) (rbField cw))
  | 0x42 => checkMbz .am cw (.encEg0 (raField cw) (mField cw))
  | 0x43 => checkMbz .am cw (.decEg0 (raField cw) (mField cw))
  | 0x44 => checkMbz .am cw (.encSdelta (raField cw) (mField cw))
  | 0x45 => checkMbz .am cw (.decSdelta (raField cw) (mField cw))
  | 0x50 => checkMbz .a cw (.occEncBlk (raField cw))
  | 0x51 => checkMbz .a cw (.occDecBlk (raField cw))
  | 0x52 => checkMbz .z cw .occEncPatch
  | 0x53 => checkMbz .z cw .occDecPatch
  | _ => .error .unassignedOpcode

/-- A command word from its fields (R70). -/
def cmdWord (op : BitVec 8) (ra rb : Reg) (m f : BitVec 8) : Word := op ++ ra ++ rb ++ m ++ f

/-- A command word of format I from its fields (R70, R71). -/
def cmdWordImm (op : BitVec 8) (ra : Reg) (imm : BitVec 16) : Word := op ++ ra ++ (0#4) ++ imm

/-- The word of an instruction (R74), unused fields zero (R71). -/
def encode (i : Instr) : Word :=
  match i with
  | .nop => cmdWord 0x00#8 0#4 0#4 0#8 0#8
  | .li ra imm => cmdWordImm 0x01#8 ra imm
  | .lih ra imm => cmdWordImm 0x02#8 ra imm
  | .csrr ra f => cmdWord 0x03#8 ra 0#4 0#8 f
  | .csrw ra f => cmdWord 0x04#8 ra 0#4 0#8 f
  | .ldcb ra rb => cmdWord 0x08#8 ra rb 0#8 0#8
  | .stcb ra rb => cmdWord 0x09#8 ra rb 0#8 0#8
  | .ldbm ra rb => cmdWord 0x0A#8 ra rb 0#8 0#8
  | .stbm ra rb => cmdWord 0x0B#8 ra rb 0#8 0#8
  | .encStart ra rb => cmdWord 0x10#8 ra rb 0#8 0#8
  | .encStop ra => cmdWord 0x11#8 ra 0#4 0#8 0#8
  | .decStart ra rb => cmdWord 0x12#8 ra rb 0#8 0#8
  | .decStop => cmdWord 0x13#8 0#4 0#4 0#8 0#8
  | .abmReset m => cmdWord 0x20#8 0#4 0#4 m 0#8
  | .admInit m f => cmdWord 0x21#8 0#4 0#4 m f
  | .admReset m => cmdWord 0x22#8 0#4 0#4 m 0#8
  | .allReset => cmdWord 0x23#8 0#4 0#4 0#8 0#8
  | .encBitA ra m => cmdWord 0x30#8 ra 0#4 m 0#8
  | .encBitS ra => cmdWord 0x31#8 ra 0#4 0#8 0#8
  | .decBitA ra m => cmdWord 0x32#8 ra 0#4 m 0#8
  | .decBitS ra => cmdWord 0x33#8 ra 0#4 0#8 0#8
  | .encSym ra m => cmdWord 0x34#8 ra 0#4 m 0#8
  | .decSym ra m => cmdWord 0x35#8 ra 0#4 m 0#8
  | .encUint ra f => cmdWord 0x38#8 ra 0#4 0#8 f
  | .decUint ra f => cmdWord 0x39#8 ra 0#4 0#8 f
  | .zzenc ra rb => cmdWord 0x40#8 ra rb 0#8 0#8
  | .zzdec ra rb => cmdWord 0x41#8 ra rb 0#8 0#8
  | .encEg0 ra m => cmdWord 0x42#8 ra 0#4 m 0#8
  | .decEg0 ra m => cmdWord 0x43#8 ra 0#4 m 0#8
  | .encSdelta ra m => cmdWord 0x44#8 ra 0#4 m 0#8
  | .decSdelta ra m => cmdWord 0x45#8 ra 0#4 m 0#8
  | .occEncBlk ra => cmdWord 0x50#8 ra 0#4 0#8 0#8
  | .occDecBlk ra => cmdWord 0x51#8 ra 0#4 0#8 0#8
  | .occEncPatch => cmdWord 0x52#8 0#4 0#4 0#8 0#8
  | .occDecPatch => cmdWord 0x53#8 0#4 0#4 0#8 0#8

/-- One row of the opcode map (R74): a word selects the row when `cw & mask = match`. -/
structure OpcodeRow where
  /-- `match`, the word with all operand fields zero. -/
  pattern : Word
  /-- `mask`, the opcode and the must-be-zero bits. -/
  mask : Word
  /-- The command carries a bit count in `f`, at most 32 (R75). -/
  counted : Bool
deriving DecidableEq, Repr

/-- The 35 rows of R74. -/
def opcodeRows : List OpcodeRow :=
  [
   -- NOP
   ⟨0x00000000#32, 0xFFFFFFFF#32, false⟩,
   -- LI
   ⟨0x01000000#32, 0xFF0F0000#32, false⟩,
   -- LIH
   ⟨0x02000000#32, 0xFF0F0000#32, false⟩,
   -- CSRR
   ⟨0x03000000#32, 0xFF0FFF00#32, false⟩,
   -- CSRW
   ⟨0x04000000#32, 0xFF0FFF00#32, false⟩,
   -- LDCB
   ⟨0x08000000#32, 0xFF00FFFF#32, false⟩,
   -- STCB
   ⟨0x09000000#32, 0xFF00FFFF#32, false⟩,
   -- LDBM
   ⟨0x0A000000#32, 0xFF00FFFF#32, false⟩,
   -- STBM
   ⟨0x0B000000#32, 0xFF00FFFF#32, false⟩,
   -- ENC_START
   ⟨0x10000000#32, 0xFF00FFFF#32, false⟩,
   -- ENC_STOP
   ⟨0x11000000#32, 0xFF0FFFFF#32, false⟩,
   -- DEC_START
   ⟨0x12000000#32, 0xFF00FFFF#32, false⟩,
   -- DEC_STOP
   ⟨0x13000000#32, 0xFFFFFFFF#32, false⟩,
   -- ABM_RESET
   ⟨0x20000000#32, 0xFFFF00FF#32, false⟩,
   -- ADM_INIT
   ⟨0x21000000#32, 0xFFFF0000#32, false⟩,
   -- ADM_RESET
   ⟨0x22000000#32, 0xFFFF00FF#32, false⟩,
   -- ALL_RESET
   ⟨0x23000000#32, 0xFFFFFFFF#32, false⟩,
   -- ENC_BIT_A
   ⟨0x30000000#32, 0xFF0F00FF#32, false⟩,
   -- ENC_BIT_S
   ⟨0x31000000#32, 0xFF0FFFFF#32, false⟩,
   -- DEC_BIT_A
   ⟨0x32000000#32, 0xFF0F00FF#32, false⟩,
   -- DEC_BIT_S
   ⟨0x33000000#32, 0xFF0FFFFF#32, false⟩,
   -- ENC_SYM
   ⟨0x34000000#32, 0xFF0F00FF#32, false⟩,
   -- DEC_SYM
   ⟨0x35000000#32, 0xFF0F00FF#32, false⟩,
   -- ENC_UINT
   ⟨0x38000000#32, 0xFF0FFF00#32, true⟩,
   -- DEC_UINT
   ⟨0x39000000#32, 0xFF0FFF00#32, true⟩,
   -- ZZENC
   ⟨0x40000000#32, 0xFF00FFFF#32, false⟩,
   -- ZZDEC
   ⟨0x41000000#32, 0xFF00FFFF#32, false⟩,
   -- ENC_EG0
   ⟨0x42000000#32, 0xFF0F00FF#32, false⟩,
   -- DEC_EG0
   ⟨0x43000000#32, 0xFF0F00FF#32, false⟩,
   -- ENC_SDELTA
   ⟨0x44000000#32, 0xFF0F00FF#32, false⟩,
   -- DEC_SDELTA
   ⟨0x45000000#32, 0xFF0F00FF#32, false⟩,
   -- OCC_ENC_BLK
   ⟨0x50000000#32, 0xFF0FFFFF#32, false⟩,
   -- OCC_DEC_BLK
   ⟨0x51000000#32, 0xFF0FFFFF#32, false⟩,
   -- OCC_ENC_PATCH
   ⟨0x52000000#32, 0xFFFFFFFF#32, false⟩,
   -- OCC_DEC_PATCH
   ⟨0x53000000#32, 0xFFFFFFFF#32, false⟩]

/-- The word of a table row whose bits are `w` (numbered as spec/opcode_table.json numbers them); a command is one
32-bit word, so every bit above `nbits` is zero. -/
def tableWord (nbits w : Nat) : Word := BitVec.ofNat 32 (w % 2 ^ nbits)

/-- The instruction the decoder reads from the word of a table row. -/
def decodeTableWord (nbits w : Nat) : Option Instr :=
  match decode (tableWord nbits w) with
  | .ok i => some i
  | .error _ => none

end Sys2Proof
end

