-- ==== Sys2Proof/Machine/Slots.lean ====
section
/-! DEFINITION. The slots of the two model banks, their initial states and their adaptation
(spec/10_state.md R29, R30, R32; spec/40_session_and_models.md R98; spec/41_bit_and_symbol_coding.md R118, R123).
Fields have the widths of R29 and R32; the arithmetic of an update is exact on natural numbers and narrowed when it is
stored (log 14). -/

namespace Sys2Proof.Machine

/-- An adaptive bit model slot (R29). -/
structure AbmSlot where
  /-- probability that the next bit is 0, scaled by `2^13` -/
  p0 : BitVec 13
  /-- count of 0 bits -/
  c0 : BitVec 14
  /-- count of all bits as of the last update -/
  cn : BitVec 14
  /-- number of bits between the last two updates -/
  cyc : BitVec 7
  /-- bits still to code before the next update -/
  left : BitVec 7
deriving DecidableEq, Repr

/-- The initial state of a bit model slot (R30). -/
def AbmSlot.fresh : AbmSlot := { p0 := 4096#13, c0 := 1#14, cn := 2#14, cyc := 4#7, left := 4#7 }

/-- The counters after the halving test of `abm_update` (R118): the new `(c0, cn)` from the old `c0` and `cn + cyc`. -/
def abmHalve (c0 cn : Nat) : Nat × Nat :=
  if cn ≤ bmMax then (c0, cn)
  else
    let h := (c0 + 1) >>> 1
    let n := (cn + 1) >>> 1
    (h, if h = n then n + 1 else n)

/-- `abm_update` (R118). -/
def AbmSlot.update (a : AbmSlot) : AbmSlot :=
  let c := abmHalve a.c0.toNat (a.cn.toNat + a.cyc.toNat)
  let scale := 0x80000000 / c.2
  let grown := (5 * a.cyc.toNat) >>> 2
  let cyc := BitVec.ofNat 7 (if grown > 64 then 64 else grown)
  { p0 := BitVec.ofNat 13 ((c.1 * scale) >>> 18)
    c0 := BitVec.ofNat 14 c.1
    cn := BitVec.ofNat 14 c.2
    cyc := cyc
    left := cyc }

/-- `abm_count` on the slot (R118): the counters move at every coded bit, `p0` and `cn` at an update. -/
def AbmSlot.count (a : AbmSlot) (bit : Bool) : AbmSlot :=
  let counted := { a with c0 := if bit then a.c0 else a.c0 + 1#14, left := a.left - 1#7 }
  if counted.left = 0#7 then counted.update else counted

/-- An adaptive data model slot (R32). `dist` and `cnt` hold the entries `0 .. nsym-1` (log 10). -/
structure AdmSlot where
  /-- alphabet size, 0 when the slot is uninitialised -/
  nsym : BitVec 8
  /-- cumulative probability of the symbols below `k`, scaled by `2^15` -/
  dist : List (BitVec 15)
  /-- count of symbol `k` -/
  cnt : List (BitVec 16)
  /-- sum of the counts as of the last update -/
  total : BitVec 16
  /-- number of symbols between the last two updates -/
  cyc : BitVec 12
  /-- symbols still to code before the next update -/
  left : BitVec 12
deriving DecidableEq, Repr

/-- The uninitialised slot (R33); its fields other than `nsym` are unspecified and unreadable (R45, log 9). -/
def AdmSlot.uninit : AdmSlot :=
  { nsym := 0#8, dist := [], cnt := [], total := 0#16, cyc := 0#12, left := 0#12 }

/-- `dist[k]` as a 32-bit value (R120, R121). -/
def AdmSlot.distAt (d : AdmSlot) (k : Nat) : Word := (d.dist.getD k 0#15).setWidth 32

/-- `cnt[k]` as a 32-bit value (R41). -/
def AdmSlot.cntAt (d : AdmSlot) (k : Nat) : Word := (d.cnt.getD k 0#16).setWidth 32

/-- The sum of a list of counts. -/
def cntSum (cnt : List (BitVec 16)) : Nat := (cnt.map BitVec.toNat).sum

/-- The counts and their total after the halving test of `adm_update` (R123); `total` is the old `total + cyc`. -/
def admHalve (cnt : List (BitVec 16)) (total : Nat) : List (BitVec 16) × Nat :=
  if total ≤ dmMax then (cnt, total)
  else
    let halved := cnt.map (fun c => BitVec.ofNat 16 ((c.toNat + 1) >>> 1))
    (halved, cntSum halved)

/-- The new `dist` from the counts (R123), `sum` being the count of all symbols before the list's first. -/
def admDist (scale : Nat) (cnt : List (BitVec 16)) (sum : Nat) : List (BitVec 15) :=
  match cnt with
  | [] => []
  | c :: rest => BitVec.ofNat 15 ((scale * sum) >>> 16) :: admDist scale rest (sum + c.toNat)

/-- `adm_update` (R123). -/
def AdmSlot.update (d : AdmSlot) : AdmSlot :=
  let c := admHalve d.cnt (d.total.toNat + d.cyc.toNat)
  let grown := (5 * d.cyc.toNat) >>> 2
  let most := (d.nsym.toNat + 6) <<< 3
  let cyc := BitVec.ofNat 12 (if grown > most then most else grown)
  { nsym := d.nsym
    dist := admDist (0x80000000 / c.2) c.1 0
    cnt := c.1
    total := BitVec.ofNat 16 c.2
    cyc := cyc
    left := cyc }

/-- `adm_count` on the slot (R123). -/
def AdmSlot.count (d : AdmSlot) (k : Nat) : AdmSlot :=
  let counted := { d with cnt := d.cnt.set k (d.cnt.getD k 0#16 + 1#16), left := d.left - 1#12 }
  if counted.left = 0#12 then counted.update else counted

/-- `adm_reset` on the slot (R98): the initial state of the slot's alphabet size. -/
def AdmSlot.reset (d : AdmSlot) : AdmSlot :=
  let n := d.nsym.toNat
  let base : AdmSlot :=
    { nsym := d.nsym, dist := [], cnt := List.replicate n 1#16, total := 0#16, cyc := BitVec.ofNat 12 n,
      left := 0#12 }
  { base.update with cyc := BitVec.ofNat 12 ((n + 6) >>> 1), left := BitVec.ofNat 12 ((n + 6) >>> 1) }

end Sys2Proof.Machine
end

