-- ==== Sys2Proof/Machine/State.lean ====
section
/-! DEFINITION. The state of the ECU as plain data, the reasons a step can stop, and the state after reset
(spec/10_state.md R20 to R45). -/

namespace Sys2Proof.Machine

/-- `STATUS.MODE` (R25). The value 3 never occurs. -/
inductive Mode where
  /-- no session is open -/
  | idle
  /-- an encode session is open -/
  | enc
  /-- a decode session is open -/
  | dec
deriving DecidableEq, Repr

/-- What the command port reports for a word (spec/70_reset_and_hazards.md R244). -/
inductive Response where
  /-- the command completed -/
  | done
  /-- the command raised a fault -/
  | faulted
  /-- the ECU was already in the fault state -/
  | refused
deriving DecidableEq, Repr

/-- What the host can do to the ECU between commands (R240, R244, R246); reads are functions of the state. -/
inductive HostEvent where
  /-- present a command word on the command port -/
  | issue (cw : Word)
  /-- write a byte of CB through the memory port -/
  | cbWrite (a : Nat) (v : Byte)
  /-- write a record of BM through the memory port -/
  | bmWrite (i : Nat) (v : Word)
  /-- assert reset -/
  | reset
deriving DecidableEq, Repr

/-- The reasons the model stops with a fault. None of them is a fault of the ECU: those are next states
(spec/60_exceptions.md R214, log 4). -/
inductive Fault where
  /-- Raised by an access to CB at an address not below `CB_SIZE` (spec/20_memory.md R50, R60): by the host port when
  it is asked for one, by a command only from a state that no run reaches. Safe. -/
  | cbAddressOutside
  /-- Raised by an access to BM at an index not below `NBLK` (R54, R60): by the host port when it is asked for one, by a
  command only from a state that no run reaches. Safe. -/
  | bmIndexOutside
deriving DecidableEq, Repr

/-- The reasons the model refuses an instruction. -/
inductive Refusal where
  /-- Raised by an arm of exec whose instruction has no meaning yet. Safe. No arm does. -/
  | notModelled (mnemonic : String)
deriving DecidableEq, Repr

/-- The state of the ECU (R20 to R45). -/
structure State where
  /-- the implementation parameters (spec/00_scope.md R7); no step changes them (log 5) -/
  params : Params
  /-- general registers (R20) -/
  x : Vector Word 16
  /-- `CMDCNT` (R23) -/
  cmdcnt : Word
  /-- `STATUS.FAULT` (R24) -/
  fault : Bool
  /-- `STATUS.MODE` (R25) -/
  mode : Mode
  /-- `STATUS.OVERREAD` (R24) -/
  overread : Bool
  /-- `STATUS.FCODE` (R24) -/
  fcode : BitVec 8
  /-- `FCMD` (R35, R37) -/
  fcmd : Word
  /-- `FINFO` (R35, R37) -/
  finfo : Word
  /-- `FSEQ` (R35, R37) -/
  fseq : Word
  /-- `LOW` (R26) -/
  low : Word
  /-- `RANGE` (R26) -/
  range : Word
  /-- `VALUE` (R26) -/
  value : Word
  /-- `PTR` (R27) -/
  ptr : Word
  /-- `WBASE` (R27) -/
  wbase : Word
  /-- `WLEN` (R27) -/
  wlen : Word
  /-- the adaptive bit model bank (R29) -/
  abm : List AbmSlot
  /-- the adaptive data model bank (R32) -/
  adm : List AdmSlot
  /-- `OCCM` (R39) -/
  occm : Word
  /-- `PU0` (R40) -/
  pu0 : Word
  /-- `PV0` (R40) -/
  pv0 : Word
  /-- `PSZU` (R40) -/
  pszu : Word
  /-- `PSZV` (R40) -/
  pszv : Word
  /-- `BTPW` (R40) -/
  btpw : Word
  /-- `BTPH` (R40) -/
  btph : Word
  /-- `PIDX`, bits 31:24 hardwired 0 (R35, R40) -/
  pidx : Word
  /-- `MSEL`, bits 15:9 and 31:24 hardwired 0 (R35, R41) -/
  msel : Word
  /-- the code buffer CB, by byte address (spec/20_memory.md R50) -/
  cb : Memory
  /-- the block map BM, by host byte address (R54, R58, log 15) -/
  bm : Memory
  /-- the model's own: number of resets so far, which selects the free contents of CB and BM (log 6, log 7) -/
  memEpoch : Nat
  /-- the model's own: the host events still to come (log 1) -/
  port : List HostEvent
  /-- the last response on the command port (R244, log 3) -/
  response : Option Response
deriving DecidableEq, Repr

/-- The state right after reset of an implementation (R45, R240), after the given number of earlier resets and with
the host events still to come. -/
def State.resetWith (p : Params) (epoch : Nat) (events : List HostEvent) : State :=
  { params := p
    x := Vector.replicate 16 0#32
    cmdcnt := 0#32
    fault := false
    mode := .idle
    overread := false
    fcode := 0#8
    fcmd := 0#32
    finfo := 0#32
    fseq := 0#32
    low := 0#32
    range := 0#32
    value := 0#32
    ptr := 0#32
    wbase := 0#32
    wlen := 0#32
    abm := List.replicate p.nAbm AbmSlot.fresh
    adm := List.replicate p.nAdm AdmSlot.uninit
    occm := 0#32
    pu0 := 0#32
    pv0 := 0#32
    pszu := 0#32
    pszv := 0#32
    btpw := 0#32
    btph := 0#32
    pidx := 0#32
    msel := 0#32
    cb := []
    bm := []
    memEpoch := epoch
    port := events
    response := none }

/-- The machine right after reset, with the default parameters (spec/00_scope.md R7, log 5) and no host event. -/
def State.reset : State := State.resetWith Params.default 0 []

end Sys2Proof.Machine
end

