-- ==== Sys2Proof/Machine/Flags.lean ====
section
/-! DEFINITION. The `STATUS` register and the fault codes (spec/10_state.md R24, R25; spec/60_exceptions.md R211).
The ECU has no arithmetic condition codes. -/

namespace Sys2Proof.Machine

/-- The two bits of `STATUS.MODE` (R25). -/
def Mode.code (m : Mode) : BitVec 2 :=
  match m with
  | .idle => 0#2
  | .enc => 1#2
  | .dec => 2#2

/-- The faults of the ECU (R211). -/
inductive FaultKind where
  | illegalCommand
  | sessionState
  | windowRange
  | codeBufferOverflow
  | streamOverrun
  | operandRange
  | model
  | corruptBitstream
  | mapRange
  | memRange
  | csrAccess
deriving DecidableEq, Repr

/-- `code(F)`, the value placed in `STATUS.FCODE` (R211). -/
def FaultKind.code (f : FaultKind) : BitVec 8 :=
  match f with
  | .illegalCommand => 1#8
  | .sessionState => 2#8
  | .windowRange => 3#8
  | .codeBufferOverflow => 4#8
  | .streamOverrun => 5#8
  | .operandRange => 6#8
  | .model => 7#8
  | .corruptBitstream => 8#8
  | .mapRange => 9#8
  | .memRange => 10#8
  | .csrAccess => 11#8

/-- The `STATUS` register: `FCODE` in 15:8, `OVERREAD` in 3, `MODE` in 2:1, `FAULT` in 0, the rest zero (R24). -/
def State.statusWord (s : State) : Word :=
  (0#16) ++ s.fcode ++ (0#4) ++ BitVec.ofBool s.overread ++ s.mode.code ++ BitVec.ofBool s.fault

/-- The level output `fault` of the command port (spec/70_reset_and_hazards.md R244). -/
def State.faultOutput (s : State) : Bool := s.fault

end Sys2Proof.Machine
end

