-- ==== Sys2Proof/Machine/Ops.lean ====
section
/-! DEFINITION. The shared operations: the pseudocode monad, memory and register access, the checks, `raise`, the
fault entry and the common frame of every command (spec/00_scope.md R14; spec/40_session_and_models.md R89;
spec/60_exceptions.md R213 to R217; spec/70_reset_and_hazards.md R240). -/

namespace Sys2Proof.Machine

/-- Why a command's pseudocode is abandoned. -/
inductive Stop where
  /-- `raise F(info)` (R14, R214). -/
  | raise (f : FaultKind) (info : Word)
  /-- The model's own stop: an access outside a memory, which no command makes from a state a run reaches (log 13). -/
  | outside (r : Fault)
deriving DecidableEq, Repr

/-- A piece of pseudocode: from a state to a result and the state it left, also where it was abandoned, since the
effects before a `raise` stay (R215). -/
abbrev Cmd (α : Type) := EStateM Stop State α

/-! ### Raising -/

/-- `raise F(info)` (R14). -/
def raise {α : Type} (f : FaultKind) (info : Word) : Cmd α := throw (Stop.raise f info)

/-- A check of a command rule: raise unless the condition holds (R89, R213). -/
def check (c : Prop) [Decidable c] (f : FaultKind) (info : Word) : Cmd Unit :=
  if c then pure () else raise f info

/-- Run a piece of pseudocode only if a condition holds. -/
def onlyIf (c : Bool) (act : Cmd Unit) : Cmd Unit := if c then act else pure ()

/-- `for i = first to first + count - 1` (R14): zero times when `count` is 0. -/
def forUp (first count : Nat) (body : Nat → Cmd Unit) : Cmd Unit :=
  match count with
  | 0 => pure ()
  | k + 1 => do
    body first
    forUp (first + 1) k body

/-! ### General registers (R20, R21) -/

/-- `x[r]`. No register is hardwired (R21). -/
def State.reg (s : State) (r : Reg) : Word := s.x[r.toNat]'r.isLt

/-- `x[r] <- v`. -/
def State.setReg (s : State) (r : Reg) (v : Word) : State := { s with x := s.x.set r.toNat v r.isLt }

/-- `x[r]` in pseudocode. -/
def readReg (r : Reg) : Cmd Word := do
  let s ← get
  pure (s.reg r)

/-- `x[r] <- v` in pseudocode. -/
def writeReg (r : Reg) (v : Word) : Cmd Unit := modify (fun s => s.setReg r v)

/-! ### The code buffer CB (spec/20_memory.md R50, R60) -/

/-- The byte of CB at an address: the last one written, or the free value of a byte nothing has written since reset
(log 6). -/
def State.cbByte (s : State) (a : Nat) : Byte := (s.cb.read? a).getD (Config.cbUnwritten s.memEpoch a)

/-- CB with a byte stored. -/
def State.setCbByte (s : State) (a : Nat) (v : Byte) : State := { s with cb := s.cb.write a v }

/-- `MemRead(a, 1)`. -/
def memRead (a : Nat) : Cmd Byte := do
  let s ← get
  if a < s.params.cbSize then pure (s.cbByte a) else throw (Stop.outside .cbAddressOutside)

/-- `MemWrite(a, 1, v)`. -/
def memWrite (a : Nat) (v : Byte) : Cmd Unit := do
  let s ← get
  if a < s.params.cbSize then set (s.setCbByte a v) else throw (Stop.outside .cbAddressOutside)

/-! ### The block map BM (R54, R58) -/

/-- The byte of BM at a host byte address (R58), or the free value of one nothing has written since reset (log 6). -/
def State.bmByte (s : State) (a : Nat) : Byte := (s.bm.read? a).getD (Config.bmUnwritten s.memEpoch a)

/-- `BM[i]`: record `i` is the four bytes at `4*i`, the least significant first (R58). -/
def State.bmRecord (s : State) (i : Nat) : Word :=
  s.bmByte (4 * i + 3) ++ s.bmByte (4 * i + 2) ++ s.bmByte (4 * i + 1) ++ s.bmByte (4 * i)

/-- BM with record `i` stored, always whole (R54), the least significant byte lowest (R58). -/
def State.setBmRecord (s : State) (i : Nat) (v : Word) : State :=
  { s with
    bm := (((s.bm.write (4 * i) (v.extractLsb' 0 8)).write (4 * i + 1) (v.extractLsb' 8 8)).write (4 * i + 2)
      (v.extractLsb' 16 8)).write (4 * i + 3) (v.extractLsb' 24 8) }

/-- `MapRead(i)`. -/
def mapRead (i : Nat) : Cmd Word := do
  let s ← get
  if i < s.params.nblk then pure (s.bmRecord i) else throw (Stop.outside .bmIndexOutside)

/-- `MapWrite(i, v)`. -/
def mapWrite (i : Nat) (v : Word) : Cmd Unit := do
  let s ← get
  if i < s.params.nblk then set (s.setBmRecord i v) else throw (Stop.outside .bmIndexOutside)

/-! ### Model slots (spec/10_state.md R29, R32) -/

/-- `ABM[m]`. A command reads a slot only after checking its index; beyond the bank the initial slot is read (log 20). -/
def State.abmSlot (s : State) (m : Nat) : AbmSlot := s.abm.getD m AbmSlot.fresh

/-- `ABM[m] <- a`. -/
def State.setAbm (s : State) (m : Nat) (a : AbmSlot) : State := { s with abm := s.abm.set m a }

/-- `ADM[j]`. Beyond the bank the uninitialised slot is read (log 20). -/
def State.admSlot (s : State) (j : Nat) : AdmSlot := s.adm.getD j AdmSlot.uninit

/-- `ADM[j] <- d`. -/
def State.setAdm (s : State) (j : Nat) (d : AdmSlot) : State := { s with adm := s.adm.set j d }

/-! ### The checks several commands share (spec/60_exceptions.md R213, R219, R221) -/

/-- `MODE == need`, else `SESSION_STATE(MODE)` (R219). -/
def needMode (need : Mode) : Cmd Unit := do
  let s ← get
  check (s.mode = need) .sessionState (s.mode.code.setWidth 32)

/-- `m < N_ABM`, else `MODEL(m)` (R221). -/
def needAbm (m : Slot) : Cmd Unit := do
  let s ← get
  check (m.toNat < s.params.nAbm) .model (m.setWidth 32)

/-- `m < N_ADM`, else `MODEL(m)` (R221). -/
def needAdm (m : Slot) : Cmd Unit := do
  let s ← get
  check (m.toNat < s.params.nAdm) .model (m.setWidth 32)

/-- `m < N_ADM` and `ADM[m].nsym != 0`, else `MODEL(m)` (R221). -/
def needAdmInit (m : Slot) : Cmd Unit := do
  let s ← get
  check (m.toNat < s.params.nAdm ∧ (s.admSlot m.toNat).nsym ≠ 0#8) .model (m.setWidth 32)

/-- `x[ra] <= 1`, else `OPERAND_RANGE(x[ra])` (spec/41_bit_and_symbol_coding.md R126, R127). -/
def needBit (ra : Reg) : Cmd Unit := do
  let s ← get
  check (s.reg ra ≤ 1#32) .operandRange (s.reg ra)

/-! ### Taking a fault, refusing, completing -/

/-- Fault entry (R214): the fault record is written and the fault state entered; nothing else is. `cw` is the word
being executed. The port reports `faulted` (R244). There is no return from a fault but reset (R217). -/
def State.faultEntry (s : State) (f : FaultKind) (info : Word) (cw : Word) : State :=
  { s with
    fault := true
    fcode := f.code
    fcmd := cw
    finfo := info
    fseq := s.cmdcnt
    response := some .faulted }

/-- Refusal in the fault state (R216): no state changes, the port reports `refused`. -/
def State.refuse (s : State) : State := { s with response := some .refused }

/-- Completion (R23, R89): `CMDCNT <- CMDCNT + 1` as the last action, the port reports `done` (R244). -/
def State.complete (s : State) : State :=
  { s with cmdcnt := s.cmdcnt + 1#32, response := some .done }

/-- What the ECU answers after a command's pseudocode: completion, fault entry, or the model's own stop. -/
def conclude (cw : Word) (r : EStateM.Result Stop State Unit) : Host.Outcome State Fault Refusal :=
  match r with
  | .ok _ s => .next s.complete
  | .error (.raise f info) s => .next (s.faultEntry f info cw)
  | .error (.outside r) _ => .fault r

/-- The common frame of every command (R89): refused in the fault state, else the command's checks and pseudocode, then
completion or the fault entry. The word recorded by a fault is the instruction's own (log 16). -/
def command (i : Instr) (body : Cmd Unit) (s : State) : Host.Outcome State Fault Refusal :=
  if s.fault then .next s.refuse else conclude (encode i) (body s)

/-- Reset (R45, R240): every register and CSR at its reset value, CB and BM unspecified (log 7). -/
def State.applyReset (s : State) : State := State.resetWith s.params (s.memEpoch + 1) s.port

end Sys2Proof.Machine
end

