-- ==== Sys2Proof/Machine/Coder.lean ====
section
/-! DEFINITION. The interval procedures of the arithmetic coder and the adaptation of the models
(spec/41_bit_and_symbol_coding.md R110 to R124). -/

namespace Sys2Proof.Machine

/-! ### Bytes of the window -/

/-- CB address of a window offset. -/
def State.windowAddr (s : State) (offset : Word) : Nat := (s.wbase + offset).toNat

/-- `PTR <- PTR + 1`. -/
def advancePtr : Cmd Unit := modify (fun s => { s with ptr := s.ptr + 1#32 })

/-- `put_byte(b)` (R111). -/
def putByte (b : Byte) : Cmd Unit := do
  let s ← get
  check (s.ptr < s.wlen) .codeBufferOverflow s.ptr
  memWrite (s.windowAddr s.ptr) b
  advancePtr

/-- The loop of `propagate_carry` (R112) at offset `n - 1`; `n = 0` is the offset below the window, where the model
takes the total definition R112 allows (log 11). -/
def carryFrom (n : Nat) : Cmd Unit :=
  match n with
  | 0 => raise .codeBufferOverflow 0#32
  | i + 1 => do
    let s ← get
    let a := s.windowAddr (BitVec.ofNat 32 i)
    let b ← memRead a
    if b = 0xFF#8 then do
      memWrite a 0x00#8
      carryFrom i
    else memWrite a (b + 1#8)

/-- `propagate_carry()` (R112): add 1 to the number formed by the bytes already written. -/
def propagateCarry : Cmd Unit := do
  let s ← get
  carryFrom s.ptr.toNat

/-- `STATUS.OVERREAD <- 1`. -/
def setOverread : Cmd Unit := modify (fun s => { s with overread := true })

/-- `get_byte()` (R113). -/
def getByte : Cmd Byte := do
  let s ← get
  if s.ptr < s.wlen then do
    let b ← memRead (s.windowAddr s.ptr)
    advancePtr
    pure b
  else if s.ptr.toNat < s.wlen.toNat + 3 then do
    setOverread
    advancePtr
    pure 0x00#8
  else raise .streamOverrun s.ptr

/-! ### Renormalisation -/

/-- `LOW <- LOW << 8; RANGE <- RANGE << 8` (R114). -/
def shiftEnc : Cmd Unit := modify (fun s => { s with low := s.low <<< 8, range := s.range <<< 8 })

/-- The loop of `renorm_enc` (R114). Every turn writes a byte or raises, so `fuel` more than the bytes left in the
window is never used up (log 12). -/
def renormEncLoop (fuel : Nat) : Cmd Unit :=
  match fuel with
  | 0 => pure ()
  | k + 1 => do
    let s ← get
    putByte (s.low.extractLsb' 24 8)
    shiftEnc
    let t ← get
    if minRange ≤ t.range then pure () else renormEncLoop k

/-- `renorm_enc()` (R114). -/
def renormEnc : Cmd Unit := do
  let s ← get
  renormEncLoop (s.wlen.toNat - s.ptr.toNat + 1)

/-- `VALUE <- (VALUE << 8) | b` (R115). -/
def appendByte (b : Byte) : Cmd Unit := modify (fun s => { s with value := (s.value <<< 8) ||| b.setWidth 32 })

/-- `RANGE <- RANGE << 8` (R115). -/
def shiftDec : Cmd Unit := modify (fun s => { s with range := s.range <<< 8 })

/-- The loop of `renorm_dec` (R115). Every turn fetches a byte or raises, so the fuel is never used up (log 12). -/
def renormDecLoop (fuel : Nat) : Cmd Unit :=
  match fuel with
  | 0 => pure ()
  | k + 1 => do
    let b ← getByte
    appendByte b
    shiftDec
    let t ← get
    if minRange ≤ t.range then pure () else renormDecLoop k

/-- `renorm_dec()` (R115). -/
def renormDec : Cmd Unit := do
  let s ← get
  renormDecLoop (s.wlen.toNat + 3 - s.ptr.toNat + 1)

/-- `if RANGE < 0x01000000: renorm_enc()` (R116, R120). -/
def renormEncIfSmall : Cmd Unit := do
  let s ← get
  if s.range < minRange then renormEnc else pure ()

/-- `if RANGE < 0x01000000: renorm_dec()` (R117, R121). -/
def renormDecIfSmall : Cmd Unit := do
  let s ← get
  if s.range < minRange then renormDec else pure ()

/-- `LOW <- LOW + x; RANGE <- r`, and the carry out of `LOW` into the bytes already written (R116, R120,
spec/40_session_and_models.md R94). -/
def addLow (x r : Word) : Cmd Unit := do
  let s ← get
  set { s with low := s.low + x, range := r }
  if s.low + x < s.low then propagateCarry else pure ()

/-! ### Binary decisions -/

/-- `p0 * (RANGE >> 13)`, the part of the interval that stands for a 0 bit (R116, R117). -/
def zeroPart (p0 : BitVec 13) (range : Word) : Word := p0.setWidth 32 * (range >>> 13)

/-- The split of `enc_bit` (R116). -/
def encSplit (bit : Bool) (p0 : BitVec 13) : Cmd Unit := do
  let s ← get
  let x := zeroPart p0 s.range
  if bit then addLow x (s.range - x) else set { s with range := x }

/-- `enc_bit(bit, p0)` (R116). -/
def encBit (bit : Bool) (p0 : BitVec 13) : Cmd Unit := do
  encSplit bit p0
  renormEncIfSmall

/-- `dec_bit(p0)` (R117). -/
def decBit (p0 : BitVec 13) : Cmd Bool := do
  let s ← get
  let x := zeroPart p0 s.range
  if x ≤ s.value then do
    set { s with value := s.value - x, range := s.range - x }
    renormDecIfSmall
    pure true
  else do
    set { s with range := x }
    renormDecIfSmall
    pure false

/-- `abm_count(m, bit)` (R118). -/
def abmCount (m : Nat) (bit : Bool) : Cmd Unit := modify (fun s => s.setAbm m ((s.abmSlot m).count bit))

/-- `enc_bit(bit, ABM[m].p0); abm_count(m, bit)` (R126, R144, R174). -/
def encBitA (m : Nat) (bit : Bool) : Cmd Unit := do
  let s ← get
  encBit bit (s.abmSlot m).p0
  abmCount m bit

/-- `bit <- dec_bit(ABM[m].p0); abm_count(m, bit)` (R128, R144, R174). -/
def decBitA (m : Nat) : Cmd Bool := do
  let s ← get
  let bit ← decBit (s.abmSlot m).p0
  abmCount m bit
  pure bit

/-! ### Symbols -/

/-- `adm_count(j, s)` (R123). -/
def admCount (j k : Nat) : Cmd Unit := modify (fun s => s.setAdm j ((s.admSlot j).count k))

/-- The width of the part of symbol `k`: up to `RANGE` for the last symbol (R120, R121). -/
def symWidth (d : AdmSlot) (k : Nat) (range : Word) : Word :=
  let l := range >>> 15
  let x := d.distAt k * l
  if k + 1 = d.nsym.toNat then range - x else d.distAt (k + 1) * l - x

/-- `enc_sym(k, j)` (R120). -/
def encSym (k j : Nat) : Cmd Unit := do
  let s ← get
  let d := s.admSlot j
  addLow (d.distAt k * (s.range >>> 15)) (symWidth d k s.range)
  renormEncIfSmall
  admCount j k

/-- The largest `k` with `D[k] * l <= v` (R121), scanning the entries from `k` on; `best` is the largest found so far. -/
def scanSym (l v : Word) (entries : List (BitVec 15)) (k best : Nat) : Nat :=
  match entries with
  | [] => best
  | d :: rest => scanSym l v rest (k + 1) (if d.setWidth 32 * l ≤ v then k else best)

/-- `dec_sym(j)` (R121). -/
def decSym (j : Nat) : Cmd Nat := do
  let s ← get
  let d := s.admSlot j
  let l := s.range >>> 15
  let k := scanSym l s.value d.dist 0 0
  set { s with value := s.value - d.distAt k * l, range := symWidth d k s.range }
  renormDecIfSmall
  admCount j k
  pure k

/-! ### Runs of static decisions -/

/-- `for i = lo to lo + count - 1: enc_bit(v[i], 4096)` (spec/43_fixed_width.md R161). -/
def encBitsUp (v : Nat) (lo count : Nat) : Cmd Unit := forUp lo count (fun i => encBit (v.testBit i) pHalf)

/-- `for i = count-1 downto 0: enc_bit(v[i], 4096)` (spec/42_expgolomb_delta.md R144). -/
def encBitsDown (v : Nat) (count : Nat) : Cmd Unit :=
  match count with
  | 0 => pure ()
  | i + 1 => do
    encBit (v.testBit i) pHalf
    encBitsDown v i

/-- `for i = lo to lo + count - 1: w[i] <- dec_bit(4096)`, from a `w` with those bits 0 (spec/43_fixed_width.md R162). -/
def decBitsUp (lo count w : Nat) : Cmd Nat :=
  match count with
  | 0 => pure w
  | k + 1 => do
    let b ← decBit pHalf
    decBitsUp (lo + 1) k (if b then w + 2 ^ lo else w)

/-- `for i = count-1 downto 0: r[i] <- dec_bit(4096)`, from an `r` with those bits 0 (R144). -/
def decBitsDown (count r : Nat) : Cmd Nat :=
  match count with
  | 0 => pure r
  | i + 1 => do
    let b ← decBit pHalf
    decBitsDown i (if b then r + 2 ^ i else r)

end Sys2Proof.Machine
end

