-- ==== Sys2Proof/Machine/Operands.lean ====
section
/-! DEFINITION. Operand forms: immediates (spec/30_encoding.md R73), the fields of `OCCM` (spec/10_state.md R39) and of
a block record (spec/44_occupancy.md R170). -/

namespace Sys2Proof.Machine

/-- `zext_16(imm16)` (R73, spec/45_host_support.md R191). -/
def zextImm (imm : BitVec 16) : Word := imm.setWidth 32

/-- `{imm16, v[15:0]}` (R192). -/
def upperImm (imm : BitVec 16) (v : Word) : Word := imm ++ v.extractLsb' 0 16

/-- `zext_8(b)` (R195). -/
def zextByte (b : Byte) : Word := b.setWidth 32

/-- `v[7:0]` (R196). -/
def lowByte (v : Word) : Byte := v.extractLsb' 0 8

/-! ### Fields of `OCCM` (R39) -/

/-- `M_OCC`, bits 7:0. -/
def occmOcc (v : Word) : BitVec 8 := v.extractLsb' 0 8

/-- `M_INT`, bits 15:8. -/
def occmInt (v : Word) : BitVec 8 := v.extractLsb' 8 8

/-- `M_FIL`, bits 23:16. -/
def occmFil (v : Word) : BitVec 8 := v.extractLsb' 16 8

/-- `D_NEI`, bits 27:24. -/
def occmNei (v : Word) : BitVec 4 := v.extractLsb' 24 4

/-- `D_MIN`, bits 31:28. -/
def occmMin (v : Word) : BitVec 4 := v.extractLsb' 28 4

/-! ### Fields of a block record (R170) -/

/-- `occ`, bit 0. -/
def recOcc (r : Word) : Bool := r.getLsbD 0

/-- `interp`, bit 1. -/
def recInterp (r : Word) : Bool := r.getLsbD 1

/-- `neigh`, bits 3:2. -/
def recNeigh (r : Word) : BitVec 2 := r.extractLsb' 2 2

/-- `mind1`, bits 5:4. -/
def recMind1 (r : Word) : BitVec 2 := r.extractLsb' 4 2

/-- `fill`, bit 6. -/
def recFill (r : Word) : Bool := r.getLsbD 6

/-- `owner`, bits 31:8. -/
def recOwner (r : Word) : BitVec 24 := r.extractLsb' 8 24

/-- A word with the field of width `w` at bit `lo` replaced. -/
def setField {w : Nat} (r : Word) (lo : Nat) (v : BitVec w) : Word :=
  (r &&& ~~~((BitVec.allOnes w).setWidth 32 <<< lo)) ||| (v.setWidth 32 <<< lo)

/-- `rec.occ <- 1`. -/
def setOcc (r : Word) : Word := setField r 0 1#1

/-- `rec.interp <- b`. -/
def setInterp (r : Word) (b : Bool) : Word := setField r 1 (BitVec.ofBool b)

/-- `rec.neigh <- v`. -/
def setNeigh (r : Word) (v : BitVec 2) : Word := setField r 2 v

/-- `rec.mind1 <- v`. -/
def setMind1 (r : Word) (v : BitVec 2) : Word := setField r 4 v

/-- `rec.fill <- b`. -/
def setFill (r : Word) (b : Bool) : Word := setField r 6 (BitVec.ofBool b)

/-- `rec.owner <- v`. -/
def setOwner (r : Word) (v : BitVec 24) : Word := setField r 8 v

/-- A canonical record (R170). -/
def recCanonical (r : Word) : Bool :=
  if recOcc r then
    decide (recMind1 r ≤ 2#2) && (if recInterp r then decide (recNeigh r ≠ 0#2) else decide (recNeigh r = 0#2)) &&
      (!recFill r || decide (recMind1 r = 2#2) || recInterp r) && !r.getLsbD 7
  else decide (r = 0#32)

end Sys2Proof.Machine
end

