-- ==== Sys2Proof/Machine/BitSym.lean ====
section
/-! DEFINITION. The bit and symbol commands (spec/41_bit_and_symbol_coding.md R126 to R131). -/

namespace Sys2Proof.Machine

/-- The pseudocode of `ENC_BIT_A` (R126). -/
def encBitABody (ra : Reg) (m : Slot) : Cmd Unit := do
  needMode .enc
  needAbm m
  needBit ra
  let s ← get
  encBitA m.toNat (s.reg ra == 1#32)

/-- `ENC_BIT_A` (R126). -/
def execEncBitA (ra : Reg) (m : Slot) (s : State) : Host.Outcome State Fault Refusal :=
  command (.encBitA ra m) (encBitABody ra m) s

/-- The pseudocode of `ENC_BIT_S` (R127). -/
def encBitSBody (ra : Reg) : Cmd Unit := do
  needMode .enc
  needBit ra
  let s ← get
  encBit (s.reg ra == 1#32) pHalf

/-- `ENC_BIT_S` (R127). -/
def execEncBitS (ra : Reg) (s : State) : Host.Outcome State Fault Refusal :=
  command (.encBitS ra) (encBitSBody ra) s

/-- A decoded bit as a register value, zero-extended (R128). -/
def bitWord (b : Bool) : Word := (BitVec.ofBool b).setWidth 32

/-- The pseudocode of `DEC_BIT_A` (R128). -/
def decBitABody (ra : Reg) (m : Slot) : Cmd Unit := do
  needMode .dec
  needAbm m
  let b ← decBitA m.toNat
  writeReg ra (bitWord b)

/-- `DEC_BIT_A` (R128). -/
def execDecBitA (ra : Reg) (m : Slot) (s : State) : Host.Outcome State Fault Refusal :=
  command (.decBitA ra m) (decBitABody ra m) s

/-- The pseudocode of `DEC_BIT_S` (R129). -/
def decBitSBody (ra : Reg) : Cmd Unit := do
  needMode .dec
  let b ← decBit pHalf
  writeReg ra (bitWord b)

/-- `DEC_BIT_S` (R129). -/
def execDecBitS (ra : Reg) (s : State) : Host.Outcome State Fault Refusal :=
  command (.decBitS ra) (decBitSBody ra) s

/-- `x[ra] < ADM[m].nsym`, else `OPERAND_RANGE(x[ra])` (R130). -/
def needSymbol (ra : Reg) (m : Slot) : Cmd Unit := do
  let s ← get
  check ((s.reg ra).toNat < (s.admSlot m.toNat).nsym.toNat) .operandRange (s.reg ra)

/-- The pseudocode of `ENC_SYM` (R130). -/
def encSymBody (ra : Reg) (m : Slot) : Cmd Unit := do
  needMode .enc
  needAdmInit m
  needSymbol ra m
  let s ← get
  encSym (s.reg ra).toNat m.toNat

/-- `ENC_SYM` (R130). -/
def execEncSym (ra : Reg) (m : Slot) (s : State) : Host.Outcome State Fault Refusal :=
  command (.encSym ra m) (encSymBody ra m) s

/-- The pseudocode of `DEC_SYM` (R131). -/
def decSymBody (ra : Reg) (m : Slot) : Cmd Unit := do
  needMode .dec
  needAdmInit m
  let k ← decSym m.toNat
  writeReg ra (BitVec.ofNat 32 k)

/-- `DEC_SYM` (R131). -/
def execDecSym (ra : Reg) (m : Slot) (s : State) : Host.Outcome State Fault Refusal :=
  command (.decSym ra m) (decSymBody ra m) s

end Sys2Proof.Machine
end

