-- ==== Sys2Proof/Machine/ExpGolomb.lean ====
section
/-! DEFINITION. The Exp-Golomb signed-residual delta codec (spec/42_expgolomb_delta.md R141 to R149). -/

namespace Sys2Proof.Machine

/-- The zig-zag map on 32 bits (R141, R142). -/
def zigzag (v : Word) : Word := if v.getLsbD 31 then (~~~v <<< 1) ||| 1#32 else v <<< 1

/-- The inverse zig-zag map on 32 bits (R141, R143). -/
def unzigzag (u : Word) : Word := if u.getLsbD 0 then ~~~(u >>> 1) else u >>> 1

/-- The pseudocode of `ZZENC` (R142). -/
def zzencBody (ra rb : Reg) : Cmd Unit := do
  let v ← readReg rb
  writeReg ra (zigzag v)

/-- `ZZENC` (R142). -/
def execZzenc (ra rb : Reg) (s : State) : Host.Outcome State Fault Refusal :=
  command (.zzenc ra rb) (zzencBody ra rb) s

/-- The pseudocode of `ZZDEC` (R143). -/
def zzdecBody (ra rb : Reg) : Cmd Unit := do
  let u ← readReg rb
  writeReg ra (unzigzag u)

/-- `ZZDEC` (R143). -/
def execZzdec (ra rb : Reg) (s : State) : Host.Outcome State Fault Refusal :=
  command (.zzdec ra rb) (zzdecBody ra rb) s

/-- `n = floor(log2 (u + 1))`, the number of ones of the length part (R144). -/
def egOnes (u : Word) : Nat := Nat.log2 (u.toNat + 1)

/-- `r = u + 1 - 2^n`, the value part (R144). -/
def egRest (u : Word) : Nat := u.toNat + 1 - 2 ^ egOnes u

/-- `enc_eg0(u, m)` (R144): `n` ones and the closing zero with `ABM[m]`, then `r` with the static model, most significant
bit first. -/
def encEg0 (u : Word) (m : Nat) : Cmd Unit := do
  forUp 0 (egOnes u) (fun _ => encBitA m true)
  encBitA m false
  encBitsDown (egRest u) (egOnes u)

/-- The length part of `dec_eg0` (R144) with `more` ones still admitted: the number of ones before the closing zero, of
which `n` are already read. One more than 32 of them raises `CORRUPT_BITSTREAM` (R145). -/
def decOnes (m more n : Nat) : Cmd Nat := do
  let b ← decBitA m
  if b then
    match more with
    | 0 => raise .corruptBitstream (BitVec.ofNat 32 (n + 1))
    | k + 1 => decOnes m k (n + 1)
  else pure n

/-- `dec_eg0(m)` (R144, R145). -/
def decEg0 (m : Nat) : Cmd Word := do
  let n ← decOnes m 32 0
  let r ← decBitsDown n 0
  check (¬ (n = 32 ∧ r ≠ 0)) .corruptBitstream 32#32
  pure (BitVec.ofNat 32 (2 ^ n + r - 1))

/-- The pseudocode of `ENC_EG0` (R146). -/
def encEg0Body (ra : Reg) (m : Slot) : Cmd Unit := do
  needMode .enc
  needAbm m
  let s ← get
  encEg0 (s.reg ra) m.toNat

/-- `ENC_EG0` (R146). -/
def execEncEg0 (ra : Reg) (m : Slot) (s : State) : Host.Outcome State Fault Refusal :=
  command (.encEg0 ra m) (encEg0Body ra m) s

/-- The pseudocode of `DEC_EG0` (R147). -/
def decEg0Body (ra : Reg) (m : Slot) : Cmd Unit := do
  needMode .dec
  needAbm m
  let u ← decEg0 m.toNat
  writeReg ra u

/-- `DEC_EG0` (R147). -/
def execDecEg0 (ra : Reg) (m : Slot) (s : State) : Host.Outcome State Fault Refusal :=
  command (.decEg0 ra m) (decEg0Body ra m) s

/-- The pseudocode of `ENC_SDELTA` (R148). -/
def encSdeltaBody (ra : Reg) (m : Slot) : Cmd Unit := do
  needMode .enc
  needAbm m
  let s ← get
  encEg0 (zigzag (s.reg ra)) m.toNat

/-- `ENC_SDELTA` (R148). -/
def execEncSdelta (ra : Reg) (m : Slot) (s : State) : Host.Outcome State Fault Refusal :=
  command (.encSdelta ra m) (encSdeltaBody ra m) s

/-- The pseudocode of `DEC_SDELTA` (R149). -/
def decSdeltaBody (ra : Reg) (m : Slot) : Cmd Unit := do
  needMode .dec
  needAbm m
  let u ← decEg0 m.toNat
  writeReg ra (unzigzag u)

/-- `DEC_SDELTA` (R149). -/
def execDecSdelta (ra : Reg) (m : Slot) (s : State) : Host.Outcome State Fault Refusal :=
  command (.decSdelta ra m) (decSdeltaBody ra m) s

end Sys2Proof.Machine
end

