-- ==== Sys2Proof/Machine/FixedWidth.lean ====
section
/-! DEFINITION. The fixed-width commands (spec/43_fixed_width.md R160 to R162). -/

namespace Sys2Proof.Machine

/-- `f <= 32`, else `ILLEGAL_COMMAND(0)` (R161, R162). A decoded word always passes (spec/30_encoding.md R75); the
test makes the meaning right on an ill-formed term too (log 21). -/
def needCount (f : BitVec 8) : Cmd Unit := check (f.toNat ≤ 32) .illegalCommand 0#32

/-- `if f < 32, x[ra] < 2^f`, else `OPERAND_RANGE(x[ra])` (R161). -/
def needFits (ra : Reg) (f : BitVec 8) : Cmd Unit := do
  let s ← get
  check (f.toNat < 32 → (s.reg ra).toNat < 2 ^ f.toNat) .operandRange (s.reg ra)

/-- The pseudocode of `ENC_UINT` (R161), least significant bit first. -/
def encUintBody (ra : Reg) (f : BitVec 8) : Cmd Unit := do
  needCount f
  needMode .enc
  needFits ra f
  let s ← get
  encBitsUp (s.reg ra).toNat 0 f.toNat

/-- `ENC_UINT` (R161). -/
def execEncUint (ra : Reg) (f : BitVec 8) (s : State) : Host.Outcome State Fault Refusal :=
  command (.encUint ra f) (encUintBody ra f) s

/-- The pseudocode of `DEC_UINT` (R162). -/
def decUintBody (ra : Reg) (f : BitVec 8) : Cmd Unit := do
  needCount f
  needMode .dec
  let w ← decBitsUp 0 f.toNat 0
  writeReg ra (BitVec.ofNat 32 w)

/-- `DEC_UINT` (R162). -/
def execDecUint (ra : Reg) (f : BitVec 8) (s : State) : Host.Outcome State Fault Refusal :=
  command (.decUint ra f) (decUintBody ra f) s

end Sys2Proof.Machine
end

