-- ==== Sys2Proof/Machine/Csr.lean ====
section
/-! DEFINITION. The control and status registers (spec/10_state.md R35 to R41). -/

namespace Sys2Proof.Machine

/-- The implemented CSRs (R35). -/
inductive Csr where
  | status | fcmd | finfo | fseq | cmdcnt
  | acLow | acRange | acValue | acPtr | wbase | wlen
  | occm | pu0 | pv0 | pszu | pszv | btpw | btph | pidx
  | cfgNabm | cfgNadm | cfgMaxsym | cfgCbsize | cfgNblk | version
  | msel | mvP0 | mvC0 | mvCn | mvCyc | mvLeft | mvNsym
deriving DecidableEq, Repr

/-- The CSR of a number, none where the number is unimplemented (R35). -/
def Csr.ofNumber (n : BitVec 8) : Option Csr :=
  match n.toNat with
  | 0x00 => some .status
  | 0x01 => some .fcmd
  | 0x02 => some .finfo
  | 0x03 => some .fseq
  | 0x04 => some .cmdcnt
  | 0x08 => some .acLow
  | 0x09 => some .acRange
  | 0x0A => some .acValue
  | 0x0B => some .acPtr
  | 0x0C => some .wbase
  | 0x0D => some .wlen
  | 0x10 => some .occm
  | 0x11 => some .pu0
  | 0x12 => some .pv0
  | 0x13 => some .pszu
  | 0x14 => some .pszv
  | 0x15 => some .btpw
  | 0x16 => some .btph
  | 0x17 => some .pidx
  | 0x20 => some .cfgNabm
  | 0x21 => some .cfgNadm
  | 0x22 => some .cfgMaxsym
  | 0x23 => some .cfgCbsize
  | 0x24 => some .cfgNblk
  | 0x25 => some .version
  | 0x30 => some .msel
  | 0x31 => some .mvP0
  | 0x32 => some .mvC0
  | 0x33 => some .mvCn
  | 0x34 => some .mvCyc
  | 0x35 => some .mvLeft
  | 0x36 => some .mvNsym
  | _ => none

/-- The six values of the model view (R41). -/
structure ModelView where
  /-- `MV_P0` -/
  p0 : Word
  /-- `MV_C0` -/
  c0 : Word
  /-- `MV_CN` -/
  cn : Word
  /-- `MV_CYC` -/
  cyc : Word
  /-- `MV_LEFT` -/
  left : Word
  /-- `MV_NSYM` -/
  nsym : Word
deriving DecidableEq, Repr

/-- The view that shows nothing (R41). -/
def ModelView.zero : ModelView := { p0 := 0#32, c0 := 0#32, cn := 0#32, cyc := 0#32, left := 0#32, nsym := 0#32 }

/-- The view of a bit model slot (R41). -/
def ModelView.ofAbm (a : AbmSlot) : ModelView :=
  { p0 := a.p0.setWidth 32, c0 := a.c0.setWidth 32, cn := a.cn.setWidth 32, cyc := a.cyc.setWidth 32,
    left := a.left.setWidth 32, nsym := 0#32 }

/-- The view of symbol `k` of an initialised data model slot (R41). -/
def ModelView.ofAdm (d : AdmSlot) (k : Nat) : ModelView :=
  { p0 := if k < d.nsym.toNat then d.distAt k else 0#32
    c0 := if k < d.nsym.toNat then d.cntAt k else 0#32
    cn := d.total.setWidth 32, cyc := d.cyc.setWidth 32, left := d.left.setWidth 32, nsym := d.nsym.setWidth 32 }

/-- The model view that `MSEL` selects: `IDX` in bits 7:0, `BANK` in bit 8, `K` in bits 23:16 (R41). -/
def State.modelView (s : State) : ModelView :=
  let idx := (s.msel.extractLsb' 0 8).toNat
  let k := (s.msel.extractLsb' 16 8).toNat
  if s.msel.getLsbD 8 then
    if idx < s.params.nAdm ∧ (s.admSlot idx).nsym ≠ 0#8 then ModelView.ofAdm (s.admSlot idx) k else ModelView.zero
  else if idx < s.params.nAbm then ModelView.ofAbm (s.abmSlot idx)
  else ModelView.zero

/-- `CSR[n]` (R35, R38, R41). Reading changes nothing. -/
def State.csrRead (s : State) (c : Csr) : Word :=
  match c with
  | .status => s.statusWord
  | .fcmd => s.fcmd
  | .finfo => s.finfo
  | .fseq => s.fseq
  | .cmdcnt => s.cmdcnt
  | .acLow => s.low
  | .acRange => s.range
  | .acValue => s.value
  | .acPtr => s.ptr
  | .wbase => s.wbase
  | .wlen => s.wlen
  | .occm => s.occm
  | .pu0 => s.pu0
  | .pv0 => s.pv0
  | .pszu => s.pszu
  | .pszv => s.pszv
  | .btpw => s.btpw
  | .btph => s.btph
  | .pidx => s.pidx
  | .cfgNabm => BitVec.ofNat 32 s.params.nAbm
  | .cfgNadm => BitVec.ofNat 32 s.params.nAdm
  | .cfgMaxsym => BitVec.ofNat 32 s.params.maxSym
  | .cfgCbsize => BitVec.ofNat 32 s.params.cbSize
  | .cfgNblk => BitVec.ofNat 32 s.params.nblk
  | .version => versionWord
  | .msel => s.msel
  | .mvP0 => s.modelView.p0
  | .mvC0 => s.modelView.c0
  | .mvCn => s.modelView.cn
  | .mvCyc => s.modelView.cyc
  | .mvLeft => s.modelView.left
  | .mvNsym => s.modelView.nsym

/-- `wmask(f)` (spec/45_host_support.md R194). -/
def Csr.wmask (c : Csr) : Word :=
  match c with
  | .pidx => 0x00FFFFFF#32
  | .msel => 0x00FF01FF#32
  | _ => 0xFFFFFFFF#32

/-- `CSR[f] <- v & wmask(f)` for a register marked RW, none for one marked RO (R35, R36, R194). -/
def State.csrWrite (s : State) (c : Csr) (v : Word) : Option State :=
  match c with
  | .occm => some { s with occm := v &&& Csr.wmask .occm }
  | .pu0 => some { s with pu0 := v &&& Csr.wmask .pu0 }
  | .pv0 => some { s with pv0 := v &&& Csr.wmask .pv0 }
  | .pszu => some { s with pszu := v &&& Csr.wmask .pszu }
  | .pszv => some { s with pszv := v &&& Csr.wmask .pszv }
  | .btpw => some { s with btpw := v &&& Csr.wmask .btpw }
  | .btph => some { s with btph := v &&& Csr.wmask .btph }
  | .pidx => some { s with pidx := v &&& Csr.wmask .pidx }
  | .msel => some { s with msel := v &&& Csr.wmask .msel }
  | _ => none

end Sys2Proof.Machine
end

