-- ==== Sys2Proof/Machine/HostSupport.lean ====
section
/-! DEFINITION. The host-support commands (spec/45_host_support.md R190 to R198). They are legal in every `MODE`. -/

namespace Sys2Proof.Machine

/-- `NOP` (R190). -/
def execNop (s : State) : Host.Outcome State Fault Refusal := command .nop (pure ()) s

/-- `LI` (R191). -/
def execLi (ra : Reg) (imm : BitVec 16) (s : State) : Host.Outcome State Fault Refusal :=
  command (.li ra imm) (writeReg ra (zextImm imm)) s

/-- The pseudocode of `LIH` (R192). -/
def lihBody (ra : Reg) (imm : BitVec 16) : Cmd Unit := do
  let v ← readReg ra
  writeReg ra (upperImm imm v)

/-- `LIH` (R192). -/
def execLih (ra : Reg) (imm : BitVec 16) (s : State) : Host.Outcome State Fault Refusal :=
  command (.lih ra imm) (lihBody ra imm) s

/-- The pseudocode of `CSRR` (R193). -/
def csrrBody (ra : Reg) (f : BitVec 8) : Cmd Unit := do
  let s ← get
  match Csr.ofNumber f with
  | some c => writeReg ra (s.csrRead c)
  | none => raise .csrAccess (f.setWidth 32)

/-- `CSRR` (R193). -/
def execCsrr (ra : Reg) (f : BitVec 8) (s : State) : Host.Outcome State Fault Refusal :=
  command (.csrr ra f) (csrrBody ra f) s

/-- The state after a write of a CSR number, none where it is unimplemented or read-only (R36, R194). -/
def State.csrWriteNumber (s : State) (f : BitVec 8) (v : Word) : Option State :=
  match Csr.ofNumber f with
  | some c => s.csrWrite c v
  | none => none

/-- The pseudocode of `CSRW` (R194). -/
def csrwBody (ra : Reg) (f : BitVec 8) : Cmd Unit := do
  let s ← get
  match s.csrWriteNumber f (s.reg ra) with
  | some t => set t
  | none => raise .csrAccess (f.setWidth 32)

/-- `CSRW` (R194). -/
def execCsrw (ra : Reg) (f : BitVec 8) (s : State) : Host.Outcome State Fault Refusal :=
  command (.csrw ra f) (csrwBody ra f) s

/-- The pseudocode of `LDCB` (R195). -/
def ldcbBody (ra rb : Reg) : Cmd Unit := do
  let s ← get
  check ((s.reg rb).toNat < s.params.cbSize) .memRange (s.reg rb)
  let b ← memRead (s.reg rb).toNat
  writeReg ra (zextByte b)

/-- `LDCB` (R195). -/
def execLdcb (ra rb : Reg) (s : State) : Host.Outcome State Fault Refusal :=
  command (.ldcb ra rb) (ldcbBody ra rb) s

/-- The pseudocode of `STCB` (R196). -/
def stcbBody (ra rb : Reg) : Cmd Unit := do
  let s ← get
  check ((s.reg rb).toNat < s.params.cbSize) .memRange (s.reg rb)
  memWrite (s.reg rb).toNat (lowByte (s.reg ra))

/-- `STCB` (R196). -/
def execStcb (ra rb : Reg) (s : State) : Host.Outcome State Fault Refusal :=
  command (.stcb ra rb) (stcbBody ra rb) s

/-- The pseudocode of `LDBM` (R197). -/
def ldbmBody (ra rb : Reg) : Cmd Unit := do
  let s ← get
  check ((s.reg rb).toNat < s.params.nblk) .mapRange (s.reg rb)
  let r ← mapRead (s.reg rb).toNat
  writeReg ra r

/-- `LDBM` (R197). -/
def execLdbm (ra rb : Reg) (s : State) : Host.Outcome State Fault Refusal :=
  command (.ldbm ra rb) (ldbmBody ra rb) s

/-- The pseudocode of `STBM` (R198). -/
def stbmBody (ra rb : Reg) : Cmd Unit := do
  let s ← get
  check ((s.reg rb).toNat < s.params.nblk) .mapRange (s.reg rb)
  mapWrite (s.reg rb).toNat (s.reg ra)

/-- `STBM` (R198). -/
def execStbm (ra rb : Reg) (s : State) : Host.Outcome State Fault Refusal :=
  command (.stbm ra rb) (stbmBody ra rb) s

end Sys2Proof.Machine
end

