-- ==== Sys2Proof/Machine/Models.lean ====
section
/-! DEFINITION. The model-management commands (spec/40_session_and_models.md R97 to R100). They are legal in every
`MODE`. -/

namespace Sys2Proof.Machine

/-- The pseudocode of `ABM_RESET` (R97). -/
def abmResetBody (m : Slot) : Cmd Unit := do
  needAbm m
  modify (fun s => s.setAbm m.toNat AbmSlot.fresh)

/-- `ABM_RESET` (R97). -/
def execAbmReset (m : Slot) (s : State) : Host.Outcome State Fault Refusal :=
  command (.abmReset m) (abmResetBody m) s

/-- `2 <= f <= MAXSYM`, else `MODEL(f)` (R98). -/
def needAlphabet (f : BitVec 8) : Cmd Unit := do
  let s ← get
  check (2 ≤ f.toNat ∧ f.toNat ≤ s.params.maxSym) .model (f.setWidth 32)

/-- The pseudocode of `ADM_INIT` (R98). -/
def admInitBody (m : Slot) (f : BitVec 8) : Cmd Unit := do
  needAdm m
  needAlphabet f
  modify (fun s => s.setAdm m.toNat ({ s.admSlot m.toNat with nsym := f } : AdmSlot).reset)

/-- `ADM_INIT` (R98). -/
def execAdmInit (m : Slot) (f : BitVec 8) (s : State) : Host.Outcome State Fault Refusal :=
  command (.admInit m f) (admInitBody m f) s

/-- The pseudocode of `ADM_RESET` (R99). -/
def admResetBody (m : Slot) : Cmd Unit := do
  needAdmInit m
  modify (fun s => s.setAdm m.toNat (s.admSlot m.toNat).reset)

/-- `ADM_RESET` (R99). -/
def execAdmReset (m : Slot) (s : State) : Host.Outcome State Fault Refusal :=
  command (.admReset m) (admResetBody m) s

/-- A data model slot after `ALL_RESET`: an uninitialised one stays as it is (R100). -/
def AdmSlot.resetIfInit (d : AdmSlot) : AdmSlot := if d.nsym = 0#8 then d else d.reset

/-- Both banks after `ALL_RESET` (R100). -/
def State.resetModels (s : State) : State :=
  { s with abm := s.abm.map (fun _ => AbmSlot.fresh), adm := s.adm.map AdmSlot.resetIfInit }

/-- `ALL_RESET` (R100). -/
def execAllReset (s : State) : Host.Outcome State Fault Refusal :=
  command .allReset (modify State.resetModels) s

end Sys2Proof.Machine
end

