-- ==== Sys2Proof/Machine/Occupancy.lean ====
section
/-! DEFINITION. The occupancy-flag bit-packer (spec/44_occupancy.md R170 to R180). -/

namespace Sys2Proof.Machine

/-- The slots that `OCCM` binds to the five coded elements (spec/10_state.md R39). -/
structure OccModels where
  /-- `M_OCC` -/
  mOcc : Nat
  /-- `M_INT` -/
  mInt : Nat
  /-- `M_FIL` -/
  mFil : Nat
  /-- `D_NEI` -/
  dNei : Nat
  /-- `D_MIN` -/
  dMin : Nat
deriving DecidableEq, Repr

/-- The binding in `OCCM` (R39). -/
def State.occBinding (s : State) : OccModels :=
  { mOcc := (occmOcc s.occm).toNat
    mInt := (occmInt s.occm).toNat
    mFil := (occmFil s.occm).toNat
    dNei := (occmNei s.occm).toNat
    dMin := (occmMin s.occm).toNat }

/-- A data model slot fit for a 3-ary element (R173). -/
abbrev State.admTernary (s : State) (j : Nat) : Prop := j < s.params.nAdm ∧ (s.admSlot j).nsym = 3#8

/-- `occ_models()` (R173): the first failing test raises `MODEL` with the failing field. -/
def occModels : Cmd OccModels := do
  let s ← get
  check ((occmOcc s.occm).toNat < s.params.nAbm) .model ((occmOcc s.occm).setWidth 32)
  check ((occmInt s.occm).toNat < s.params.nAbm) .model ((occmInt s.occm).setWidth 32)
  check ((occmFil s.occm).toNat < s.params.nAbm) .model ((occmFil s.occm).setWidth 32)
  check (s.admTernary (occmNei s.occm).toNat) .model ((occmNei s.occm).setWidth 32)
  check (s.admTernary (occmMin s.occm).toNat) .model ((occmMin s.occm).setWidth 32)
  pure s.occBinding

/-- The syntax cannot carry this record: `interp = 1` without a neighbor, or `mind1 = 3` (R174). -/
def recUncodable (r : Word) : Bool := (recInterp r && decide (recNeigh r = 0#2)) || decide (recMind1 r = 3#2)

/-- `occ_check(occupied, rec)` (R174). -/
def occCheck (occupied : Bool) (r : Word) : Cmd Unit :=
  check (¬ (occupied = true ∧ recUncodable r = true)) .operandRange r

/-- The "filling" bit is in the stream: `mind1 > 1 or interp = 1` (R171, R174). -/
def fillCoded (interp : Bool) (mind1 : Nat) : Bool := decide (1 < mind1) || interp

/-- The elements of an occupied block after the "occupied" bit, encoded (R171, R174). -/
def occEncFields (o : OccModels) (r : Word) : Cmd Unit := do
  encBitA o.mInt (recInterp r)
  onlyIf (recInterp r) (encSym ((recNeigh r).toNat - 1) o.dNei)
  encSym (recMind1 r).toNat o.dMin
  onlyIf (fillCoded (recInterp r) (recMind1 r).toNat) (encBitA o.mFil (recFill r))

/-- `occ_enc_block(occupied, rec)` (R174). -/
def occEncBlock (o : OccModels) (occupied : Bool) (r : Word) : Cmd Unit := do
  occCheck occupied r
  encBitA o.mOcc occupied
  onlyIf occupied (occEncFields o r)

/-- The "neighbor" element, decoded into a record when it is in the stream; stored as `code + 1` (R174). -/
def occDecNeigh (o : OccModels) (interp : Bool) (r : Word) : Cmd Word :=
  if interp then do
    let k ← decSym o.dNei
    pure (setNeigh r (BitVec.ofNat 2 (k + 1)))
  else pure r

/-- The "filling" element, decoded into a record when it is in the stream (R174). -/
def occDecFill (o : OccModels) (present : Bool) (r : Word) : Cmd Word :=
  if present then do
    let b ← decBitA o.mFil
    pure (setFill r b)
  else pure r

/-- The elements of an occupied block after the "occupied" bit, decoded into a record (R171, R174). -/
def occDecFields (o : OccModels) (r : Word) : Cmd Word := do
  let interp ← decBitA o.mInt
  let r1 ← occDecNeigh o interp (setInterp r interp)
  let d ← decSym o.dMin
  occDecFill o (fillCoded interp d) (setMind1 r1 (BitVec.ofNat 2 d))

/-- `occ_dec_block(old)` (R174): a field the stream does not carry keeps its value from `old`. -/
def occDecBlock (o : OccModels) (old : Word) : Cmd (Bool × Word) := do
  let occupied ← decBitA o.mOcc
  if occupied then do
    let r ← occDecFields o (setOcc old)
    pure (true, r)
  else pure (false, old)

/-- The pseudocode of `OCC_ENC_BLK` (R175). -/
def occEncBlkBody (ra : Reg) : Cmd Unit := do
  needMode .enc
  let o ← occModels
  let r ← readReg ra
  occEncBlock o (recOcc r) r

/-- `OCC_ENC_BLK` (R175). -/
def execOccEncBlk (ra : Reg) (s : State) : Host.Outcome State Fault Refusal :=
  command (.occEncBlk ra) (occEncBlkBody ra) s

/-- The pseudocode of `OCC_DEC_BLK` (R176). -/
def occDecBlkBody (ra : Reg) : Cmd Unit := do
  needMode .dec
  let o ← occModels
  let r ← occDecBlock o 0#32
  writeReg ra r.2

/-- `OCC_DEC_BLK` (R176). -/
def execOccDecBlk (ra : Reg) (s : State) : Host.Outcome State Fault Refusal :=
  command (.occDecBlk ra) (occDecBlkBody ra) s

/-- The footprint lies inside the canvas and the canvas inside BM, in unbounded integers (R178). -/
abbrev State.patchFits (s : State) : Prop :=
  s.pu0.toNat + s.pszu.toNat ≤ s.btpw.toNat ∧ s.pv0.toNat + s.pszv.toNat ≤ s.btph.toNat ∧
    s.btpw.toNat * s.btph.toNat ≤ s.params.nblk

/-- `patch_check()` (R178). -/
def patchCheck : Cmd Unit := do
  let s ← get
  check s.patchFits .mapRange 0#32

/-- The canvas block of the patch's block `(u0, v0)`, in unbounded integers (R177). -/
def State.blockPos (s : State) (u0 v0 : Nat) : Nat := (s.pu0.toNat + u0) + (s.pv0.toNat + v0) * s.btpw.toNat

/-- The block is occupied for the current patch: `occ = 1` and `owner = PIDX` (R179). -/
def State.ownedBy (s : State) (r : Word) : Bool := recOcc r && (recOwner r).setWidth 32 == s.pidx

/-- One block of `OCC_ENC_PATCH` (R179). -/
def encPatchBlock (o : OccModels) (pos : Nat) : Cmd Unit := do
  let s ← get
  let r ← mapRead pos
  occEncBlock o (s.ownedBy r) r

/-- One block of `OCC_DEC_PATCH` (R180): only an occupied block's record is written. -/
def decPatchBlock (o : OccModels) (pos : Nat) : Cmd Unit := do
  let s ← get
  let old ← mapRead pos
  let r ← occDecBlock o old
  onlyIf r.1 (mapWrite pos (setOwner r.2 (s.pidx.setWidth 24)))

/-- The scan of a patch's footprint, `v0` in the outer and `u0` in the inner loop (R177). -/
def scanPatch (block : Nat → Cmd Unit) : Cmd Unit := do
  let s ← get
  forUp 0 s.pszv.toNat (fun v0 => forUp 0 s.pszu.toNat (fun u0 => block (s.blockPos u0 v0)))

/-- The pseudocode of `OCC_ENC_PATCH` (R179). -/
def occEncPatchBody : Cmd Unit := do
  needMode .enc
  let o ← occModels
  patchCheck
  scanPatch (encPatchBlock o)

/-- `OCC_ENC_PATCH` (R179). -/
def execOccEncPatch (s : State) : Host.Outcome State Fault Refusal := command .occEncPatch occEncPatchBody s

/-- The pseudocode of `OCC_DEC_PATCH` (R180). -/
def occDecPatchBody : Cmd Unit := do
  needMode .dec
  let o ← occModels
  patchCheck
  scanPatch (decPatchBlock o)

/-- `OCC_DEC_PATCH` (R180). -/
def execOccDecPatch (s : State) : Host.Outcome State Fault Refusal := command .occDecPatch occDecPatchBody s

end Sys2Proof.Machine
end

