-- ==== Sys2Proof/Machine/Session.lean ====
section
/-! DEFINITION. The session commands (spec/40_session_and_models.md R90 to R95). No session command touches a model
(R101). -/

namespace Sys2Proof.Machine

/-- `x[ra] + x[rb] <= CB_SIZE` in unbounded integers, else `WINDOW_RANGE(x[rb])` (R90, R92). -/
def needWindow (base len : Word) : Cmd Unit := do
  let s ← get
  check (base.toNat + len.toNat ≤ s.params.cbSize) .windowRange len

/-- The registers of a session that starts (R90, R92), `MODE` not yet changed. -/
def State.openWindow (s : State) (base len : Word) : State :=
  { s with
    wbase := base, wlen := len, ptr := 0#32, low := 0#32, range := maxRange, value := 0#32, overread := false }

/-- `MODE <- m`. -/
def setMode (m : Mode) : Cmd Unit := modify (fun s => { s with mode := m })

/-- The pseudocode of `ENC_START` (R90). -/
def encStartBody (ra rb : Reg) : Cmd Unit := do
  needMode .idle
  let s ← get
  needWindow (s.reg ra) (s.reg rb)
  modify (fun t => t.openWindow (s.reg ra) (s.reg rb))
  setMode .enc

/-- `ENC_START` (R90). -/
def execEncStart (ra rb : Reg) (s : State) : Host.Outcome State Fault Refusal :=
  command (.encStart ra rb) (encStartBody ra rb) s

/-- `VALUE <- (VALUE << 8) | get_byte()` (R92). -/
def loadByte : Cmd Unit := do
  let b ← getByte
  appendByte b

/-- The pseudocode of `DEC_START` (R92). -/
def decStartBody (ra rb : Reg) : Cmd Unit := do
  needMode .idle
  let s ← get
  needWindow (s.reg ra) (s.reg rb)
  modify (fun t => t.openWindow (s.reg ra) (s.reg rb))
  forUp 0 4 (fun _ => loadByte)
  setMode .dec

/-- `DEC_START` (R92). -/
def execDecStart (ra rb : Reg) (s : State) : Host.Outcome State Fault Refusal :=
  command (.decStart ra rb) (decStartBody ra rb) s

/-- The termination of an encode session (R94): one more byte is enough when `RANGE > 2 * MIN_RANGE`, else two. -/
def terminate : Cmd Unit := do
  let s ← get
  if 0x02000000#32 < s.range then addLow 0x01000000#32 0x00800000#32
  else addLow 0x00800000#32 0x00008000#32

/-- The pseudocode of `ENC_STOP` (R94). -/
def encStopBody (ra : Reg) : Cmd Unit := do
  needMode .enc
  terminate
  renormEnc
  let s ← get
  writeReg ra s.ptr
  setMode .idle

/-- `ENC_STOP` (R94). -/
def execEncStop (ra : Reg) (s : State) : Host.Outcome State Fault Refusal :=
  command (.encStop ra) (encStopBody ra) s

/-- The pseudocode of `DEC_STOP` (R95). -/
def decStopBody : Cmd Unit := do
  needMode .dec
  setMode .idle

/-- `DEC_STOP` (R95). -/
def execDecStop (s : State) : Host.Outcome State Fault Refusal := command .decStop decStopBody s

end Sys2Proof.Machine
end

