-- ==== Sys2Proof/Machine/Dispatch.lean ====
section
/-! DEFINITION. The meaning of every instruction, one arm per constructor (spec/30_encoding.md R74). -/

namespace Sys2Proof.Machine

def exec (i : Instr) (s : State) : Host.Outcome State Fault Refusal :=
  match i with
  | .nop => Sys2Proof.Machine.execNop s
  | .li ra imm => Sys2Proof.Machine.execLi ra imm s
  | .lih ra imm => Sys2Proof.Machine.execLih ra imm s
  | .csrr ra f => Sys2Proof.Machine.execCsrr ra f s
  | .csrw ra f => Sys2Proof.Machine.execCsrw ra f s
  | .ldcb ra rb => Sys2Proof.Machine.execLdcb ra rb s
  | .stcb ra rb => Sys2Proof.Machine.execStcb ra rb s
  | .ldbm ra rb => Sys2Proof.Machine.execLdbm ra rb s
  | .stbm ra rb => Sys2Proof.Machine.execStbm ra rb s
  | .encStart ra rb => Sys2Proof.Machine.execEncStart ra rb s
  | .encStop ra => Sys2Proof.Machine.execEncStop ra s
  | .decStart ra rb => Sys2Proof.Machine.execDecStart ra rb s
  | .decStop => Sys2Proof.Machine.execDecStop s
  | .abmReset m => Sys2Proof.Machine.execAbmReset m s
  | .admInit m f => Sys2Proof.Machine.execAdmInit m f s
  | .admReset m => Sys2Proof.Machine.execAdmReset m s
  | .allReset => Sys2Proof.Machine.execAllReset s
  | .encBitA ra m => Sys2Proof.Machine.execEncBitA ra m s
  | .encBitS ra => Sys2Proof.Machine.execEncBitS ra s
  | .decBitA ra m => Sys2Proof.Machine.execDecBitA ra m s
  | .decBitS ra => Sys2Proof.Machine.execDecBitS ra s
  | .encSym ra m => Sys2Proof.Machine.execEncSym ra m s
  | .decSym ra m => Sys2Proof.Machine.execDecSym ra m s
  | .encUint ra f => Sys2Proof.Machine.execEncUint ra f s
  | .decUint ra f => Sys2Proof.Machine.execDecUint ra f s
  | .zzenc ra rb => Sys2Proof.Machine.execZzenc ra rb s
  | .zzdec ra rb => Sys2Proof.Machine.execZzdec ra rb s
  | .encEg0 ra m => Sys2Proof.Machine.execEncEg0 ra m s
  | .decEg0 ra m => Sys2Proof.Machine.execDecEg0 ra m s
  | .encSdelta ra m => Sys2Proof.Machine.execEncSdelta ra m s
  | .decSdelta ra m => Sys2Proof.Machine.execDecSdelta ra m s
  | .occEncBlk ra => Sys2Proof.Machine.execOccEncBlk ra s
  | .occDecBlk ra => Sys2Proof.Machine.execOccDecBlk ra s
  | .occEncPatch => Sys2Proof.Machine.execOccEncPatch s
  | .occDecPatch => Sys2Proof.Machine.execOccDecPatch s

end Sys2Proof.Machine
end

