-- ==== Sys2Proof/Machine/HostPort.lean ====
section
/-! DEFINITION. The host's side: the command port, the memory port, reset and the observation port
(spec/70_reset_and_hazards.md R240, R244 to R246; spec/60_exceptions.md R216, R218). -/

namespace Sys2Proof.Machine

/-- What the ECU does with an illegal word: `ILLEGAL_COMMAND(0)`, no other state changes (R218). -/
def illegalCommand (cw : Word) (s : State) : Host.Outcome State Fault Refusal :=
  .next (s.faultEntry .illegalCommand 0#32 cw)

/-- A command word is presented (R89, R244): refused in the fault state, else decoded and executed. -/
def presentWord (cw : Word) (s : State) : Host.Outcome State Fault Refusal :=
  if s.fault then .next s.refuse
  else
    match decode cw with
    | .ok i => exec i s
    | .error _ => illegalCommand cw s

/-- The host writes a byte of CB (R246), also in the fault state. -/
def hostWriteCb (a : Nat) (v : Byte) (s : State) : Host.Outcome State Fault Refusal :=
  if a < s.params.cbSize then .next (s.setCbByte a v) else .fault .cbAddressOutside

/-- The host writes a record of BM (R246), also in the fault state. -/
def hostWriteBm (i : Nat) (v : Word) (s : State) : Host.Outcome State Fault Refusal :=
  if i < s.params.nblk then .next (s.setBmRecord i v) else .fault .bmIndexOutside

/-- One act of the host on an idle ECU. -/
def hostEvent (e : HostEvent) (s : State) : Host.Outcome State Fault Refusal :=
  match e with
  | .issue cw => presentWord cw s
  | .cbWrite a v => hostWriteCb a v s
  | .bmWrite i v => hostWriteBm i v s
  | .reset => .next s.applyReset

/-- The next act of the host (log 1): the first event of the port is taken; with none, the ECU stays idle (log 2). -/
def takeEvent (s : State) : Host.Outcome State Fault Refusal :=
  match s.port with
  | [] => .next s
  | e :: rest => hostEvent e { s with port := rest }

/-- The port with the word of a table row presented next. -/
def State.present (s : State) (cw : Word) : State := { s with port := .issue cw :: s.port }

/-! ### The observation port (R245) and the reading side of the memory port (R246) -/

/-- A general register, also in the fault state (R245). -/
def State.observeReg (s : State) (r : Reg) : Word := s.reg r

/-- A CSR number, 0 where it is unimplemented (R245). -/
def State.observeCsr (s : State) (n : BitVec 8) : Word :=
  match Csr.ofNumber n with
  | some c => s.csrRead c
  | none => 0#32

/-- A byte of CB, none outside the space (R246). -/
def State.observeCb (s : State) (a : Nat) : Option Byte := if a < s.params.cbSize then some (s.cbByte a) else none

/-- A record of BM, none outside the space (R246). -/
def State.observeBm (s : State) (i : Nat) : Option Word := if i < s.params.nblk then some (s.bmRecord i) else none

/-- A byte of BM in the host's little-endian byte view (R58, R246), none outside the space. -/
def State.observeBmByte (s : State) (a : Nat) : Option Byte :=
  if a < 4 * s.params.nblk then some (s.bmByte a) else none

end Sys2Proof.Machine
end

