-- ==== Sys2Proof/Machine/Step.lean ====
section
/-! DEFINITION. One step of the machine, and where a step finds its next command (log 1). -/

namespace Sys2Proof.Machine

/-- One step: the next act of the host, a command executed to completion when it is one (spec/00_scope.md R9, R15). -/
def step (s : State) : Host.Outcome State Fault Refusal := takeEvent s

/-- The state in which the word of a table row is presented next on the command port. -/
def State.withFetchWord (s : State) (nbits w : Nat) : State := s.present (tableWord nbits w)

end Sys2Proof.Machine
end

