-- ==== Sys2Proof/Safety.lean ====
section
/-! DEFINITION. The terms claims are stated in: the invariant of a run, readiness of a session, the number an encoder
has produced, the bytes a decoder is served, and sequences of coded decisions. -/

namespace Sys2Proof.Machine

/-! ### The invariant of a run -/

/-- The ranges of a bit model slot between commands (spec/10_state.md R29; spec/41_bit_and_symbol_coding.md R122); the
last clause ties `c0` to the bits counted since the last update. -/
abbrev AbmSlot.ok (a : AbmSlot) : Prop :=
  1 ≤ a.p0.toNat ∧ 1 ≤ a.c0.toNat ∧ (2 ≤ a.cn.toNat ∧ a.cn.toNat ≤ bmMax) ∧
    (4 ≤ a.cyc.toNat ∧ a.cyc.toNat ≤ 64) ∧ (1 ≤ a.left.toNat ∧ a.left.toNat ≤ a.cyc.toNat) ∧
    a.c0.toNat + a.left.toNat < a.cn.toNat + a.cyc.toNat

/-- The ranges of an initialised data model slot between commands (R32; R124); the last clause ties the counts to the
symbols counted since the last update. -/
abbrev AdmSlot.okInit (maxSym : Nat) (d : AdmSlot) : Prop :=
  (2 ≤ d.nsym.toNat ∧ d.nsym.toNat ≤ maxSym) ∧
    (d.dist.length = d.nsym.toNat ∧ d.cnt.length = d.nsym.toNat) ∧
    (d.dist.getD 0 0#15 = 0#15 ∧ d.dist.Pairwise (fun p q => p < q)) ∧
    (∀ n ∈ d.cnt.map BitVec.toNat, 1 ≤ n) ∧
    (d.nsym.toNat ≤ d.total.toNat ∧ d.total.toNat ≤ dmMax) ∧
    ((d.nsym.toNat + 6) / 2 ≤ d.cyc.toNat ∧ d.cyc.toNat ≤ (d.nsym.toNat + 6) * 8) ∧
    (1 ≤ d.left.toNat ∧ d.left.toNat ≤ d.cyc.toNat) ∧
    cntSum d.cnt + d.left.toNat = d.total.toNat + d.cyc.toNat

/-- A data model slot is uninitialised or in its ranges (R32, R33). -/
abbrev AdmSlot.ok (maxSym : Nat) (d : AdmSlot) : Prop := d.nsym = 0#8 ∨ d.okInit maxSym

/-- Both banks have the implementation's size and every slot is in its ranges (R29, R32). -/
abbrev State.banksOk (s : State) : Prop :=
  s.abm.length = s.params.nAbm ∧ (∀ a ∈ s.abm, a.ok) ∧
    s.adm.length = s.params.nAdm ∧ (∀ d ∈ s.adm, d.ok s.params.maxSym)

/-- Both memories are in the canonical form and hold nothing outside their spaces (spec/20_memory.md R50, R54). -/
abbrev State.memoriesOk (s : State) : Prop :=
  (s.cb.wf ∧ ∀ c ∈ s.cb, c.1 < s.params.cbSize) ∧ (s.bm.wf ∧ ∀ c ∈ s.bm, c.1 < 4 * s.params.nblk)

/-- The hardwired-zero bits of `PIDX` and `MSEL` are 0 (R35). -/
abbrev State.csrsOk (s : State) : Prop :=
  s.pidx &&& 0xFF000000#32 = 0#32 ∧ s.msel &&& 0xFF00FE00#32 = 0#32

/-- The fault record is zero outside the fault state and names a fault inside it (R24, R35, R37;
spec/60_exceptions.md R211). -/
abbrev State.faultRecordOk (s : State) : Prop :=
  if s.fault then 1 ≤ s.fcode.toNat ∧ s.fcode.toNat ≤ 11
  else s.fcode = 0#8 ∧ s.fcmd = 0#32 ∧ s.finfo = 0#32 ∧ s.fseq = 0#32

/-- The invariants of an open session (R28, R26; spec/20_memory.md R51; spec/40_session_and_models.md R95). -/
abbrev State.sessionOk (s : State) : Prop :=
  s.mode ≠ .idle →
    s.wbase.toNat + s.wlen.toNat ≤ s.params.cbSize ∧ minRange ≤ s.range ∧
      (s.mode = .enc → s.ptr.toNat ≤ s.wlen.toNat ∧ s.value = 0#32) ∧
      (s.mode = .dec → (4 ≤ s.ptr.toNat ∧ s.ptr.toNat ≤ s.wlen.toNat + 3) ∧ s.low = 0#32)

/-- The invariant of a run. The session part is R28's, "between commands, while a session is open"; a command
abandoned by an imprecise fault may leave less (spec/60_exceptions.md R215). -/
abbrev State.Inv (s : State) : Prop :=
  s.params.legal ∧ s.banksOk ∧ s.memoriesOk ∧ s.csrsOk ∧ s.faultRecordOk ∧ (s.fault = false → s.sessionOk)

/-! ### The encoder's number and the decoder's bytes -/

/-- The first `n` bytes of the window as one number, the first byte the most significant
(spec/20_memory.md R57; spec/41_bit_and_symbol_coding.md R112). -/
def State.payloadNumber (s : State) (n : Nat) : Nat :=
  match n with
  | 0 => 0
  | k + 1 => s.payloadNumber k * 256 + (s.cbByte (s.windowAddr (BitVec.ofNat 32 k))).toNat

/-- The full-precision low end of the encoder's interval: the bytes written so far and `LOW` below them (R110). -/
def State.codeNumber (s : State) : Nat := s.payloadNumber s.ptr.toNat * 2 ^ 32 + s.low.toNat

/-- The encoder's interval lies inside the initial one (R112): the code value stays below 1, so that a carry never
runs off the window. -/
abbrev State.carryBound (s : State) : Prop := s.codeNumber + s.range.toNat ≤ 256 ^ s.ptr.toNat * 2 ^ 32

/-- The byte the decoder is served at a window offset: of CB inside the window, `0x00` beyond it (R113). -/
def State.servedByte (s : State) (offset : Nat) : Byte :=
  if offset < s.wlen.toNat then s.cbByte (s.windowAddr (BitVec.ofNat 32 offset)) else 0x00#8

/-- The `n` bytes served from a window offset on as one number, the first the most significant (R115). -/
def State.servedNumber (s : State) (offset n : Nat) : Nat :=
  match n with
  | 0 => 0
  | k + 1 => s.servedNumber offset k * 256 + (s.servedByte (offset + k)).toNat

/-- The number of turns of the renormalisation that brings a width back to `MIN_RANGE`, at most two (R114). -/
def renormTurns (r : Word) : Nat :=
  if 2 ^ 24 ≤ r.toNat then 0 else if 2 ^ 16 ≤ r.toNat then 1 else 2

/-- `t` is what the encoder makes of `s` when it raises the low end by `add`, narrows the interval to `r` and sends `n`
bytes (R114, R116, R120): the bytes and `LOW` are the exact sum shifted by the bytes sent, and no byte of CB outside the
part of the window below `PTR` changes. -/
abbrev State.encodedBy (s t : State) (add r : Word) (n : Nat) : Prop :=
  t.ptr.toNat = s.ptr.toNat + n ∧ t.range.toNat = r.toNat * 256 ^ n ∧
    t.codeNumber = (s.codeNumber + add.toNat) * 256 ^ n ∧
    ∀ a, (a < s.wbase.toNat ∨ s.wbase.toNat + t.ptr.toNat ≤ a) → t.cbByte a = s.cbByte a

/-- The same with all the bytes that bring the width back to `MIN_RANGE` (R114). -/
abbrev State.encodedTo (s t : State) (add r : Word) : Prop := s.encodedBy t add r (renormTurns r)

/-- `t` is what the decoder makes of `s` when it is left with the offset `v` in an interval of width `r` and has fetched
`n` bytes (R113, R115, R117, R121). -/
abbrev State.decodedBy (s t : State) (v r : Word) (n : Nat) : Prop :=
  t.ptr.toNat = s.ptr.toNat + n ∧ t.range.toNat = r.toNat * 256 ^ n ∧
    t.value.toNat = (v.toNat * 256 ^ n + s.servedNumber s.ptr.toNat n) % 2 ^ 32 ∧
    (t.overread = true ↔ s.overread = true ∨ (0 < n ∧ s.wlen.toNat < s.ptr.toNat + n))

/-- The same with all the bytes that bring the width back to `MIN_RANGE` (R115). -/
abbrev State.decodedTo (s t : State) (v r : Word) : Prop := s.decodedBy t v r (renormTurns r)

/-- An encode session in which `bytes` more bytes fit. -/
abbrev State.encReady (s : State) (bytes : Nat) : Prop :=
  s.Inv ∧ s.fault = false ∧ s.mode = .enc ∧ s.carryBound ∧ s.ptr.toNat + bytes ≤ s.wlen.toNat

/-- A decode session in which `bytes` more bytes can be fetched, up to three of them beyond the window (R113). -/
abbrev State.decReady (s : State) (bytes : Nat) : Prop :=
  s.Inv ∧ s.fault = false ∧ s.mode = .dec ∧ s.ptr.toNat + bytes ≤ s.wlen.toNat + 3

/-! ### Sequences of coded decisions -/

/-- One coded element: a bit with the static model, a bit with an adaptive model, a symbol with a data model. -/
inductive Decision where
  | bitS (b : Bool)
  | bitA (m : Nat) (b : Bool)
  | sym (j k : Nat)
deriving DecidableEq, Repr

/-- The decision names slots that exist, and a symbol of its alphabet. -/
abbrev Decision.fits (s : State) (d : Decision) : Prop :=
  match d with
  | .bitS _ => True
  | .bitA m _ => m < s.params.nAbm
  | .sym j k => j < s.params.nAdm ∧ k < (s.admSlot j).nsym.toNat

/-- The part of the interval that stands for a 0 bit of probability `p0` (R116, R117). -/
def bitPart (p0 : BitVec 13) (range : Word) : Word := BitVec.ofNat 32 (p0.toNat * (range.toNat / 2 ^ 13))

/-- The part of the interval below symbol `k` (R120, R121). -/
def symPart (d : AdmSlot) (range : Word) (k : Nat) : Word :=
  BitVec.ofNat 32 ((d.dist.getD k 0#15).toNat * (range.toNat / 2 ^ 15))

/-- What a decision adds to the low end of the interval (R116, R120), and the decoder takes from `VALUE` (R117, R121). -/
def Decision.base (s : State) (d : Decision) : Word :=
  match d with
  | .bitS b => if b then bitPart pHalf s.range else 0#32
  | .bitA m b => if b then bitPart (s.abmSlot m).p0 s.range else 0#32
  | .sym j k => symPart (s.admSlot j) s.range k

/-- The width of the interval that a decision leaves, before renormalisation (R116, R117, R120, R121). -/
def Decision.width (s : State) (d : Decision) : Word :=
  match d with
  | .bitS b => if b then s.range - bitPart pHalf s.range else bitPart pHalf s.range
  | .bitA m b => if b then s.range - bitPart (s.abmSlot m).p0 s.range else bitPart (s.abmSlot m).p0 s.range
  | .sym j k =>
    if k + 1 = (s.admSlot j).nsym.toNat then s.range - symPart (s.admSlot j) s.range k
    else symPart (s.admSlot j) s.range (k + 1) - symPart (s.admSlot j) s.range k

/-- `VALUE` makes the decoder take this decision (R117, R121). -/
def Decision.selected (s : State) (d : Decision) : Prop :=
  match d with
  | .bitS b => b = decide (bitPart pHalf s.range ≤ s.value)
  | .bitA m b => b = decide (bitPart (s.abmSlot m).p0 s.range ≤ s.value)
  | .sym j k =>
    k < (s.admSlot j).nsym.toNat ∧ symPart (s.admSlot j) s.range k ≤ s.value ∧
      ∀ l, k < l → l < (s.admSlot j).nsym.toNat → s.value < symPart (s.admSlot j) s.range l

/-- The coder's own encoding of one decision (R116, R118, R120). -/
def Decision.enc (d : Decision) : Cmd Unit :=
  match d with
  | .bitS b => encBit b pHalf
  | .bitA m b => encBitA m b
  | .sym j k => encSym k j

/-- The decisions encoded one after the other. -/
def encDecisions (ds : List Decision) : Cmd Unit :=
  match ds with
  | [] => pure ()
  | d :: rest => do
    d.enc
    encDecisions rest

/-- The mirror step (spec/70_reset_and_hazards.md R252): decode an element of the decision's kind with its model and
give back what was decoded. -/
def Decision.dec (d : Decision) : Cmd Decision :=
  match d with
  | .bitS _ => do
    let b ← decBit pHalf
    pure (.bitS b)
  | .bitA m _ => do
    let b ← decBitA m
    pure (.bitA m b)
  | .sym j _ => do
    let k ← decSym j
    pure (.sym j k)

/-- The mirror sequence: what it decodes, in order. -/
def decDecisions (ds : List Decision) : Cmd (List Decision) :=
  match ds with
  | [] => pure []
  | d :: rest => do
    let e ← d.dec
    let es ← decDecisions rest
    pure (e :: es)

/-! ### Sequences of a session: decisions and model resets (spec/41_bit_and_symbol_coding.md R125) -/

/-- A command that resets models between two coded elements (spec/40_session_and_models.md R97 to R100). -/
inductive ModelReset where
  | abmReset (m : Slot)
  | admInit (m : Slot) (f : BitVec 8)
  | admReset (m : Slot)
  | allReset
deriving DecidableEq, Repr

/-- The command's own checks and effect. -/
def ModelReset.run (r : ModelReset) : Cmd Unit :=
  match r with
  | .abmReset m => abmResetBody m
  | .admInit m f => admInitBody m f
  | .admReset m => admResetBody m
  | .allReset => modify State.resetModels

/-- One step of a session. -/
inductive SessionStep where
  | code (d : Decision)
  | reset (r : ModelReset)
deriving DecidableEq, Repr

/-- A coded element fits its model. -/
abbrev SessionStep.fits (s : State) (e : SessionStep) : Prop :=
  match e with
  | .code d => d.fits s
  | .reset _ => True

/-- The step on the encoder's side. -/
def SessionStep.enc (e : SessionStep) : Cmd Unit :=
  match e with
  | .code d => d.enc
  | .reset r => r.run

/-- The steps on the encoder's side, one after the other. -/
def encSteps (es : List SessionStep) : Cmd Unit :=
  match es with
  | [] => pure ()
  | e :: rest => do
    e.enc
    encSteps rest

/-- The mirror step (spec/70_reset_and_hazards.md R252): the decoded element, or the same reset. -/
def SessionStep.dec (e : SessionStep) : Cmd SessionStep :=
  match e with
  | .code d => do
    let found ← d.dec
    pure (.code found)
  | .reset r => do
    r.run
    pure (.reset r)

/-- The mirror sequence: what it decodes and resets, in order. -/
def decSteps (es : List SessionStep) : Cmd (List SessionStep) :=
  match es with
  | [] => pure []
  | e :: rest => do
    let found ← e.dec
    let more ← decSteps rest
    pure (found :: more)

/-! ### What a command needs and writes -/

end Sys2Proof.Machine

namespace Sys2Proof

/-- The mode a command needs (spec/60_exceptions.md R219). -/
def Instr.needs (i : Instr) : Option Machine.Mode :=
  match i with
  | .nop => none
  | .li _ _ => none
  | .lih _ _ => none
  | .csrr _ _ => none
  | .csrw _ _ => none
  | .ldcb _ _ => none
  | .stcb _ _ => none
  | .ldbm _ _ => none
  | .stbm _ _ => none
  | .encStart _ _ => some .idle
  | .encStop _ => some .enc
  | .decStart _ _ => some .idle
  | .decStop => some .dec
  | .abmReset _ => none
  | .admInit _ _ => none
  | .admReset _ => none
  | .allReset => none
  | .encBitA _ _ => some .enc
  | .encBitS _ => some .enc
  | .decBitA _ _ => some .dec
  | .decBitS _ => some .dec
  | .encSym _ _ => some .enc
  | .decSym _ _ => some .dec
  | .encUint _ _ => some .enc
  | .decUint _ _ => some .dec
  | .zzenc _ _ => none
  | .zzdec _ _ => none
  | .encEg0 _ _ => some .enc
  | .decEg0 _ _ => some .dec
  | .encSdelta _ _ => some .enc
  | .decSdelta _ _ => some .dec
  | .occEncBlk _ => some .enc
  | .occDecBlk _ => some .dec
  | .occEncPatch => some .enc
  | .occDecPatch => some .dec

/-- The general register a command writes (spec/30_encoding.md R74). -/
def Instr.dest (i : Instr) : Option Reg :=
  match i with
  | .nop => none
  | .li ra _ => some ra
  | .lih ra _ => some ra
  | .csrr ra _ => some ra
  | .csrw _ _ => none
  | .ldcb ra _ => some ra
  | .stcb _ _ => none
  | .ldbm ra _ => some ra
  | .stbm _ _ => none
  | .encStart _ _ => none
  | .encStop ra => some ra
  | .decStart _ _ => none
  | .decStop => none
  | .abmReset _ => none
  | .admInit _ _ => none
  | .admReset _ => none
  | .allReset => none
  | .encBitA _ _ => none
  | .encBitS _ => none
  | .decBitA ra _ => some ra
  | .decBitS ra => some ra
  | .encSym _ _ => none
  | .decSym ra _ => some ra
  | .encUint _ _ => none
  | .decUint ra _ => some ra
  | .zzenc ra _ => some ra
  | .zzdec ra _ => some ra
  | .encEg0 _ _ => none
  | .decEg0 ra _ => some ra
  | .encSdelta _ _ => none
  | .decSdelta ra _ => some ra
  | .occEncBlk _ => none
  | .occDecBlk ra => some ra
  | .occEncPatch => none
  | .occDecPatch => none

end Sys2Proof

namespace Sys2Proof.Machine

/-! ### Outcomes, and the decisions of a command -/

/-- A state after a command's own effect with the common frame's last action: `CMDCNT` counted, the port reports `done`
(spec/10_state.md R23; spec/70_reset_and_hazards.md R244). -/
abbrev State.counted (t : State) : State := { t with cmdcnt := t.cmdcnt + 1#32, response := some .done }

/-- The command is abandoned with the effects `t` and the fault of the given code and information word
(spec/60_exceptions.md R214). -/
abbrev State.faulted (t : State) (code : BitVec 8) (info cw : Word) : State :=
  { t with
    fault := true, fcode := code, fcmd := cw, finfo := info, fseq := t.cmdcnt, response := some .faulted }

/-- A precise fault (R215): apart from the fault record nothing changes. -/
abbrev faultsPrecisely (i : Instr) (s : State) (code : BitVec 8) (info : Word) : Prop :=
  exec i s = .next (s.faulted code info (encode i))

/-- The encoding commands' frame: only `LOW`, `RANGE`, `PTR`, the models and bytes of the window below the new `PTR`
differ. -/
abbrev State.encFrame (s t : State) : Prop :=
  t = { s with low := t.low, range := t.range, ptr := t.ptr, cb := t.cb, abm := t.abm, adm := t.adm } ∧
    ∀ a, (a < s.wbase.toNat ∨ s.wbase.toNat + t.ptr.toNat ≤ a) → t.cbByte a = s.cbByte a

/-- The five bindings in `OCCM` name usable slots (spec/44_occupancy.md R173). -/
abbrev State.occModelsOk (s : State) : Prop :=
  s.occBinding.mOcc < s.params.nAbm ∧ s.occBinding.mInt < s.params.nAbm ∧ s.occBinding.mFil < s.params.nAbm ∧
    s.admTernary s.occBinding.dNei ∧ s.admTernary s.occBinding.dMin

/-- The bits of a number of `n` bits, most significant first. -/
def bitsDown (v n : Nat) : List Bool := (List.range n).reverse.map v.testBit

/-- The code word of `2^n + r - 1` (spec/42_expgolomb_delta.md R144): `n` ones and a zero with the adaptive model, then
the `n` bits of `r`, most significant first, with the static model. -/
def egCodeWord (m n r : Nat) : List Decision :=
  List.replicate n (Decision.bitA m true) ++ [Decision.bitA m false] ++ (bitsDown r n).map Decision.bitS

/-- The `f` bits of `v`, least significant first, with the static model (spec/43_fixed_width.md R160). -/
def uintDecisions (v f : Nat) : List Decision := (List.range f).map (fun i => Decision.bitS (v.testBit i))

/-- The elements of one block in coding order (spec/44_occupancy.md R171). -/
def blockDecisions (o : OccModels) (occupied : Bool) (r : Word) : List Decision :=
  if occupied then
    [Decision.bitA o.mOcc true, Decision.bitA o.mInt (recInterp r)] ++
      (if recInterp r then [Decision.sym o.dNei ((recNeigh r).toNat - 1)] else []) ++
      [Decision.sym o.dMin (recMind1 r).toNat] ++
      (if 1 < (recMind1 r).toNat ∨ recInterp r = true then [Decision.bitA o.mFil (recFill r)] else [])
  else [Decision.bitA o.mOcc false]

/-- The canvas blocks of a patch in row-major `(v0, u0)` order (R177). -/
def State.patchBlocks (s : State) : List Nat :=
  (List.range s.pszv.toNat).flatMap (fun v0 => (List.range s.pszu.toNat).map (fun u0 => s.blockPos u0 v0))

/-- The block is occupied for the current patch: `occ = 1` and `owner = PIDX` (R179). -/
abbrev State.patchOccupied (s : State) (i : Nat) : Bool :=
  recOcc (s.bmRecord i) && decide ((recOwner (s.bmRecord i)).toNat = s.pidx.toNat)

/-- The syntax can carry the record of an occupied block (R174, spec/60_exceptions.md R222). -/
abbrev recCodable (r : Word) : Prop := (recInterp r = true → recNeigh r ≠ 0#2) ∧ recMind1 r ≠ 3#2

/-- The elements of some blocks of a patch in coding order, as BM and `PIDX` have them (R171, R177, R179). -/
abbrev State.blocksDecisions (s : State) (blocks : List Nat) : List Decision :=
  blocks.flatMap (fun i => blockDecisions s.occBinding (s.patchOccupied i) (s.bmRecord i))

/-- The elements of a whole patch in coding order. -/
abbrev State.patchDecisions (s : State) : List Decision := s.blocksDecisions s.patchBlocks

/-- The records of the blocks can be coded. -/
abbrev State.blocksCodable (s : State) (blocks : List Nat) : Prop :=
  ∀ i ∈ blocks, s.patchOccupied i = true → recCodable (s.bmRecord i)

/-- The elements of some blocks in coding order, the record of block `i` being `r i` (R171). -/
def recordsDecisions (o : OccModels) (r : Nat → Word) (blocks : List Nat) : List Decision :=
  blocks.flatMap (fun i => blockDecisions o (recOcc (r i)) (r i))

/-- BM of `t` is that of `s` after the records `r i` have been decoded into the blocks (R174, R180): the record of an
occupied block gets `occ` 1, `interp` and `mind1` of `r i`, `neigh` and `fill` of `r i` when the stream carries them and
the old ones otherwise, the old bit 7 and owner `PIDX`; every other record stays. -/
abbrev State.recordsDecoded (s t : State) (r : Nat → Word) (blocks : List Nat) : Prop :=
  (∀ i, (i ∉ blocks ∨ recOcc (r i) = false) → t.bmRecord i = s.bmRecord i) ∧
    (∀ i ∈ blocks, recOcc (r i) = true →
      let new := t.bmRecord i
      let old := s.bmRecord i
      recOcc new = true ∧ recInterp new = recInterp (r i) ∧ recMind1 new = recMind1 (r i) ∧
        recNeigh new = (if recInterp (r i) then recNeigh (r i) else recNeigh old) ∧
        recFill new = (if 1 < (recMind1 (r i)).toNat ∨ recInterp (r i) = true then recFill (r i)
          else recFill old) ∧
        new.getLsbD 7 = old.getLsbD 7 ∧ (recOwner new).toNat = s.pidx.toNat)

/-- The decisions that an encode command codes once its checks have passed; for `OCC_ENC_PATCH` those of any blocks at
the start of the scan whose records can be coded. -/
inductive Encodes (s : State) : Instr → List Decision → Prop where
  | bitA (ra : Reg) (m : Slot) : m.toNat < s.params.nAbm → (s.reg ra).toNat ≤ 1 →
      Encodes s (.encBitA ra m) [.bitA m.toNat (decide (s.reg ra = 1#32))]
  | bitS (ra : Reg) : (s.reg ra).toNat ≤ 1 → Encodes s (.encBitS ra) [.bitS (decide (s.reg ra = 1#32))]
  | sym (ra : Reg) (m : Slot) : m.toNat < s.params.nAdm →
      (s.reg ra).toNat < (s.admSlot m.toNat).nsym.toNat → Encodes s (.encSym ra m) [.sym m.toNat (s.reg ra).toNat]
  | uint (ra : Reg) (f : BitVec 8) : f.toNat ≤ 32 → (s.reg ra).toNat < 2 ^ f.toNat →
      Encodes s (.encUint ra f) (uintDecisions (s.reg ra).toNat f.toNat)
  | eg0 (ra : Reg) (m : Slot) (n r : Nat) : m.toNat < s.params.nAbm → r < 2 ^ n →
      (s.reg ra).toNat + 1 = 2 ^ n + r → Encodes s (.encEg0 ra m) (egCodeWord m.toNat n r)
  | sdelta (ra : Reg) (m : Slot) (n r : Nat) : m.toNat < s.params.nAbm → r < 2 ^ n →
      (zigzag (s.reg ra)).toNat + 1 = 2 ^ n + r → Encodes s (.encSdelta ra m) (egCodeWord m.toNat n r)
  | occBlk (ra : Reg) : s.occModelsOk → (recOcc (s.reg ra) = true → recCodable (s.reg ra)) →
      Encodes s (.occEncBlk ra) (blockDecisions s.occBinding (recOcc (s.reg ra)) (s.reg ra))
  | occPatch (done rest : List Nat) : s.occModelsOk → s.patchFits → s.patchBlocks = done ++ rest →
      s.blocksCodable done → Encodes s .occEncPatch (s.blocksDecisions done)

/-- The sequences of decisions that a decode command other than `OCC_DEC_PATCH` can take once its checks have passed. -/
inductive Decodes (s : State) : Instr → List Decision → Prop where
  | bitA (ra : Reg) (m : Slot) (b : Bool) : m.toNat < s.params.nAbm → Decodes s (.decBitA ra m) [.bitA m.toNat b]
  | bitS (ra : Reg) (b : Bool) : Decodes s (.decBitS ra) [.bitS b]
  | sym (ra : Reg) (m : Slot) (k : Nat) : m.toNat < s.params.nAdm → (s.admSlot m.toNat).nsym ≠ 0#8 →
      Decodes s (.decSym ra m) [.sym m.toNat k]
  | uint (ra : Reg) (f : BitVec 8) (v : Nat) : f.toNat ≤ 32 → Decodes s (.decUint ra f) (uintDecisions v f.toNat)
  | eg0 (ra : Reg) (m : Slot) (n r : Nat) : m.toNat < s.params.nAbm → n ≤ 32 →
      Decodes s (.decEg0 ra m) (egCodeWord m.toNat n r)
  | eg0Ones (ra : Reg) (m : Slot) : m.toNat < s.params.nAbm →
      Decodes s (.decEg0 ra m) (List.replicate 33 (Decision.bitA m.toNat true))
  | sdelta (ra : Reg) (m : Slot) (n r : Nat) : m.toNat < s.params.nAbm → n ≤ 32 →
      Decodes s (.decSdelta ra m) (egCodeWord m.toNat n r)
  | sdeltaOnes (ra : Reg) (m : Slot) : m.toNat < s.params.nAbm →
      Decodes s (.decSdelta ra m) (List.replicate 33 (Decision.bitA m.toNat true))
  | occBlk (ra : Reg) (r : Word) : s.occModelsOk →
      Decodes s (.occDecBlk ra) (blockDecisions s.occBinding (recOcc r) r)

/-- The word is illegal (spec/30_encoding.md R80): (a) no row has its opcode, or (b) a must-be-zero bit of its row is 1,
or (c) its row carries a bit count and `f > 32`. -/
def illegalWord (cw : Word) : Prop :=
  (∀ row ∈ opcodeRows, opField row.pattern ≠ opField cw) ∨
    (∃ row ∈ opcodeRows, opField row.pattern = opField cw ∧ cw &&& row.mask ≠ row.pattern) ∨
    (∃ row ∈ opcodeRows, opField row.pattern = opField cw ∧ row.counted = true ∧ 32 < (fField cw).toNat)

/-! ### The CSR map and the initial data model, as the spec tabulates them -/

/-- Every implemented CSR number with its content (spec/10_state.md R35, R38). -/
def csrTable (s : State) : List (BitVec 8 × Word) :=
  [(0x00#8, s.statusWord), (0x01#8, s.fcmd), (0x02#8, s.finfo), (0x03#8, s.fseq), (0x04#8, s.cmdcnt),
    (0x08#8, s.low), (0x09#8, s.range), (0x0A#8, s.value), (0x0B#8, s.ptr), (0x0C#8, s.wbase), (0x0D#8, s.wlen),
    (0x10#8, s.occm), (0x11#8, s.pu0), (0x12#8, s.pv0), (0x13#8, s.pszu), (0x14#8, s.pszv), (0x15#8, s.btpw),
    (0x16#8, s.btph), (0x17#8, s.pidx)] ++
  [(0x20#8, BitVec.ofNat 32 s.params.nAbm), (0x21#8, BitVec.ofNat 32 s.params.nAdm),
    (0x22#8, BitVec.ofNat 32 s.params.maxSym), (0x23#8, BitVec.ofNat 32 s.params.cbSize),
    (0x24#8, BitVec.ofNat 32 s.params.nblk), (0x25#8, 0x00010000#32),
    (0x30#8, s.msel), (0x31#8, s.modelView.p0), (0x32#8, s.modelView.c0), (0x33#8, s.modelView.cn),
    (0x34#8, s.modelView.cyc), (0x35#8, s.modelView.left), (0x36#8, s.modelView.nsym)]

/-- The numbers of the CSRs marked RW (R35). -/
def rwCsrNumbers : List (BitVec 8) :=
  [0x10#8, 0x11#8, 0x12#8, 0x13#8, 0x14#8, 0x15#8, 0x16#8, 0x17#8, 0x30#8]

/-- The initial state of a data model of `f` symbols in the closed form of spec/40_session_and_models.md R98. -/
def admInitial (f : BitVec 8) : AdmSlot :=
  { nsym := f
    dist := (List.range f.toNat).map (fun k => BitVec.ofNat 15 (2 ^ 31 / f.toNat * k / 2 ^ 16))
    cnt := List.replicate f.toNat 1#16
    total := BitVec.ofNat 16 f.toNat
    cyc := BitVec.ofNat 12 ((f.toNat + 6) / 2)
    left := BitVec.ofNat 12 ((f.toNat + 6) / 2) }

end Sys2Proof.Machine
end

