-- ==== Sys2Proof/Certificates/Slice0/Obligations.lean ====
section
/-! DEFINITION. The statements for the provers, one `def Obligations.<Name> : Prop` each, listed in OBLIGATIONS.json. -/

open Sys2Proof Sys2Proof.Machine

/-- For every well-formed instruction, with every operand at every value the encoding admits, decode (encode i) is i.
[30_encoding.md R70, 30_encoding.md R74, 30_encoding.md R75] -/
def Obligations.DecodeOfEncode : Prop :=
  ∀ i : Instr, i.wf = true → decode (encode i) = .ok i

/-- Every word that the decoder accepts gives a well-formed instruction whose encoding is that very word: no two words
mean the same command. [30_encoding.md R74, 30_encoding.md R75] -/
def Obligations.EncodeOfDecode : Prop :=
  ∀ (cw : Word) (i : Instr), decode cw = .ok i → i.wf = true ∧ encode i = cw

/-- Seven words that the spec writes out, one per family, decode to the command the spec gives: 0x10120000, 0x21000103,
0x3830000A and 0x44300500 of R84, 0x0230FFFF of R192, 0x30304000 of V26 and 0x51A00000 of P3. [30_encoding.md R74,
30_encoding.md R75, 30_encoding.md R84, 45_host_support.md R192, 95_test_vectors.md V26, 95_test_vectors.md P3] -/
def Obligations.SpecWordsDecode : Prop :=
  decode 0x0230FFFF#32 = .ok (.lih 3#4 0xFFFF#16) ∧ decode 0x10120000#32 = .ok (.encStart 1#4 2#4) ∧
    decode 0x21000103#32 = .ok (.admInit 1#8 3#8) ∧ decode 0x30304000#32 = .ok (.encBitA 3#4 64#8) ∧
    decode 0x3830000A#32 = .ok (.encUint 3#4 10#8) ∧ decode 0x44300500#32 = .ok (.encSdelta 3#4 5#8) ∧
    decode 0x51A00000#32 = .ok (.occDecBlk 10#4)

/-- When the next host event presents a word that decodes to i, step is exec of i on the state with that event taken off
the port; with a table row's word presented by withFetchWord, step is exec of the decoded instruction on the state
itself. The list of host events, the event taken off it and withFetchWord are the model's choice (log 1, DESIGN
CHOICE); the cited rules say only that a presented word is executed. [70_reset_and_hazards.md R244,
40_session_and_models.md R89] -/
def Obligations.StepRunsTheDecodedCommand : Prop :=
  (∀ (s : State) (cw : Word) (rest : List HostEvent) (i : Instr),
      s.port = .issue cw :: rest → decode cw = .ok i → step s = exec i { s with port := rest }) ∧
    (∀ (s : State) (nbits w : Nat) (i : Instr),
      decodeTableWord nbits w = some i → step (s.withFetchWord nbits w) = exec i s)

/-- With no fault pending, a presented word that R80 calls illegal (no row has its opcode, a must-be-zero bit is 1, or a
bit count above 32) enters the fault state with code 1 and information 0 and changes no other state; every other
word decodes and its instruction is executed. [R80] -/
def Obligations.IllegalWordsFault : Prop :=
  ∀ (s : State) (cw : Word) (rest : List HostEvent), s.fault = false → s.port = .issue cw :: rest →
    (illegalWord cw → step s = .next (({ s with port := rest } : State).faulted 1#8 0#32 cw)) ∧
      (¬ illegalWord cw → ∃ i, decode cw = .ok i ∧ step s = exec i { s with port := rest })

/-- While STATUS.FAULT is 1, a presented word, legal or not, leaves every piece of state as it was (the event is taken
off the port) and is reported as refused. [R216] -/
def Obligations.FaultStateRefusesEveryWord : Prop :=
  ∀ (s : State) (cw : Word) (rest : List HostEvent), s.fault = true → s.port = .issue cw :: rest →
    step s = .next { s with port := rest, response := some .refused }

/-- From the fault state a step that is not a reset stays in the fault state with the same FCODE, FCMD, FINFO, FSEQ,
CMDCNT, MODE, coder registers, models and general registers; a reset clears the fault and the record. [R217] -/
def Obligations.OnlyResetLeavesTheFaultState : Prop :=
  ∀ s t : State, s.fault = true → step s = .next t →
    ((∀ rest, s.port ≠ .reset :: rest) →
      t = { s with port := t.port, response := t.response, cb := t.cb, bm := t.bm }) ∧
    (∀ rest, s.port = .reset :: rest →
      t.fault = false ∧ t.fcode = 0#8 ∧ t.fcmd = 0#32 ∧ t.finfo = 0#32 ∧ t.fseq = 0#32)

/-- After a reset event every general register, CMDCNT, STATUS, the fault record, the interval and window registers and
every RW CSR are 0, every bit model is (4096, 1, 2, 4, 4), every data model is uninitialised, and CB and BM hold
free values (log 6); the parameters are kept. The clause on response, port and memEpoch is the model's own (log 1,
log 3, log 7). [70_reset_and_hazards.md R240, 10_state.md R45, 10_state.md R30] -/
def Obligations.ResetGivesTheResetState : Prop :=
  ∀ (s t : State) (rest : List HostEvent), s.port = .reset :: rest → step s = .next t →
    (∀ r, t.reg r = 0#32) ∧ t.cmdcnt = 0#32 ∧ t.statusWord = 0#32 ∧
      (t.fcmd = 0#32 ∧ t.finfo = 0#32 ∧ t.fseq = 0#32) ∧
      (t.low = 0#32 ∧ t.range = 0#32 ∧ t.value = 0#32 ∧ t.ptr = 0#32 ∧ t.wbase = 0#32 ∧ t.wlen = 0#32) ∧
      (t.occm = 0#32 ∧ t.pu0 = 0#32 ∧ t.pv0 = 0#32 ∧ t.pszu = 0#32 ∧ t.pszv = 0#32 ∧ t.btpw = 0#32 ∧
        t.btph = 0#32 ∧ t.pidx = 0#32 ∧ t.msel = 0#32) ∧
      (t.abm.length = s.params.nAbm ∧ ∀ a ∈ t.abm, a = ⟨4096#13, 1#14, 2#14, 4#7, 4#7⟩) ∧
      (t.adm.length = s.params.nAdm ∧ ∀ d ∈ t.adm, d.nsym = 0#8) ∧
      (∀ a, t.cbByte a = Config.cbUnwritten (s.memEpoch + 1) a) ∧
      (∀ a, t.bmByte a = Config.bmUnwritten (s.memEpoch + 1) a) ∧
      t.params = s.params ∧ t.port = rest ∧ t.response = none

/-- An ECU to which the host presents nothing stays as it is (the model's reading of an idle ECU, log 2).
[60_exceptions.md R236, 70_reset_and_hazards.md R244] -/
def Obligations.IdleWithoutAnEvent : Prop :=
  ∀ s : State, s.port = [] → step s = .next s

/-- A host write of CB changes the one byte and nothing else, a host write of BM the one record and nothing else,
whatever STATUS.FAULT is; an address outside the space stops the model (log 13). [70_reset_and_hazards.md R246,
20_memory.md R63] -/
def Obligations.MemoryPortWritesOneCell : Prop :=
  (∀ (s : State) (a : Nat) (v : Byte) (rest : List HostEvent), s.port = .cbWrite a v :: rest →
      (a < s.params.cbSize → ∃ t, step s = .next t ∧ t = { s with port := rest, cb := t.cb } ∧ t.cbByte a = v ∧
        ∀ b, b ≠ a → t.cbByte b = s.cbByte b) ∧
      (s.params.cbSize ≤ a → step s = .fault .cbAddressOutside)) ∧
    (∀ (s : State) (i : Nat) (v : Word) (rest : List HostEvent), s.port = .bmWrite i v :: rest →
      (i < s.params.nblk → ∃ t, step s = .next t ∧ t = { s with port := rest, bm := t.bm } ∧ t.bmRecord i = v ∧
        ∀ j, j ≠ i → t.bmRecord j = s.bmRecord j) ∧
      (s.params.nblk ≤ i → step s = .fault .bmIndexOutside))

/-- The host's byte view of record i of BM shows bits 7:0 at 4*i, 15:8 at 4*i+1, 23:16 at 4*i+2 and 31:24 at 4*i+3.
[20_memory.md R58] -/
def Obligations.RecordsAreLittleEndianBytes : Prop :=
  ∀ (s : State) (i : Nat), i < s.params.nblk →
    s.observeBmByte (4 * i) = some ((s.bmRecord i).extractLsb' 0 8) ∧
      s.observeBmByte (4 * i + 1) = some ((s.bmRecord i).extractLsb' 8 8) ∧
      s.observeBmByte (4 * i + 2) = some ((s.bmRecord i).extractLsb' 16 8) ∧
      s.observeBmByte (4 * i + 3) = some ((s.bmRecord i).extractLsb' 24 8)

/-- Bit 0 of STATUS is FAULT, bits 2:1 are MODE (0 IDLE, 1 ENC, 2 DEC), bit 3 is OVERREAD, bits 7:4 are 0, bits 15:8 are
FCODE and bits 31:16 are 0. [10_state.md R24, 10_state.md R25] -/
def Obligations.StatusWordLayout : Prop :=
  ∀ s : State,
    s.statusWord.extractLsb' 0 1 = BitVec.ofBool s.fault ∧
      s.statusWord.extractLsb' 1 2 = (if s.mode = .idle then 0#2 else if s.mode = .enc then 1#2 else 2#2) ∧
      s.statusWord.extractLsb' 3 1 = BitVec.ofBool s.overread ∧ s.statusWord.extractLsb' 4 4 = 0#4 ∧
      s.statusWord.extractLsb' 8 8 = s.fcode ∧ s.statusWord.extractLsb' 16 16 = 0#16

/-- State.reset has the invariant, and so has the reset state of every legal choice of the five parameters, after any
number of resets and with any host events to come. [10_state.md R45, 10_state.md R28, 00_scope.md R7] -/
def Obligations.InvHoldsAfterReset : Prop :=
  State.reset.Inv ∧
    ∀ (p : Params) (epoch : Nat) (events : List HostEvent), p.legal → (State.resetWith p epoch events).Inv

/-- From every state with the invariant (legal parameters; both banks of their size with every slot in its ranges; both
memories canonical and inside their spaces; hardwired-zero bits 0; fault record consistent; while a session is open
and no fault is pending, RANGE >= 2^24, the window inside CB, PTR within the window or its three-byte allowance), a
step of any kind, host events and faults included, gives a state with the invariant. [10_state.md R28, 10_state.md
R29, 10_state.md R32, 10_state.md R35, 10_state.md R37, 41_bit_and_symbol_coding.md R122,
41_bit_and_symbol_coding.md R124, 20_memory.md R50] -/
def Obligations.StepKeepsInv : Prop :=
  ∀ s t : State, s.Inv → step s = .next t → t.Inv

/-- In a state with the invariant a step that presents any word answers a next state: no command ever accesses CB or BM
outside its space, and no content of the payload stops the machine. [41_bit_and_symbol_coding.md R119, 20_memory.md
R60, 70_reset_and_hazards.md R262, 30_encoding.md R75] -/
def Obligations.EveryWordIsAnswered : Prop :=
  ∀ (s : State) (cw : Word) (rest : List HostEvent), s.Inv → s.port = .issue cw :: rest → ∃ t, step s = .next t

/-- Whatever a step does, reset included, the five parameters that the CFG registers show stay as they are. [00_scope.md
R7, 10_state.md R38] -/
def Obligations.ParametersNeverChange : Prop :=
  ∀ s t : State, step s = .next t → t.params = s.params

/-- The initial slot is in the ranges of R29 and R122 (1 <= p0, 1 <= c0, 2 <= cn <= 8192, 4 <= cyc <= 64, 1 <= left <=
cyc, and c0 < cn right after an update), counting either bit keeps a slot in them, and in them c0 is at most 8254
and p0 at most 8191. [41_bit_and_symbol_coding.md R122, 10_state.md R29, 10_state.md R30] -/
def Obligations.BitModelRanges : Prop :=
  AbmSlot.fresh.ok ∧ (∀ (a : AbmSlot) (bit : Bool), a.ok → (a.count bit).ok) ∧
    (∀ a : AbmSlot, a.ok → a.c0.toNat ≤ 8254 ∧ a.p0.toNat ≤ 8191)

/-- adm_reset of any size from 2 to MAXSYM gives a slot in the ranges of R32 and R124 (dist strictly increasing from 0,
counts at least 1, total between nsym and 32768), and counting a symbol of the alphabet keeps a slot in them.
[41_bit_and_symbol_coding.md R124, 10_state.md R32, 40_session_and_models.md R98] -/
def Obligations.DataModelRanges : Prop :=
  (∀ (maxSym : Nat) (d : AdmSlot), maxSym ≤ 255 → 2 ≤ d.nsym.toNat → d.nsym.toNat ≤ maxSym → d.reset.okInit maxSym) ∧
    (∀ (maxSym : Nat) (d : AdmSlot) (k : Nat), maxSym ≤ 255 → d.okInit maxSym → k < d.nsym.toNat →
      (d.count k).okInit maxSym)

/-- In a slot in its ranges, a counted bit adds 1 to c0 when it is 0 and takes 1 from left; when left reaches 0 the
update of R118 happens, with the halving above 8192, p0 = (c0 * (2^31 div cn)) >> 18 and cyc grown by a quarter up
to 64, all in exact integers. [41_bit_and_symbol_coding.md R118] -/
def Obligations.BitModelAdaptation : Prop :=
  ∀ (a : AbmSlot) (bit : Bool), a.ok →
    let c0 := a.c0.toNat + (if bit then 0 else 1)
    (1 < a.left.toNat → a.count bit =
      { a with c0 := BitVec.ofNat 14 c0, left := BitVec.ofNat 7 (a.left.toNat - 1) }) ∧
    (a.left.toNat = 1 →
      let cn := a.cn.toNat + a.cyc.toNat
      let c0h := if cn ≤ 8192 then c0 else (c0 + 1) / 2
      let cnh := if cn ≤ 8192 then cn else if c0h = (cn + 1) / 2 then (cn + 1) / 2 + 1 else (cn + 1) / 2
      (a.count bit).c0.toNat = c0h ∧ (a.count bit).cn.toNat = cnh ∧
        (a.count bit).p0.toNat = c0h * (2 ^ 31 / cnh) / 2 ^ 18 ∧
        (a.count bit).cyc.toNat = min (5 * a.cyc.toNat / 4) 64 ∧ (a.count bit).left = (a.count bit).cyc)

/-- In an initialised slot in its ranges, a counted symbol adds 1 to its count and takes 1 from left; when left reaches
0 the update of R123 happens, with the halving above 32768, dist[j] = ((2^31 div total) * sum of the counts below j)
>> 16 and cyc grown by a quarter up to (n + 6) * 8, all in exact integers. [41_bit_and_symbol_coding.md R123] -/
def Obligations.DataModelAdaptation : Prop :=
  ∀ (maxSym : Nat) (d : AdmSlot) (k : Nat), maxSym ≤ 255 → d.okInit maxSym → k < d.nsym.toNat →
    let cnt := (d.cnt.map BitVec.toNat).set k ((d.cnt.getD k 0#16).toNat + 1)
    (1 < d.left.toNat → d.count k =
      { d with cnt := cnt.map (BitVec.ofNat 16), left := BitVec.ofNat 12 (d.left.toNat - 1) }) ∧
    (d.left.toNat = 1 →
      let halve := dmMax < d.total.toNat + d.cyc.toNat
      let cnth := if halve then cnt.map (fun c => (c + 1) / 2) else cnt
      let total := if halve then cnth.sum else d.total.toNat + d.cyc.toNat
      (d.count k).nsym = d.nsym ∧ (d.count k).cnt.map BitVec.toNat = cnth ∧ (d.count k).total.toNat = total ∧
        (d.count k).dist.length = d.nsym.toNat ∧
        (∀ j, j < d.nsym.toNat →
          ((d.count k).dist.getD j 0#15).toNat = 2 ^ 31 / total * (cnth.take j).sum / 2 ^ 16) ∧
        (d.count k).cyc.toNat = min (5 * d.cyc.toNat / 4) ((d.nsym.toNat + 6) * 8) ∧
        (d.count k).left = (d.count k).cyc)

/-- When exec answers a next state: in the fault state only the response changed, to refused; otherwise either the
command completed (response done, CMDCNT one more, still no fault, fault record unchanged), or it faulted (FAULT
set, FCODE 1 to 11, FCMD the command's word, FSEQ the unchanged CMDCNT, MODE and every general register as before).
[10_state.md R23, 60_exceptions.md R214, 60_exceptions.md R215, 60_exceptions.md R216, 70_reset_and_hazards.md R244] -/
def Obligations.CommandsDoneFaultedOrRefused : Prop :=
  ∀ (i : Instr) (s t : State), exec i s = .next t →
    (s.fault = true → t = { s with response := some .refused }) ∧
    (s.fault = false →
      (t.fault = false ∧ t.response = some .done ∧ t.cmdcnt = s.cmdcnt + 1#32 ∧ t.fcode = s.fcode ∧
          t.fcmd = s.fcmd ∧ t.finfo = s.finfo ∧ t.fseq = s.fseq) ∨
        (t.fault = true ∧ t.response = some .faulted ∧ t.cmdcnt = s.cmdcnt ∧
          (1 ≤ t.fcode.toNat ∧ t.fcode.toNat ≤ 11) ∧ t.fcmd = encode i ∧ t.fseq = s.cmdcnt ∧
          t.mode = s.mode ∧ t.x = s.x))

/-- Whatever command runs, a general register that is not the destination the opcode map gives keeps its value; on a
fault every register does. [30_encoding.md R74, 10_state.md R21, 60_exceptions.md R215] -/
def Obligations.OnlyTheDestinationRegisterChanges : Prop :=
  ∀ (i : Instr) (s t : State) (r : Reg), exec i s = .next t → (i.dest ≠ some r ∨ t.fault = true) →
    t.reg r = s.reg r

/-- A command other than CSRW leaves OCCM, PU0, PV0, PSZU, PSZV, BTPW, BTPH, PIDX and MSEL as they are; and no command
at all changes the parameters (R7, R38). The clause that no command changes the host events to come or the memory
epoch is about the model's own fields (log 1, log 7). [10_state.md R36, 10_state.md R38, 45_host_support.md R194,
00_scope.md R7] -/
def Obligations.OnlyCsrwWritesTheRwCsrs : Prop :=
  ∀ (i : Instr) (s t : State), exec i s = .next t →
    ((∀ ra f, i ≠ .csrw ra f) →
      t.occm = s.occm ∧ t.pu0 = s.pu0 ∧ t.pv0 = s.pv0 ∧ t.pszu = s.pszu ∧ t.pszv = s.pszv ∧ t.btpw = s.btpw ∧
        t.btph = s.btph ∧ t.pidx = s.pidx ∧ t.msel = s.msel) ∧
      t.params = s.params ∧ t.port = s.port ∧ t.memEpoch = s.memEpoch

/-- In a state with the invariant, a byte of CB that differs after a command, completed or faulted, is the byte STCB
addresses, or lies inside the window of the open encode session and the command is one that needs encode mode.
[20_memory.md R52, 41_bit_and_symbol_coding.md R111, 45_host_support.md R196, 60_exceptions.md R215] -/
def Obligations.CommandsWriteCbOnlyInTheWindow : Prop :=
  ∀ (i : Instr) (s t : State) (a : Nat), s.Inv → exec i s = .next t → t.cbByte a ≠ s.cbByte a →
    (∃ ra rb, i = .stcb ra rb ∧ a = (s.reg rb).toNat) ∨
      (i.needs = some .enc ∧ s.mode = .enc ∧ s.wbase.toNat ≤ a ∧ a < s.wbase.toNat + s.wlen.toNat)

/-- A record of BM that differs after a command, completed or faulted, is the record STBM addresses, or belongs to the
footprint of the patch registers and the command is OCC_DEC_PATCH. [20_memory.md R54, 44_occupancy.md R180,
45_host_support.md R198, 60_exceptions.md R215] -/
def Obligations.CommandsWriteBmOnlyInTheFootprint : Prop :=
  ∀ (i : Instr) (s t : State) (a : Nat), exec i s = .next t → t.bmRecord a ≠ s.bmRecord a →
    (∃ ra rb, i = .stbm ra rb ∧ a = (s.reg rb).toNat) ∨ (i = .occDecPatch ∧ a ∈ s.patchBlocks)

/-- The session commands, the static-model commands and every host-support command leave both banks exactly as they are;
a command that names bit model m changes no other bit model and no data model; a command that names data model m
changes no other data model and no bit model. [40_session_and_models.md R101, 41_bit_and_symbol_coding.md R126,
41_bit_and_symbol_coding.md R130, 43_fixed_width.md R161] -/
def Obligations.ModelsChangeOnlyWhereNamed : Prop :=
  ∀ (i : Instr) (s t : State), exec i s = .next t →
    ((∃ ra rb, i = .encStart ra rb ∨ i = .decStart ra rb ∨ i = .ldcb ra rb ∨ i = .stcb ra rb ∨ i = .ldbm ra rb ∨
          i = .stbm ra rb ∨ i = .zzenc ra rb ∨ i = .zzdec ra rb) ∨
        (∃ ra f, i = .csrr ra f ∨ i = .csrw ra f ∨ i = .encUint ra f ∨ i = .decUint ra f) ∨
        (∃ ra imm, i = .li ra imm ∨ i = .lih ra imm) ∨
        (∃ ra, i = .encStop ra ∨ i = .encBitS ra ∨ i = .decBitS ra) ∨ i = .decStop ∨ i = .nop →
      t.abm = s.abm ∧ t.adm = s.adm) ∧
    (∀ m : Slot, (∃ ra, i = .encBitA ra m ∨ i = .decBitA ra m ∨ i = .encEg0 ra m ∨ i = .decEg0 ra m ∨
          i = .encSdelta ra m ∨ i = .decSdelta ra m) ∨ i = .abmReset m →
      t.adm = s.adm ∧ ∀ n, n ≠ m.toNat → t.abmSlot n = s.abmSlot n) ∧
    (∀ m : Slot, (∃ ra, i = .encSym ra m ∨ i = .decSym ra m) ∨ (∃ f, i = .admInit m f) ∨ i = .admReset m →
      t.abm = s.abm ∧ ∀ n, n ≠ m.toNat → t.admSlot n = s.admSlot n)

/-- A legal command that needs IDLE, ENC or DEC and finds another MODE enters the fault state with code 2 and MODE as
its information and changes nothing else; a command that needs no mode never faults with code 2. [R219] -/
def Obligations.WrongModeIsASessionFault : Prop :=
  (∀ (i : Instr) (s : State) (m : Mode), i.wf = true → s.fault = false → i.needs = some m → s.mode ≠ m →
      faultsPrecisely i s 2#8 (if s.mode = .idle then 0#32 else if s.mode = .enc then 1#32 else 2#32)) ∧
    (∀ (i : Instr) (s t : State), s.fault = false → i.needs = none → exec i s = .next t → t.fault = true →
      t.fcode ≠ 2#8)

/-- In its mode, a command naming a bit model slot at or above N_ABM, a data model slot at or above N_ADM or an
uninitialised one, ADM_INIT with a size outside 2 to MAXSYM, or an occupancy command whose OCCM fails a test of R173
enters the fault state with code 7 and the offending index (the size for a bad size) and changes nothing else.
[60_exceptions.md R221, 44_occupancy.md R173, 60_exceptions.md R213] -/
def Obligations.UnusableModelSlotsFault : Prop :=
  (∀ (i : Instr) (s : State) (ra : Reg) (m : Slot), s.fault = false → s.params.nAbm ≤ m.toNat →
      (i = .abmReset m ∨ (s.mode = .enc ∧ (i = .encBitA ra m ∨ i = .encEg0 ra m ∨ i = .encSdelta ra m)) ∨
        (s.mode = .dec ∧ (i = .decBitA ra m ∨ i = .decEg0 ra m ∨ i = .decSdelta ra m))) →
      faultsPrecisely i s 7#8 (m.setWidth 32)) ∧
    (∀ (i : Instr) (s : State) (ra : Reg) (m : Slot), s.fault = false →
      (s.params.nAdm ≤ m.toNat ∨ (s.admSlot m.toNat).nsym = 0#8) →
      (i = .admReset m ∨ (s.mode = .enc ∧ i = .encSym ra m) ∨ (s.mode = .dec ∧ i = .decSym ra m)) →
      faultsPrecisely i s 7#8 (m.setWidth 32)) ∧
    (∀ (s : State) (m : Slot) (f : BitVec 8), s.fault = false →
      (s.params.nAdm ≤ m.toNat → faultsPrecisely (.admInit m f) s 7#8 (m.setWidth 32)) ∧
      (m.toNat < s.params.nAdm → (f.toNat < 2 ∨ s.params.maxSym < f.toNat) →
        faultsPrecisely (.admInit m f) s 7#8 (f.setWidth 32))) ∧
    (∀ (i : Instr) (s : State) (ra : Reg), s.fault = false →
      ((s.mode = .enc ∧ (i = .occEncBlk ra ∨ i = .occEncPatch)) ∨
        (s.mode = .dec ∧ (i = .occDecBlk ra ∨ i = .occDecPatch))) →
      let o := s.occBinding
      (s.params.nAbm ≤ o.mOcc → faultsPrecisely i s 7#8 (BitVec.ofNat 32 o.mOcc)) ∧
      (o.mOcc < s.params.nAbm → s.params.nAbm ≤ o.mInt → faultsPrecisely i s 7#8 (BitVec.ofNat 32 o.mInt)) ∧
      (o.mOcc < s.params.nAbm → o.mInt < s.params.nAbm → s.params.nAbm ≤ o.mFil →
        faultsPrecisely i s 7#8 (BitVec.ofNat 32 o.mFil)) ∧
      (o.mOcc < s.params.nAbm → o.mInt < s.params.nAbm → o.mFil < s.params.nAbm → ¬ s.admTernary o.dNei →
        faultsPrecisely i s 7#8 (BitVec.ofNat 32 o.dNei)) ∧
      (o.mOcc < s.params.nAbm → o.mInt < s.params.nAbm → o.mFil < s.params.nAbm → s.admTernary o.dNei →
        ¬ s.admTernary o.dMin → faultsPrecisely i s 7#8 (BitVec.ofNat 32 o.dMin)))

/-- In encode mode with a usable model, ENC_BIT_A and ENC_BIT_S with x[ra] above 1, ENC_SYM with x[ra] at or above nsym,
ENC_UINT with f below 32 and x[ra] at or above 2^f, and OCC_ENC_BLK with an occupied record that has interp 1 and
neigh 0, or mind1 3, enter the fault state with code 6 and the operand as information and change nothing else.
OCC_ENC_PATCH that reaches such a record, whenever the blocks before it can be coded (with room for ten bytes for
each they can), has coded exactly these and enters the fault state with code 6 and the record as information.
ENC_EG0 and ENC_SDELTA never raise it. [R222] -/
def Obligations.OutOfRangeOperandsFault : Prop :=
  (∀ (s : State) (ra : Reg) (m : Slot) (f : BitVec 8), s.fault = false → s.mode = .enc →
      (m.toNat < s.params.nAbm → 1 < (s.reg ra).toNat → faultsPrecisely (.encBitA ra m) s 6#8 (s.reg ra)) ∧
      (1 < (s.reg ra).toNat → faultsPrecisely (.encBitS ra) s 6#8 (s.reg ra)) ∧
      (m.toNat < s.params.nAdm → (s.admSlot m.toNat).nsym ≠ 0#8 →
        (s.admSlot m.toNat).nsym.toNat ≤ (s.reg ra).toNat → faultsPrecisely (.encSym ra m) s 6#8 (s.reg ra)) ∧
      (f.toNat < 32 → 2 ^ f.toNat ≤ (s.reg ra).toNat → faultsPrecisely (.encUint ra f) s 6#8 (s.reg ra)) ∧
      (s.occModelsOk → recOcc (s.reg ra) = true →
        ((recInterp (s.reg ra) = true ∧ recNeigh (s.reg ra) = 0#2) ∨ recMind1 (s.reg ra) = 3#2) →
        faultsPrecisely (.occEncBlk ra) s 6#8 (s.reg ra))) ∧
    (∀ (s : State) (done rest : List Nat) (bad : Nat), s.encReady 0 → s.occModelsOk → s.patchFits →
      s.patchBlocks = done ++ bad :: rest → s.blocksCodable done → s.patchOccupied bad = true →
      ((recInterp (s.bmRecord bad) = true ∧ recNeigh (s.bmRecord bad) = 0#2) ∨ recMind1 (s.bmRecord bad) = 3#2) →
      (∀ t, encDecisions (s.blocksDecisions done) s = .ok () t →
        exec .occEncPatch s = .next (t.faulted 6#8 (s.bmRecord bad) (encode .occEncPatch)) ∧ s.encFrame t) ∧
      (s.encReady (10 * done.length) → ∃ t, encDecisions (s.blocksDecisions done) s = .ok () t)) ∧
    (∀ (s t : State) (ra : Reg) (m : Slot), s.fault = false →
      (exec (.encEg0 ra m) s = .next t ∨ exec (.encSdelta ra m) s = .next t) → t.fault = true → t.fcode ≠ 6#8)

/-- LDBM and STBM with x[rb] at or above NBLK raise MAP_RANGE with x[rb]; the patch commands, in their mode and with a
usable binding, raise MAP_RANGE with 0 when the footprint check fails; LDCB and STCB with x[rb] at or above CB_SIZE
raise MEM_RANGE with x[rb]; CSRR of an unimplemented number and CSRW of an unimplemented or read-only number raise
CSR_ACCESS with the number. Nothing else changes. [R226, R227, R228] -/
def Obligations.AddressesOutsideTheSpacesFault : Prop :=
  (∀ (s : State) (ra rb : Reg), s.fault = false → s.params.nblk ≤ (s.reg rb).toNat →
      faultsPrecisely (.ldbm ra rb) s 9#8 (s.reg rb) ∧ faultsPrecisely (.stbm ra rb) s 9#8 (s.reg rb)) ∧
    (∀ s : State, s.fault = false → s.occModelsOk → ¬ s.patchFits →
      (s.mode = .enc → faultsPrecisely .occEncPatch s 9#8 0#32) ∧
      (s.mode = .dec → faultsPrecisely .occDecPatch s 9#8 0#32)) ∧
    (∀ (s : State) (ra rb : Reg), s.fault = false → s.params.cbSize ≤ (s.reg rb).toNat →
      faultsPrecisely (.ldcb ra rb) s 10#8 (s.reg rb) ∧ faultsPrecisely (.stcb ra rb) s 10#8 (s.reg rb)) ∧
    (∀ (s : State) (ra : Reg) (f : BitVec 8), s.fault = false →
      (f ∉ (csrTable s).map Prod.fst → faultsPrecisely (.csrr ra f) s 11#8 (f.setWidth 32)) ∧
      (f ∉ rwCsrNumbers → faultsPrecisely (.csrw ra f) s 11#8 (f.setWidth 32)))

/-- An encode command whose checks have passed and that reaches a decision with fewer bytes left in the window than the
decision sends codes every decision before it (a patch command the blocks before it), raises the low end, narrows
the interval and sends the bytes that fit, carries included, then raises CODE_BUFFER_OVERFLOW with PTR = WLEN; the
models of that decision and everything else stay. ENC_STOP with fewer bytes left than the one or two it sends does
the same. DEC_START on a window of length 0 raises STREAM_OVERRUN(3) with the window registers set, OVERREAD set,
PTR 3, VALUE 0 and MODE still IDLE. A decode command whose checks have passed and that takes a decision needing a
byte at offset WLEN + 3 has decoded every decision before it, narrows the interval, fetches the bytes there are,
then raises STREAM_OVERRUN with PTR = WLEN + 3; the models of that decision and the destination register stay.
OCC_DEC_PATCH is in ShortStreamsStopPatchDecoding. [60_exceptions.md R223, 60_exceptions.md R224, 60_exceptions.md
R215, 60_exceptions.md R212, 40_session_and_models.md R92, 40_session_and_models.md R94, 41_bit_and_symbol_coding.md
R111, 41_bit_and_symbol_coding.md R113] -/
def Obligations.FullWindowsAndShortStreamsFault : Prop :=
  (∀ (s t : State) (i : Instr) (pre post : List Decision) (d : Decision), s.encReady 0 →
      Encodes s i (pre ++ d :: post) → encDecisions pre s = .ok () t →
      t.wlen.toNat < t.ptr.toNat + renormTurns (d.width t) →
      ∃ u : State, exec i s = .next (u.faulted 4#8 s.wlen (encode i)) ∧
        u = { t with low := u.low, range := u.range, ptr := u.ptr, cb := u.cb } ∧
        t.encodedBy u (d.base t) (d.width t) (t.wlen.toNat - t.ptr.toNat)) ∧
    (∀ (s : State) (ra : Reg), s.encReady 0 →
      let add := if 2 ^ 25 < s.range.toNat then 0x01000000#32 else 0x00800000#32
      let r := if 2 ^ 25 < s.range.toNat then 0x00800000#32 else 0x00008000#32
      s.wlen.toNat < s.ptr.toNat + (if 2 ^ 25 < s.range.toNat then 1 else 2) →
      ∃ u : State, exec (.encStop ra) s = .next (u.faulted 4#8 s.wlen (encode (.encStop ra))) ∧
        u = { s with low := u.low, range := u.range, ptr := u.ptr, cb := u.cb } ∧
        s.encodedBy u add r (s.wlen.toNat - s.ptr.toNat)) ∧
    (∀ (s : State) (ra rb : Reg), s.fault = false → s.mode = .idle → (s.reg ra).toNat ≤ s.params.cbSize →
      s.reg rb = 0#32 →
      exec (.decStart ra rb) s = .next (({ s with
        wbase := s.reg ra, wlen := 0#32, ptr := 3#32, low := 0#32, range := 0xFFFFFFFF#32, value := 0#32,
        overread := true } : State).faulted 5#8 3#32 (encode (.decStart ra rb)))) ∧
    (∀ (s t : State) (i : Instr) (pre post : List Decision) (d : Decision), s.decReady 0 →
      Decodes s i (pre ++ d :: post) → decDecisions pre s = .ok pre t → d.selected t →
      t.wlen.toNat + 3 < t.ptr.toNat + renormTurns (d.width t) →
      ∃ u : State, exec i s = .next (u.faulted 5#8 (s.wlen + 3#32) (encode i)) ∧
        u = { t with range := u.range, value := u.value, ptr := u.ptr, overread := u.overread } ∧
        t.decodedBy u (t.value - d.base t) (d.width t) (t.wlen.toNat + 3 - t.ptr.toNat))

/-- Outside the fault state NOP changes nothing but CMDCNT (and the port's response), LI makes x[ra] the zero-extended
immediate, LIH makes x[ra] the immediate above its old lower half; nothing else changes, in any MODE.
[45_host_support.md R190, 45_host_support.md R191, 45_host_support.md R192] -/
def Obligations.HostSupportRegisterCommands : Prop :=
  ∀ (s : State) (ra : Reg) (imm : BitVec 16), s.fault = false →
    exec .nop s = .next s.counted ∧
      exec (.li ra imm) s = .next (s.setReg ra (BitVec.ofNat 32 imm.toNat)).counted ∧
      exec (.lih ra imm) s =
        .next (s.setReg ra (BitVec.ofNat 32 (imm.toNat * 2 ^ 16 + (s.reg ra).toNat % 2 ^ 16))).counted

/-- Writing register r makes it read the value and leaves every other register and every other piece of state as it was;
no register is hardwired, x0 included. [10_state.md R20, 10_state.md R21] -/
def Obligations.RegisterFileHoldsWhatIsWritten : Prop :=
  ∀ (s : State) (r q : Reg) (v : Word),
    (s.setReg r v).reg q = (if q = r then v else s.reg q) ∧ s.setReg r v = { s with x := (s.setReg r v).x }

/-- For each of the 32 implemented numbers CSRR completes with x[ra] the content of that register before the command
(CMDCNT before its own increment, the CFG registers the parameters, VERSION 0x00010000), and changes nothing else.
[45_host_support.md R193, 10_state.md R35, 10_state.md R36, 10_state.md R38] -/
def Obligations.CsrrReadsEveryCsr : Prop :=
  ∀ (s : State) (ra : Reg) (f : BitVec 8) (v : Word), s.fault = false → (f, v) ∈ csrTable s →
    exec (.csrr ra f) s = .next (s.setReg ra v).counted

/-- Also in the fault state, the observation port reads x[r] for every general register, the content of R35 for every
implemented CSR number, and 0 for every other number. [70_reset_and_hazards.md R245, 10_state.md R35] -/
def Obligations.ObservationPortReads : Prop :=
  ∀ s : State, (∀ r, s.observeReg r = s.reg r) ∧ (∀ f v, (f, v) ∈ csrTable s → s.observeCsr f = v) ∧
    (∀ f, f ∉ (csrTable s).map Prod.fst → s.observeCsr f = 0#32)

/-- With BANK 0 and IDX below N_ABM the six view registers show the bit model slot and 0 for MV_NSYM; with BANK 1, IDX
below N_ADM and an initialised slot they show nsym, total, cyc, left, and dist[K] and cnt[K] (0 when K is not below
nsym); in every other case all six read 0. Reading one by CSRR outside the fault state completes with the same value
and changes nothing else. [R41] -/
def Obligations.ModelViewShowsTheSlot : Prop :=
  ∀ s : State,
    (∀ (ra : Reg) (n : BitVec 8), s.fault = false → n ∈ [0x31#8, 0x32#8, 0x33#8, 0x34#8, 0x35#8, 0x36#8] →
      exec (.csrr ra n) s = .next (s.setReg ra (s.observeCsr n)).counted) ∧
    let idx := s.msel.toNat % 256
    let k := s.msel.toNat / 2 ^ 16 % 256
    let view := [0x31#8, 0x32#8, 0x33#8, 0x34#8, 0x35#8, 0x36#8].map (fun n => (s.observeCsr n).toNat)
    let a := s.abmSlot idx
    let d := s.admSlot idx
    if s.msel.toNat / 256 % 2 = 0 then
      (idx < s.params.nAbm → view = [a.p0.toNat, a.c0.toNat, a.cn.toNat, a.cyc.toNat, a.left.toNat, 0]) ∧
      (s.params.nAbm ≤ idx → view = [0, 0, 0, 0, 0, 0])
    else
      (idx < s.params.nAdm → d.nsym.toNat ≠ 0 → k < d.nsym.toNat → view =
        [(d.dist.getD k 0#15).toNat, (d.cnt.getD k 0#16).toNat, d.total.toNat, d.cyc.toNat, d.left.toNat,
          d.nsym.toNat]) ∧
      (idx < s.params.nAdm → d.nsym.toNat ≠ 0 → d.nsym.toNat ≤ k → view =
        [0, 0, d.total.toNat, d.cyc.toNat, d.left.toNat, d.nsym.toNat]) ∧
      (s.params.nAdm ≤ idx ∨ d.nsym.toNat = 0 → view = [0, 0, 0, 0, 0, 0])

/-- Outside the fault state, in any MODE, CSRW of OCCM, PU0, PV0, PSZU, PSZV, BTPW or BTPH stores x[ra], of PIDX its low
24 bits, of MSEL its bits 7:0, 8 and 23:16, with no other check and no other effect. [45_host_support.md R194,
10_state.md R35, 10_state.md R36, 10_state.md R39, 10_state.md R40] -/
def Obligations.CsrwWritesTheRwCsrs : Prop :=
  ∀ (s : State) (ra : Reg), s.fault = false →
    exec (.csrw ra 0x10#8) s = .next ({ s with occm := s.reg ra } : State).counted ∧
      exec (.csrw ra 0x11#8) s = .next ({ s with pu0 := s.reg ra } : State).counted ∧
      exec (.csrw ra 0x12#8) s = .next ({ s with pv0 := s.reg ra } : State).counted ∧
      exec (.csrw ra 0x13#8) s = .next ({ s with pszu := s.reg ra } : State).counted ∧
      exec (.csrw ra 0x14#8) s = .next ({ s with pszv := s.reg ra } : State).counted ∧
      exec (.csrw ra 0x15#8) s = .next ({ s with btpw := s.reg ra } : State).counted ∧
      exec (.csrw ra 0x16#8) s = .next ({ s with btph := s.reg ra } : State).counted ∧
      exec (.csrw ra 0x17#8) s = .next ({ s with pidx := s.reg ra &&& 0x00FFFFFF#32 } : State).counted ∧
      exec (.csrw ra 0x30#8) s = .next ({ s with msel := s.reg ra &&& 0x00FF01FF#32 } : State).counted

/-- With x[rb] below CB_SIZE, in any MODE, LDCB makes x[ra] the zero-extended byte of CB at x[rb]; STCB makes that byte
x[ra][7:0] and leaves every other byte and every other piece of state as it was. [45_host_support.md R195,
45_host_support.md R196, 20_memory.md R60] -/
def Obligations.CbLoadAndStore : Prop :=
  ∀ (s : State) (ra rb : Reg), s.fault = false → (s.reg rb).toNat < s.params.cbSize →
    exec (.ldcb ra rb) s = .next (s.setReg ra (BitVec.ofNat 32 (s.cbByte (s.reg rb).toNat).toNat)).counted ∧
      ∃ t : State, exec (.stcb ra rb) s = .next t ∧ t = ({ s with cb := t.cb } : State).counted ∧
        (t.cbByte (s.reg rb).toNat).toNat = (s.reg ra).toNat % 256 ∧
        ∀ a, a ≠ (s.reg rb).toNat → t.cbByte a = s.cbByte a

/-- With x[rb] below NBLK, in any MODE, LDBM makes x[ra] the record; STBM makes the record x[ra], with no check of its
fields, and leaves every other record and every other piece of state as it was. [45_host_support.md R197,
45_host_support.md R198, 20_memory.md R54] -/
def Obligations.BmLoadAndStore : Prop :=
  ∀ (s : State) (ra rb : Reg), s.fault = false → (s.reg rb).toNat < s.params.nblk →
    exec (.ldbm ra rb) s = .next (s.setReg ra (s.bmRecord (s.reg rb).toNat)).counted ∧
      ∃ t : State, exec (.stbm ra rb) s = .next t ∧ t = ({ s with bm := t.bm } : State).counted ∧
        t.bmRecord (s.reg rb).toNat = s.reg ra ∧ ∀ a, a ≠ (s.reg rb).toNat → t.bmRecord a = s.bmRecord a

/-- In IDLE with x[ra] + x[rb] <= CB_SIZE in unbounded integers, ENC_START sets the window and interval registers and
MODE ENC; with x[rb] at least 1 DEC_START does so with MODE DEC, PTR 4, VALUE the first four bytes served (0x00
beyond the window) and OVERREAD exactly when x[rb] < 4; otherwise both raise WINDOW_RANGE(x[rb]) precisely. Nothing
else changes. [40_session_and_models.md R90, 40_session_and_models.md R92, 60_exceptions.md R220,
41_bit_and_symbol_coding.md R113] -/
def Obligations.SessionStartsOpenTheWindow : Prop :=
  ∀ (s : State) (ra rb : Reg), s.params.legal → s.fault = false → s.mode = .idle →
    ((s.reg ra).toNat + (s.reg rb).toNat ≤ s.params.cbSize →
      exec (.encStart ra rb) s = .next ({ s with
        wbase := s.reg ra, wlen := s.reg rb, ptr := 0#32, low := 0#32, range := 0xFFFFFFFF#32, value := 0#32,
        overread := false, mode := .enc } : State).counted) ∧
    ((s.reg ra).toNat + (s.reg rb).toNat ≤ s.params.cbSize → 1 ≤ (s.reg rb).toNat →
      exec (.decStart ra rb) s = .next ({ s with
        wbase := s.reg ra, wlen := s.reg rb, ptr := 4#32, low := 0#32, range := 0xFFFFFFFF#32
        value := BitVec.ofNat 32
          (({ s with wbase := s.reg ra, wlen := s.reg rb } : State).servedNumber 0 4)
        overread := decide ((s.reg rb).toNat < 4), mode := .dec } : State).counted) ∧
    (s.params.cbSize < (s.reg ra).toNat + (s.reg rb).toNat →
      faultsPrecisely (.encStart ra rb) s 3#8 (s.reg rb) ∧ faultsPrecisely (.decStart ra rb) s 3#8 (s.reg rb))

/-- In an encode session with room for the bytes it sends, one byte when RANGE > 2^25 and else two, ENC_STOP completes:
one byte is sent after adding 2^24, two after adding 2^23; x[ra] is the new PTR, MODE is IDLE, the bytes and LOW are
the exact shifted sum, and nothing outside the written part of the window changes. [40_session_and_models.md R94,
20_memory.md R53] -/
def Obligations.EncStopWritesTheLastBytes : Prop :=
  ∀ (s : State) (ra : Reg), s.encReady (if 2 ^ 25 < s.range.toNat then 1 else 2) →
    ∃ t : State, exec (.encStop ra) s = .next t ∧
      t = ({ s with x := (s.setReg ra t.ptr).x, low := t.low, range := t.range, ptr := t.ptr, cb := t.cb
                    mode := .idle } : State).counted ∧
      (if 2 ^ 25 < s.range.toNat then s.encodedTo t 0x01000000#32 0x00800000#32 ∧ t.ptr.toNat = s.ptr.toNat + 1
        else s.encodedTo t 0x00800000#32 0x00008000#32 ∧ t.ptr.toNat = s.ptr.toNat + 2)

/-- The word 0x13000000 is DEC_STOP. In decode mode it makes MODE IDLE and changes nothing else: OVERREAD, PTR, VALUE,
RANGE and the memories keep their values, and PTR is not compared with WLEN. In another MODE it raises
SESSION_STATE(MODE) precisely. [R95] -/
def Obligations.DecStopClosesTheSession : Prop :=
  decode 0x13000000#32 = .ok .decStop ∧
    ∀ s : State, s.fault = false →
      (s.mode = .dec → exec .decStop s = .next ({ s with mode := .idle } : State).counted) ∧
      (s.mode = .idle → faultsPrecisely .decStop s 2#8 0#32) ∧
      (s.mode = .enc → faultsPrecisely .decStop s 2#8 1#32)

/-- In any MODE: ABM_RESET of a slot below N_ABM makes it (4096, 1, 2, 4, 4); ADM_INIT of a slot below N_ADM with a size
from 2 to MAXSYM gives the closed form of R98; ADM_RESET of an initialised slot gives that form for its size;
ALL_RESET does both for every slot and leaves uninitialised ones alone. Nothing else changes.
[40_session_and_models.md R97, 40_session_and_models.md R98, 40_session_and_models.md R99, 40_session_and_models.md
R100] -/
def Obligations.ModelResetCommands : Prop :=
  ∀ (s : State) (m : Slot) (f : BitVec 8), s.fault = false →
    (m.toNat < s.params.nAbm → exec (.abmReset m) s =
      .next ({ s with abm := s.abm.set m.toNat ⟨4096#13, 1#14, 2#14, 4#7, 4#7⟩ } : State).counted) ∧
    (m.toNat < s.params.nAdm → 2 ≤ f.toNat → f.toNat ≤ s.params.maxSym → exec (.admInit m f) s =
      .next ({ s with adm := s.adm.set m.toNat (admInitial f) } : State).counted) ∧
    (m.toNat < s.params.nAdm → (s.admSlot m.toNat).nsym ≠ 0#8 → exec (.admReset m) s =
      .next ({ s with adm := s.adm.set m.toNat (admInitial (s.admSlot m.toNat).nsym) } : State).counted) ∧
    exec .allReset s =
      .next ({ s with
        abm := s.abm.map (fun _ => ⟨4096#13, 1#14, 2#14, 4#7, 4#7⟩)
        adm := s.adm.map (fun d => if d.nsym = 0#8 then d else admInitial d.nsym) } : State).counted

/-- In an encode session with x[ra] at most 1 and room for the bytes that renormalisation sends (none when the bit's
part is at least 2^24 wide, one when at least 2^16, else two): with x = p0 * (RANGE >> 13), a 0 keeps the low end
and the width x, a 1 raises the low end by x and keeps RANGE - x; the bytes and LOW are the exact sum shifted by the
bytes sent. ENC_BIT_A uses p0 of ABM[m] held before and then counts the bit in that slot; ENC_BIT_S uses 4096 and
changes no model. Nothing else changes. [41_bit_and_symbol_coding.md R116, 41_bit_and_symbol_coding.md R126,
41_bit_and_symbol_coding.md R127, 41_bit_and_symbol_coding.md R114, 41_bit_and_symbol_coding.md R112] -/
def Obligations.EncodedBitNarrowsTheInterval : Prop :=
  ∀ (s : State) (ra : Reg) (m : Slot), (s.reg ra).toNat ≤ 1 →
    (m.toNat < s.params.nAbm →
      let x := BitVec.ofNat 32 ((s.abmSlot m.toNat).p0.toNat * (s.range.toNat / 2 ^ 13))
      let r := if s.reg ra = 1#32 then s.range - x else x
      s.encReady (renormTurns r) → ∃ t : State, exec (.encBitA ra m) s = .next t ∧
        t = ({ s with low := t.low, range := t.range, ptr := t.ptr, cb := t.cb
                      abm := s.abm.set m.toNat ((s.abmSlot m.toNat).count (decide (s.reg ra = 1#32))) } :
          State).counted ∧
        s.encodedTo t (if s.reg ra = 1#32 then x else 0#32) r) ∧
    (let x := BitVec.ofNat 32 (4096 * (s.range.toNat / 2 ^ 13))
      let r := if s.reg ra = 1#32 then s.range - x else x
      s.encReady (renormTurns r) → ∃ t : State, exec (.encBitS ra) s = .next t ∧
        t = ({ s with low := t.low, range := t.range, ptr := t.ptr, cb := t.cb } : State).counted ∧
        s.encodedTo t (if s.reg ra = 1#32 then x else 0#32) r)

/-- In a decode session that may fetch the bytes renormalisation needs (none when the bit's part is at least 2^24 wide,
one when at least 2^16, else two): with x = p0 * (RANGE >> 13), VALUE >= x gives 1 and leaves VALUE - x in a width
RANGE - x, else 0 with VALUE in a width x; the bytes fetched are those of the window, 0x00 beyond it with OVERREAD
set. x[ra] is the bit. DEC_BIT_A uses and then counts in ABM[m]; DEC_BIT_S uses 4096. Nothing else changes.
[41_bit_and_symbol_coding.md R117, 41_bit_and_symbol_coding.md R128, 41_bit_and_symbol_coding.md R129,
41_bit_and_symbol_coding.md R115, 41_bit_and_symbol_coding.md R113] -/
def Obligations.DecodedBitNarrowsTheInterval : Prop :=
  ∀ (s : State) (ra : Reg) (m : Slot),
    (m.toNat < s.params.nAbm →
      let x := BitVec.ofNat 32 ((s.abmSlot m.toNat).p0.toNat * (s.range.toNat / 2 ^ 13))
      let r := if x ≤ s.value then s.range - x else x
      s.decReady (renormTurns r) → ∃ t : State, exec (.decBitA ra m) s = .next t ∧
        t = ({ s with x := (s.setReg ra (if x ≤ s.value then 1#32 else 0#32)).x
                      range := t.range, value := t.value, ptr := t.ptr, overread := t.overread
                      abm := s.abm.set m.toNat ((s.abmSlot m.toNat).count (decide (x ≤ s.value))) } :
          State).counted ∧
        s.decodedTo t (if x ≤ s.value then s.value - x else s.value) r) ∧
    (let x := BitVec.ofNat 32 (4096 * (s.range.toNat / 2 ^ 13))
      let r := if x ≤ s.value then s.range - x else x
      s.decReady (renormTurns r) → ∃ t : State, exec (.decBitS ra) s = .next t ∧
        t = ({ s with x := (s.setReg ra (if x ≤ s.value then 1#32 else 0#32)).x
                      range := t.range, value := t.value, ptr := t.ptr, overread := t.overread } :
          State).counted ∧
        s.decodedTo t (if x ≤ s.value then s.value - x else s.value) r)

/-- In an encode session with room for the bytes that renormalisation sends, a data model slot in use and x[ra] below
its size: with l = RANGE >> 15 the low end is raised by dist[k] * l and the width is dist[k+1] * l - dist[k] * l,
for the last symbol RANGE - dist[k] * l; the symbol is counted in that slot and nothing else changes.
[41_bit_and_symbol_coding.md R120, 41_bit_and_symbol_coding.md R130, 41_bit_and_symbol_coding.md R114] -/
def Obligations.EncodedSymbolNarrowsTheInterval : Prop :=
  ∀ (s : State) (ra : Reg) (m : Slot), m.toNat < s.params.nAdm →
    (s.reg ra).toNat < (s.admSlot m.toNat).nsym.toNat →
    let k := (s.reg ra).toNat
    let d := s.admSlot m.toNat
    let part := fun j => (d.dist.getD j 0#15).toNat * (s.range.toNat / 2 ^ 15)
    let r := BitVec.ofNat 32 (if k + 1 = d.nsym.toNat then s.range.toNat - part k else part (k + 1) - part k)
    s.encReady (renormTurns r) → ∃ t : State, exec (.encSym ra m) s = .next t ∧
      t = ({ s with low := t.low, range := t.range, ptr := t.ptr, cb := t.cb
                    adm := s.adm.set m.toNat (d.count k) } : State).counted ∧
      s.encodedTo t (BitVec.ofNat 32 (part k)) r

/-- In a decode session with a data model slot in use there is a largest k below nsym with dist[k] * (RANGE >> 15) <=
VALUE. When the bytes may be fetched that renormalisation of its part needs, DEC_SYM completes with x[ra] = k, VALUE
loses that product, the width is that symbol's part (up to RANGE for the last), the symbol is counted in that slot
and nothing else changes. [41_bit_and_symbol_coding.md R121, 41_bit_and_symbol_coding.md R131,
41_bit_and_symbol_coding.md R119, 41_bit_and_symbol_coding.md R115] -/
def Obligations.DecodedSymbolNarrowsTheInterval : Prop :=
  ∀ (s : State) (ra : Reg) (m : Slot), s.decReady 0 → m.toNat < s.params.nAdm →
    (s.admSlot m.toNat).nsym ≠ 0#8 →
    let d := s.admSlot m.toNat
    let part := fun j => (d.dist.getD j 0#15).toNat * (s.range.toNat / 2 ^ 15)
    ∃ k : Nat, (k < d.nsym.toNat ∧ part k ≤ s.value.toNat ∧
        ∀ j, k < j → j < d.nsym.toNat → s.value.toNat < part j) ∧
      let r := BitVec.ofNat 32 (if k + 1 = d.nsym.toNat then s.range.toNat - part k else part (k + 1) - part k)
      s.decReady (renormTurns r) → ∃ t : State, exec (.decSym ra m) s = .next t ∧
        t = ({ s with x := (s.setReg ra (BitVec.ofNat 32 k)).x
                      range := t.range, value := t.value, ptr := t.ptr, overread := t.overread
                      adm := s.adm.set m.toNat (d.count k) } : State).counted ∧
        s.decodedTo t (BitVec.ofNat 32 (s.value.toNat - part k)) r

/-- From an encode session that is ready, any sequence of decisions that fit their models, with room for two bytes each,
is coded without a fault; the session is ready again (the carry bound of R112 holds, the bytes used are at most two
per decision), only the coder registers, the written part of the window and the models change.
[41_bit_and_symbol_coding.md R112, 41_bit_and_symbol_coding.md R114, 40_session_and_models.md R91,
91_not_in_source.md N9] -/
def Obligations.EncodingNeverRunsOffTheWindow : Prop :=
  ∀ (s : State) (ds : List Decision) (spare : Nat), s.encReady (2 * ds.length + spare) → (∀ d ∈ ds, d.fits s) →
    ∃ t : State, encDecisions ds s = .ok () t ∧ t.encReady spare ∧ s.ptr.toNat ≤ t.ptr.toNat ∧
      s.encFrame t

/-- If a fresh encode session performs a sequence of bit and symbol codings and model resets (ABM_RESET, ADM_INIT,
ADM_RESET, ALL_RESET) without a fault and ENC_STOP completes, then a decode session just started on a window that
begins with the payload (of any length at least the returned count, whatever bytes follow), with equal model banks,
performs the mirror sequence without a fault: every decoding returns the value that was coded, and after every step
the model banks of the two sides are equal. [41_bit_and_symbol_coding.md R125, 40_session_and_models.md R96,
41_bit_and_symbol_coding.md R113] -/
def Obligations.DecodingReturnsWhatWasEncoded : Prop :=
  ∀ (s t u d : State) (es : List SessionStep) (ra : Reg),
    s.encReady 0 → s.ptr = 0#32 → s.low = 0#32 → s.range = 0xFFFFFFFF#32 →
    (∀ pre e post v, es = pre ++ e :: post → encSteps pre s = .ok () v → e.fits v) →
    encSteps es s = .ok () t → exec (.encStop ra) t = .next u → u.fault = false →
    d.decReady 0 → d.ptr = 4#32 → d.range = 0xFFFFFFFF#32 → d.value.toNat = d.servedNumber 0 4 →
    d.params = s.params → d.abm = s.abm → d.adm = s.adm → (u.reg ra).toNat ≤ d.wlen.toNat →
    (∀ o, o < (u.reg ra).toNat → d.servedByte o = u.cbByte (u.windowAddr (BitVec.ofNat 32 o))) →
    ∀ pre post, es = pre ++ post → ∃ v w : State, encSteps pre s = .ok () v ∧ decSteps pre d = .ok pre w ∧
      w.abm = v.abm ∧ w.adm = v.adm

/-- In an encode session with f at most 32 and x[ra] below 2^f, whenever the f decisions of its bits from the least
significant up can be coded, ENC_UINT completes and codes exactly these; no byte of CB outside the part of the
window written so far, no model and no other state but LOW, RANGE, PTR and CMDCNT changes; with f = 0 it codes
nothing. With room for two bytes per bit they can be coded. [43_fixed_width.md R160, 43_fixed_width.md R161,
43_fixed_width.md R163] -/
def Obligations.EncUintCodesItsBits : Prop :=
  ∀ (s : State) (ra : Reg) (f : BitVec 8), f.toNat ≤ 32 → (s.reg ra).toNat < 2 ^ f.toNat → s.encReady 0 →
    let ds := uintDecisions (s.reg ra).toNat f.toNat
    (∀ t, encDecisions ds s = .ok () t →
      exec (.encUint ra f) s = .next t.counted ∧ s.encFrame t ∧ t.abm = s.abm ∧ t.adm = s.adm) ∧
    (s.encReady (2 * f.toNat) →
      ∃ t, encDecisions ds s = .ok () t ∧ exec (.encUint ra f) s = .next t.counted)

/-- In a decode session with f at most 32, whenever the next f static decisions are the bits of v from the least
significant up, DEC_UINT completes with x[ra] = v and nothing else but the decoder's registers changes. When two
bytes per bit may be fetched, there is such a v below 2^f. [43_fixed_width.md R160, 43_fixed_width.md R162] -/
def Obligations.DecUintReturnsItsBits : Prop :=
  ∀ (s : State) (ra : Reg) (f : BitVec 8), f.toNat ≤ 32 → s.decReady 0 →
    (∀ (v : Nat) (t : State), v < 2 ^ f.toNat →
      decDecisions (uintDecisions v f.toNat) s = .ok (uintDecisions v f.toNat) t →
      exec (.decUint ra f) s = .next (t.setReg ra (BitVec.ofNat 32 v)).counted ∧
        t = { s with range := t.range, value := t.value, ptr := t.ptr, overread := t.overread }) ∧
    (s.decReady (2 * f.toNat) → ∃ (v : Nat) (t : State), v < 2 ^ f.toNat ∧
      decDecisions (uintDecisions v f.toNat) s = .ok (uintDecisions v f.toNat) t ∧
      exec (.decUint ra f) s = .next (t.setReg ra (BitVec.ofNat 32 v)).counted)

/-- In any MODE ZZENC makes x[ra] the number 2v for v >= 0 and -2v - 1 for v < 0 of the signed v in x[rb], ZZDEC makes
x[ra] the signed u/2 for even u and -(u+1)/2 for odd u; nothing else changes; on 32 bits each is the inverse of the
other. [42_expgolomb_delta.md R141, 42_expgolomb_delta.md R142, 42_expgolomb_delta.md R143] -/
def Obligations.ZigzagCommands : Prop :=
  (∀ (s : State) (ra rb : Reg), s.fault = false → ∃ w u : Word,
      exec (.zzenc ra rb) s = .next (s.setReg ra w).counted ∧
      exec (.zzdec ra rb) s = .next (s.setReg ra u).counted ∧
      (w.toNat : Int) = (if 0 ≤ (s.reg rb).toInt then 2 * (s.reg rb).toInt else -2 * (s.reg rb).toInt - 1) ∧
      u.toInt = (if (s.reg rb).toNat % 2 = 0 then ((s.reg rb).toNat : Int) / 2
        else -(((s.reg rb).toNat : Int) + 1) / 2)) ∧
    (∀ v : Word, unzigzag (zigzag v) = v ∧ zigzag (unzigzag v) = v)

/-- Writing u + 1 as 2^n + r with r < 2^n (u = x[ra] for ENC_EG0, its zig-zag for ENC_SDELTA), in an encode session,
whenever n ones and a zero with ABM[m] and then the n bits of r, most significant first, with the static model can
be coded, the command completes and codes exactly these; registers, every other model and every byte of CB outside
the part of the window written so far are unchanged. With room for two bytes for each of the 2n + 1 decisions they
can be coded. Every 32-bit value is encodable. [42_expgolomb_delta.md R144, 42_expgolomb_delta.md R146,
42_expgolomb_delta.md R148] -/
def Obligations.ExpGolombEncodersCodeTheCodeWord : Prop :=
  ∀ (s : State) (ra : Reg) (m : Slot) (n r : Nat) (i : Instr), m.toNat < s.params.nAbm → r < 2 ^ n →
    s.encReady 0 →
    ((i = .encEg0 ra m ∧ (s.reg ra).toNat + 1 = 2 ^ n + r) ∨
      (i = .encSdelta ra m ∧ (zigzag (s.reg ra)).toNat + 1 = 2 ^ n + r)) →
    (∀ t, encDecisions (egCodeWord m.toNat n r) s = .ok () t →
      exec i s = .next t.counted ∧ s.encFrame t ∧ t.adm = s.adm ∧ ∀ j, j ≠ m.toNat → t.abmSlot j = s.abmSlot j) ∧
    (s.encReady (2 * (2 * n + 1)) →
      ∃ t, encDecisions (egCodeWord m.toNat n r) s = .ok () t ∧ exec i s = .next t.counted)

/-- If the decoder's next decisions are the code word of 2^n + r - 1, r < 2^n, with n at most 32 and r = 0 when n = 32,
then DEC_EG0 completes with that value in x[ra] and DEC_SDELTA with its inverse zig-zag, and the decoder's registers
and ABM[m] are those after these decisions. In particular, when the first decision is 0 (VALUE < p0 * (RANGE >> 13))
and the bytes may be fetched that renormalisation of its part needs, both complete with 0. [42_expgolomb_delta.md
R144, 42_expgolomb_delta.md R145, 42_expgolomb_delta.md R147, 42_expgolomb_delta.md R149] -/
def Obligations.ExpGolombDecodersReturnTheValue : Prop :=
  (∀ (s t : State) (ra : Reg) (m : Slot) (n r : Nat), s.fault = false → s.mode = .dec → m.toNat < s.params.nAbm →
      r < 2 ^ n → (n < 32 ∨ (n = 32 ∧ r = 0)) →
      decDecisions (egCodeWord m.toNat n r) s = .ok (egCodeWord m.toNat n r) t →
      exec (.decEg0 ra m) s = .next (t.setReg ra (BitVec.ofNat 32 (2 ^ n + r - 1))).counted ∧
      exec (.decSdelta ra m) s = .next (t.setReg ra (unzigzag (BitVec.ofNat 32 (2 ^ n + r - 1)))).counted) ∧
    (∀ (s : State) (ra : Reg) (m : Slot), m.toNat < s.params.nAbm →
      s.value.toNat < (s.abmSlot m.toNat).p0.toNat * (s.range.toNat / 2 ^ 13) →
      s.decReady (renormTurns (BitVec.ofNat 32 ((s.abmSlot m.toNat).p0.toNat * (s.range.toNat / 2 ^ 13)))) →
      ∃ t : State, exec (.decEg0 ra m) s = .next t ∧ exec (.decSdelta ra m) s = .next t ∧
        t = ({ s with x := (s.setReg ra 0#32).x
                      range := t.range, value := t.value, ptr := t.ptr, overread := t.overread
                      abm := s.abm.set m.toNat ((s.abmSlot m.toNat).count false) } : State).counted)

/-- If the decoder's next 33 decisions with ABM[m] are all ones, DEC_EG0 and DEC_SDELTA raise CORRUPT_BITSTREAM(33); if
they are 32 ones, a zero and a value part that is not zero, they raise CORRUPT_BITSTREAM(32). The state is the one
after those decisions and x[ra] is not written. [42_expgolomb_delta.md R144, 42_expgolomb_delta.md R145,
60_exceptions.md R225] -/
def Obligations.OverlongCodeWordsAreCorrupt : Prop :=
  ∀ (s t : State) (ra : Reg) (m : Slot) (i : Instr), s.fault = false → s.mode = .dec → m.toNat < s.params.nAbm →
    (i = .decEg0 ra m ∨ i = .decSdelta ra m) →
    (decDecisions (List.replicate 33 (Decision.bitA m.toNat true)) s =
        .ok (List.replicate 33 (Decision.bitA m.toNat true)) t →
      exec i s = .next (t.faulted 8#8 33#32 (encode i))) ∧
    (∀ r : Nat, 0 < r → r < 2 ^ 32 →
      decDecisions (egCodeWord m.toNat 32 r) s = .ok (egCodeWord m.toNat 32 r) t →
      exec i s = .next (t.faulted 8#8 32#32 (encode i)))

/-- In an encode session with a usable binding and a record the syntax can carry (an unoccupied record is always one),
whenever the elements of R171 in order (occupied; interpolate, neighbor - 1 if interpolate, minD1, filling if minD1
> 1 or interpolate) can be coded with the bound models, OCC_ENC_BLK completes and codes exactly these; registers, BM
and every byte of CB outside the part of the window written so far are unchanged. With room for ten bytes they can
be coded. [44_occupancy.md R171, 44_occupancy.md R174, 44_occupancy.md R175] -/
def Obligations.OccEncBlkCodesTheBlock : Prop :=
  ∀ (s : State) (ra : Reg), s.encReady 0 → s.occModelsOk →
    (recOcc (s.reg ra) = true → recCodable (s.reg ra)) →
    let ds := blockDecisions s.occBinding (recOcc (s.reg ra)) (s.reg ra)
    (∀ t, encDecisions ds s = .ok () t → exec (.occEncBlk ra) s = .next t.counted ∧ s.encFrame t) ∧
    (s.encReady 10 → ∃ t, encDecisions ds s = .ok () t ∧ exec (.occEncBlk ra) s = .next t.counted)

/-- In a decode session with a usable binding, whenever the next decisions are the elements by R171 of a canonical
record r with owner 0, OCC_DEC_BLK completes with x[ra] = r, and only the decoder's registers and the models change
besides; BM is not touched. When ten bytes may be fetched, there is such a record. [44_occupancy.md R171,
44_occupancy.md R174, 44_occupancy.md R176, 44_occupancy.md R170] -/
def Obligations.OccDecBlkReturnsACanonicalRecord : Prop :=
  ∀ (s : State) (ra : Reg), s.decReady 0 → s.occModelsOk →
    let ds := fun r => blockDecisions s.occBinding (recOcc r) r
    (∀ (t : State) (r : Word), recCanonical r = true → recOwner r = 0#24 → decDecisions (ds r) s = .ok (ds r) t →
      exec (.occDecBlk ra) s = .next (t.setReg ra r).counted ∧
        t = { s with range := t.range, value := t.value, ptr := t.ptr, overread := t.overread
                     abm := t.abm, adm := t.adm }) ∧
    (s.decReady 10 → ∃ (t : State) (r : Word), recCanonical r = true ∧ recOwner r = 0#24 ∧
      decDecisions (ds r) s = .ok (ds r) t ∧ exec (.occDecBlk ra) s = .next (t.setReg ra r).counted)

/-- In an encode session with a usable binding, a footprint that fits and records of the patch that the syntax can
carry, whenever the elements of every block of the footprint, v0 outer and u0 inner, occupied = 1 exactly for
records with occ 1 and owner PIDX, can be coded, OCC_ENC_PATCH completes and codes exactly these; registers, BM and
every byte of CB outside the part of the window written so far are unchanged. An empty footprint codes nothing. With
room for ten bytes per block they can be coded. (A record that the syntax cannot carry: OutOfRangeOperandsFault.)
[44_occupancy.md R177, 44_occupancy.md R178, 44_occupancy.md R179, 44_occupancy.md R171] -/
def Obligations.OccEncPatchCodesTheFootprint : Prop :=
  ∀ s : State, s.encReady 0 → s.occModelsOk → s.patchFits → s.blocksCodable s.patchBlocks →
    (∀ t, encDecisions s.patchDecisions s = .ok () t →
      exec .occEncPatch s = .next t.counted ∧ s.encFrame t) ∧
    (s.encReady (10 * (s.pszu.toNat * s.pszv.toNat)) →
      ∃ t, encDecisions s.patchDecisions s = .ok () t ∧ exec .occEncPatch s = .next t.counted)

/-- In a decode session with a usable binding and a footprint that fits, whenever the next decisions are the elements of
records r(i) for the blocks i in scan order, OCC_DEC_PATCH completes: the record of an occupied block gets occ 1,
interp and mind1 of r(i), neigh and fill of r(i) when the stream carries them and the old ones otherwise, the old
bit 7 and owner PIDX; an unoccupied block and every record outside the footprint keep theirs; nothing else but the
decoder's registers and the models changes. When ten bytes per block may be fetched, there are such records.
[44_occupancy.md R177, 44_occupancy.md R178, 44_occupancy.md R180, 44_occupancy.md R174] -/
def Obligations.OccDecPatchWritesTheFootprint : Prop :=
  ∀ s : State, s.decReady 0 → s.occModelsOk → s.patchFits →
    let ds := fun r => recordsDecisions s.occBinding r s.patchBlocks
    (∀ (t : State) (r : Nat → Word), (∀ i ∈ s.patchBlocks, recOcc (r i) = true → recCodable (r i)) →
      decDecisions (ds r) s = .ok (ds r) t →
      t = { s with range := t.range, value := t.value, ptr := t.ptr, overread := t.overread
                   abm := t.abm, adm := t.adm } ∧
        ∃ u : State, exec .occDecPatch s = .next u.counted ∧ u = { t with bm := u.bm } ∧
          s.recordsDecoded u r s.patchBlocks) ∧
    (s.decReady (10 * (s.pszu.toNat * s.pszv.toNat)) → ∃ (t u : State) (r : Nat → Word),
      (∀ i ∈ s.patchBlocks, recOcc (r i) = true → recCodable (r i)) ∧ decDecisions (ds r) s = .ok (ds r) t ∧
        exec .occDecPatch s = .next u.counted)

/-- OCC_DEC_PATCH whose checks have passed and that, after decoding the elements of some blocks and some elements of the
next, takes a decision needing a byte at offset WLEN + 3: the records of the blocks decoded before are written as in
OccDecPatchWritesTheFootprint and no other record is, the interval is narrowed and the bytes there are have been
fetched, then STREAM_OVERRUN is raised with PTR = WLEN + 3; the models of that decision and everything else stay.
[60_exceptions.md R224, 60_exceptions.md R215, 60_exceptions.md R212, 44_occupancy.md R180,
41_bit_and_symbol_coding.md R113] -/
def Obligations.ShortStreamsStopPatchDecoding : Prop :=
  ∀ (s t : State) (r : Nat → Word) (done rest : List Nat) (b : Nat) (pre post : List Decision) (d : Decision),
    s.decReady 0 → s.occModelsOk → s.patchFits → s.patchBlocks = done ++ b :: rest →
    (∀ i ∈ done, recOcc (r i) = true → recCodable (r i)) →
    blockDecisions s.occBinding (recOcc (r b)) (r b) = pre ++ d :: post →
    let ds := recordsDecisions s.occBinding r done ++ pre
    decDecisions ds s = .ok ds t → d.selected t → t.wlen.toNat + 3 < t.ptr.toNat + renormTurns (d.width t) →
    ∃ u : State, exec .occDecPatch s = .next (u.faulted 5#8 (s.wlen + 3#32) (encode .occDecPatch)) ∧
      u = { t with range := u.range, value := u.value, ptr := u.ptr, overread := u.overread, bm := u.bm } ∧
      t.decodedBy u (t.value - d.base t) (d.width t) (t.wlen.toNat + 3 - t.ptr.toNat) ∧
      s.recordsDecoded u r done
end

