-- ==== Sys2Proof/Laws/State.lean ====
section
/-! SUPPORT. One lemma per field of State per named update, so that no proof unfolds an update. -/

namespace Sys2Proof.Machine

/-! ### `State.setReg`: `x[r] <- v` -/

@[simp] theorem State.setReg_params (s : State) (r : Reg) (v : Word) : (s.setReg r v).params = s.params := rfl
@[simp] theorem State.setReg_x (s : State) (r : Reg) (v : Word) : (s.setReg r v).x = s.x.set r.toNat v r.isLt := rfl
@[simp] theorem State.setReg_cmdcnt (s : State) (r : Reg) (v : Word) : (s.setReg r v).cmdcnt = s.cmdcnt := rfl
@[simp] theorem State.setReg_fault (s : State) (r : Reg) (v : Word) : (s.setReg r v).fault = s.fault := rfl
@[simp] theorem State.setReg_mode (s : State) (r : Reg) (v : Word) : (s.setReg r v).mode = s.mode := rfl
@[simp] theorem State.setReg_overread (s : State) (r : Reg) (v : Word) : (s.setReg r v).overread = s.overread := rfl
@[simp] theorem State.setReg_fcode (s : State) (r : Reg) (v : Word) : (s.setReg r v).fcode = s.fcode := rfl
@[simp] theorem State.setReg_fcmd (s : State) (r : Reg) (v : Word) : (s.setReg r v).fcmd = s.fcmd := rfl
@[simp] theorem State.setReg_finfo (s : State) (r : Reg) (v : Word) : (s.setReg r v).finfo = s.finfo := rfl
@[simp] theorem State.setReg_fseq (s : State) (r : Reg) (v : Word) : (s.setReg r v).fseq = s.fseq := rfl
@[simp] theorem State.setReg_low (s : State) (r : Reg) (v : Word) : (s.setReg r v).low = s.low := rfl
@[simp] theorem State.setReg_range (s : State) (r : Reg) (v : Word) : (s.setReg r v).range = s.range := rfl
@[simp] theorem State.setReg_value (s : State) (r : Reg) (v : Word) : (s.setReg r v).value = s.value := rfl
@[simp] theorem State.setReg_ptr (s : State) (r : Reg) (v : Word) : (s.setReg r v).ptr = s.ptr := rfl
@[simp] theorem State.setReg_wbase (s : State) (r : Reg) (v : Word) : (s.setReg r v).wbase = s.wbase := rfl
@[simp] theorem State.setReg_wlen (s : State) (r : Reg) (v : Word) : (s.setReg r v).wlen = s.wlen := rfl
@[simp] theorem State.setReg_abm (s : State) (r : Reg) (v : Word) : (s.setReg r v).abm = s.abm := rfl
@[simp] theorem State.setReg_adm (s : State) (r : Reg) (v : Word) : (s.setReg r v).adm = s.adm := rfl
@[simp] theorem State.setReg_occm (s : State) (r : Reg) (v : Word) : (s.setReg r v).occm = s.occm := rfl
@[simp] theorem State.setReg_pu0 (s : State) (r : Reg) (v : Word) : (s.setReg r v).pu0 = s.pu0 := rfl
@[simp] theorem State.setReg_pv0 (s : State) (r : Reg) (v : Word) : (s.setReg r v).pv0 = s.pv0 := rfl
@[simp] theorem State.setReg_pszu (s : State) (r : Reg) (v : Word) : (s.setReg r v).pszu = s.pszu := rfl
@[simp] theorem State.setReg_pszv (s : State) (r : Reg) (v : Word) : (s.setReg r v).pszv = s.pszv := rfl
@[simp] theorem State.setReg_btpw (s : State) (r : Reg) (v : Word) : (s.setReg r v).btpw = s.btpw := rfl
@[simp] theorem State.setReg_btph (s : State) (r : Reg) (v : Word) : (s.setReg r v).btph = s.btph := rfl
@[simp] theorem State.setReg_pidx (s : State) (r : Reg) (v : Word) : (s.setReg r v).pidx = s.pidx := rfl
@[simp] theorem State.setReg_msel (s : State) (r : Reg) (v : Word) : (s.setReg r v).msel = s.msel := rfl
@[simp] theorem State.setReg_cb (s : State) (r : Reg) (v : Word) : (s.setReg r v).cb = s.cb := rfl
@[simp] theorem State.setReg_bm (s : State) (r : Reg) (v : Word) : (s.setReg r v).bm = s.bm := rfl
@[simp] theorem State.setReg_memEpoch (s : State) (r : Reg) (v : Word) : (s.setReg r v).memEpoch = s.memEpoch := rfl
@[simp] theorem State.setReg_port (s : State) (r : Reg) (v : Word) : (s.setReg r v).port = s.port := rfl
@[simp] theorem State.setReg_response (s : State) (r : Reg) (v : Word) : (s.setReg r v).response = s.response := rfl

/-! ### `State.setCbByte`: a byte of CB stored -/

@[simp] theorem State.setCbByte_params (s : State) (a : Nat) (v : Byte) : (s.setCbByte a v).params = s.params := rfl
@[simp] theorem State.setCbByte_x (s : State) (a : Nat) (v : Byte) : (s.setCbByte a v).x = s.x := rfl
@[simp] theorem State.setCbByte_cmdcnt (s : State) (a : Nat) (v : Byte) : (s.setCbByte a v).cmdcnt = s.cmdcnt := rfl
@[simp] theorem State.setCbByte_fault (s : State) (a : Nat) (v : Byte) : (s.setCbByte a v).fault = s.fault := rfl
@[simp] theorem State.setCbByte_mode (s : State) (a : Nat) (v : Byte) : (s.setCbByte a v).mode = s.mode := rfl
@[simp] theorem State.setCbByte_overread (s : State) (a : Nat) (v : Byte) : (s.setCbByte a v).overread = s.overread := rfl
@[simp] theorem State.setCbByte_fcode (s : State) (a : Nat) (v : Byte) : (s.setCbByte a v).fcode = s.fcode := rfl
@[simp] theorem State.setCbByte_fcmd (s : State) (a : Nat) (v : Byte) : (s.setCbByte a v).fcmd = s.fcmd := rfl
@[simp] theorem State.setCbByte_finfo (s : State) (a : Nat) (v : Byte) : (s.setCbByte a v).finfo = s.finfo := rfl
@[simp] theorem State.setCbByte_fseq (s : State) (a : Nat) (v : Byte) : (s.setCbByte a v).fseq = s.fseq := rfl
@[simp] theorem State.setCbByte_low (s : State) (a : Nat) (v : Byte) : (s.setCbByte a v).low = s.low := rfl
@[simp] theorem State.setCbByte_range (s : State) (a : Nat) (v : Byte) : (s.setCbByte a v).range = s.range := rfl
@[simp] theorem State.setCbByte_value (s : State) (a : Nat) (v : Byte) : (s.setCbByte a v).value = s.value := rfl
@[simp] theorem State.setCbByte_ptr (s : State) (a : Nat) (v : Byte) : (s.setCbByte a v).ptr = s.ptr := rfl
@[simp] theorem State.setCbByte_wbase (s : State) (a : Nat) (v : Byte) : (s.setCbByte a v).wbase = s.wbase := rfl
@[simp] theorem State.setCbByte_wlen (s : State) (a : Nat) (v : Byte) : (s.setCbByte a v).wlen = s.wlen := rfl
@[simp] theorem State.setCbByte_abm (s : State) (a : Nat) (v : Byte) : (s.setCbByte a v).abm = s.abm := rfl
@[simp] theorem State.setCbByte_adm (s : State) (a : Nat) (v : Byte) : (s.setCbByte a v).adm = s.adm := rfl
@[simp] theorem State.setCbByte_occm (s : State) (a : Nat) (v : Byte) : (s.setCbByte a v).occm = s.occm := rfl
@[simp] theorem State.setCbByte_pu0 (s : State) (a : Nat) (v : Byte) : (s.setCbByte a v).pu0 = s.pu0 := rfl
@[simp] theorem State.setCbByte_pv0 (s : State) (a : Nat) (v : Byte) : (s.setCbByte a v).pv0 = s.pv0 := rfl
@[simp] theorem State.setCbByte_pszu (s : State) (a : Nat) (v : Byte) : (s.setCbByte a v).pszu = s.pszu := rfl
@[simp] theorem State.setCbByte_pszv (s : State) (a : Nat) (v : Byte) : (s.setCbByte a v).pszv = s.pszv := rfl
@[simp] theorem State.setCbByte_btpw (s : State) (a : Nat) (v : Byte) : (s.setCbByte a v).btpw = s.btpw := rfl
@[simp] theorem State.setCbByte_btph (s : State) (a : Nat) (v : Byte) : (s.setCbByte a v).btph = s.btph := rfl
@[simp] theorem State.setCbByte_pidx (s : State) (a : Nat) (v : Byte) : (s.setCbByte a v).pidx = s.pidx := rfl
@[simp] theorem State.setCbByte_msel (s : State) (a : Nat) (v : Byte) : (s.setCbByte a v).msel = s.msel := rfl
@[simp] theorem State.setCbByte_cb (s : State) (a : Nat) (v : Byte) : (s.setCbByte a v).cb = s.cb.write a v := rfl
@[simp] theorem State.setCbByte_bm (s : State) (a : Nat) (v : Byte) : (s.setCbByte a v).bm = s.bm := rfl
@[simp] theorem State.setCbByte_memEpoch (s : State) (a : Nat) (v : Byte) : (s.setCbByte a v).memEpoch = s.memEpoch := rfl
@[simp] theorem State.setCbByte_port (s : State) (a : Nat) (v : Byte) : (s.setCbByte a v).port = s.port := rfl
@[simp] theorem State.setCbByte_response (s : State) (a : Nat) (v : Byte) : (s.setCbByte a v).response = s.response := rfl

/-! ### `State.setBmRecord`: a record of BM stored -/

@[simp] theorem State.setBmRecord_params (s : State) (i : Nat) (v : Word) : (s.setBmRecord i v).params = s.params := rfl
@[simp] theorem State.setBmRecord_x (s : State) (i : Nat) (v : Word) : (s.setBmRecord i v).x = s.x := rfl
@[simp] theorem State.setBmRecord_cmdcnt (s : State) (i : Nat) (v : Word) : (s.setBmRecord i v).cmdcnt = s.cmdcnt := rfl
@[simp] theorem State.setBmRecord_fault (s : State) (i : Nat) (v : Word) : (s.setBmRecord i v).fault = s.fault := rfl
@[simp] theorem State.setBmRecord_mode (s : State) (i : Nat) (v : Word) : (s.setBmRecord i v).mode = s.mode := rfl
@[simp] theorem State.setBmRecord_overread (s : State) (i : Nat) (v : Word) : (s.setBmRecord i v).overread = s.overread := rfl
@[simp] theorem State.setBmRecord_fcode (s : State) (i : Nat) (v : Word) : (s.setBmRecord i v).fcode = s.fcode := rfl
@[simp] theorem State.setBmRecord_fcmd (s : State) (i : Nat) (v : Word) : (s.setBmRecord i v).fcmd = s.fcmd := rfl
@[simp] theorem State.setBmRecord_finfo (s : State) (i : Nat) (v : Word) : (s.setBmRecord i v).finfo = s.finfo := rfl
@[simp] theorem State.setBmRecord_fseq (s : State) (i : Nat) (v : Word) : (s.setBmRecord i v).fseq = s.fseq := rfl
@[simp] theorem State.setBmRecord_low (s : State) (i : Nat) (v : Word) : (s.setBmRecord i v).low = s.low := rfl
@[simp] theorem State.setBmRecord_range (s : State) (i : Nat) (v : Word) : (s.setBmRecord i v).range = s.range := rfl
@[simp] theorem State.setBmRecord_value (s : State) (i : Nat) (v : Word) : (s.setBmRecord i v).value = s.value := rfl
@[simp] theorem State.setBmRecord_ptr (s : State) (i : Nat) (v : Word) : (s.setBmRecord i v).ptr = s.ptr := rfl
@[simp] theorem State.setBmRecord_wbase (s : State) (i : Nat) (v : Word) : (s.setBmRecord i v).wbase = s.wbase := rfl
@[simp] theorem State.setBmRecord_wlen (s : State) (i : Nat) (v : Word) : (s.setBmRecord i v).wlen = s.wlen := rfl
@[simp] theorem State.setBmRecord_abm (s : State) (i : Nat) (v : Word) : (s.setBmRecord i v).abm = s.abm := rfl
@[simp] theorem State.setBmRecord_adm (s : State) (i : Nat) (v : Word) : (s.setBmRecord i v).adm = s.adm := rfl
@[simp] theorem State.setBmRecord_occm (s : State) (i : Nat) (v : Word) : (s.setBmRecord i v).occm = s.occm := rfl
@[simp] theorem State.setBmRecord_pu0 (s : State) (i : Nat) (v : Word) : (s.setBmRecord i v).pu0 = s.pu0 := rfl
@[simp] theorem State.setBmRecord_pv0 (s : State) (i : Nat) (v : Word) : (s.setBmRecord i v).pv0 = s.pv0 := rfl
@[simp] theorem State.setBmRecord_pszu (s : State) (i : Nat) (v : Word) : (s.setBmRecord i v).pszu = s.pszu := rfl
@[simp] theorem State.setBmRecord_pszv (s : State) (i : Nat) (v : Word) : (s.setBmRecord i v).pszv = s.pszv := rfl
@[simp] theorem State.setBmRecord_btpw (s : State) (i : Nat) (v : Word) : (s.setBmRecord i v).btpw = s.btpw := rfl
@[simp] theorem State.setBmRecord_btph (s : State) (i : Nat) (v : Word) : (s.setBmRecord i v).btph = s.btph := rfl
@[simp] theorem State.setBmRecord_pidx (s : State) (i : Nat) (v : Word) : (s.setBmRecord i v).pidx = s.pidx := rfl
@[simp] theorem State.setBmRecord_msel (s : State) (i : Nat) (v : Word) : (s.setBmRecord i v).msel = s.msel := rfl
@[simp] theorem State.setBmRecord_cb (s : State) (i : Nat) (v : Word) : (s.setBmRecord i v).cb = s.cb := rfl
@[simp] theorem State.setBmRecord_memEpoch (s : State) (i : Nat) (v : Word) : (s.setBmRecord i v).memEpoch = s.memEpoch := rfl
@[simp] theorem State.setBmRecord_port (s : State) (i : Nat) (v : Word) : (s.setBmRecord i v).port = s.port := rfl
@[simp] theorem State.setBmRecord_response (s : State) (i : Nat) (v : Word) : (s.setBmRecord i v).response = s.response := rfl

/-! ### `State.setAbm`: a bit model slot stored -/

@[simp] theorem State.setAbm_params (s : State) (m : Nat) (a : AbmSlot) : (s.setAbm m a).params = s.params := rfl
@[simp] theorem State.setAbm_x (s : State) (m : Nat) (a : AbmSlot) : (s.setAbm m a).x = s.x := rfl
@[simp] theorem State.setAbm_cmdcnt (s : State) (m : Nat) (a : AbmSlot) : (s.setAbm m a).cmdcnt = s.cmdcnt := rfl
@[simp] theorem State.setAbm_fault (s : State) (m : Nat) (a : AbmSlot) : (s.setAbm m a).fault = s.fault := rfl
@[simp] theorem State.setAbm_mode (s : State) (m : Nat) (a : AbmSlot) : (s.setAbm m a).mode = s.mode := rfl
@[simp] theorem State.setAbm_overread (s : State) (m : Nat) (a : AbmSlot) : (s.setAbm m a).overread = s.overread := rfl
@[simp] theorem State.setAbm_fcode (s : State) (m : Nat) (a : AbmSlot) : (s.setAbm m a).fcode = s.fcode := rfl
@[simp] theorem State.setAbm_fcmd (s : State) (m : Nat) (a : AbmSlot) : (s.setAbm m a).fcmd = s.fcmd := rfl
@[simp] theorem State.setAbm_finfo (s : State) (m : Nat) (a : AbmSlot) : (s.setAbm m a).finfo = s.finfo := rfl
@[simp] theorem State.setAbm_fseq (s : State) (m : Nat) (a : AbmSlot) : (s.setAbm m a).fseq = s.fseq := rfl
@[simp] theorem State.setAbm_low (s : State) (m : Nat) (a : AbmSlot) : (s.setAbm m a).low = s.low := rfl
@[simp] theorem State.setAbm_range (s : State) (m : Nat) (a : AbmSlot) : (s.setAbm m a).range = s.range := rfl
@[simp] theorem State.setAbm_value (s : State) (m : Nat) (a : AbmSlot) : (s.setAbm m a).value = s.value := rfl
@[simp] theorem State.setAbm_ptr (s : State) (m : Nat) (a : AbmSlot) : (s.setAbm m a).ptr = s.ptr := rfl
@[simp] theorem State.setAbm_wbase (s : State) (m : Nat) (a : AbmSlot) : (s.setAbm m a).wbase = s.wbase := rfl
@[simp] theorem State.setAbm_wlen (s : State) (m : Nat) (a : AbmSlot) : (s.setAbm m a).wlen = s.wlen := rfl
@[simp] theorem State.setAbm_abm (s : State) (m : Nat) (a : AbmSlot) : (s.setAbm m a).abm = s.abm.set m a := rfl
@[simp] theorem State.setAbm_adm (s : State) (m : Nat) (a : AbmSlot) : (s.setAbm m a).adm = s.adm := rfl
@[simp] theorem State.setAbm_occm (s : State) (m : Nat) (a : AbmSlot) : (s.setAbm m a).occm = s.occm := rfl
@[simp] theorem State.setAbm_pu0 (s : State) (m : Nat) (a : AbmSlot) : (s.setAbm m a).pu0 = s.pu0 := rfl
@[simp] theorem State.setAbm_pv0 (s : State) (m : Nat) (a : AbmSlot) : (s.setAbm m a).pv0 = s.pv0 := rfl
@[simp] theorem State.setAbm_pszu (s : State) (m : Nat) (a : AbmSlot) : (s.setAbm m a).pszu = s.pszu := rfl
@[simp] theorem State.setAbm_pszv (s : State) (m : Nat) (a : AbmSlot) : (s.setAbm m a).pszv = s.pszv := rfl
@[simp] theorem State.setAbm_btpw (s : State) (m : Nat) (a : AbmSlot) : (s.setAbm m a).btpw = s.btpw := rfl
@[simp] theorem State.setAbm_btph (s : State) (m : Nat) (a : AbmSlot) : (s.setAbm m a).btph = s.btph := rfl
@[simp] theorem State.setAbm_pidx (s : State) (m : Nat) (a : AbmSlot) : (s.setAbm m a).pidx = s.pidx := rfl
@[simp] theorem State.setAbm_msel (s : State) (m : Nat) (a : AbmSlot) : (s.setAbm m a).msel = s.msel := rfl
@[simp] theorem State.setAbm_cb (s : State) (m : Nat) (a : AbmSlot) : (s.setAbm m a).cb = s.cb := rfl
@[simp] theorem State.setAbm_bm (s : State) (m : Nat) (a : AbmSlot) : (s.setAbm m a).bm = s.bm := rfl
@[simp] theorem State.setAbm_memEpoch (s : State) (m : Nat) (a : AbmSlot) : (s.setAbm m a).memEpoch = s.memEpoch := rfl
@[simp] theorem State.setAbm_port (s : State) (m : Nat) (a : AbmSlot) : (s.setAbm m a).port = s.port := rfl
@[simp] theorem State.setAbm_response (s : State) (m : Nat) (a : AbmSlot) : (s.setAbm m a).response = s.response := rfl

/-! ### `State.setAdm`: a data model slot stored -/

@[simp] theorem State.setAdm_params (s : State) (j : Nat) (d : AdmSlot) : (s.setAdm j d).params = s.params := rfl
@[simp] theorem State.setAdm_x (s : State) (j : Nat) (d : AdmSlot) : (s.setAdm j d).x = s.x := rfl
@[simp] theorem State.setAdm_cmdcnt (s : State) (j : Nat) (d : AdmSlot) : (s.setAdm j d).cmdcnt = s.cmdcnt := rfl
@[simp] theorem State.setAdm_fault (s : State) (j : Nat) (d : AdmSlot) : (s.setAdm j d).fault = s.fault := rfl
@[simp] theorem State.setAdm_mode (s : State) (j : Nat) (d : AdmSlot) : (s.setAdm j d).mode = s.mode := rfl
@[simp] theorem State.setAdm_overread (s : State) (j : Nat) (d : AdmSlot) : (s.setAdm j d).overread = s.overread := rfl
@[simp] theorem State.setAdm_fcode (s : State) (j : Nat) (d : AdmSlot) : (s.setAdm j d).fcode = s.fcode := rfl
@[simp] theorem State.setAdm_fcmd (s : State) (j : Nat) (d : AdmSlot) : (s.setAdm j d).fcmd = s.fcmd := rfl
@[simp] theorem State.setAdm_finfo (s : State) (j : Nat) (d : AdmSlot) : (s.setAdm j d).finfo = s.finfo := rfl
@[simp] theorem State.setAdm_fseq (s : State) (j : Nat) (d : AdmSlot) : (s.setAdm j d).fseq = s.fseq := rfl
@[simp] theorem State.setAdm_low (s : State) (j : Nat) (d : AdmSlot) : (s.setAdm j d).low = s.low := rfl
@[simp] theorem State.setAdm_range (s : State) (j : Nat) (d : AdmSlot) : (s.setAdm j d).range = s.range := rfl
@[simp] theorem State.setAdm_value (s : State) (j : Nat) (d : AdmSlot) : (s.setAdm j d).value = s.value := rfl
@[simp] theorem State.setAdm_ptr (s : State) (j : Nat) (d : AdmSlot) : (s.setAdm j d).ptr = s.ptr := rfl
@[simp] theorem State.setAdm_wbase (s : State) (j : Nat) (d : AdmSlot) : (s.setAdm j d).wbase = s.wbase := rfl
@[simp] theorem State.setAdm_wlen (s : State) (j : Nat) (d : AdmSlot) : (s.setAdm j d).wlen = s.wlen := rfl
@[simp] theorem State.setAdm_abm (s : State) (j : Nat) (d : AdmSlot) : (s.setAdm j d).abm = s.abm := rfl
@[simp] theorem State.setAdm_adm (s : State) (j : Nat) (d : AdmSlot) : (s.setAdm j d).adm = s.adm.set j d := rfl
@[simp] theorem State.setAdm_occm (s : State) (j : Nat) (d : AdmSlot) : (s.setAdm j d).occm = s.occm := rfl
@[simp] theorem State.setAdm_pu0 (s : State) (j : Nat) (d : AdmSlot) : (s.setAdm j d).pu0 = s.pu0 := rfl
@[simp] theorem State.setAdm_pv0 (s : State) (j : Nat) (d : AdmSlot) : (s.setAdm j d).pv0 = s.pv0 := rfl
@[simp] theorem State.setAdm_pszu (s : State) (j : Nat) (d : AdmSlot) : (s.setAdm j d).pszu = s.pszu := rfl
@[simp] theorem State.setAdm_pszv (s : State) (j : Nat) (d : AdmSlot) : (s.setAdm j d).pszv = s.pszv := rfl
@[simp] theorem State.setAdm_btpw (s : State) (j : Nat) (d : AdmSlot) : (s.setAdm j d).btpw = s.btpw := rfl
@[simp] theorem State.setAdm_btph (s : State) (j : Nat) (d : AdmSlot) : (s.setAdm j d).btph = s.btph := rfl
@[simp] theorem State.setAdm_pidx (s : State) (j : Nat) (d : AdmSlot) : (s.setAdm j d).pidx = s.pidx := rfl
@[simp] theorem State.setAdm_msel (s : State) (j : Nat) (d : AdmSlot) : (s.setAdm j d).msel = s.msel := rfl
@[simp] theorem State.setAdm_cb (s : State) (j : Nat) (d : AdmSlot) : (s.setAdm j d).cb = s.cb := rfl
@[simp] theorem State.setAdm_bm (s : State) (j : Nat) (d : AdmSlot) : (s.setAdm j d).bm = s.bm := rfl
@[simp] theorem State.setAdm_memEpoch (s : State) (j : Nat) (d : AdmSlot) : (s.setAdm j d).memEpoch = s.memEpoch := rfl
@[simp] theorem State.setAdm_port (s : State) (j : Nat) (d : AdmSlot) : (s.setAdm j d).port = s.port := rfl
@[simp] theorem State.setAdm_response (s : State) (j : Nat) (d : AdmSlot) : (s.setAdm j d).response = s.response := rfl

/-! ### `State.openWindow`: the registers of a session that starts -/

@[simp] theorem State.openWindow_params (s : State) (base len : Word) : (s.openWindow base len).params = s.params := rfl
@[simp] theorem State.openWindow_x (s : State) (base len : Word) : (s.openWindow base len).x = s.x := rfl
@[simp] theorem State.openWindow_cmdcnt (s : State) (base len : Word) : (s.openWindow base len).cmdcnt = s.cmdcnt := rfl
@[simp] theorem State.openWindow_fault (s : State) (base len : Word) : (s.openWindow base len).fault = s.fault := rfl
@[simp] theorem State.openWindow_mode (s : State) (base len : Word) : (s.openWindow base len).mode = s.mode := rfl
@[simp] theorem State.openWindow_overread (s : State) (base len : Word) : (s.openWindow base len).overread = false := rfl
@[simp] theorem State.openWindow_fcode (s : State) (base len : Word) : (s.openWindow base len).fcode = s.fcode := rfl
@[simp] theorem State.openWindow_fcmd (s : State) (base len : Word) : (s.openWindow base len).fcmd = s.fcmd := rfl
@[simp] theorem State.openWindow_finfo (s : State) (base len : Word) : (s.openWindow base len).finfo = s.finfo := rfl
@[simp] theorem State.openWindow_fseq (s : State) (base len : Word) : (s.openWindow base len).fseq = s.fseq := rfl
@[simp] theorem State.openWindow_low (s : State) (base len : Word) : (s.openWindow base len).low = 0#32 := rfl
@[simp] theorem State.openWindow_range (s : State) (base len : Word) : (s.openWindow base len).range = maxRange := rfl
@[simp] theorem State.openWindow_value (s : State) (base len : Word) : (s.openWindow base len).value = 0#32 := rfl
@[simp] theorem State.openWindow_ptr (s : State) (base len : Word) : (s.openWindow base len).ptr = 0#32 := rfl
@[simp] theorem State.openWindow_wbase (s : State) (base len : Word) : (s.openWindow base len).wbase = base := rfl
@[simp] theorem State.openWindow_wlen (s : State) (base len : Word) : (s.openWindow base len).wlen = len := rfl
@[simp] theorem State.openWindow_abm (s : State) (base len : Word) : (s.openWindow base len).abm = s.abm := rfl
@[simp] theorem State.openWindow_adm (s : State) (base len : Word) : (s.openWindow base len).adm = s.adm := rfl
@[simp] theorem State.openWindow_occm (s : State) (base len : Word) : (s.openWindow base len).occm = s.occm := rfl
@[simp] theorem State.openWindow_pu0 (s : State) (base len : Word) : (s.openWindow base len).pu0 = s.pu0 := rfl
@[simp] theorem State.openWindow_pv0 (s : State) (base len : Word) : (s.openWindow base len).pv0 = s.pv0 := rfl
@[simp] theorem State.openWindow_pszu (s : State) (base len : Word) : (s.openWindow base len).pszu = s.pszu := rfl
@[simp] theorem State.openWindow_pszv (s : State) (base len : Word) : (s.openWindow base len).pszv = s.pszv := rfl
@[simp] theorem State.openWindow_btpw (s : State) (base len : Word) : (s.openWindow base len).btpw = s.btpw := rfl
@[simp] theorem State.openWindow_btph (s : State) (base len : Word) : (s.openWindow base len).btph = s.btph := rfl
@[simp] theorem State.openWindow_pidx (s : State) (base len : Word) : (s.openWindow base len).pidx = s.pidx := rfl
@[simp] theorem State.openWindow_msel (s : State) (base len : Word) : (s.openWindow base len).msel = s.msel := rfl
@[simp] theorem State.openWindow_cb (s : State) (base len : Word) : (s.openWindow base len).cb = s.cb := rfl
@[simp] theorem State.openWindow_bm (s : State) (base len : Word) : (s.openWindow base len).bm = s.bm := rfl
@[simp] theorem State.openWindow_memEpoch (s : State) (base len : Word) : (s.openWindow base len).memEpoch = s.memEpoch := rfl
@[simp] theorem State.openWindow_port (s : State) (base len : Word) : (s.openWindow base len).port = s.port := rfl
@[simp] theorem State.openWindow_response (s : State) (base len : Word) : (s.openWindow base len).response = s.response := rfl

/-! ### `State.resetModels`: `ALL_RESET` of both banks -/

@[simp] theorem State.resetModels_params (s : State) : s.resetModels.params = s.params := rfl
@[simp] theorem State.resetModels_x (s : State) : s.resetModels.x = s.x := rfl
@[simp] theorem State.resetModels_cmdcnt (s : State) : s.resetModels.cmdcnt = s.cmdcnt := rfl
@[simp] theorem State.resetModels_fault (s : State) : s.resetModels.fault = s.fault := rfl
@[simp] theorem State.resetModels_mode (s : State) : s.resetModels.mode = s.mode := rfl
@[simp] theorem State.resetModels_overread (s : State) : s.resetModels.overread = s.overread := rfl
@[simp] theorem State.resetModels_fcode (s : State) : s.resetModels.fcode = s.fcode := rfl
@[simp] theorem State.resetModels_fcmd (s : State) : s.resetModels.fcmd = s.fcmd := rfl
@[simp] theorem State.resetModels_finfo (s : State) : s.resetModels.finfo = s.finfo := rfl
@[simp] theorem State.resetModels_fseq (s : State) : s.resetModels.fseq = s.fseq := rfl
@[simp] theorem State.resetModels_low (s : State) : s.resetModels.low = s.low := rfl
@[simp] theorem State.resetModels_range (s : State) : s.resetModels.range = s.range := rfl
@[simp] theorem State.resetModels_value (s : State) : s.resetModels.value = s.value := rfl
@[simp] theorem State.resetModels_ptr (s : State) : s.resetModels.ptr = s.ptr := rfl
@[simp] theorem State.resetModels_wbase (s : State) : s.resetModels.wbase = s.wbase := rfl
@[simp] theorem State.resetModels_wlen (s : State) : s.resetModels.wlen = s.wlen := rfl
@[simp] theorem State.resetModels_abm (s : State) : s.resetModels.abm = s.abm.map (fun _ => AbmSlot.fresh) := rfl
@[simp] theorem State.resetModels_adm (s : State) : s.resetModels.adm = s.adm.map AdmSlot.resetIfInit := rfl
@[simp] theorem State.resetModels_occm (s : State) : s.resetModels.occm = s.occm := rfl
@[simp] theorem State.resetModels_pu0 (s : State) : s.resetModels.pu0 = s.pu0 := rfl
@[simp] theorem State.resetModels_pv0 (s : State) : s.resetModels.pv0 = s.pv0 := rfl
@[simp] theorem State.resetModels_pszu (s : State) : s.resetModels.pszu = s.pszu := rfl
@[simp] theorem State.resetModels_pszv (s : State) : s.resetModels.pszv = s.pszv := rfl
@[simp] theorem State.resetModels_btpw (s : State) : s.resetModels.btpw = s.btpw := rfl
@[simp] theorem State.resetModels_btph (s : State) : s.resetModels.btph = s.btph := rfl
@[simp] theorem State.resetModels_pidx (s : State) : s.resetModels.pidx = s.pidx := rfl
@[simp] theorem State.resetModels_msel (s : State) : s.resetModels.msel = s.msel := rfl
@[simp] theorem State.resetModels_cb (s : State) : s.resetModels.cb = s.cb := rfl
@[simp] theorem State.resetModels_bm (s : State) : s.resetModels.bm = s.bm := rfl
@[simp] theorem State.resetModels_memEpoch (s : State) : s.resetModels.memEpoch = s.memEpoch := rfl
@[simp] theorem State.resetModels_port (s : State) : s.resetModels.port = s.port := rfl
@[simp] theorem State.resetModels_response (s : State) : s.resetModels.response = s.response := rfl

/-! ### `State.refuse`: a refusal -/

@[simp] theorem State.refuse_params (s : State) : s.refuse.params = s.params := rfl
@[simp] theorem State.refuse_x (s : State) : s.refuse.x = s.x := rfl
@[simp] theorem State.refuse_cmdcnt (s : State) : s.refuse.cmdcnt = s.cmdcnt := rfl
@[simp] theorem State.refuse_fault (s : State) : s.refuse.fault = s.fault := rfl
@[simp] theorem State.refuse_mode (s : State) : s.refuse.mode = s.mode := rfl
@[simp] theorem State.refuse_overread (s : State) : s.refuse.overread = s.overread := rfl
@[simp] theorem State.refuse_fcode (s : State) : s.refuse.fcode = s.fcode := rfl
@[simp] theorem State.refuse_fcmd (s : State) : s.refuse.fcmd = s.fcmd := rfl
@[simp] theorem State.refuse_finfo (s : State) : s.refuse.finfo = s.finfo := rfl
@[simp] theorem State.refuse_fseq (s : State) : s.refuse.fseq = s.fseq := rfl
@[simp] theorem State.refuse_low (s : State) : s.refuse.low = s.low := rfl
@[simp] theorem State.refuse_range (s : State) : s.refuse.range = s.range := rfl
@[simp] theorem State.refuse_value (s : State) : s.refuse.value = s.value := rfl
@[simp] theorem State.refuse_ptr (s : State) : s.refuse.ptr = s.ptr := rfl
@[simp] theorem State.refuse_wbase (s : State) : s.refuse.wbase = s.wbase := rfl
@[simp] theorem State.refuse_wlen (s : State) : s.refuse.wlen = s.wlen := rfl
@[simp] theorem State.refuse_abm (s : State) : s.refuse.abm = s.abm := rfl
@[simp] theorem State.refuse_adm (s : State) : s.refuse.adm = s.adm := rfl
@[simp] theorem State.refuse_occm (s : State) : s.refuse.occm = s.occm := rfl
@[simp] theorem State.refuse_pu0 (s : State) : s.refuse.pu0 = s.pu0 := rfl
@[simp] theorem State.refuse_pv0 (s : State) : s.refuse.pv0 = s.pv0 := rfl
@[simp] theorem State.refuse_pszu (s : State) : s.refuse.pszu = s.pszu := rfl
@[simp] theorem State.refuse_pszv (s : State) : s.refuse.pszv = s.pszv := rfl
@[simp] theorem State.refuse_btpw (s : State) : s.refuse.btpw = s.btpw := rfl
@[simp] theorem State.refuse_btph (s : State) : s.refuse.btph = s.btph := rfl
@[simp] theorem State.refuse_pidx (s : State) : s.refuse.pidx = s.pidx := rfl
@[simp] theorem State.refuse_msel (s : State) : s.refuse.msel = s.msel := rfl
@[simp] theorem State.refuse_cb (s : State) : s.refuse.cb = s.cb := rfl
@[simp] theorem State.refuse_bm (s : State) : s.refuse.bm = s.bm := rfl
@[simp] theorem State.refuse_memEpoch (s : State) : s.refuse.memEpoch = s.memEpoch := rfl
@[simp] theorem State.refuse_port (s : State) : s.refuse.port = s.port := rfl
@[simp] theorem State.refuse_response (s : State) : s.refuse.response = some .refused := rfl

/-! ### `State.complete`: completion -/

@[simp] theorem State.complete_params (s : State) : s.complete.params = s.params := rfl
@[simp] theorem State.complete_x (s : State) : s.complete.x = s.x := rfl
@[simp] theorem State.complete_cmdcnt (s : State) : s.complete.cmdcnt = s.cmdcnt + 1#32 := rfl
@[simp] theorem State.complete_fault (s : State) : s.complete.fault = s.fault := rfl
@[simp] theorem State.complete_mode (s : State) : s.complete.mode = s.mode := rfl
@[simp] theorem State.complete_overread (s : State) : s.complete.overread = s.overread := rfl
@[simp] theorem State.complete_fcode (s : State) : s.complete.fcode = s.fcode := rfl
@[simp] theorem State.complete_fcmd (s : State) : s.complete.fcmd = s.fcmd := rfl
@[simp] theorem State.complete_finfo (s : State) : s.complete.finfo = s.finfo := rfl
@[simp] theorem State.complete_fseq (s : State) : s.complete.fseq = s.fseq := rfl
@[simp] theorem State.complete_low (s : State) : s.complete.low = s.low := rfl
@[simp] theorem State.complete_range (s : State) : s.complete.range = s.range := rfl
@[simp] theorem State.complete_value (s : State) : s.complete.value = s.value := rfl
@[simp] theorem State.complete_ptr (s : State) : s.complete.ptr = s.ptr := rfl
@[simp] theorem State.complete_wbase (s : State) : s.complete.wbase = s.wbase := rfl
@[simp] theorem State.complete_wlen (s : State) : s.complete.wlen = s.wlen := rfl
@[simp] theorem State.complete_abm (s : State) : s.complete.abm = s.abm := rfl
@[simp] theorem State.complete_adm (s : State) : s.complete.adm = s.adm := rfl
@[simp] theorem State.complete_occm (s : State) : s.complete.occm = s.occm := rfl
@[simp] theorem State.complete_pu0 (s : State) : s.complete.pu0 = s.pu0 := rfl
@[simp] theorem State.complete_pv0 (s : State) : s.complete.pv0 = s.pv0 := rfl
@[simp] theorem State.complete_pszu (s : State) : s.complete.pszu = s.pszu := rfl
@[simp] theorem State.complete_pszv (s : State) : s.complete.pszv = s.pszv := rfl
@[simp] theorem State.complete_btpw (s : State) : s.complete.btpw = s.btpw := rfl
@[simp] theorem State.complete_btph (s : State) : s.complete.btph = s.btph := rfl
@[simp] theorem State.complete_pidx (s : State) : s.complete.pidx = s.pidx := rfl
@[simp] theorem State.complete_msel (s : State) : s.complete.msel = s.msel := rfl
@[simp] theorem State.complete_cb (s : State) : s.complete.cb = s.cb := rfl
@[simp] theorem State.complete_bm (s : State) : s.complete.bm = s.bm := rfl
@[simp] theorem State.complete_memEpoch (s : State) : s.complete.memEpoch = s.memEpoch := rfl
@[simp] theorem State.complete_port (s : State) : s.complete.port = s.port := rfl
@[simp] theorem State.complete_response (s : State) : s.complete.response = some .done := rfl

/-! ### `State.faultEntry`: the fault entry -/

@[simp] theorem State.faultEntry_params (s : State) (f : FaultKind) (info cw : Word) : (s.faultEntry f info cw).params = s.params := rfl
@[simp] theorem State.faultEntry_x (s : State) (f : FaultKind) (info cw : Word) : (s.faultEntry f info cw).x = s.x := rfl
@[simp] theorem State.faultEntry_cmdcnt (s : State) (f : FaultKind) (info cw : Word) : (s.faultEntry f info cw).cmdcnt = s.cmdcnt := rfl
@[simp] theorem State.faultEntry_fault (s : State) (f : FaultKind) (info cw : Word) : (s.faultEntry f info cw).fault = true := rfl
@[simp] theorem State.faultEntry_mode (s : State) (f : FaultKind) (info cw : Word) : (s.faultEntry f info cw).mode = s.mode := rfl
@[simp] theorem State.faultEntry_overread (s : State) (f : FaultKind) (info cw : Word) : (s.faultEntry f info cw).overread = s.overread := rfl
@[simp] theorem State.faultEntry_fcode (s : State) (f : FaultKind) (info cw : Word) : (s.faultEntry f info cw).fcode = f.code := rfl
@[simp] theorem State.faultEntry_fcmd (s : State) (f : FaultKind) (info cw : Word) : (s.faultEntry f info cw).fcmd = cw := rfl
@[simp] theorem State.faultEntry_finfo (s : State) (f : FaultKind) (info cw : Word) : (s.faultEntry f info cw).finfo = info := rfl
@[simp] theorem State.faultEntry_fseq (s : State) (f : FaultKind) (info cw : Word) : (s.faultEntry f info cw).fseq = s.cmdcnt := rfl
@[simp] theorem State.faultEntry_low (s : State) (f : FaultKind) (info cw : Word) : (s.faultEntry f info cw).low = s.low := rfl
@[simp] theorem State.faultEntry_range (s : State) (f : FaultKind) (info cw : Word) : (s.faultEntry f info cw).range = s.range := rfl
@[simp] theorem State.faultEntry_value (s : State) (f : FaultKind) (info cw : Word) : (s.faultEntry f info cw).value = s.value := rfl
@[simp] theorem State.faultEntry_ptr (s : State) (f : FaultKind) (info cw : Word) : (s.faultEntry f info cw).ptr = s.ptr := rfl
@[simp] theorem State.faultEntry_wbase (s : State) (f : FaultKind) (info cw : Word) : (s.faultEntry f info cw).wbase = s.wbase := rfl
@[simp] theorem State.faultEntry_wlen (s : State) (f : FaultKind) (info cw : Word) : (s.faultEntry f info cw).wlen = s.wlen := rfl
@[simp] theorem State.faultEntry_abm (s : State) (f : FaultKind) (info cw : Word) : (s.faultEntry f info cw).abm = s.abm := rfl
@[simp] theorem State.faultEntry_adm (s : State) (f : FaultKind) (info cw : Word) : (s.faultEntry f info cw).adm = s.adm := rfl
@[simp] theorem State.faultEntry_occm (s : State) (f : FaultKind) (info cw : Word) : (s.faultEntry f info cw).occm = s.occm := rfl
@[simp] theorem State.faultEntry_pu0 (s : State) (f : FaultKind) (info cw : Word) : (s.faultEntry f info cw).pu0 = s.pu0 := rfl
@[simp] theorem State.faultEntry_pv0 (s : State) (f : FaultKind) (info cw : Word) : (s.faultEntry f info cw).pv0 = s.pv0 := rfl
@[simp] theorem State.faultEntry_pszu (s : State) (f : FaultKind) (info cw : Word) : (s.faultEntry f info cw).pszu = s.pszu := rfl
@[simp] theorem State.faultEntry_pszv (s : State) (f : FaultKind) (info cw : Word) : (s.faultEntry f info cw).pszv = s.pszv := rfl
@[simp] theorem State.faultEntry_btpw (s : State) (f : FaultKind) (info cw : Word) : (s.faultEntry f info cw).btpw = s.btpw := rfl
@[simp] theorem State.faultEntry_btph (s : State) (f : FaultKind) (info cw : Word) : (s.faultEntry f info cw).btph = s.btph := rfl
@[simp] theorem State.faultEntry_pidx (s : State) (f : FaultKind) (info cw : Word) : (s.faultEntry f info cw).pidx = s.pidx := rfl
@[simp] theorem State.faultEntry_msel (s : State) (f : FaultKind) (info cw : Word) : (s.faultEntry f info cw).msel = s.msel := rfl
@[simp] theorem State.faultEntry_cb (s : State) (f : FaultKind) (info cw : Word) : (s.faultEntry f info cw).cb = s.cb := rfl
@[simp] theorem State.faultEntry_bm (s : State) (f : FaultKind) (info cw : Word) : (s.faultEntry f info cw).bm = s.bm := rfl
@[simp] theorem State.faultEntry_memEpoch (s : State) (f : FaultKind) (info cw : Word) : (s.faultEntry f info cw).memEpoch = s.memEpoch := rfl
@[simp] theorem State.faultEntry_port (s : State) (f : FaultKind) (info cw : Word) : (s.faultEntry f info cw).port = s.port := rfl
@[simp] theorem State.faultEntry_response (s : State) (f : FaultKind) (info cw : Word) : (s.faultEntry f info cw).response = some .faulted := rfl

/-! ### `State.present`: a word presented -/

@[simp] theorem State.present_params (s : State) (cw : Word) : (s.present cw).params = s.params := rfl
@[simp] theorem State.present_x (s : State) (cw : Word) : (s.present cw).x = s.x := rfl
@[simp] theorem State.present_cmdcnt (s : State) (cw : Word) : (s.present cw).cmdcnt = s.cmdcnt := rfl
@[simp] theorem State.present_fault (s : State) (cw : Word) : (s.present cw).fault = s.fault := rfl
@[simp] theorem State.present_mode (s : State) (cw : Word) : (s.present cw).mode = s.mode := rfl
@[simp] theorem State.present_overread (s : State) (cw : Word) : (s.present cw).overread = s.overread := rfl
@[simp] theorem State.present_fcode (s : State) (cw : Word) : (s.present cw).fcode = s.fcode := rfl
@[simp] theorem State.present_fcmd (s : State) (cw : Word) : (s.present cw).fcmd = s.fcmd := rfl
@[simp] theorem State.present_finfo (s : State) (cw : Word) : (s.present cw).finfo = s.finfo := rfl
@[simp] theorem State.present_fseq (s : State) (cw : Word) : (s.present cw).fseq = s.fseq := rfl
@[simp] theorem State.present_low (s : State) (cw : Word) : (s.present cw).low = s.low := rfl
@[simp] theorem State.present_range (s : State) (cw : Word) : (s.present cw).range = s.range := rfl
@[simp] theorem State.present_value (s : State) (cw : Word) : (s.present cw).value = s.value := rfl
@[simp] theorem State.present_ptr (s : State) (cw : Word) : (s.present cw).ptr = s.ptr := rfl
@[simp] theorem State.present_wbase (s : State) (cw : Word) : (s.present cw).wbase = s.wbase := rfl
@[simp] theorem State.present_wlen (s : State) (cw : Word) : (s.present cw).wlen = s.wlen := rfl
@[simp] theorem State.present_abm (s : State) (cw : Word) : (s.present cw).abm = s.abm := rfl
@[simp] theorem State.present_adm (s : State) (cw : Word) : (s.present cw).adm = s.adm := rfl
@[simp] theorem State.present_occm (s : State) (cw : Word) : (s.present cw).occm = s.occm := rfl
@[simp] theorem State.present_pu0 (s : State) (cw : Word) : (s.present cw).pu0 = s.pu0 := rfl
@[simp] theorem State.present_pv0 (s : State) (cw : Word) : (s.present cw).pv0 = s.pv0 := rfl
@[simp] theorem State.present_pszu (s : State) (cw : Word) : (s.present cw).pszu = s.pszu := rfl
@[simp] theorem State.present_pszv (s : State) (cw : Word) : (s.present cw).pszv = s.pszv := rfl
@[simp] theorem State.present_btpw (s : State) (cw : Word) : (s.present cw).btpw = s.btpw := rfl
@[simp] theorem State.present_btph (s : State) (cw : Word) : (s.present cw).btph = s.btph := rfl
@[simp] theorem State.present_pidx (s : State) (cw : Word) : (s.present cw).pidx = s.pidx := rfl
@[simp] theorem State.present_msel (s : State) (cw : Word) : (s.present cw).msel = s.msel := rfl
@[simp] theorem State.present_cb (s : State) (cw : Word) : (s.present cw).cb = s.cb := rfl
@[simp] theorem State.present_bm (s : State) (cw : Word) : (s.present cw).bm = s.bm := rfl
@[simp] theorem State.present_memEpoch (s : State) (cw : Word) : (s.present cw).memEpoch = s.memEpoch := rfl
@[simp] theorem State.present_port (s : State) (cw : Word) : (s.present cw).port = .issue cw :: s.port := rfl
@[simp] theorem State.present_response (s : State) (cw : Word) : (s.present cw).response = s.response := rfl

end Sys2Proof.Machine
end

