-- ==== Sys2Proof/Laws/Memory.lean ====
section
/-! SUPPORT. The laws of the two memories: a read after a write, and the canonical form. -/

namespace Sys2Proof.Machine

/-! ### Lists of cells -/

/-- A read delivers the byte just written, also of a list that is not canonical. -/
@[simp] theorem Memory.read?_write_self (m : Memory) (a : Nat) (v : Byte) :
    Memory.read? (Memory.write m a v) a = some v := by
  induction m with
  | nil => simp [Memory.write, Memory.read?]
  | cons c rest ih =>
    obtain ⟨k, b⟩ := c
    unfold Memory.write
    split
    · simp [Memory.read?]
    · split
      · simp [Memory.read?]
      · rename_i _ hne
        simpa [Memory.read?, Ne.symm hne] using ih

/-- A write leaves every other address alone. -/
theorem Memory.read?_write_of_ne (m : Memory) {a b : Nat} (v : Byte) (h : b ≠ a) :
    Memory.read? (Memory.write m a v) b = Memory.read? m b := by
  induction m with
  | nil => simp [Memory.write, Memory.read?, Ne.symm h]
  | cons c rest ih =>
    obtain ⟨k, w⟩ := c
    unfold Memory.write
    split
    · simp [Memory.read?, Ne.symm h]
    · split
      · rename_i _ heq
        subst heq
        simp [Memory.read?, Ne.symm h]
      · simp only [Memory.read?, ih]

/-- The addresses listed after a write. -/
theorem Memory.mem_write {m : Memory} {a : Nat} {v : Byte} {c : Host.Cell} (h : c ∈ Memory.write m a v) :
    c = (a, v) ∨ c ∈ m := by
  induction m with
  | nil => simpa [Memory.write] using h
  | cons d rest ih =>
    obtain ⟨k, b⟩ := d
    unfold Memory.write at h
    split at h
    · simpa using h
    · split at h
      · rcases List.mem_cons.mp h with h | h
        · exact .inl h
        · exact .inr (List.mem_cons_of_mem _ h)
      · rcases List.mem_cons.mp h with h | h
        · exact .inr (h ▸ List.mem_cons_self)
        · exact (ih h).imp id (List.mem_cons_of_mem _)

/-- The empty memory is in the canonical form. -/
theorem Memory.wf_nil : Memory.wf [] := List.Pairwise.nil

/-- A write keeps the canonical form. -/
theorem Memory.wf_write {m : Memory} (a : Nat) (v : Byte) (h : m.wf) : (Memory.write m a v).wf := by
  induction m with
  | nil => simp [Memory.write, Memory.wf]
  | cons c rest ih =>
    obtain ⟨k, b⟩ := c
    obtain ⟨hk, hrest⟩ := List.pairwise_cons.mp h
    unfold Memory.write
    split
    · rename_i hlt
      refine List.pairwise_cons.mpr ⟨fun d hd => ?_, h⟩
      rcases List.mem_cons.mp hd with rfl | hd
      · exact hlt
      · exact Nat.lt_trans hlt (hk d hd)
    · split
      · rename_i _ heq
        subst heq
        exact List.pairwise_cons.mpr ⟨hk, hrest⟩
      · refine List.pairwise_cons.mpr ⟨fun d hd => ?_, ih hrest⟩
        rcases Memory.mem_write hd with rfl | hd
        · show k < a
          omega
        · exact hk d hd

/-- A write inside a space lists nothing outside it. -/
theorem Memory.bounded_write {m : Memory} {a n : Nat} (v : Byte) (ha : a < n) (h : ∀ c ∈ m, c.1 < n) :
    ∀ c ∈ Memory.write m a v, c.1 < n := fun c hc => by
  rcases Memory.mem_write hc with rfl | hc
  · exact ha
  · exact h c hc

/-- In the canonical form the cell of an address is the one the memory reads. -/
theorem Memory.read?_eq_some_of_mem {m : Memory} (hw : m.wf) {a : Nat} {v : Byte} (h : (a, v) ∈ m) :
    Memory.read? m a = some v := by
  induction m with
  | nil => cases h
  | cons c rest ih =>
    obtain ⟨k, b⟩ := c
    obtain ⟨hk, hrest⟩ := List.pairwise_cons.mp hw
    rcases List.mem_cons.mp h with h | h
    · cases h
      simp [Memory.read?]
    · have hlt : k < a := hk _ h
      simpa [Memory.read?, Nat.ne_of_lt hlt] using ih hrest h

/-- A byte that is read is listed. -/
theorem Memory.mem_of_read?_eq_some {m : Memory} {a : Nat} {v : Byte} (h : Memory.read? m a = some v) :
    (a, v) ∈ m := by
  induction m with
  | nil => cases h
  | cons c rest ih =>
    obtain ⟨k, b⟩ := c
    simp only [Memory.read?] at h
    split at h
    · rename_i hk
      cases h
      exact hk ▸ List.mem_cons_self
    · exact List.mem_cons_of_mem _ (ih h)

/-- Two canonical memories that read the same everywhere are equal. -/
theorem Memory.ext_read? {m n : Memory} (hm : m.wf) (hn : n.wf)
    (h : ∀ a, Memory.read? m a = Memory.read? n a) : m = n := by
  have key : ∀ c : Host.Cell, c ∈ m ↔ c ∈ n := fun c => by
    constructor
    · intro hc
      exact Memory.mem_of_read?_eq_some ((h c.1).symm.trans (Memory.read?_eq_some_of_mem hm hc))
    · intro hc
      exact Memory.mem_of_read?_eq_some ((h c.1).trans (Memory.read?_eq_some_of_mem hn hc))
  have anti : ∀ {a b : Host.Cell}, a.1 < b.1 → b.1 < a.1 → a = b := fun hab hba => absurd hab (Nat.lt_asymm hba)
  exact ((List.perm_ext_iff_of_nodup (hm.imp (fun h => fun e => absurd (e ▸ h) (Nat.lt_irrefl _)))
    (hn.imp (fun h => fun e => absurd (e ▸ h) (Nat.lt_irrefl _)))).mpr key).eq_of_pairwise
    (fun a b _ _ hab hba => anti hab hba) hm hn

/-! ### CB -/

@[simp] theorem State.setCbByte_cbByte_self (s : State) (a : Nat) (v : Byte) : (s.setCbByte a v).cbByte a = v := by
  simp [State.cbByte]

theorem State.setCbByte_cbByte_of_ne (s : State) {a b : Nat} (v : Byte) (h : b ≠ a) :
    (s.setCbByte a v).cbByte b = s.cbByte b := by
  simp [State.cbByte, Memory.read?_write_of_ne s.cb v h]

theorem State.setCbByte_cbByte (s : State) (a b : Nat) (v : Byte) :
    (s.setCbByte a v).cbByte b = if b = a then v else s.cbByte b := by
  split
  · rename_i h
    simp [h]
  · rename_i h
    exact s.setCbByte_cbByte_of_ne v h

theorem State.setCbByte_cb_wf {s : State} (a : Nat) (v : Byte) (h : s.cb.wf) : (s.setCbByte a v).cb.wf :=
  Memory.wf_write a v h

/-- Two states with the same CB list and epoch show the same bytes of CB. -/
theorem State.cbByte_congr {s t : State} (hm : t.cb = s.cb) (he : t.memEpoch = s.memEpoch) (a : Nat) :
    t.cbByte a = s.cbByte a := by
  simp [State.cbByte, hm, he]

/-! ### BM -/

/-- The four bytes of a word, put together again. -/
theorem word_of_bytes (v : Word) :
    v.extractLsb' 24 8 ++ v.extractLsb' 16 8 ++ v.extractLsb' 8 8 ++ v.extractLsb' 0 8 = v := by
  apply BitVec.eq_of_getLsbD_eq
  intro i hi
  simp only [BitVec.getLsbD_append, BitVec.getLsbD_extractLsb']
  by_cases h0 : i < 8
  · simp [h0]
  · by_cases h1 : i - 8 < 8
    · simp only [h0, h1, if_true, if_false, decide_true, Bool.true_and]
      congr 1
      omega
    · by_cases h2 : i - 8 - 8 < 8
      · simp only [h0, h1, h2, if_true, if_false, decide_true, Bool.true_and]
        congr 1
        omega
      · have h3 : i - 8 - 8 - 8 < 8 := by omega
        simp only [h0, h1, h2, h3, if_false, decide_true, Bool.true_and]
        congr 1
        omega

/-- A byte of BM after a record was stored: one of the record's four, or the one before. -/
theorem State.setBmRecord_bmByte (s : State) (i : Nat) (v : Word) (b : Nat) :
    (s.setBmRecord i v).bmByte b =
      if b = 4 * i then v.extractLsb' 0 8
      else if b = 4 * i + 1 then v.extractLsb' 8 8
      else if b = 4 * i + 2 then v.extractLsb' 16 8
      else if b = 4 * i + 3 then v.extractLsb' 24 8
      else s.bmByte b := by
  unfold State.bmByte State.setBmRecord
  by_cases h3 : b = 4 * i + 3
  · subst h3
    simp
  by_cases h2 : b = 4 * i + 2
  · subst h2
    simp [Memory.read?_write_of_ne _ _ h3]
  by_cases h1 : b = 4 * i + 1
  · subst h1
    simp [Memory.read?_write_of_ne _ _ h3, Memory.read?_write_of_ne _ _ h2]
  by_cases h0 : b = 4 * i
  · subst h0
    simp [Memory.read?_write_of_ne _ _ h3, Memory.read?_write_of_ne _ _ h2, Memory.read?_write_of_ne _ _ h1]
  simp [Memory.read?_write_of_ne _ _ h3, Memory.read?_write_of_ne _ _ h2, Memory.read?_write_of_ne _ _ h1,
    Memory.read?_write_of_ne _ _ h0, h0, h1, h2, h3]

/-- A stored record reads back whole. -/
@[simp] theorem State.setBmRecord_bmRecord_self (s : State) (i : Nat) (v : Word) :
    (s.setBmRecord i v).bmRecord i = v := by
  unfold State.bmRecord
  simp only [State.setBmRecord_bmByte]
  simpa using word_of_bytes v

/-- A stored record leaves every other record alone. -/
theorem State.setBmRecord_bmRecord_of_ne (s : State) {i j : Nat} (v : Word) (h : j ≠ i) :
    (s.setBmRecord i v).bmRecord j = s.bmRecord j := by
  unfold State.bmRecord
  have key : ∀ k, k < 4 → (s.setBmRecord i v).bmByte (4 * j + k) = s.bmByte (4 * j + k) := fun k hk => by
    rw [State.setBmRecord_bmByte, if_neg (by omega), if_neg (by omega), if_neg (by omega), if_neg (by omega)]
  have k0 := key 0 (by omega)
  rw [Nat.add_zero] at k0
  rw [k0, key 1 (by omega), key 2 (by omega), key 3 (by omega)]

theorem State.setBmRecord_bm_wf {s : State} (i : Nat) (v : Word) (h : s.bm.wf) : (s.setBmRecord i v).bm.wf :=
  Memory.wf_write _ _ (Memory.wf_write _ _ (Memory.wf_write _ _ (Memory.wf_write _ _ h)))

/-- A record stored inside the space lists nothing outside it. -/
theorem State.setBmRecord_bm_bounded {s : State} {i n : Nat} (v : Word) (hi : i < n)
    (h : ∀ c ∈ s.bm, c.1 < 4 * n) : ∀ c ∈ (s.setBmRecord i v).bm, c.1 < 4 * n :=
  Memory.bounded_write _ (by omega) (Memory.bounded_write _ (by omega) (Memory.bounded_write _ (by omega)
    (Memory.bounded_write _ (by omega) h)))

/-- Two states with the same BM list and epoch show the same records. -/
theorem State.bmRecord_congr {s t : State} (hm : t.bm = s.bm) (he : t.memEpoch = s.memEpoch) (i : Nat) :
    t.bmRecord i = s.bmRecord i := by
  simp [State.bmRecord, State.bmByte, hm, he]

/-- Both memories are empty, so canonical, right after reset. -/
theorem State.reset_memories_wf : State.reset.cb.wf ∧ State.reset.bm.wf := ⟨Memory.wf_nil, Memory.wf_nil⟩

end Sys2Proof.Machine
end

