-- ==== Sys2Proof/Laws/Cmd.lean ====
section
/-! SUPPORT. The laws of the pseudocode monad: how each of its parts runs, how a sequence ends, and relations between
the state before and after that hold whichever way a piece of pseudocode ends. -/

namespace Sys2Proof.Machine

variable {α β : Type}

/-! ### How the parts run -/

@[simp] theorem Cmd.pure_run (a : α) (s : State) : (pure a : Cmd α) s = .ok a s := rfl

@[simp] theorem Cmd.get_run (s : State) : (get : Cmd State) s = .ok s s := rfl

@[simp] theorem Cmd.set_run (t s : State) : (set t : Cmd PUnit) s = .ok ⟨⟩ t := rfl

@[simp] theorem Cmd.modify_run (f : State → State) (s : State) : (modify f : Cmd PUnit) s = .ok ⟨⟩ (f s) := rfl

@[simp] theorem Cmd.throw_run (e : Stop) (s : State) : (throw e : Cmd α) s = .error e s := rfl

@[simp] theorem raise_run (f : FaultKind) (info : Word) (s : State) :
    (raise f info : Cmd α) s = .error (.raise f info) s := rfl

/-- A sequence: the second part runs on what the first left, or not at all. -/
theorem Cmd.bind_run (x : Cmd α) (f : α → Cmd β) (s : State) :
    (x >>= f) s = match x s with
      | .ok a t => f a t
      | .error e t => .error e t := by
  show EStateM.bind x f s = _
  unfold EStateM.bind
  rcases x s with ⟨a, t⟩ | ⟨e, t⟩ <;> rfl

/-- Peel a first part that ends normally. -/
theorem Cmd.bind_of_ok {x : Cmd α} {f : α → Cmd β} {s t : State} {a : α} (h : x s = .ok a t) :
    (x >>= f) s = f a t := by
  rw [Cmd.bind_run, h]

/-- A first part that is abandoned abandons the sequence. -/
theorem Cmd.bind_of_error {x : Cmd α} {f : α → Cmd β} {s t : State} {e : Stop} (h : x s = .error e t) :
    (x >>= f) s = .error e t := by
  rw [Cmd.bind_run, h]

/-- A sequence ends normally exactly when both parts do. -/
theorem Cmd.bind_eq_ok {x : Cmd α} {f : α → Cmd β} {s u : State} {b : β} :
    (x >>= f) s = .ok b u ↔ ∃ a t, x s = .ok a t ∧ f a t = .ok b u := by
  rw [Cmd.bind_run]
  constructor
  · intro h
    split at h
    · exact ⟨_, _, ‹_›, h⟩
    · cases h
  · rintro ⟨a, t, hx, hf⟩
    rw [hx]
    exact hf

/-- A sequence is abandoned exactly when its first part is, or the first ends and the second is. -/
theorem Cmd.bind_eq_error {x : Cmd α} {f : α → Cmd β} {s u : State} {e : Stop} :
    (x >>= f) s = .error e u ↔ x s = .error e u ∨ ∃ a t, x s = .ok a t ∧ f a t = .error e u := by
  rw [Cmd.bind_run]
  constructor
  · intro h
    split at h
    · exact .inr ⟨_, _, ‹_›, h⟩
    · exact .inl (by cases h; assumption)
  · rintro (h | ⟨a, t, hx, hf⟩)
    · rw [h]
    · rw [hx]
      exact hf

@[simp] theorem Cmd.pure_bind_run (a : α) (f : α → Cmd β) (s : State) : ((pure a : Cmd α) >>= f) s = f a s := rfl

@[simp] theorem Cmd.get_bind_run (f : State → Cmd β) (s : State) : ((get : Cmd State) >>= f) s = f s s := rfl

@[simp] theorem Cmd.set_bind_run (t : State) (f : PUnit → Cmd β) (s : State) :
    ((set t : Cmd PUnit) >>= f) s = f ⟨⟩ t := rfl

@[simp] theorem Cmd.modify_bind_run (g : State → State) (f : PUnit → Cmd β) (s : State) :
    ((modify g : Cmd PUnit) >>= f) s = f ⟨⟩ (g s) := rfl

/-! ### Checks and loops -/

/-- A check passes without effect or raises without effect. -/
theorem check_run (c : Prop) [Decidable c] (f : FaultKind) (info : Word) (s : State) :
    check c f info s = if c then .ok () s else .error (.raise f info) s := by
  unfold check
  split <;> rfl

theorem check_of {c : Prop} [Decidable c] (h : c) (f : FaultKind) (info : Word) (s : State) :
    check c f info s = .ok () s := by
  rw [check_run, if_pos h]

theorem check_of_not {c : Prop} [Decidable c] (h : ¬ c) (f : FaultKind) (info : Word) (s : State) :
    check c f info s = .error (.raise f info) s := by
  rw [check_run, if_neg h]

@[simp] theorem onlyIf_true (act : Cmd Unit) : onlyIf true act = act := rfl

@[simp] theorem onlyIf_false (act : Cmd Unit) : onlyIf false act = pure () := rfl

@[simp] theorem forUp_zero (first : Nat) (body : Nat → Cmd Unit) : forUp first 0 body = pure () := rfl

theorem forUp_succ (first k : Nat) (body : Nat → Cmd Unit) :
    forUp first (k + 1) body = (do body first; forUp (first + 1) k body) := rfl

/-! ### Relations that a piece of pseudocode keeps, however it ends -/

/-- The state in which a piece of pseudocode ended, also where it was abandoned. -/
def EndState (r : EStateM.Result Stop State α) : State :=
  match r with
  | .ok _ t => t
  | .error _ t => t

@[simp] theorem EndState_ok (a : α) (t : State) : EndState (.ok a t : EStateM.Result Stop State α) = t := rfl

@[simp] theorem EndState_error (e : Stop) (t : State) : EndState (.error e t : EStateM.Result Stop State α) = t := rfl

/-- From every state, `c` ends, normally or not, in a state related to it. -/
def Cmd.Keeps (R : State → State → Prop) (c : Cmd α) : Prop := ∀ s, R s (EndState (c s))

/-- What a proof over `Keeps` needs of the relation. -/
structure Frame (R : State → State → Prop) : Prop where
  refl : ∀ s, R s s
  trans : ∀ s t u, R s t → R t u → R s u

namespace Frame

variable {R : State → State → Prop}

theorem pure (h : Frame R) (a : α) : Cmd.Keeps R (Pure.pure a : Cmd α) := fun s => h.refl s

theorem get (h : Frame R) : Cmd.Keeps R (MonadState.get : Cmd State) := fun s => h.refl s

theorem throw (h : Frame R) (e : Stop) : Cmd.Keeps R (MonadExcept.throw e : Cmd α) := fun s => h.refl s

theorem raise (h : Frame R) (f : FaultKind) (info : Word) : Cmd.Keeps R (Machine.raise f info : Cmd α) :=
  fun s => h.refl s

theorem check (h : Frame R) (c : Prop) [Decidable c] (f : FaultKind) (info : Word) :
    Cmd.Keeps R (Machine.check c f info) := fun s => by
  rw [check_run]
  split <;> exact h.refl s

theorem bind (h : Frame R) {x : Cmd α} {f : α → Cmd β} (hx : Cmd.Keeps R x) (hf : ∀ a, Cmd.Keeps R (f a)) :
    Cmd.Keeps R (x >>= f) := fun s => by
  have hxs := hx s
  rw [Cmd.bind_run]
  revert hxs
  rcases x s with ⟨a, t⟩ | ⟨e, t⟩
  · exact fun hxs => h.trans _ _ _ hxs (hf a t)
  · exact fun hxs => hxs

/-- A sequence whose second part reads the state: it need keep the relation only when it runs on the state it read. -/
theorem get_bind {f : State → Cmd β} (hf : ∀ s, R s (EndState (f s s))) :
    Cmd.Keeps R ((MonadState.get : Cmd State) >>= f) := fun s => hf s

/-- A sequence that begins by replacing the state. -/
theorem set_bind (h : Frame R) {s t : State} {f : PUnit → Cmd β} (hst : R s t) (hf : Cmd.Keeps R (f ⟨⟩)) :
    R s (EndState (((MonadStateOf.set t : Cmd PUnit) >>= f) s)) := h.trans _ _ _ hst (hf t)

theorem update {g : State → State} (hg : ∀ s, R s (g s)) : Cmd.Keeps R (modify g : Cmd PUnit) := hg

theorem ite {c : Prop} [Decidable c] {x y : Cmd α} (hx : Cmd.Keeps R x) (hy : Cmd.Keeps R y) :
    Cmd.Keeps R (if c then x else y) := by
  split <;> assumption

theorem onlyIf (h : Frame R) {act : Cmd Unit} (c : Bool) (ha : Cmd.Keeps R act) :
    Cmd.Keeps R (Machine.onlyIf c act) := by
  cases c
  · exact h.pure ()
  · exact ha

theorem forUp (h : Frame R) {body : Nat → Cmd Unit} (hb : ∀ i, Cmd.Keeps R (body i)) (first count : Nat) :
    Cmd.Keeps R (Machine.forUp first count body) := by
  induction count generalizing first with
  | zero => exact h.pure ()
  | succ k ih =>
    rw [forUp_succ]
    exact h.bind (hb first) (fun _ => ih (first + 1))

end Frame

end Sys2Proof.Machine
end

