-- ==== Sys2Proof/Laws/Ops.lean ====
section
/-! SUPPORT. What each shared operation of Machine/Ops.lean can do, said once: the checks, the accesses to registers,
memories and models, and the common frame of a command. -/

namespace Sys2Proof.Machine

/-! ### Registers -/

@[simp] theorem State.setReg_reg_self (s : State) (r : Reg) (v : Word) : (s.setReg r v).reg r = v := by
  simp [State.reg]

theorem State.setReg_reg_of_ne (s : State) {r q : Reg} (v : Word) (h : q ≠ r) : (s.setReg r v).reg q = s.reg q := by
  have hne : r.toNat ≠ q.toNat := fun e => h (BitVec.eq_of_toNat_eq e.symm)
  simp [State.reg, Vector.getElem_set_ne, hne]

/-- A register is read from the register file alone. -/
theorem State.reg_congr {s t : State} (h : t.x = s.x) (r : Reg) : t.reg r = s.reg r := by
  simp [State.reg, h]

@[simp] theorem readReg_run (r : Reg) (s : State) : readReg r s = .ok (s.reg r) s := rfl

@[simp] theorem writeReg_run (r : Reg) (v : Word) (s : State) : writeReg r v s = .ok () (s.setReg r v) := rfl

/-! ### Memories -/

theorem memRead_run (a : Nat) (s : State) :
    memRead a s = if a < s.params.cbSize then .ok (s.cbByte a) s else .error (.outside .cbAddressOutside) s := by
  unfold memRead
  rw [Cmd.get_bind_run]
  split <;> rfl

theorem memRead_of_lt {a : Nat} {s : State} (h : a < s.params.cbSize) : memRead a s = .ok (s.cbByte a) s := by
  rw [memRead_run, if_pos h]

theorem memWrite_run (a : Nat) (v : Byte) (s : State) :
    memWrite a v s =
      if a < s.params.cbSize then .ok () (s.setCbByte a v) else .error (.outside .cbAddressOutside) s := by
  unfold memWrite
  rw [Cmd.get_bind_run]
  split <;> rfl

theorem memWrite_of_lt {a : Nat} {s : State} (v : Byte) (h : a < s.params.cbSize) :
    memWrite a v s = .ok () (s.setCbByte a v) := by
  rw [memWrite_run, if_pos h]

theorem mapRead_run (i : Nat) (s : State) :
    mapRead i s = if i < s.params.nblk then .ok (s.bmRecord i) s else .error (.outside .bmIndexOutside) s := by
  unfold mapRead
  rw [Cmd.get_bind_run]
  split <;> rfl

theorem mapRead_of_lt {i : Nat} {s : State} (h : i < s.params.nblk) : mapRead i s = .ok (s.bmRecord i) s := by
  rw [mapRead_run, if_pos h]

theorem mapWrite_run (i : Nat) (v : Word) (s : State) :
    mapWrite i v s =
      if i < s.params.nblk then .ok () (s.setBmRecord i v) else .error (.outside .bmIndexOutside) s := by
  unfold mapWrite
  rw [Cmd.get_bind_run]
  split <;> rfl

theorem mapWrite_of_lt {i : Nat} {s : State} (v : Word) (h : i < s.params.nblk) :
    mapWrite i v s = .ok () (s.setBmRecord i v) := by
  rw [mapWrite_run, if_pos h]

/-! ### Model slots -/

theorem State.setAbm_abmSlot_self {s : State} {m : Nat} (a : AbmSlot) (h : m < s.abm.length) :
    (s.setAbm m a).abmSlot m = a := by
  simp [State.abmSlot, List.getD, h]

theorem State.setAbm_abmSlot_of_ne (s : State) {m n : Nat} (a : AbmSlot) (h : n ≠ m) :
    (s.setAbm m a).abmSlot n = s.abmSlot n := by
  simp [State.abmSlot, List.getD, List.getElem?_set_ne (Ne.symm h)]

theorem State.setAdm_admSlot_self {s : State} {j : Nat} (d : AdmSlot) (h : j < s.adm.length) :
    (s.setAdm j d).admSlot j = d := by
  simp [State.admSlot, List.getD, h]

theorem State.setAdm_admSlot_of_ne (s : State) {j n : Nat} (d : AdmSlot) (h : n ≠ j) :
    (s.setAdm j d).admSlot n = s.admSlot n := by
  simp [State.admSlot, List.getD, List.getElem?_set_ne (Ne.symm h)]

/-- A slot that exists is an entry of its bank. -/
theorem State.abmSlot_mem {s : State} {m : Nat} (h : m < s.abm.length) : s.abmSlot m ∈ s.abm := by
  simp [State.abmSlot, List.getD, h]

theorem State.admSlot_mem {s : State} {j : Nat} (h : j < s.adm.length) : s.admSlot j ∈ s.adm := by
  simp [State.admSlot, List.getD, h]

/-! ### The shared checks -/

theorem needMode_run (need : Mode) (s : State) :
    needMode need s =
      if s.mode = need then .ok () s else .error (.raise .sessionState (s.mode.code.setWidth 32)) s := by
  unfold needMode
  rw [Cmd.get_bind_run, check_run]

theorem needAbm_run (m : Slot) (s : State) :
    needAbm m s = if m.toNat < s.params.nAbm then .ok () s else .error (.raise .model (m.setWidth 32)) s := by
  unfold needAbm
  rw [Cmd.get_bind_run, check_run]

theorem needAdm_run (m : Slot) (s : State) :
    needAdm m s = if m.toNat < s.params.nAdm then .ok () s else .error (.raise .model (m.setWidth 32)) s := by
  unfold needAdm
  rw [Cmd.get_bind_run, check_run]

theorem needAdmInit_run (m : Slot) (s : State) :
    needAdmInit m s =
      if m.toNat < s.params.nAdm ∧ (s.admSlot m.toNat).nsym ≠ 0#8 then .ok () s
      else .error (.raise .model (m.setWidth 32)) s := by
  unfold needAdmInit
  rw [Cmd.get_bind_run, check_run]

theorem needBit_run (ra : Reg) (s : State) :
    needBit ra s = if s.reg ra ≤ 1#32 then .ok () s else .error (.raise .operandRange (s.reg ra)) s := by
  unfold needBit
  rw [Cmd.get_bind_run, check_run]

/-! ### The common frame of a command -/

theorem command_of_fault {i : Instr} {body : Cmd Unit} {s : State} (h : s.fault = true) :
    command i body s = .next s.refuse := by
  simp [command, h]

theorem command_of_ok {i : Instr} {body : Cmd Unit} {s t : State} (h : s.fault = false)
    (hb : body s = .ok () t) : command i body s = .next t.complete := by
  simp [command, h, hb, conclude]

theorem command_of_raise {i : Instr} {body : Cmd Unit} {s t : State} {f : FaultKind} {info : Word}
    (h : s.fault = false) (hb : body s = .error (.raise f info) t) :
    command i body s = .next (t.faultEntry f info (encode i)) := by
  simp [command, h, hb, conclude]

theorem command_of_outside {i : Instr} {body : Cmd Unit} {s t : State} {r : Fault} (h : s.fault = false)
    (hb : body s = .error (.outside r) t) : command i body s = .fault r := by
  simp [command, h, hb, conclude]

/-- Everything a command that answers a next state has done: it was refused, it completed, or it took its fault. -/
theorem command_eq_next {i : Instr} {body : Cmd Unit} {s u : State} (h : command i body s = .next u) :
    (s.fault = true ∧ u = s.refuse) ∨
      (s.fault = false ∧ ∃ t, body s = .ok () t ∧ u = t.complete) ∨
      (s.fault = false ∧ ∃ f info t, body s = .error (.raise f info) t ∧ u = t.faultEntry f info (encode i)) := by
  unfold command at h
  cases hf : s.fault with
  | true =>
    rw [if_pos hf] at h
    cases h
    exact .inl ⟨rfl, rfl⟩
  | false =>
    rw [if_neg (by simp [hf])] at h
    unfold conclude at h
    split at h
    · cases h
      exact .inr (.inl ⟨rfl, _, ‹_›, rfl⟩)
    · cases h
      exact .inr (.inr ⟨rfl, _, _, _, ‹_›, rfl⟩)
    · cases h

/-- What a relation kept by a command's pseudocode says of the state its step leaves. -/
theorem command_keeps {R : State → State → Prop} {i : Instr} {body : Cmd Unit} {s u : State}
    (hb : Cmd.Keeps R body) (h : command i body s = .next u) (hf : s.fault = false) :
    ∃ t, R s t ∧ (u = t.complete ∨ ∃ f info, u = t.faultEntry f info (encode i)) := by
  have hs := hb s
  rcases command_eq_next h with ⟨hf', _⟩ | ⟨_, t, ht, rfl⟩ | ⟨_, f, info, t, ht, rfl⟩
  · rw [hf] at hf'
    cases hf'
  · rw [ht] at hs
    exact ⟨t, hs, .inl rfl⟩
  · rw [ht] at hs
    exact ⟨t, hs, .inr ⟨f, info, rfl⟩⟩

theorem FaultKind.code_range (f : FaultKind) : 1 ≤ f.code.toNat ∧ f.code.toNat ≤ 11 := by
  cases f <;> exact ⟨by decide, by decide⟩

/-! ### Writes of a CSR -/

/-- A write of a CSR leaves everything but the nine RW registers alone. -/
theorem State.csrWrite_frame {s t : State} {c : Csr} {v : Word} (h : s.csrWrite c v = some t) :
    t = { s with
      occm := t.occm, pu0 := t.pu0, pv0 := t.pv0, pszu := t.pszu, pszv := t.pszv, btpw := t.btpw
      btph := t.btph, pidx := t.pidx, msel := t.msel } := by
  cases c <;> simp only [State.csrWrite] at h <;> cases h <;> rfl

/-- A register written through its mask reads back masked; the write is refused exactly for the registers marked RO. -/
theorem State.csrWrite_readBack {s t : State} {c : Csr} {v : Word} (h : s.csrWrite c v = some t) :
    t.csrRead c = v &&& c.wmask := by
  cases c <;> simp only [State.csrWrite] at h <;> cases h <;> rfl

end Sys2Proof.Machine
end

