-- ==== Sys2Proof/Laws/Frames.lean ====
section
/-! SUPPORT. What the procedures of the coder leave alone, however they end: completed, or abandoned by a fault. -/

namespace Sys2Proof.Machine

/-! ### The relations -/

/-- Only the encoder's interval, `PTR` and CB may differ. -/
def EncMoves (s t : State) : Prop := t = { s with low := t.low, range := t.range, ptr := t.ptr, cb := t.cb }

/-- Only the decoder's interval, `PTR` and `OVERREAD` may differ. -/
def DecMoves (s t : State) : Prop :=
  t = { s with range := t.range, value := t.value, ptr := t.ptr, overread := t.overread }

/-- As `EncMoves`, and the model banks may differ. -/
def EncCodes (s t : State) : Prop :=
  t = { s with low := t.low, range := t.range, ptr := t.ptr, cb := t.cb, abm := t.abm, adm := t.adm }

/-- As `DecMoves`, and the model banks may differ. -/
def DecCodes (s t : State) : Prop :=
  t = { s with
    range := t.range, value := t.value, ptr := t.ptr, overread := t.overread, abm := t.abm, adm := t.adm }

/-- As `DecCodes`, and BM may differ. -/
def PatchCodes (s t : State) : Prop :=
  t = { s with
    range := t.range, value := t.value, ptr := t.ptr, overread := t.overread, abm := t.abm, adm := t.adm
    bm := t.bm }

/-- Of the models only bit model `m` may differ. -/
def OnlyAbm (m : Nat) (s t : State) : Prop := t.adm = s.adm ∧ ∀ n, n ≠ m → t.abmSlot n = s.abmSlot n

/-- Of the models only data model `j` may differ. -/
def OnlyAdm (j : Nat) (s t : State) : Prop := t.abm = s.abm ∧ ∀ n, n ≠ j → t.admSlot n = s.admSlot n

/-- No model differs. -/
def NoModel (s t : State) : Prop := t.abm = s.abm ∧ t.adm = s.adm

theorem EncMoves.frame : Frame EncMoves := ⟨fun _ => rfl, fun s t u h k => by unfold EncMoves at *; rw [k, h]⟩

theorem DecMoves.frame : Frame DecMoves := ⟨fun _ => rfl, fun s t u h k => by unfold DecMoves at *; rw [k, h]⟩

theorem EncCodes.frame : Frame EncCodes := ⟨fun _ => rfl, fun s t u h k => by unfold EncCodes at *; rw [k, h]⟩

theorem DecCodes.frame : Frame DecCodes := ⟨fun _ => rfl, fun s t u h k => by unfold DecCodes at *; rw [k, h]⟩

theorem PatchCodes.frame : Frame PatchCodes :=
  ⟨fun _ => rfl, fun s t u h k => by unfold PatchCodes at *; rw [k, h]⟩

theorem OnlyAbm.frame (m : Nat) : Frame (OnlyAbm m) :=
  ⟨fun _ => ⟨rfl, fun _ _ => rfl⟩, fun _ _ _ h k => ⟨k.1.trans h.1, fun n hn => (k.2 n hn).trans (h.2 n hn)⟩⟩

theorem OnlyAdm.frame (j : Nat) : Frame (OnlyAdm j) :=
  ⟨fun _ => ⟨rfl, fun _ _ => rfl⟩, fun _ _ _ h k => ⟨k.1.trans h.1, fun n hn => (k.2 n hn).trans (h.2 n hn)⟩⟩

theorem NoModel.frame : Frame NoModel :=
  ⟨fun _ => ⟨rfl, rfl⟩, fun _ _ _ h k => ⟨k.1.trans h.1, k.2.trans h.2⟩⟩

theorem EncMoves.codes {s t : State} (h : EncMoves s t) : EncCodes s t := by unfold EncMoves at h; rw [h]; rfl

theorem DecMoves.codes {s t : State} (h : DecMoves s t) : DecCodes s t := by unfold DecMoves at h; rw [h]; rfl

theorem DecCodes.patch {s t : State} (h : DecCodes s t) : PatchCodes s t := by unfold DecCodes at h; rw [h]; rfl

theorem EncMoves.noModel {s t : State} (h : EncMoves s t) : NoModel s t := by
  unfold EncMoves at h
  rw [h]
  exact ⟨rfl, rfl⟩

theorem DecMoves.noModel {s t : State} (h : DecMoves s t) : NoModel s t := by
  unfold DecMoves at h
  rw [h]
  exact ⟨rfl, rfl⟩

theorem NoModel.onlyAbm {s t : State} (m : Nat) (h : NoModel s t) : OnlyAbm m s t :=
  ⟨h.2, fun n _ => by simp [State.abmSlot, h.1]⟩

theorem NoModel.onlyAdm {s t : State} (j : Nat) (h : NoModel s t) : OnlyAdm j s t :=
  ⟨h.1, fun n _ => by simp [State.admSlot, h.2]⟩

/-! ### The procedures of the interval coder -/

theorem memWrite_encMoves (a : Nat) (v : Byte) : Cmd.Keeps EncMoves (memWrite a v) := fun s => by
  rw [memWrite_run]
  split <;> rfl

theorem memRead_encMoves (a : Nat) : Cmd.Keeps EncMoves (memRead a) := fun s => by
  rw [memRead_run]
  split <;> rfl

theorem memRead_decMoves (a : Nat) : Cmd.Keeps DecMoves (memRead a) := fun s => by
  rw [memRead_run]
  split <;> rfl

theorem putByte_encMoves (b : Byte) : Cmd.Keeps EncMoves (putByte b) :=
  EncMoves.frame.bind EncMoves.frame.get fun _ =>
    EncMoves.frame.bind (EncMoves.frame.check _ _ _) fun _ =>
      EncMoves.frame.bind (memWrite_encMoves _ _) fun _ => Frame.update fun _ => rfl

theorem carryFrom_encMoves (n : Nat) : Cmd.Keeps EncMoves (carryFrom n) := by
  induction n with
  | zero => exact EncMoves.frame.raise _ _
  | succ i ih =>
    exact EncMoves.frame.bind EncMoves.frame.get fun _ =>
      EncMoves.frame.bind (memRead_encMoves _) fun _ =>
        Frame.ite (EncMoves.frame.bind (memWrite_encMoves _ _) fun _ => ih) (memWrite_encMoves _ _)

theorem propagateCarry_encMoves : Cmd.Keeps EncMoves propagateCarry :=
  EncMoves.frame.bind EncMoves.frame.get fun _ => carryFrom_encMoves _

theorem getByte_decMoves : Cmd.Keeps DecMoves getByte :=
  DecMoves.frame.bind DecMoves.frame.get fun _ =>
    Frame.ite
      (DecMoves.frame.bind (memRead_decMoves _) fun _ =>
        DecMoves.frame.bind (Frame.update fun _ => rfl) fun _ => DecMoves.frame.pure _)
      (Frame.ite
        (DecMoves.frame.bind (Frame.update fun _ => rfl) fun _ =>
          DecMoves.frame.bind (Frame.update fun _ => rfl) fun _ => DecMoves.frame.pure _)
        (DecMoves.frame.raise _ _))

theorem renormEncLoop_encMoves (fuel : Nat) : Cmd.Keeps EncMoves (renormEncLoop fuel) := by
  induction fuel with
  | zero => exact EncMoves.frame.pure ()
  | succ k ih =>
    exact EncMoves.frame.bind EncMoves.frame.get fun _ =>
      EncMoves.frame.bind (putByte_encMoves _) fun _ =>
        EncMoves.frame.bind (Frame.update fun _ => rfl) fun _ =>
          EncMoves.frame.bind EncMoves.frame.get fun _ => Frame.ite (EncMoves.frame.pure ()) ih

theorem renormEnc_encMoves : Cmd.Keeps EncMoves renormEnc :=
  EncMoves.frame.bind EncMoves.frame.get fun _ => renormEncLoop_encMoves _

theorem renormEncIfSmall_encMoves : Cmd.Keeps EncMoves renormEncIfSmall :=
  EncMoves.frame.bind EncMoves.frame.get fun _ => Frame.ite renormEnc_encMoves (EncMoves.frame.pure ())

theorem renormDecLoop_decMoves (fuel : Nat) : Cmd.Keeps DecMoves (renormDecLoop fuel) := by
  induction fuel with
  | zero => exact DecMoves.frame.pure ()
  | succ k ih =>
    exact DecMoves.frame.bind getByte_decMoves fun _ =>
      DecMoves.frame.bind (Frame.update fun _ => rfl) fun _ =>
        DecMoves.frame.bind (Frame.update fun _ => rfl) fun _ =>
          DecMoves.frame.bind DecMoves.frame.get fun _ => Frame.ite (DecMoves.frame.pure ()) ih

theorem renormDec_decMoves : Cmd.Keeps DecMoves renormDec :=
  DecMoves.frame.bind DecMoves.frame.get fun _ => renormDecLoop_decMoves _

theorem renormDecIfSmall_decMoves : Cmd.Keeps DecMoves renormDecIfSmall :=
  DecMoves.frame.bind DecMoves.frame.get fun _ => Frame.ite renormDec_decMoves (DecMoves.frame.pure ())

theorem addLow_encMoves (x r : Word) : Cmd.Keeps EncMoves (addLow x r) :=
  Frame.get_bind fun s => EncMoves.frame.trans _ { s with low := s.low + x, range := r } _ rfl
    (Frame.ite (R := EncMoves) (c := s.low + x < s.low) propagateCarry_encMoves (EncMoves.frame.pure ()) _)

theorem encBit_encMoves (bit : Bool) (p0 : BitVec 13) : Cmd.Keeps EncMoves (encBit bit p0) := by
  refine EncMoves.frame.bind (Frame.get_bind fun s => ?_) fun _ => renormEncIfSmall_encMoves
  cases bit
  · rfl
  · exact addLow_encMoves _ _ s

theorem decBit_decMoves (p0 : BitVec 13) : Cmd.Keeps DecMoves (decBit p0) :=
  Frame.get_bind fun s => by
    show DecMoves s (EndState ((if zeroPart p0 s.range ≤ s.value then _ else _ : Cmd Bool) s))
    split
    · exact DecMoves.frame.trans _ { s with value := s.value - zeroPart p0 s.range, range := s.range - zeroPart p0 s.range } _ rfl
        (DecMoves.frame.bind renormDecIfSmall_decMoves (fun _ => DecMoves.frame.pure true) _)
    · exact DecMoves.frame.trans _ { s with range := zeroPart p0 s.range } _ rfl
        (DecMoves.frame.bind renormDecIfSmall_decMoves (fun _ => DecMoves.frame.pure false) _)

theorem encBitsUp_encMoves (v lo count : Nat) : Cmd.Keeps EncMoves (encBitsUp v lo count) :=
  EncMoves.frame.forUp (fun _ => encBit_encMoves _ _) lo count

theorem encBitsDown_encMoves (v count : Nat) : Cmd.Keeps EncMoves (encBitsDown v count) := by
  induction count with
  | zero => exact EncMoves.frame.pure ()
  | succ i ih => exact EncMoves.frame.bind (encBit_encMoves _ _) fun _ => ih

theorem decBitsUp_decMoves (lo count w : Nat) : Cmd.Keeps DecMoves (decBitsUp lo count w) := by
  induction count generalizing lo w with
  | zero => exact DecMoves.frame.pure w
  | succ k ih => exact DecMoves.frame.bind (decBit_decMoves _) fun _ => ih _ _

theorem decBitsDown_decMoves (count r : Nat) : Cmd.Keeps DecMoves (decBitsDown count r) := by
  induction count generalizing r with
  | zero => exact DecMoves.frame.pure r
  | succ i ih => exact DecMoves.frame.bind (decBit_decMoves _) fun _ => ih _

/-! ### The elements coded with models -/

/-- A weaker relation is kept too. -/
theorem Cmd.Keeps.mono {α : Type} {R Q : State → State → Prop} {c : Cmd α} (h : Cmd.Keeps R c)
    (hRQ : ∀ s t, R s t → Q s t) : Cmd.Keeps Q c := fun s => hRQ _ _ (h s)

theorem encBitA_encCodes (m : Nat) (bit : Bool) : Cmd.Keeps EncCodes (encBitA m bit) :=
  EncCodes.frame.bind EncCodes.frame.get fun _ =>
    EncCodes.frame.bind ((encBit_encMoves _ _).mono fun _ _ => EncMoves.codes) fun _ => Frame.update fun _ => rfl

theorem encBitA_onlyAbm (m : Nat) (bit : Bool) : Cmd.Keeps (OnlyAbm m) (encBitA m bit) :=
  (OnlyAbm.frame m).bind (OnlyAbm.frame m).get fun _ =>
    (OnlyAbm.frame m).bind ((encBit_encMoves _ _).mono fun _ _ h => h.noModel.onlyAbm m) fun _ =>
      Frame.update fun s => ⟨rfl, fun _ hn => s.setAbm_abmSlot_of_ne _ hn⟩

theorem decBitA_decCodes (m : Nat) : Cmd.Keeps DecCodes (decBitA m) :=
  DecCodes.frame.bind DecCodes.frame.get fun _ =>
    DecCodes.frame.bind ((decBit_decMoves _).mono fun _ _ => DecMoves.codes) fun _ =>
      DecCodes.frame.bind (Frame.update fun _ => rfl) fun _ => DecCodes.frame.pure _

theorem decBitA_onlyAbm (m : Nat) : Cmd.Keeps (OnlyAbm m) (decBitA m) :=
  (OnlyAbm.frame m).bind (OnlyAbm.frame m).get fun _ =>
    (OnlyAbm.frame m).bind ((decBit_decMoves _).mono fun _ _ h => h.noModel.onlyAbm m) fun _ =>
      (OnlyAbm.frame m).bind (Frame.update fun s => ⟨rfl, fun _ hn => s.setAbm_abmSlot_of_ne _ hn⟩) fun _ =>
        (OnlyAbm.frame m).pure _

theorem encSym_encCodes (k j : Nat) : Cmd.Keeps EncCodes (encSym k j) :=
  EncCodes.frame.bind EncCodes.frame.get fun _ =>
    EncCodes.frame.bind ((addLow_encMoves _ _).mono fun _ _ => EncMoves.codes) fun _ =>
      EncCodes.frame.bind (renormEncIfSmall_encMoves.mono fun _ _ => EncMoves.codes) fun _ =>
        Frame.update fun _ => rfl

theorem encSym_onlyAdm (k j : Nat) : Cmd.Keeps (OnlyAdm j) (encSym k j) :=
  (OnlyAdm.frame j).bind (OnlyAdm.frame j).get fun _ =>
    (OnlyAdm.frame j).bind ((addLow_encMoves _ _).mono fun _ _ h => h.noModel.onlyAdm j) fun _ =>
      (OnlyAdm.frame j).bind (renormEncIfSmall_encMoves.mono fun _ _ h => h.noModel.onlyAdm j) fun _ =>
        Frame.update fun s => ⟨rfl, fun _ hn => s.setAdm_admSlot_of_ne _ hn⟩

theorem admCount_decCodes (j k : Nat) : Cmd.Keeps DecCodes (admCount j k) := Frame.update fun _ => rfl

theorem admCount_onlyAdm (j k : Nat) : Cmd.Keeps (OnlyAdm j) (admCount j k) :=
  Frame.update fun s => ⟨rfl, fun _ hn => s.setAdm_admSlot_of_ne _ hn⟩

theorem decSym_decCodes (j : Nat) : Cmd.Keeps DecCodes (decSym j) :=
  Frame.get_bind fun _ => DecCodes.frame.set_bind (by rfl)
    (DecCodes.frame.bind (renormDecIfSmall_decMoves.mono fun _ _ => DecMoves.codes)
      fun _ => DecCodes.frame.bind (admCount_decCodes _ _) fun _ => DecCodes.frame.pure _)

theorem decSym_onlyAdm (j : Nat) : Cmd.Keeps (OnlyAdm j) (decSym j) :=
  Frame.get_bind fun _ => (OnlyAdm.frame j).set_bind (NoModel.onlyAdm j ⟨rfl, rfl⟩)
    ((OnlyAdm.frame j).bind (renormDecIfSmall_decMoves.mono fun _ _ h => h.noModel.onlyAdm j)
      fun _ => (OnlyAdm.frame j).bind (admCount_onlyAdm _ _) fun _ => (OnlyAdm.frame j).pure _)

theorem encEg0_encCodes (u : Word) (m : Nat) : Cmd.Keeps EncCodes (encEg0 u m) :=
  EncCodes.frame.bind (EncCodes.frame.forUp (fun _ => encBitA_encCodes _ _) _ _) fun _ =>
    EncCodes.frame.bind (encBitA_encCodes _ _) fun _ =>
      (encBitsDown_encMoves _ _).mono fun _ _ => EncMoves.codes

theorem encEg0_onlyAbm (u : Word) (m : Nat) : Cmd.Keeps (OnlyAbm m) (encEg0 u m) :=
  (OnlyAbm.frame m).bind ((OnlyAbm.frame m).forUp (fun _ => encBitA_onlyAbm _ _) _ _) fun _ =>
    (OnlyAbm.frame m).bind (encBitA_onlyAbm _ _) fun _ =>
      (encBitsDown_encMoves _ _).mono fun _ _ h => h.noModel.onlyAbm m

theorem decOnes_decCodes (m more n : Nat) : Cmd.Keeps DecCodes (decOnes m more n) := by
  induction more generalizing n with
  | zero =>
    exact DecCodes.frame.bind (decBitA_decCodes m) fun _ =>
      Frame.ite (DecCodes.frame.raise _ _) (DecCodes.frame.pure n)
  | succ k ih => exact DecCodes.frame.bind (decBitA_decCodes m) fun _ => Frame.ite (ih _) (DecCodes.frame.pure n)

theorem decOnes_onlyAbm (m more n : Nat) : Cmd.Keeps (OnlyAbm m) (decOnes m more n) := by
  induction more generalizing n with
  | zero =>
    exact (OnlyAbm.frame m).bind (decBitA_onlyAbm m) fun _ =>
      Frame.ite ((OnlyAbm.frame m).raise _ _) ((OnlyAbm.frame m).pure _)
  | succ k ih =>
    exact (OnlyAbm.frame m).bind (decBitA_onlyAbm m) fun _ =>
      Frame.ite (ih _) ((OnlyAbm.frame m).pure _)

theorem decEg0_decCodes (m : Nat) : Cmd.Keeps DecCodes (decEg0 m) :=
  DecCodes.frame.bind (decOnes_decCodes m 32 0) fun _ =>
    DecCodes.frame.bind ((decBitsDown_decMoves _ _).mono fun _ _ => DecMoves.codes) fun _ =>
      DecCodes.frame.bind (DecCodes.frame.check _ _ _) fun _ => DecCodes.frame.pure _

theorem decEg0_onlyAbm (m : Nat) : Cmd.Keeps (OnlyAbm m) (decEg0 m) :=
  (OnlyAbm.frame m).bind (decOnes_onlyAbm m 32 0) fun _ =>
    (OnlyAbm.frame m).bind ((decBitsDown_decMoves _ _).mono fun _ _ h => h.noModel.onlyAbm m) fun _ =>
      (OnlyAbm.frame m).bind ((OnlyAbm.frame m).check _ _ _) fun _ => (OnlyAbm.frame m).pure _

/-! ### Occupancy -/

/-- The bindings are checked without effect, whatever the relation. -/
theorem occModels_keeps {R : State → State → Prop} (h : Frame R) : Cmd.Keeps R occModels :=
  h.bind h.get fun _ => h.bind (h.check _ _ _) fun _ => h.bind (h.check _ _ _) fun _ =>
    h.bind (h.check _ _ _) fun _ => h.bind (h.check _ _ _) fun _ => h.bind (h.check _ _ _) fun _ => h.pure _

theorem patchCheck_keeps {R : State → State → Prop} (h : Frame R) : Cmd.Keeps R patchCheck :=
  h.bind h.get fun _ => h.check _ _ _

theorem occEncBlock_encCodes (o : OccModels) (occupied : Bool) (r : Word) :
    Cmd.Keeps EncCodes (occEncBlock o occupied r) :=
  EncCodes.frame.bind (EncCodes.frame.check _ _ _) fun _ =>
    EncCodes.frame.bind (encBitA_encCodes _ _) fun _ =>
      EncCodes.frame.onlyIf _
        (EncCodes.frame.bind (encBitA_encCodes _ _) fun _ =>
          EncCodes.frame.bind (EncCodes.frame.onlyIf _ (encSym_encCodes _ _)) fun _ =>
            EncCodes.frame.bind (encSym_encCodes _ _) fun _ => EncCodes.frame.onlyIf _ (encBitA_encCodes _ _))

theorem occDecBlock_decCodes (o : OccModels) (old : Word) : Cmd.Keeps DecCodes (occDecBlock o old) := by
  have hf := DecCodes.frame
  refine hf.bind (decBitA_decCodes _) fun _ => Frame.ite ?_ (hf.pure _)
  refine hf.bind ?_ fun _ => hf.pure _
  refine hf.bind (decBitA_decCodes _) fun interp => hf.bind ?_ fun _ => hf.bind (decSym_decCodes _) fun _ => ?_
  · unfold occDecNeigh
    exact Frame.ite (hf.bind (decSym_decCodes _) fun _ => hf.pure _) (hf.pure _)
  · unfold occDecFill
    exact Frame.ite (hf.bind (decBitA_decCodes _) fun _ => hf.pure _) (hf.pure _)

theorem encPatchBlock_encCodes (o : OccModels) (pos : Nat) : Cmd.Keeps EncCodes (encPatchBlock o pos) :=
  EncCodes.frame.bind EncCodes.frame.get fun _ =>
    EncCodes.frame.bind (fun s => by rw [mapRead_run]; split <;> rfl) fun _ => occEncBlock_encCodes _ _ _

theorem decPatchBlock_patchCodes (o : OccModels) (pos : Nat) : Cmd.Keeps PatchCodes (decPatchBlock o pos) :=
  PatchCodes.frame.bind PatchCodes.frame.get fun _ =>
    PatchCodes.frame.bind (fun s => by rw [mapRead_run]; split <;> rfl) fun _ =>
      PatchCodes.frame.bind ((occDecBlock_decCodes _ _).mono fun _ _ => DecCodes.patch) fun _ =>
        PatchCodes.frame.onlyIf _ (fun s => by rw [mapWrite_run]; split <;> rfl)

/-- A scan keeps what every block keeps. -/
theorem scanPatch_keeps {R : State → State → Prop} (h : Frame R) {block : Nat → Cmd Unit}
    (hb : ∀ pos, Cmd.Keeps R (block pos)) : Cmd.Keeps R (scanPatch block) :=
  h.bind h.get fun _ => h.forUp (fun _ => h.forUp (fun _ => hb _) _ _) _ _

/-! ### The termination of an encode session -/

theorem terminate_encMoves : Cmd.Keeps EncMoves terminate :=
  EncMoves.frame.bind EncMoves.frame.get fun _ => Frame.ite (addLow_encMoves _ _) (addLow_encMoves _ _)

theorem loadByte_decMoves : Cmd.Keeps DecMoves loadByte :=
  DecMoves.frame.bind getByte_decMoves fun _ => Frame.update fun _ => rfl

end Sys2Proof.Machine
end

