-- ==== Sys2Proof/Laws/Coder.lean ====
section
/-! SUPPORT. What the procedures of the interval coder compute when they are not abandoned: the encoder's exact number
(spec/41_bit_and_symbol_coding.md R110 to R114, R116, R120) and the decoder's served bytes (R113, R115, R117, R121). -/

namespace Sys2Proof.Machine

/-! ### Addresses of the window -/

/-- The window does not wrap around the address space (spec/20_memory.md R51, R60). -/
abbrev State.windowFits (s : State) : Prop :=
  s.wbase.toNat + s.wlen.toNat ≤ s.params.cbSize ∧ s.params.cbSize ≤ 2 ^ 31

theorem State.windowAddr_eq {s : State} {o : Word} (h : s.wbase.toNat + o.toNat < 2 ^ 32) :
    s.windowAddr o = s.wbase.toNat + o.toNat := by
  simp only [State.windowAddr, BitVec.toNat_add]
  omega

theorem State.windowAddr_ofNat {s : State} (hw : s.windowFits) {o : Nat} (h : o ≤ s.wlen.toNat) :
    s.windowAddr (BitVec.ofNat 32 o) = s.wbase.toNat + o := by
  have : (BitVec.ofNat 32 o).toNat = o := by simp; omega
  rw [State.windowAddr_eq (by omega), this]

/-- A window address depends on `WBASE` alone. -/
theorem State.windowAddr_congr {s t : State} (h : t.wbase = s.wbase) (o : Word) : t.windowAddr o = s.windowAddr o := by
  simp [State.windowAddr, h]

/-! ### The bytes as a number -/

theorem State.payloadNumber_lt (s : State) (n : Nat) : s.payloadNumber n < 256 ^ n := by
  induction n with
  | zero => simp [State.payloadNumber]
  | succ k ih =>
    have hb := (s.cbByte (s.windowAddr (BitVec.ofNat 32 k))).isLt
    simp only [State.payloadNumber, Nat.pow_succ]
    omega

/-- The number depends on the bytes below `n` alone. -/
theorem State.payloadNumber_congr {s t : State} {n : Nat}
    (h : ∀ k, k < n → t.cbByte (t.windowAddr (BitVec.ofNat 32 k)) = s.cbByte (s.windowAddr (BitVec.ofNat 32 k))) :
    t.payloadNumber n = s.payloadNumber n := by
  induction n with
  | zero => rfl
  | succ k ih =>
    simp only [State.payloadNumber]
    rw [ih fun j hj => h j (Nat.lt_succ_of_lt hj), h k (Nat.lt_succ_self k)]

/-! ### Writing -/

/-- `put_byte` appends one byte, or raises with no effect (R111). -/
theorem putByte_run {s : State} (hw : s.windowFits) (b : Byte) :
    putByte b s =
      if s.ptr.toNat < s.wlen.toNat then
        .ok () { s.setCbByte (s.wbase.toNat + s.ptr.toNat) b with ptr := s.ptr + 1#32 }
      else .error (.raise .codeBufferOverflow s.ptr) s := by
  unfold putByte
  rw [Cmd.get_bind_run]
  by_cases h : s.ptr.toNat < s.wlen.toNat
  · have haddr : s.windowAddr s.ptr = s.wbase.toNat + s.ptr.toNat := State.windowAddr_eq (by omega)
    rw [if_pos h, Cmd.bind_of_ok (check_of (by simpa [BitVec.lt_def] using h) _ _ s), haddr,
      Cmd.bind_of_ok (memWrite_of_lt b (by omega))]
    rfl
  · rw [if_neg h, Cmd.bind_of_error (check_of_not (by simpa [BitVec.lt_def] using h) _ _ s)]

/-- `propagate_carry` adds 1 to the number of the bytes already written, as long as they are not all `0xFF` (R112). -/
theorem carryFrom_ok {s : State} (hw : s.windowFits) {n : Nat} (hn : n ≤ s.wlen.toNat)
    (hc : s.payloadNumber n + 1 < 256 ^ n) :
    ∃ t, carryFrom n s = .ok () t ∧ t = { s with cb := t.cb } ∧ t.payloadNumber n = s.payloadNumber n + 1 ∧
      ∀ a, a < s.wbase.toNat ∨ s.wbase.toNat + n ≤ a → t.cbByte a = s.cbByte a := by
  induction n generalizing s with
  | zero => simp [State.payloadNumber] at hc
  | succ i ih =>
    have haddr : s.windowAddr (BitVec.ofNat 32 i) = s.wbase.toNat + i := State.windowAddr_ofNat hw (by omega)
    have hlt : s.wbase.toNat + i < s.params.cbSize := by omega
    -- the bytes below offset `i` do not see a write at offset `i`
    have hbelow : ∀ v, (s.setCbByte (s.wbase.toNat + i) v).payloadNumber i = s.payloadNumber i := fun v =>
      State.payloadNumber_congr fun k hk => by
        have hk' : s.windowAddr (BitVec.ofNat 32 k) = s.wbase.toNat + k := State.windowAddr_ofNat hw (by omega)
        rw [State.windowAddr_congr (t := s.setCbByte (s.wbase.toNat + i) v) (s := s) rfl, hk',
          State.setCbByte_cbByte_of_ne _ _ (by omega)]
    unfold carryFrom
    rw [Cmd.get_bind_run]
    simp only [haddr]
    rw [Cmd.bind_of_ok (memRead_of_lt hlt)]
    have hsplit : s.payloadNumber (i + 1) = s.payloadNumber i * 256 + (s.cbByte (s.wbase.toNat + i)).toNat := by
      simp only [State.payloadNumber, haddr]
    rw [hsplit, Nat.pow_succ] at hc
    by_cases hff : s.cbByte (s.wbase.toNat + i) = 0xFF#8
    · rw [if_pos hff, Cmd.bind_of_ok (memWrite_of_lt _ hlt)]
      have hffn : (s.cbByte (s.wbase.toNat + i)).toNat = 255 := by rw [hff]; rfl
      obtain ⟨t, ht, hframe, hnum, hout⟩ := ih (s := s.setCbByte (s.wbase.toNat + i) 0x00#8) hw
        (by show i ≤ s.wlen.toNat; omega) (by rw [hbelow]; omega)
      refine ⟨t, ht, by rw [hframe]; rfl, ?_, fun a ha => ?_⟩
      · have hbase : t.wbase = s.wbase := by rw [hframe]; rfl
        have hlast : t.cbByte (s.wbase.toNat + i) = 0x00#8 := by
          rw [hout _ (.inr (by show s.wbase.toNat + i ≤ _; exact Nat.le_refl _)), State.setCbByte_cbByte_self]
        rw [hsplit]
        simp only [State.payloadNumber, State.windowAddr_congr hbase, haddr, hlast, hnum, hbelow, hffn]
        simp
        omega
      · rw [hout a (by show a < s.wbase.toNat ∨ s.wbase.toNat + i ≤ a; omega),
          State.setCbByte_cbByte_of_ne _ _ (by omega)]
    · rw [if_neg hff, memWrite_of_lt _ hlt]
      refine ⟨_, rfl, rfl, ?_, fun a ha => State.setCbByte_cbByte_of_ne _ _ (by omega)⟩
      have hb : (s.cbByte (s.wbase.toNat + i)).toNat < 255 := by
        have h1 := (s.cbByte (s.wbase.toNat + i)).isLt
        have h2 : (s.cbByte (s.wbase.toNat + i)).toNat ≠ 255 := fun h => hff (BitVec.eq_of_toNat_eq h)
        omega
      rw [hsplit]
      simp only [State.payloadNumber, hbelow,
        State.windowAddr_congr (t := s.setCbByte (s.wbase.toNat + i) _) (s := s) rfl, haddr,
        State.setCbByte_cbByte_self, BitVec.toNat_add]
      have h1 : (1#8).toNat = 1 := rfl
      rw [h1]
      omega

/-! ### The encoder -/

/-- `LOW <- LOW + x; RANGE <- r` with its carry: the exact number grows by `x` (R110, R112). -/
theorem addLow_ok {s : State} (hw : s.windowFits) (hp : s.ptr.toNat ≤ s.wlen.toNat) (x r : Word)
    (hc : s.codeNumber + x.toNat < 256 ^ s.ptr.toNat * 2 ^ 32) :
    ∃ t, addLow x r s = .ok () t ∧ t = { s with low := t.low, range := r, cb := t.cb } ∧
      t.codeNumber = s.codeNumber + x.toNat ∧
      ∀ a, a < s.wbase.toNat ∨ s.wbase.toNat + s.ptr.toNat ≤ a → t.cbByte a = s.cbByte a := by
  unfold addLow
  rw [Cmd.get_bind_run, Cmd.set_bind_run]
  have hx := x.isLt
  have hl := s.low.isLt
  by_cases hcarry : s.low + x < s.low
  · have hsum : 2 ^ 32 ≤ s.low.toNat + x.toNat := by
      rw [BitVec.lt_def, BitVec.toNat_add] at hcarry
      omega
    rw [if_pos hcarry]
    unfold propagateCarry
    rw [Cmd.get_bind_run]
    have hnum : ({ s with low := s.low + x, range := r } : State).payloadNumber s.ptr.toNat =
        s.payloadNumber s.ptr.toNat := State.payloadNumber_congr fun _ _ => rfl
    unfold State.codeNumber at hc
    obtain ⟨t, ht, hframe, htn, hout⟩ := carryFrom_ok (s := { s with low := s.low + x, range := r }) hw hp
      (by rw [hnum]; omega)
    have hlow : t.low = s.low + x := by rw [hframe]
    have hptr : t.ptr = s.ptr := by rw [hframe]
    refine ⟨t, ht, by rw [hframe], ?_, hout⟩
    unfold State.codeNumber
    rw [hptr, htn, hnum, hlow, BitVec.toNat_add]
    omega
  · rw [if_neg hcarry]
    refine ⟨_, rfl, rfl, ?_, fun a _ => rfl⟩
    have hsum : s.low.toNat + x.toNat < 2 ^ 32 := by
      rw [BitVec.lt_def, BitVec.toNat_add] at hcarry
      omega
    unfold State.codeNumber
    have hnum : ({ s with low := s.low + x, range := r } : State).payloadNumber s.ptr.toNat =
        s.payloadNumber s.ptr.toNat := State.payloadNumber_congr fun _ _ => rfl
    show ({ s with low := s.low + x, range := r } : State).payloadNumber s.ptr.toNat * 2 ^ 32 + (s.low + x).toNat = _
    rw [hnum, BitVec.toNat_add]
    omega

/-- One turn of `renorm_enc`: a byte goes out, the exact number and the width are scaled by 256 (R114). -/
theorem renormEnc_turn {s : State} (hw : s.windowFits) (hp : s.ptr.toNat < s.wlen.toNat)
    (hr : s.range.toNat < 2 ^ 24) :
    ∃ t, (do putByte (s.low.extractLsb' 24 8); shiftEnc : Cmd Unit) s = .ok () t ∧
      t = { s with low := t.low, range := t.range, ptr := s.ptr + 1#32, cb := t.cb } ∧
      t.ptr.toNat = s.ptr.toNat + 1 ∧ t.range.toNat = s.range.toNat * 256 ∧
      t.codeNumber = s.codeNumber * 256 ∧
      ∀ a, a < s.wbase.toNat ∨ s.wbase.toNat + t.ptr.toNat ≤ a → t.cbByte a = s.cbByte a := by
  rw [Cmd.bind_of_ok ((putByte_run hw _).trans (if_pos hp))]
  have hwl := s.wlen.isLt
  have hptr : (s.ptr + 1#32).toNat = s.ptr.toNat + 1 := by
    rw [BitVec.toNat_add]
    simp
    omega
  refine ⟨_, rfl, rfl, hptr, ?_, ?_, fun a ha => ?_⟩
  · show (s.range <<< 8).toNat = _
    rw [BitVec.toNat_shiftLeft, Nat.shiftLeft_eq]
    omega
  · unfold State.codeNumber
    show State.payloadNumber _ (s.ptr + 1#32).toNat * 2 ^ 32 + (s.low <<< 8).toNat = _
    rw [hptr]
    simp only [State.payloadNumber]
    have hlast : ∀ (l r : Word), State.windowAddr
        ({ s.setCbByte (s.wbase.toNat + s.ptr.toNat) (s.low.extractLsb' 24 8) with
          ptr := s.ptr + 1#32, low := l, range := r } : State) (BitVec.ofNat 32 s.ptr.toNat) =
        s.wbase.toNat + s.ptr.toNat := fun _ _ => State.windowAddr_ofNat hw (Nat.le_of_lt hp)
    have hbelow : ∀ (l r : Word), State.payloadNumber
        ({ s.setCbByte (s.wbase.toNat + s.ptr.toNat) (s.low.extractLsb' 24 8) with
          ptr := s.ptr + 1#32, low := l, range := r } : State) s.ptr.toNat = s.payloadNumber s.ptr.toNat :=
      fun _ _ => State.payloadNumber_congr fun k hk => by
        have hk' : s.windowAddr (BitVec.ofNat 32 k) = s.wbase.toNat + k := State.windowAddr_ofNat hw (by omega)
        show State.cbByte (s.setCbByte _ _) (s.windowAddr _) = _
        rw [hk', State.setCbByte_cbByte_of_ne _ _ (by omega)]
    rw [hlast, hbelow]
    show (_ + (State.cbByte (s.setCbByte _ _) _).toNat) * 2 ^ 32 + _ = _
    rw [State.setCbByte_cbByte_self, BitVec.extractLsb'_toNat, BitVec.toNat_shiftLeft, Nat.shiftLeft_eq,
      Nat.shiftRight_eq_div_pow]
    have := s.low.isLt
    omega
  · show (s.setCbByte _ _).cbByte a = s.cbByte a
    refine State.setCbByte_cbByte_of_ne _ _ ?_
    have : State.ptr ({ s.setCbByte (s.wbase.toNat + s.ptr.toNat) (s.low.extractLsb' 24 8) with
      ptr := s.ptr + 1#32 } : State) = s.ptr + 1#32 := rfl
    change a < s.wbase.toNat ∨ s.wbase.toNat + (s.ptr + 1#32).toNat ≤ a at ha
    omega

theorem renormTurns_cases (r : Word) :
    (2 ^ 24 ≤ r.toNat ∧ renormTurns r = 0) ∨ (2 ^ 16 ≤ r.toNat ∧ r.toNat < 2 ^ 24 ∧ renormTurns r = 1) ∨
      (r.toNat < 2 ^ 16 ∧ renormTurns r = 2) := by
  unfold renormTurns
  split
  · exact .inl ⟨‹_›, rfl⟩
  · split
    · exact .inr (.inl ⟨‹_›, by omega, rfl⟩)
    · exact .inr (.inr ⟨by omega, rfl⟩)

theorem renormEncLoop_succ (k : Nat) (s : State) :
    renormEncLoop (k + 1) s =
      ((do putByte (s.low.extractLsb' 24 8); shiftEnc : Cmd Unit) >>= fun _ =>
        (do let t ← get; if minRange ≤ t.range then pure () else renormEncLoop k : Cmd Unit)) s := by
  rw [Cmd.bind_run]
  conv_lhs => unfold renormEncLoop
  rw [Cmd.get_bind_run, Cmd.bind_run, Cmd.bind_run]
  rcases putByte (s.low.extractLsb' 24 8) s with ⟨_, t⟩ | ⟨_, t⟩ <;> rfl

/-- `renorm_enc` on a width below the threshold: one or two bytes go out (R114). -/
theorem renormEnc_ok {s : State} (hw : s.windowFits) (hr : s.range.toNat < 2 ^ 24) (h8 : 2 ^ 8 ≤ s.range.toNat)
    (hp : s.ptr.toNat + renormTurns s.range ≤ s.wlen.toNat) :
    ∃ t, renormEnc s = .ok () t ∧ EncMoves s t ∧ s.encodedTo t 0#32 s.range := by
  have hmin : minRange.toNat = 2 ^ 24 := rfl
  unfold renormEnc
  rw [Cmd.get_bind_run]
  have hzero : (0#32 : Word).toNat = 0 := rfl
  rcases renormTurns_cases s.range with ⟨h, _⟩ | ⟨h16, _, hn⟩ | ⟨h16, hn⟩
  · omega
  · rw [hn] at hp
    obtain ⟨t, ht, hframe, hptr, hrange, hcode, hout⟩ := renormEnc_turn hw (by omega) hr
    refine ⟨t, ?_, ?_, ?_⟩
    · rw [renormEncLoop_succ, Cmd.bind_of_ok ht, Cmd.get_bind_run, if_pos]
      · rfl
      · rw [BitVec.le_def, hmin, hrange]
        omega
    · unfold EncMoves
      rw [hframe]
    · unfold State.encodedTo State.encodedBy
      rw [hn, hzero]
      exact ⟨hptr, by rw [hrange, Nat.pow_one], by rw [hcode, Nat.add_zero, Nat.pow_one], hout⟩
  · rw [hn] at hp
    obtain ⟨t, ht, hframe, hptr, hrange, hcode, hout⟩ := renormEnc_turn hw (by omega) hr
    have hwt : t.windowFits := by rw [hframe]; exact hw
    have hwl : t.wlen = s.wlen := by rw [hframe]
    have hwb : t.wbase = s.wbase := by rw [hframe]
    obtain ⟨u, hu, hframe2, hptr2, hrange2, hcode2, hout2⟩ := renormEnc_turn hwt (by rw [hptr, hwl]; omega) (by omega)
    obtain ⟨k, hk⟩ : ∃ k, s.wlen.toNat - s.ptr.toNat = k + 1 := ⟨s.wlen.toNat - s.ptr.toNat - 1, by omega⟩
    refine ⟨u, ?_, ?_, ?_⟩
    · rw [renormEncLoop_succ, Cmd.bind_of_ok ht, Cmd.get_bind_run, if_neg, hk, renormEncLoop_succ,
        Cmd.bind_of_ok hu, Cmd.get_bind_run, if_pos]
      · rfl
      · rw [BitVec.le_def, hmin, hrange2]
        omega
      · rw [BitVec.le_def, hmin, hrange]
        omega
    · unfold EncMoves
      rw [hframe2, hframe]
    · unfold State.encodedTo State.encodedBy
      rw [hn, hzero, hptr2, hptr, hrange2, hrange, hcode2, hcode]
      refine ⟨rfl, by omega, by omega, fun a ha => ?_⟩
      rw [hout2 a (by rw [hwb, hptr2, hptr]; omega), hout a (by rw [hptr]; omega)]

/-- A turn of `renorm_enc` in a full window raises with no effect (R111). -/
theorem renormEncLoop_full {s : State} (hw : s.windowFits) (hp : s.ptr.toNat = s.wlen.toNat) (k : Nat) :
    renormEncLoop (k + 1) s = .error (.raise .codeBufferOverflow s.wlen) s := by
  have hput := (putByte_run hw (s.low.extractLsb' 24 8)).trans (if_neg (by omega))
  rw [renormEncLoop_succ, Cmd.bind_of_error (Cmd.bind_of_error hput), BitVec.eq_of_toNat_eq hp]

/-- `renorm_enc` with fewer bytes left than the width needs: those that fit go out, then `put_byte` raises
(R111, R114). -/
theorem renormEnc_full {s : State} (hw : s.windowFits) (hr : s.range.toNat < 2 ^ 24) (hle : s.ptr.toNat ≤ s.wlen.toNat)
    (hp : s.wlen.toNat < s.ptr.toNat + renormTurns s.range) :
    ∃ t, renormEnc s = .error (.raise .codeBufferOverflow s.wlen) t ∧ EncMoves s t ∧
      s.encodedBy t 0#32 s.range (s.wlen.toNat - s.ptr.toNat) := by
  have hmin : minRange.toNat = 2 ^ 24 := rfl
  have hzero : (0#32 : Word).toNat = 0 := rfl
  unfold renormEnc
  rw [Cmd.get_bind_run]
  rcases Nat.eq_or_lt_of_le hle with heq | hlt
  · refine ⟨s, renormEncLoop_full hw heq _, EncMoves.frame.refl s, ?_⟩
    unfold State.encodedBy
    rw [← heq, Nat.sub_self, hzero]
    exact ⟨rfl, by simp, by simp, fun _ _ => rfl⟩
  · obtain ⟨h16, hone⟩ : s.range.toNat < 2 ^ 16 ∧ s.wlen.toNat - s.ptr.toNat = 1 := by
      rcases renormTurns_cases s.range with ⟨_, h⟩ | ⟨_, _, h⟩ | ⟨_, h⟩ <;> omega
    obtain ⟨t, ht, hframe, hptr, hrange, hcode, hout⟩ := renormEnc_turn hw hlt hr
    have hwt : t.windowFits := by rw [hframe]; exact hw
    have hwl : t.wlen = s.wlen := by rw [hframe]
    refine ⟨t, ?_, ?_, ?_⟩
    · rw [hone, renormEncLoop_succ, Cmd.bind_of_ok ht, Cmd.get_bind_run, if_neg,
        renormEncLoop_full hwt (by rw [hptr, hwl]; omega), hwl]
      rw [BitVec.le_def, hmin, hrange]
      omega
    · unfold EncMoves
      rw [hframe]
    · unfold State.encodedBy
      rw [hone, hzero]
      exact ⟨hptr, by rw [hrange, Nat.pow_one], by rw [hcode, Nat.add_zero, Nat.pow_one], hout⟩

/-- `if RANGE < 2^24: renorm_enc()`: as many bytes go out as the width needs, none if it is wide enough. -/
theorem renormEncIfSmall_ok {s : State} (hw : s.windowFits) (h8 : 2 ^ 8 ≤ s.range.toNat)
    (hp : s.ptr.toNat + renormTurns s.range ≤ s.wlen.toNat) :
    ∃ t, renormEncIfSmall s = .ok () t ∧ EncMoves s t ∧ s.encodedTo t 0#32 s.range := by
  unfold renormEncIfSmall
  rw [Cmd.get_bind_run]
  by_cases hr : s.range < minRange
  · rw [if_pos hr]
    exact renormEnc_ok hw (by simpa [BitVec.lt_def, minRange] using hr) h8 hp
  · rw [if_neg hr]
    have h24 : 2 ^ 24 ≤ s.range.toNat := by simpa [BitVec.lt_def, minRange] using hr
    have hn : renormTurns s.range = 0 := by simp only [renormTurns, if_pos h24]
    refine ⟨s, rfl, EncMoves.frame.refl s, ?_⟩
    unfold State.encodedTo State.encodedBy
    rw [hn]
    exact ⟨rfl, by simp, by simp, fun _ _ => rfl⟩

/-- The same with fewer bytes left than the width needs. -/
theorem renormEncIfSmall_full {s : State} (hw : s.windowFits) (hle : s.ptr.toNat ≤ s.wlen.toNat)
    (hp : s.wlen.toNat < s.ptr.toNat + renormTurns s.range) :
    ∃ t, renormEncIfSmall s = .error (.raise .codeBufferOverflow s.wlen) t ∧ EncMoves s t ∧
      s.encodedBy t 0#32 s.range (s.wlen.toNat - s.ptr.toNat) := by
  have hr : s.range.toNat < 2 ^ 24 := by
    rcases renormTurns_cases s.range with ⟨_, h⟩ | ⟨_, h, _⟩ | ⟨h, _⟩ <;> omega
  unfold renormEncIfSmall
  rw [Cmd.get_bind_run, if_pos (by simpa [BitVec.lt_def, minRange] using hr)]
  exact renormEnc_full hw hr hle hp

/-- Raising the low end by `x`, narrowing to `r` and renormalising (R116, R120): the exact statement of one coded
element. -/
theorem addLow_renorm_ok {s : State} (hw : s.windowFits) (x r : Word) (h8 : 2 ^ 8 ≤ r.toNat)
    (hp : s.ptr.toNat + renormTurns r ≤ s.wlen.toNat)
    (hc : s.codeNumber + x.toNat < 256 ^ s.ptr.toNat * 2 ^ 32) :
    ∃ t, (do addLow x r; renormEncIfSmall : Cmd Unit) s = .ok () t ∧ EncMoves s t ∧ s.encodedTo t x r := by
  obtain ⟨t, ht, hframe, hcode, hout⟩ := addLow_ok hw (by omega) x r hc
  have hwb : t.wbase = s.wbase := by rw [hframe]
  have hrange : t.range = r := by rw [hframe]
  have hptr : t.ptr = s.ptr := by rw [hframe]
  have hwl : t.wlen = s.wlen := by rw [hframe]
  obtain ⟨u, hu, hframe2, h1, h2, h3, h4⟩ := renormEncIfSmall_ok (s := t) (by rw [hframe]; exact hw)
    (by rw [hrange]; exact h8) (by rw [hptr, hrange, hwl]; exact hp)
  refine ⟨u, by rw [Cmd.bind_of_ok ht]; exact hu, EncMoves.frame.trans _ t _ (by unfold EncMoves; rw [hframe]) hframe2,
    ?_⟩
  unfold State.encodedTo State.encodedBy
  rw [hrange, hptr] at h1
  rw [hrange] at h2
  rw [hrange, hcode] at h3
  refine ⟨h1, h2, by simpa using h3, fun a ha => ?_⟩
  rw [h4 a (by rw [hwb]; exact ha), hout a (by omega)]

/-- The same with fewer bytes left than the width needs: the low end is raised and the bytes that fit go out before the
raise (spec/60_exceptions.md R215, R223). -/
theorem addLow_renorm_full {s : State} (hw : s.windowFits) (x r : Word) (hle : s.ptr.toNat ≤ s.wlen.toNat)
    (hp : s.wlen.toNat < s.ptr.toNat + renormTurns r)
    (hc : s.codeNumber + x.toNat < 256 ^ s.ptr.toNat * 2 ^ 32) :
    ∃ t, (do addLow x r; renormEncIfSmall : Cmd Unit) s = .error (.raise .codeBufferOverflow s.wlen) t ∧
      EncMoves s t ∧ s.encodedBy t x r (s.wlen.toNat - s.ptr.toNat) := by
  obtain ⟨t, ht, hframe, hcode, hout⟩ := addLow_ok hw hle x r hc
  have hwb : t.wbase = s.wbase := by rw [hframe]
  have hrange : t.range = r := by rw [hframe]
  have hptr : t.ptr = s.ptr := by rw [hframe]
  have hwl : t.wlen = s.wlen := by rw [hframe]
  obtain ⟨u, hu, hframe2, h1, h2, h3, h4⟩ := renormEncIfSmall_full (s := t) (by rw [hframe]; exact hw)
    (by rw [hptr, hwl]; exact hle) (by rw [hptr, hrange, hwl]; exact hp)
  rw [hwl] at hu
  refine ⟨u, by rw [Cmd.bind_of_ok ht]; exact hu, EncMoves.frame.trans _ t _ (by unfold EncMoves; rw [hframe]) hframe2,
    ?_⟩
  unfold State.encodedBy
  rw [hptr, hwl] at h1
  rw [hrange, hptr, hwl] at h2
  rw [hcode, hptr, hwl] at h3
  refine ⟨h1, h2, by simpa using h3, fun a ha => ?_⟩
  rw [h4 a (by rw [hwb]; exact ha), hout a (by omega)]

/-- A sub-interval keeps the bound of R112. -/
theorem State.encodedTo.carryBound {s t : State} {x r : Word} (h : s.encodedTo t x r) (hs : s.carryBound)
    (hxr : x.toNat + r.toNat ≤ s.range.toNat) : t.carryBound := by
  obtain ⟨h1, h2, h3, _⟩ := h
  unfold State.carryBound at *
  rw [h1, h2, h3, Nat.pow_add]
  calc (s.codeNumber + x.toNat) * 256 ^ renormTurns r + r.toNat * 256 ^ renormTurns r
      = (s.codeNumber + (x.toNat + r.toNat)) * 256 ^ renormTurns r := by
        rw [← Nat.add_mul, Nat.add_assoc]
    _ ≤ (256 ^ s.ptr.toNat * 2 ^ 32) * 256 ^ renormTurns r := Nat.mul_le_mul_right _ (by omega)
    _ = 256 ^ s.ptr.toNat * 256 ^ renormTurns r * 2 ^ 32 := by
        rw [Nat.mul_assoc, Nat.mul_comm (2 ^ 32), ← Nat.mul_assoc]

/-! ### The parts of the interval -/

/-- `p0 * (RANGE >> 13)` does not wrap and leaves room on both sides (R116). -/
theorem zeroPart_toNat (p0 : BitVec 13) (r : Word) : (zeroPart p0 r).toNat = p0.toNat * (r.toNat / 2 ^ 13) := by
  have hp := p0.isLt
  have hr := r.isLt
  unfold zeroPart
  rw [BitVec.toNat_mul, BitVec.toNat_setWidth, BitVec.toNat_ushiftRight, Nat.shiftRight_eq_div_pow,
    Nat.mod_eq_of_lt (by omega : p0.toNat < 2 ^ 32)]
  refine Nat.mod_eq_of_lt ?_
  calc p0.toNat * (r.toNat / 2 ^ 13) ≤ (2 ^ 13 - 1) * (2 ^ 19 - 1) := Nat.mul_le_mul (by omega) (by omega)
    _ < 2 ^ 32 := by omega

theorem zeroPart_bounds {p0 : BitVec 13} {r : Word} (hp : 1 ≤ p0.toNat) (hr : minRange ≤ r) :
    2 ^ 11 ≤ (zeroPart p0 r).toNat ∧ (zeroPart p0 r).toNat + 2 ^ 11 ≤ r.toNat := by
  have hmin : 2 ^ 24 ≤ r.toNat := by simpa [BitVec.le_def, minRange] using hr
  have hlt := p0.isLt
  rw [zeroPart_toNat]
  have hq : 2 ^ 11 ≤ r.toNat / 2 ^ 13 := by omega
  constructor
  · exact Nat.le_trans hq (Nat.le_mul_of_pos_left _ hp)
  · have h1 : p0.toNat * (r.toNat / 2 ^ 13) ≤ (2 ^ 13 - 1) * (r.toNat / 2 ^ 13) := Nat.mul_le_mul_right _ (by omega)
    have h2 := Nat.div_mul_le_self r.toNat (2 ^ 13)
    omega

/-- `enc_bit` (R116) raises the low end by `x` for a 1 and narrows the interval to the bit's part. -/
theorem encBit_eq (bit : Bool) (p0 : BitVec 13) (s : State) :
    encBit bit p0 s =
      (do addLow (if bit then zeroPart p0 s.range else 0#32)
            (if bit then s.range - zeroPart p0 s.range else zeroPart p0 s.range)
          renormEncIfSmall : Cmd Unit) s := by
  cases bit with
  | true => rfl
  | false =>
    have hadd : addLow 0#32 (zeroPart p0 s.range) s = .ok () { s with range := zeroPart p0 s.range } := by
      unfold addLow
      rw [Cmd.get_bind_run, Cmd.set_bind_run, BitVec.add_zero, if_neg (BitVec.lt_irrefl _)]
      rfl
    simp only [Bool.false_eq_true, if_false]
    rw [Cmd.bind_of_ok hadd]
    rfl

/-- A bit's part lies inside the interval and is wide enough to renormalise (R116). -/
theorem encBit_part {s : State} (hr : minRange ≤ s.range) {p0 : BitVec 13} (hp0 : 1 ≤ p0.toNat) (bit : Bool) :
    2 ^ 8 ≤ (if bit then s.range - zeroPart p0 s.range else zeroPart p0 s.range).toNat ∧
      (if bit then zeroPart p0 s.range else 0#32).toNat +
        (if bit then s.range - zeroPart p0 s.range else zeroPart p0 s.range).toNat ≤ s.range.toNat := by
  obtain ⟨hlo, hhi⟩ := zeroPart_bounds hp0 hr
  cases bit with
  | true =>
    have hsub : (s.range - zeroPart p0 s.range).toNat = s.range.toNat - (zeroPart p0 s.range).toNat :=
      BitVec.toNat_sub_of_le (by rw [BitVec.le_def]; omega)
    simp only [if_true, hsub]
    omega
  | false =>
    simp only [Bool.false_eq_true, if_false, BitVec.toNat_zero]
    omega

/-- `enc_bit` (R116) in a window with room: the low end grows by `x` for a 1, the width becomes the bit's part. -/
theorem encBit_ok {s : State} (hw : s.windowFits) (hr : minRange ≤ s.range) (hc : s.carryBound) {p0 : BitVec 13}
    (hp0 : 1 ≤ p0.toNat) (bit : Bool)
    (hp : s.ptr.toNat + renormTurns (if bit then s.range - zeroPart p0 s.range else zeroPart p0 s.range) ≤
      s.wlen.toNat) :
    ∃ t, encBit bit p0 s = .ok () t ∧ EncMoves s t ∧
      s.encodedTo t (if bit then zeroPart p0 s.range else 0#32)
        (if bit then s.range - zeroPart p0 s.range else zeroPart p0 s.range) := by
  obtain ⟨h8, hin⟩ := encBit_part hr hp0 bit
  unfold State.carryBound at hc
  rw [encBit_eq]
  exact addLow_renorm_ok hw _ _ h8 hp (by omega)

/-- `enc_bit` with fewer bytes left in the window than the bit's part needs. -/
theorem encBit_full {s : State} (hw : s.windowFits) (hr : minRange ≤ s.range) (hc : s.carryBound) {p0 : BitVec 13}
    (hp0 : 1 ≤ p0.toNat) (bit : Bool) (hle : s.ptr.toNat ≤ s.wlen.toNat)
    (hp : s.wlen.toNat <
      s.ptr.toNat + renormTurns (if bit then s.range - zeroPart p0 s.range else zeroPart p0 s.range)) :
    ∃ t, encBit bit p0 s = .error (.raise .codeBufferOverflow s.wlen) t ∧ EncMoves s t ∧
      s.encodedBy t (if bit then zeroPart p0 s.range else 0#32)
        (if bit then s.range - zeroPart p0 s.range else zeroPart p0 s.range) (s.wlen.toNat - s.ptr.toNat) := by
  obtain ⟨h8, hin⟩ := encBit_part hr hp0 bit
  unfold State.carryBound at hc
  rw [encBit_eq]
  exact addLow_renorm_full hw _ _ hle hp (by omega)

/-! ### The decoder -/

/-- `get_byte` (R113): the next served byte, up to three beyond the window, or a raise with no effect. -/
theorem getByte_run {s : State} (hw : s.windowFits) :
    getByte s =
      if s.ptr.toNat < s.wlen.toNat + 3 then
        .ok (s.servedByte s.ptr.toNat)
          { s with ptr := s.ptr + 1#32, overread := s.overread || decide (s.wlen.toNat ≤ s.ptr.toNat) }
      else .error (.raise .streamOverrun s.ptr) s := by
  unfold getByte
  rw [Cmd.get_bind_run]
  by_cases h : s.ptr.toNat < s.wlen.toNat
  · have haddr : s.windowAddr s.ptr = s.wbase.toNat + s.ptr.toNat := State.windowAddr_eq (by omega)
    have hdec : decide (s.wlen.toNat ≤ s.ptr.toNat) = false := decide_eq_false (by omega)
    rw [if_pos (show s.ptr < s.wlen from h), if_pos (by omega), Cmd.bind_of_ok (memRead_of_lt (by omega))]
    unfold State.servedByte
    rw [if_pos h, BitVec.ofNat_toNat, BitVec.setWidth_eq, hdec, Bool.or_false]
    rfl
  · have hdec : decide (s.wlen.toNat ≤ s.ptr.toNat) = true := decide_eq_true (by omega)
    rw [if_neg (show ¬ s.ptr < s.wlen from h)]
    by_cases h3 : s.ptr.toNat < s.wlen.toNat + 3
    · rw [if_pos h3, if_pos h3]
      unfold State.servedByte
      rw [if_neg h, hdec, Bool.or_true]
      rfl
    · rw [if_neg h3, if_neg h3]
      rfl

/-- The served bytes depend on the window and CB alone. -/
theorem State.servedByte_congr {s t : State} (hb : t.wbase = s.wbase) (hl : t.wlen = s.wlen) (hc : t.cb = s.cb)
    (he : t.memEpoch = s.memEpoch) (o : Nat) : t.servedByte o = s.servedByte o := by
  simp [State.servedByte, State.windowAddr, State.cbByte, hb, hl, hc, he]

/-- One turn of `renorm_dec`: a byte comes in (R115). -/
theorem renormDec_turn {s : State} (hw : s.windowFits) (hp : s.ptr.toNat < s.wlen.toNat + 3)
    (hr : s.range.toNat < 2 ^ 24) :
    ∃ t, (do let b ← getByte; appendByte b; shiftDec : Cmd Unit) s = .ok () t ∧
      t = { s with range := t.range, value := t.value, ptr := s.ptr + 1#32, overread := t.overread } ∧
      t.ptr.toNat = s.ptr.toNat + 1 ∧ t.range.toNat = s.range.toNat * 256 ∧
      t.value.toNat = (s.value.toNat * 256 + (s.servedByte s.ptr.toNat).toNat) % 2 ^ 32 ∧
      t.overread = (s.overread || decide (s.wlen.toNat ≤ s.ptr.toNat)) := by
  rw [Cmd.bind_of_ok ((getByte_run hw).trans (if_pos hp))]
  have hb := (s.servedByte s.ptr.toNat).isLt
  have hv := s.value.isLt
  refine ⟨_, rfl, rfl, ?_, ?_, ?_, rfl⟩
  · show (s.ptr + 1#32).toNat = _
    rw [BitVec.toNat_add]
    simp
    omega
  · show (s.range <<< 8).toNat = _
    rw [BitVec.toNat_shiftLeft, Nat.shiftLeft_eq]
    omega
  · show ((s.value <<< 8) ||| (s.servedByte s.ptr.toNat).setWidth 32).toNat = _
    have hb32 : (s.servedByte s.ptr.toNat).toNat % 2 ^ 32 = (s.servedByte s.ptr.toNat).toNat :=
      Nat.mod_eq_of_lt (by omega)
    rw [BitVec.toNat_or, BitVec.toNat_shiftLeft, BitVec.toNat_setWidth, hb32]
    have hsh : s.value.toNat <<< 8 % 2 ^ 32 = (s.value.toNat % 2 ^ 24) <<< 8 := by
      rw [Nat.shiftLeft_eq, Nat.shiftLeft_eq]
      omega
    rw [hsh, ← Nat.shiftLeft_add_eq_or_of_lt hb, Nat.shiftLeft_eq]
    omega

theorem renormDecLoop_succ (k : Nat) (s : State) :
    renormDecLoop (k + 1) s =
      ((do let b ← getByte; appendByte b; shiftDec : Cmd Unit) >>= fun _ =>
        (do let t ← get; if minRange ≤ t.range then pure () else renormDecLoop k : Cmd Unit)) s := by
  rw [Cmd.bind_run]
  conv_lhs => unfold renormDecLoop
  rw [Cmd.bind_run, Cmd.bind_run]
  rcases getByte s with ⟨b, t⟩ | ⟨_, t⟩ <;> rfl

/-- `renorm_dec` on a width below the threshold: one or two bytes come in (R115). -/
theorem renormDec_ok {s : State} (hw : s.windowFits) (hr : s.range.toNat < 2 ^ 24) (h8 : 2 ^ 8 ≤ s.range.toNat)
    (hp : s.ptr.toNat + renormTurns s.range ≤ s.wlen.toNat + 3) :
    ∃ t, renormDec s = .ok () t ∧ DecMoves s t ∧ s.decodedTo t s.value s.range := by
  have hmin : minRange.toNat = 2 ^ 24 := rfl
  unfold renormDec
  rw [Cmd.get_bind_run]
  rcases renormTurns_cases s.range with ⟨h, _⟩ | ⟨h16, _, hn⟩ | ⟨h16, hn⟩
  · omega
  · rw [hn] at hp
    obtain ⟨t, ht, hframe, hptr, hrange, hvalue, hover⟩ := renormDec_turn hw (by omega) hr
    refine ⟨t, ?_, ?_, ?_⟩
    · rw [renormDecLoop_succ, Cmd.bind_of_ok ht, Cmd.get_bind_run, if_pos]
      · rfl
      · rw [BitVec.le_def, hmin, hrange]
        omega
    · unfold DecMoves
      rw [hframe]
    · unfold State.decodedTo State.decodedBy
      rw [hn]
      refine ⟨hptr, by rw [hrange, Nat.pow_one], by rw [hvalue]; simp [State.servedNumber], ?_⟩
      rw [hover]
      simp
  · rw [hn] at hp
    obtain ⟨t, ht, hframe, hptr, hrange, hvalue, hover⟩ := renormDec_turn hw (by omega) hr
    have hwt : t.windowFits := by rw [hframe]; exact hw
    have hwl : t.wlen = s.wlen := by rw [hframe]
    have hserved : t.servedByte t.ptr.toNat = s.servedByte (s.ptr.toNat + 1) := by
      rw [hptr]
      exact State.servedByte_congr (by rw [hframe]) hwl (by rw [hframe]) (by rw [hframe]) _
    obtain ⟨u, hu, hframe2, hptr2, hrange2, hvalue2, hover2⟩ :=
      renormDec_turn hwt (by rw [hptr, hwl]; omega) (by omega)
    obtain ⟨k, hk⟩ : ∃ k, s.wlen.toNat + 3 - s.ptr.toNat = k + 1 := ⟨s.wlen.toNat + 3 - s.ptr.toNat - 1, by omega⟩
    refine ⟨u, ?_, ?_, ?_⟩
    · rw [renormDecLoop_succ, Cmd.bind_of_ok ht, Cmd.get_bind_run, if_neg, hk, renormDecLoop_succ,
        Cmd.bind_of_ok hu, Cmd.get_bind_run, if_pos]
      · rfl
      · rw [BitVec.le_def, hmin, hrange2]
        omega
      · rw [BitVec.le_def, hmin, hrange]
        omega
    · unfold DecMoves
      rw [hframe2, hframe]
    · unfold State.decodedTo State.decodedBy
      rw [hn, hptr2, hptr, hrange2, hrange, hvalue2, hserved, hvalue, hover2, hover, hwl, hptr]
      refine ⟨rfl, by omega, ?_, ?_⟩
      · simp only [State.servedNumber, Nat.add_zero, Nat.zero_mul, Nat.zero_add]
        omega
      · simp only [Bool.or_eq_true, decide_eq_true_eq, or_assoc]
        exact or_congr Iff.rfl (by omega)

/-- A turn of `renorm_dec` with the three-byte allowance used up raises with no effect (R113). -/
theorem renormDecLoop_short {s : State} (hw : s.windowFits) (hp : s.ptr.toNat = s.wlen.toNat + 3) (k : Nat) :
    renormDecLoop (k + 1) s = .error (.raise .streamOverrun (s.wlen + 3#32)) s := by
  have hget := (getByte_run hw).trans (if_neg (by omega))
  have hlt := s.ptr.isLt
  have hptr : s.ptr = s.wlen + 3#32 := BitVec.eq_of_toNat_eq (by rw [BitVec.toNat_add]; simp; omega)
  rw [renormDecLoop_succ, Cmd.bind_of_error (Cmd.bind_of_error hget), hptr]

/-- `renorm_dec` with fewer bytes to fetch than the width needs: those there are come in, then `get_byte` raises
(R113, R115). -/
theorem renormDec_short {s : State} (hw : s.windowFits) (hr : s.range.toNat < 2 ^ 24)
    (hle : s.ptr.toNat ≤ s.wlen.toNat + 3) (hp : s.wlen.toNat + 3 < s.ptr.toNat + renormTurns s.range) :
    ∃ t, renormDec s = .error (.raise .streamOverrun (s.wlen + 3#32)) t ∧ DecMoves s t ∧
      s.decodedBy t s.value s.range (s.wlen.toNat + 3 - s.ptr.toNat) := by
  have hmin : minRange.toNat = 2 ^ 24 := rfl
  unfold renormDec
  rw [Cmd.get_bind_run]
  rcases Nat.eq_or_lt_of_le hle with heq | hlt
  · refine ⟨s, renormDecLoop_short hw heq _, DecMoves.frame.refl s, ?_⟩
    have hv := s.value.isLt
    unfold State.decodedBy
    rw [← heq, Nat.sub_self]
    exact ⟨rfl, by simp, by simp [State.servedNumber, Nat.mod_eq_of_lt hv], by simp⟩
  · obtain ⟨h16, hone⟩ : s.range.toNat < 2 ^ 16 ∧ s.wlen.toNat + 3 - s.ptr.toNat = 1 := by
      rcases renormTurns_cases s.range with ⟨_, h⟩ | ⟨_, _, h⟩ | ⟨_, h⟩ <;> omega
    obtain ⟨t, ht, hframe, hptr, hrange, hvalue, hover⟩ := renormDec_turn hw hlt hr
    have hwt : t.windowFits := by rw [hframe]; exact hw
    have hwl : t.wlen = s.wlen := by rw [hframe]
    refine ⟨t, ?_, ?_, ?_⟩
    · rw [hone, renormDecLoop_succ, Cmd.bind_of_ok ht, Cmd.get_bind_run, if_neg,
        renormDecLoop_short hwt (by rw [hptr, hwl]; omega), hwl]
      rw [BitVec.le_def, hmin, hrange]
      omega
    · unfold DecMoves
      rw [hframe]
    · unfold State.decodedBy
      rw [hone]
      refine ⟨hptr, by rw [hrange, Nat.pow_one], by rw [hvalue]; simp [State.servedNumber], ?_⟩
      rw [hover]
      simp

/-- `if RANGE < 2^24: renorm_dec()`. -/
theorem renormDecIfSmall_ok {s : State} (hw : s.windowFits) (h8 : 2 ^ 8 ≤ s.range.toNat)
    (hp : s.ptr.toNat + renormTurns s.range ≤ s.wlen.toNat + 3) :
    ∃ t, renormDecIfSmall s = .ok () t ∧ DecMoves s t ∧ s.decodedTo t s.value s.range := by
  unfold renormDecIfSmall
  rw [Cmd.get_bind_run]
  by_cases hr : s.range < minRange
  · rw [if_pos hr]
    exact renormDec_ok hw (by simpa [BitVec.lt_def, minRange] using hr) h8 hp
  · rw [if_neg hr]
    have h24 : 2 ^ 24 ≤ s.range.toNat := by simpa [BitVec.lt_def, minRange] using hr
    have hn : renormTurns s.range = 0 := by simp only [renormTurns, if_pos h24]
    refine ⟨s, rfl, DecMoves.frame.refl s, ?_⟩
    unfold State.decodedTo State.decodedBy
    rw [hn]
    have hv := s.value.isLt
    exact ⟨rfl, by simp, by simp [State.servedNumber, Nat.mod_eq_of_lt hv], by simp⟩

/-- The interval's low end and width do not enter what is served. -/
theorem State.servedNumber_congr {s t : State} (hb : t.wbase = s.wbase) (hl : t.wlen = s.wlen) (hc : t.cb = s.cb)
    (he : t.memEpoch = s.memEpoch) (o n : Nat) : t.servedNumber o n = s.servedNumber o n := by
  induction n with
  | zero => rfl
  | succ k ih => rw [State.servedNumber, State.servedNumber, ih, State.servedByte_congr hb hl hc he]

/-- Leaving the offset `v` in a width `r` and renormalising (R117, R121): the exact statement of one decoded element. -/
theorem renormDec_narrowed_ok {s : State} (hw : s.windowFits) (v r : Word) (h8 : 2 ^ 8 ≤ r.toNat)
    (hp : s.ptr.toNat + renormTurns r ≤ s.wlen.toNat + 3) :
    ∃ t, renormDecIfSmall { s with value := v, range := r } = .ok () t ∧ DecMoves s t ∧ s.decodedTo t v r := by
  obtain ⟨t, ht, hmoves, h1, h2, h3, h4⟩ := renormDecIfSmall_ok (s := { s with value := v, range := r }) hw h8 hp
  rw [State.servedNumber_congr (s := s) (t := { s with value := v, range := r }) rfl rfl rfl rfl] at h3
  exact ⟨t, ht, DecMoves.frame.trans _ { s with value := v, range := r } _ rfl hmoves, h1, h2, h3, h4⟩

/-- The same with fewer bytes to fetch than the width needs (spec/60_exceptions.md R215, R224). -/
theorem renormDec_narrowed_short {s : State} (hw : s.windowFits) (v r : Word) (hle : s.ptr.toNat ≤ s.wlen.toNat + 3)
    (hp : s.wlen.toNat + 3 < s.ptr.toNat + renormTurns r) :
    ∃ t, renormDecIfSmall { s with value := v, range := r } = .error (.raise .streamOverrun (s.wlen + 3#32)) t ∧
      DecMoves s t ∧ s.decodedBy t v r (s.wlen.toNat + 3 - s.ptr.toNat) := by
  have hr : r.toNat < 2 ^ 24 := by
    rcases renormTurns_cases r with ⟨_, h⟩ | ⟨_, h, _⟩ | ⟨h, _⟩ <;> omega
  obtain ⟨t, ht, hmoves, h1, h2, h3, h4⟩ := renormDec_short (s := { s with value := v, range := r }) hw hr hle hp
  rw [State.servedNumber_congr (s := s) (t := { s with value := v, range := r }) rfl rfl rfl rfl] at h3
  refine ⟨t, ?_, DecMoves.frame.trans _ { s with value := v, range := r } _ rfl hmoves, h1, h2, h3, h4⟩
  unfold renormDecIfSmall
  rw [Cmd.get_bind_run, if_pos (by simpa [BitVec.lt_def, minRange] using hr)]
  exact ht

/-- `dec_bit` (R117): the bit is 1 exactly when `VALUE >= x`, and the interval is narrowed to the bit's part. -/
theorem decBit_eq (p0 : BitVec 13) (s : State) :
    decBit p0 s =
      (do renormDecIfSmall; pure (decide (zeroPart p0 s.range ≤ s.value)) : Cmd Bool)
        { s with
          value := if zeroPart p0 s.range ≤ s.value then s.value - zeroPart p0 s.range else s.value
          range := if zeroPart p0 s.range ≤ s.value then s.range - zeroPart p0 s.range else zeroPart p0 s.range } := by
  unfold decBit
  rw [Cmd.get_bind_run]
  by_cases hx : zeroPart p0 s.range ≤ s.value
  · simp only [hx, if_true, decide_true]
    rfl
  · simp only [hx, if_false, decide_false]
    rfl

/-- A bit's part is wide enough to renormalise (R117). -/
theorem decBit_part {s : State} (hr : minRange ≤ s.range) {p0 : BitVec 13} (hp0 : 1 ≤ p0.toNat) :
    2 ^ 8 ≤ (if zeroPart p0 s.range ≤ s.value then s.range - zeroPart p0 s.range else zeroPart p0 s.range).toNat := by
  obtain ⟨hlo, hhi⟩ := zeroPart_bounds hp0 hr
  split
  · rw [BitVec.toNat_sub_of_le (by rw [BitVec.le_def]; omega)]
    omega
  · omega

/-- `dec_bit` (R117) where the bytes may be fetched that the bit's part needs. -/
theorem decBit_ok {s : State} (hw : s.windowFits) (hr : minRange ≤ s.range) {p0 : BitVec 13} (hp0 : 1 ≤ p0.toNat)
    (hp : s.ptr.toNat +
        renormTurns (if zeroPart p0 s.range ≤ s.value then s.range - zeroPart p0 s.range else zeroPart p0 s.range) ≤
      s.wlen.toNat + 3) :
    ∃ t, decBit p0 s = .ok (decide (zeroPart p0 s.range ≤ s.value)) t ∧ DecMoves s t ∧
      s.decodedTo t (if zeroPart p0 s.range ≤ s.value then s.value - zeroPart p0 s.range else s.value)
        (if zeroPart p0 s.range ≤ s.value then s.range - zeroPart p0 s.range else zeroPart p0 s.range) := by
  obtain ⟨t, ht, h⟩ := renormDec_narrowed_ok hw
    (if zeroPart p0 s.range ≤ s.value then s.value - zeroPart p0 s.range else s.value) _ (decBit_part hr hp0) hp
  exact ⟨t, by rw [decBit_eq, Cmd.bind_of_ok ht]; rfl, h⟩

/-- `dec_bit` with fewer bytes to fetch than the bit's part needs. -/
theorem decBit_short {s : State} (hw : s.windowFits) {p0 : BitVec 13} (hle : s.ptr.toNat ≤ s.wlen.toNat + 3)
    (hp : s.wlen.toNat + 3 < s.ptr.toNat +
        renormTurns (if zeroPart p0 s.range ≤ s.value then s.range - zeroPart p0 s.range else zeroPart p0 s.range)) :
    ∃ t, decBit p0 s = .error (.raise .streamOverrun (s.wlen + 3#32)) t ∧ DecMoves s t ∧
      s.decodedBy t (if zeroPart p0 s.range ≤ s.value then s.value - zeroPart p0 s.range else s.value)
        (if zeroPart p0 s.range ≤ s.value then s.range - zeroPart p0 s.range else zeroPart p0 s.range)
        (s.wlen.toNat + 3 - s.ptr.toNat) := by
  obtain ⟨t, ht, h⟩ := renormDec_narrowed_short hw
    (if zeroPart p0 s.range ≤ s.value then s.value - zeroPart p0 s.range else s.value) _ hle hp
  exact ⟨t, by rw [decBit_eq, Cmd.bind_of_error ht], h⟩

/-! ### Symbols -/

/-- `dec_sym` finds the last listed entry whose part starts at or below `v` (R121). -/
theorem scanSym_spec (l v : Word) (entries : List (BitVec 15)) (k best : Nat) :
    (scanSym l v entries k best = best ∨
        (k ≤ scanSym l v entries k best ∧ scanSym l v entries k best < k + entries.length ∧
          (entries.getD (scanSym l v entries k best - k) 0#15).setWidth 32 * l ≤ v)) ∧
      ∀ j, j < entries.length → scanSym l v entries k best < k + j →
        ¬ (entries.getD j 0#15).setWidth 32 * l ≤ v := by
  induction entries generalizing k best with
  | nil => exact ⟨.inl rfl, fun j hj => absurd hj (Nat.not_lt_zero j)⟩
  | cons d rest ih =>
    unfold scanSym
    split
    · rename_i hd
      obtain ⟨h1, h2⟩ := ih (k + 1) k
      refine ⟨.inr ?_, fun j hj hlt => ?_⟩
      · rcases h1 with h1 | ⟨ha, hb, hc⟩
        · rw [h1]
          simp [hd]
        · obtain ⟨i, hi⟩ : ∃ i, scanSym l v rest (k + 1) k - k = i + 1 := ⟨scanSym l v rest (k + 1) k - k - 1, by omega⟩
          rw [show scanSym l v rest (k + 1) k - (k + 1) = i from by omega] at hc
          rw [hi]
          refine ⟨by omega, by simp; omega, ?_⟩
          simpa using hc
      · cases j with
        | zero => rcases h1 with h1 | ⟨ha, _⟩ <;> omega
        | succ j => exact h2 j (by simpa using hj) (by omega)
    · rename_i hd
      obtain ⟨h1, h2⟩ := ih (k + 1) best
      refine ⟨?_, fun j hj hlt => ?_⟩
      · rcases h1 with h1 | ⟨ha, hb, hc⟩
        · exact .inl h1
        · obtain ⟨i, hi⟩ : ∃ i, scanSym l v rest (k + 1) best - k = i + 1 :=
            ⟨scanSym l v rest (k + 1) best - k - 1, by omega⟩
          rw [show scanSym l v rest (k + 1) best - (k + 1) = i from by omega] at hc
          refine .inr ⟨by omega, by simp; omega, ?_⟩
          rw [hi]
          simpa using hc
      · cases j with
        | zero => simpa using hd
        | succ j => exact h2 j (by simpa using hj) (by omega)

end Sys2Proof.Machine
end

