-- ==== Sys2Proof/Laws/Encoding.lean ====
section
/-! SUPPORT. The fields of an assembled command word (spec/30_encoding.md R70, R71). -/

namespace Sys2Proof

/-- Putting a field below the rest of a word. -/
theorem toNat_append_eq {v w : Nat} (x : BitVec v) (y : BitVec w) :
    (x ++ y).toNat = x.toNat * 2 ^ w + y.toNat := by
  rw [BitVec.toNat_append, ← Nat.shiftLeft_add_eq_or_of_lt y.isLt, Nat.shiftLeft_eq]

/-! ### Words with the fields `op`, `ra`, `rb`, `m` and `f` -/

theorem cmdWord_toNat (op : BitVec 8) (ra rb : Reg) (m f : BitVec 8) :
    (cmdWord op ra rb m f).toNat =
      (((op.toNat * 2 ^ 4 + ra.toNat) * 2 ^ 4 + rb.toNat) * 2 ^ 8 + m.toNat) * 2 ^ 8 + f.toNat := by
  unfold cmdWord
  simp only [toNat_append_eq]

@[simp] theorem opField_cmdWord (op : BitVec 8) (ra rb : Reg) (m f : BitVec 8) :
    opField (cmdWord op ra rb m f) = op := by
  refine BitVec.eq_of_toNat_eq ?_
  unfold opField
  rw [BitVec.extractLsb'_toNat, Nat.shiftRight_eq_div_pow, cmdWord_toNat]
  omega

@[simp] theorem raField_cmdWord (op : BitVec 8) (ra rb : Reg) (m f : BitVec 8) :
    raField (cmdWord op ra rb m f) = ra := by
  refine BitVec.eq_of_toNat_eq ?_
  unfold raField
  rw [BitVec.extractLsb'_toNat, Nat.shiftRight_eq_div_pow, cmdWord_toNat]
  omega

@[simp] theorem rbField_cmdWord (op : BitVec 8) (ra rb : Reg) (m f : BitVec 8) :
    rbField (cmdWord op ra rb m f) = rb := by
  refine BitVec.eq_of_toNat_eq ?_
  unfold rbField
  rw [BitVec.extractLsb'_toNat, Nat.shiftRight_eq_div_pow, cmdWord_toNat]
  omega

@[simp] theorem mField_cmdWord (op : BitVec 8) (ra rb : Reg) (m f : BitVec 8) :
    mField (cmdWord op ra rb m f) = m := by
  refine BitVec.eq_of_toNat_eq ?_
  unfold mField
  rw [BitVec.extractLsb'_toNat, Nat.shiftRight_eq_div_pow, cmdWord_toNat]
  omega

@[simp] theorem fField_cmdWord (op : BitVec 8) (ra rb : Reg) (m f : BitVec 8) :
    fField (cmdWord op ra rb m f) = f := by
  refine BitVec.eq_of_toNat_eq ?_
  unfold fField
  rw [BitVec.extractLsb'_toNat, Nat.shiftRight_eq_div_pow, cmdWord_toNat]
  omega

/-- A word is its five fields. -/
theorem cmdWord_fields (cw : Word) :
    cmdWord (opField cw) (raField cw) (rbField cw) (mField cw) (fField cw) = cw := by
  refine BitVec.eq_of_toNat_eq ?_
  unfold opField raField rbField mField fField
  rw [cmdWord_toNat]
  simp only [BitVec.extractLsb'_toNat, Nat.shiftRight_eq_div_pow]
  have := cw.isLt
  omega

/-- Masking works field by field. -/
theorem cmdWord_and (op op' : BitVec 8) (ra ra' rb rb' : Reg) (m m' f f' : BitVec 8) :
    cmdWord op ra rb m f &&& cmdWord op' ra' rb' m' f' =
      cmdWord (op &&& op') (ra &&& ra') (rb &&& rb') (m &&& m') (f &&& f') := by
  have h1 : (op ++ ra) &&& (op' ++ ra') = (op &&& op') ++ (ra &&& ra') := BitVec.and_append
  have h2 : (op ++ ra ++ rb) &&& (op' ++ ra' ++ rb') = ((op ++ ra) &&& (op' ++ ra')) ++ (rb &&& rb') :=
    BitVec.and_append
  have h3 : (op ++ ra ++ rb ++ m) &&& (op' ++ ra' ++ rb' ++ m') =
      ((op ++ ra ++ rb) &&& (op' ++ ra' ++ rb')) ++ (m &&& m') := BitVec.and_append
  have h4 : (op ++ ra ++ rb ++ m ++ f) &&& (op' ++ ra' ++ rb' ++ m' ++ f') =
      ((op ++ ra ++ rb ++ m) &&& (op' ++ ra' ++ rb' ++ m')) ++ (f &&& f') := BitVec.and_append
  exact h4.trans (by rw [h3, h2, h1]; rfl)

/-- Two words are equal exactly when their fields are. -/
theorem cmdWord_inj {op op' : BitVec 8} {ra ra' rb rb' : Reg} {m m' f f' : BitVec 8} :
    cmdWord op ra rb m f = cmdWord op' ra' rb' m' f' ↔
      op = op' ∧ ra = ra' ∧ rb = rb' ∧ m = m' ∧ f = f' := by
  constructor
  · intro h
    exact ⟨by simpa using congrArg opField h, by simpa using congrArg raField h, by simpa using congrArg rbField h,
      by simpa using congrArg mField h, by simpa using congrArg fField h⟩
  · rintro ⟨rfl, rfl, rfl, rfl, rfl⟩
    rfl

theorem cmdWord_zero : cmdWord 0#8 0#4 0#4 0#8 0#8 = 0#32 := by decide

/-! ### Words of format I -/

/-- An immediate is the fields `m` and `f` together. -/
theorem cmdWordImm_eq (op : BitVec 8) (ra : Reg) (imm : BitVec 16) :
    cmdWordImm op ra imm = cmdWord op ra 0#4 (imm.extractLsb' 8 8) (imm.extractLsb' 0 8) := by
  refine BitVec.eq_of_toNat_eq ?_
  rw [cmdWord_toNat]
  unfold cmdWordImm
  simp only [toNat_append_eq, BitVec.extractLsb'_toNat, Nat.shiftRight_eq_div_pow]
  have := imm.isLt
  have h0 : (0#4).toNat = 0 := rfl
  rw [h0]
  omega

@[simp] theorem immField_cmdWordImm (op : BitVec 8) (ra : Reg) (imm : BitVec 16) :
    immField (cmdWordImm op ra imm) = imm := by
  refine BitVec.eq_of_toNat_eq ?_
  unfold immField cmdWordImm
  simp only [toNat_append_eq, BitVec.extractLsb'_toNat, Nat.shiftRight_eq_div_pow]
  omega

@[simp] theorem opField_cmdWordImm (op : BitVec 8) (ra : Reg) (imm : BitVec 16) :
    opField (cmdWordImm op ra imm) = op := by
  rw [cmdWordImm_eq, opField_cmdWord]

@[simp] theorem raField_cmdWordImm (op : BitVec 8) (ra : Reg) (imm : BitVec 16) :
    raField (cmdWordImm op ra imm) = ra := by
  rw [cmdWordImm_eq, raField_cmdWord]

@[simp] theorem rbField_cmdWordImm (op : BitVec 8) (ra : Reg) (imm : BitVec 16) :
    rbField (cmdWordImm op ra imm) = 0#4 := by
  rw [cmdWordImm_eq, rbField_cmdWord]

/-- A word whose field `rb` is zero is an opcode, a register and an immediate. -/
theorem cmdWordImm_fields {cw : Word} (h : rbField cw = 0#4) :
    cmdWordImm (opField cw) (raField cw) (immField cw) = cw := by
  rw [cmdWordImm_eq, ← h]
  conv_rhs => rw [← cmdWord_fields cw]
  rw [cmdWord_inj]
  refine ⟨rfl, rfl, rfl, BitVec.eq_of_toNat_eq ?_, BitVec.eq_of_toNat_eq ?_⟩ <;>
    simp only [immField, mField, fField, BitVec.extractLsb'_toNat, Nat.shiftRight_eq_div_pow] <;> omega

/-! ### The must-be-zero masks, field by field (R71) -/

/-- The must-be-zero test of a format is a test of its unused fields. -/
theorem mbz_eq_zero_iff (fmt : Format) (cw : Word) :
    cw &&& fmt.mbz = 0#32 ↔
      match fmt with
      | .z => raField cw = 0#4 ∧ rbField cw = 0#4 ∧ mField cw = 0#8 ∧ fField cw = 0#8
      | .a => rbField cw = 0#4 ∧ mField cw = 0#8 ∧ fField cw = 0#8
      | .ab => mField cw = 0#8 ∧ fField cw = 0#8
      | .am => rbField cw = 0#4 ∧ fField cw = 0#8
      | .m => raField cw = 0#4 ∧ rbField cw = 0#4 ∧ fField cw = 0#8
      | .mf => raField cw = 0#4 ∧ rbField cw = 0#4
      | .af => rbField cw = 0#4 ∧ mField cw = 0#8
      | .i => rbField cw = 0#4 := by
  have key : ∀ (a b : Reg) (m f : BitVec 8),
      cw &&& cmdWord 0#8 a b m f = 0#32 ↔
        raField cw &&& a = 0#4 ∧ rbField cw &&& b = 0#4 ∧ mField cw &&& m = 0#8 ∧ fField cw &&& f = 0#8 := by
    intro a b m f
    conv_lhs => rw [← cmdWord_fields cw]
    rw [cmdWord_and, ← cmdWord_zero, cmdWord_inj]
    simp
  have h4 : ∀ x : BitVec 4, x &&& 0xF#4 = x := by decide
  have h8 : ∀ x : BitVec 8, x &&& 0xFF#8 = x := by decide
  cases fmt
  · rw [show Format.z.mbz = cmdWord 0#8 0xF#4 0xF#4 0xFF#8 0xFF#8 by decide]
    simpa [h4, h8] using key 0xF#4 0xF#4 0xFF#8 0xFF#8
  · rw [show Format.a.mbz = cmdWord 0#8 0#4 0xF#4 0xFF#8 0xFF#8 by decide]
    simpa [h4, h8] using key 0#4 0xF#4 0xFF#8 0xFF#8
  · rw [show Format.ab.mbz = cmdWord 0#8 0#4 0#4 0xFF#8 0xFF#8 by decide]
    simpa [h4, h8] using key 0#4 0#4 0xFF#8 0xFF#8
  · rw [show Format.am.mbz = cmdWord 0#8 0#4 0xF#4 0#8 0xFF#8 by decide]
    simpa [h4, h8] using key 0#4 0xF#4 0#8 0xFF#8
  · rw [show Format.m.mbz = cmdWord 0#8 0xF#4 0xF#4 0#8 0xFF#8 by decide]
    simpa [h4, h8] using key 0xF#4 0xF#4 0#8 0xFF#8
  · rw [show Format.mf.mbz = cmdWord 0#8 0xF#4 0xF#4 0#8 0#8 by decide]
    simpa [h4, h8] using key 0xF#4 0xF#4 0#8 0#8
  · rw [show Format.af.mbz = cmdWord 0#8 0#4 0xF#4 0xFF#8 0#8 by decide]
    simpa [h4, h8] using key 0#4 0xF#4 0xFF#8 0#8
  · rw [show Format.i.mbz = cmdWord 0#8 0#4 0xF#4 0#8 0#8 by decide]
    simpa [h4, h8] using key 0#4 0xF#4 0#8 0#8

end Sys2Proof
end

