-- ==== Sys2Proof/Laws/Exec.lean ====
section
/-! SUPPORT. Every command is the common frame around its own pseudocode, and what no pseudocode touches. -/

namespace Sys2Proof.Machine

/-- The pseudocode of a command (spec/00_scope.md R14, spec/40_session_and_models.md R89). -/
def bodyOf (i : Instr) : Cmd Unit :=
  match i with
  | .nop => pure ()
  | .li ra imm => writeReg ra (zextImm imm)
  | .lih ra imm => lihBody ra imm
  | .csrr ra f => csrrBody ra f
  | .csrw ra f => csrwBody ra f
  | .ldcb ra rb => ldcbBody ra rb
  | .stcb ra rb => stcbBody ra rb
  | .ldbm ra rb => ldbmBody ra rb
  | .stbm ra rb => stbmBody ra rb
  | .encStart ra rb => encStartBody ra rb
  | .encStop ra => encStopBody ra
  | .decStart ra rb => decStartBody ra rb
  | .decStop => decStopBody
  | .abmReset m => abmResetBody m
  | .admInit m f => admInitBody m f
  | .admReset m => admResetBody m
  | .allReset => modify State.resetModels
  | .encBitA ra m => encBitABody ra m
  | .encBitS ra => encBitSBody ra
  | .decBitA ra m => decBitABody ra m
  | .decBitS ra => decBitSBody ra
  | .encSym ra m => encSymBody ra m
  | .decSym ra m => decSymBody ra m
  | .encUint ra f => encUintBody ra f
  | .decUint ra f => decUintBody ra f
  | .zzenc ra rb => zzencBody ra rb
  | .zzdec ra rb => zzdecBody ra rb
  | .encEg0 ra m => encEg0Body ra m
  | .decEg0 ra m => decEg0Body ra m
  | .encSdelta ra m => encSdeltaBody ra m
  | .decSdelta ra m => decSdeltaBody ra m
  | .occEncBlk ra => occEncBlkBody ra
  | .occDecBlk ra => occDecBlkBody ra
  | .occEncPatch => occEncPatchBody
  | .occDecPatch => occDecPatchBody

/-- Every arm of exec runs its command's pseudocode in the common frame. -/
theorem exec_eq_command (i : Instr) (s : State) : exec i s = command i (bodyOf i) s := by
  cases i <;> rfl

/-! ### The shared checks keep every relation -/

section Checks

variable {R : State → State → Prop}

theorem needMode_keeps (h : Frame R) (need : Mode) : Cmd.Keeps R (needMode need) :=
  h.bind h.get fun _ => h.check _ _ _

theorem needAbm_keeps (h : Frame R) (m : Slot) : Cmd.Keeps R (needAbm m) := h.bind h.get fun _ => h.check _ _ _

theorem needAdm_keeps (h : Frame R) (m : Slot) : Cmd.Keeps R (needAdm m) := h.bind h.get fun _ => h.check _ _ _

theorem needAdmInit_keeps (h : Frame R) (m : Slot) : Cmd.Keeps R (needAdmInit m) :=
  h.bind h.get fun _ => h.check _ _ _

theorem needBit_keeps (h : Frame R) (ra : Reg) : Cmd.Keeps R (needBit ra) := h.bind h.get fun _ => h.check _ _ _

theorem needSymbol_keeps (h : Frame R) (ra : Reg) (m : Slot) : Cmd.Keeps R (needSymbol ra m) :=
  h.bind h.get fun _ => h.check _ _ _

theorem needAlphabet_keeps (h : Frame R) (f : BitVec 8) : Cmd.Keeps R (needAlphabet f) :=
  h.bind h.get fun _ => h.check _ _ _

theorem needWindow_keeps (h : Frame R) (base len : Word) : Cmd.Keeps R (needWindow base len) :=
  h.bind h.get fun _ => h.check _ _ _

theorem needCount_keeps (h : Frame R) (f : BitVec 8) : Cmd.Keeps R (needCount f) := h.check _ _ _

theorem needFits_keeps (h : Frame R) (ra : Reg) (f : BitVec 8) : Cmd.Keeps R (needFits ra f) :=
  h.bind h.get fun _ => h.check _ _ _

theorem readReg_keeps (h : Frame R) (r : Reg) : Cmd.Keeps R (readReg r) := h.bind h.get fun _ => h.pure _

theorem memRead_keeps (h : Frame R) (a : Nat) : Cmd.Keeps R (memRead a) := fun s => by
  rw [memRead_run]
  split <;> exact h.refl s

theorem mapRead_keeps (h : Frame R) (i : Nat) : Cmd.Keeps R (mapRead i) := fun s => by
  rw [mapRead_run]
  split <;> exact h.refl s

end Checks

/-! ### What no pseudocode touches -/

/-- The parameters, `CMDCNT`, the fault record, the host's side and the memory epoch are the same in both states: they
belong to the common frame, to the host or to reset (R89, spec/60_exceptions.md R214, R215). -/
def BodyFrame (s t : State) : Prop :=
  t = { t with
    params := s.params, cmdcnt := s.cmdcnt, fault := s.fault, fcode := s.fcode, fcmd := s.fcmd, finfo := s.finfo
    fseq := s.fseq, memEpoch := s.memEpoch, port := s.port, response := s.response }

theorem BodyFrame.frame : Frame BodyFrame where
  refl _ := rfl
  trans s t u h k := by
    unfold BodyFrame at *
    rw [h] at k
    exact k

theorem EncCodes.bodyFrame {s t : State} (h : EncCodes s t) : BodyFrame s t := by unfold EncCodes at h; rw [h]; rfl

theorem DecCodes.bodyFrame {s t : State} (h : DecCodes s t) : BodyFrame s t := by unfold DecCodes at h; rw [h]; rfl

theorem PatchCodes.bodyFrame {s t : State} (h : PatchCodes s t) : BodyFrame s t := by
  unfold PatchCodes at h; rw [h]; rfl

theorem writeReg_bodyFrame (r : Reg) (v : Word) : Cmd.Keeps BodyFrame (writeReg r v) := Frame.update fun _ => rfl

/-- Whatever a command's pseudocode does and however it ends, it stays inside `BodyFrame`. -/
theorem bodyOf_bodyFrame (i : Instr) : Cmd.Keeps BodyFrame (bodyOf i) := by
  have h := BodyFrame.frame
  have enc {α : Type} {c : Cmd α} (hc : Cmd.Keeps EncCodes c) : Cmd.Keeps BodyFrame c :=
    hc.mono fun _ _ => EncCodes.bodyFrame
  have dec {α : Type} {c : Cmd α} (hc : Cmd.Keeps DecCodes c) : Cmd.Keeps BodyFrame c :=
    hc.mono fun _ _ => DecCodes.bodyFrame
  have encM {α : Type} {c : Cmd α} (hc : Cmd.Keeps EncMoves c) : Cmd.Keeps BodyFrame c :=
    enc (hc.mono fun _ _ => EncMoves.codes)
  have decM {α : Type} {c : Cmd α} (hc : Cmd.Keeps DecMoves c) : Cmd.Keeps BodyFrame c :=
    dec (hc.mono fun _ _ => DecMoves.codes)
  have window (base len : Word) : Cmd.Keeps BodyFrame (modify (fun t => t.openWindow base len) : Cmd Unit) :=
    Frame.update fun _ => rfl
  have mode (m : Mode) : Cmd.Keeps BodyFrame (setMode m) := Frame.update fun _ => rfl
  cases i with
  | nop => exact h.pure ()
  | li ra imm => exact writeReg_bodyFrame _ _
  | lih ra imm => exact h.bind (readReg_keeps h _) fun _ => writeReg_bodyFrame _ _
  | csrr ra f =>
    refine h.bind h.get fun s => ?_
    cases Csr.ofNumber f with
    | some c => exact writeReg_bodyFrame _ _
    | none => exact h.raise _ _
  | csrw ra f =>
    refine Frame.get_bind fun s => ?_
    cases hw : s.csrWriteNumber f (s.reg ra) with
    | none => exact h.refl s
    | some t =>
      show BodyFrame s t
      unfold State.csrWriteNumber at hw
      split at hw
      · unfold BodyFrame
        rw [State.csrWrite_frame hw]
      · cases hw
  | ldcb ra rb =>
    exact h.bind h.get fun _ => h.bind (h.check _ _ _) fun _ => h.bind (memRead_keeps h _) fun _ =>
      writeReg_bodyFrame _ _
  | stcb ra rb => exact h.bind h.get fun _ => h.bind (h.check _ _ _) fun _ => encM (memWrite_encMoves _ _)
  | ldbm ra rb =>
    exact h.bind h.get fun _ => h.bind (h.check _ _ _) fun _ => h.bind (mapRead_keeps h _) fun _ =>
      writeReg_bodyFrame _ _
  | stbm ra rb =>
    exact h.bind h.get fun _ => h.bind (h.check _ _ _) fun _ s => by rw [mapWrite_run]; split <;> rfl
  | encStart ra rb =>
    exact h.bind (needMode_keeps h _) fun _ => h.bind h.get fun _ => h.bind (needWindow_keeps h _ _) fun _ =>
      h.bind (window _ _) fun _ => mode _
  | encStop ra =>
    exact h.bind (needMode_keeps h _) fun _ => h.bind (encM terminate_encMoves) fun _ =>
      h.bind (encM renormEnc_encMoves) fun _ => h.bind h.get fun _ => h.bind (writeReg_bodyFrame _ _) fun _ => mode _
  | decStart ra rb =>
    exact h.bind (needMode_keeps h _) fun _ => h.bind h.get fun _ => h.bind (needWindow_keeps h _ _) fun _ =>
      h.bind (window _ _) fun _ => h.bind (h.forUp (fun _ => decM loadByte_decMoves) _ _) fun _ => mode _
  | decStop => exact h.bind (needMode_keeps h _) fun _ => mode _
  | abmReset m => exact h.bind (needAbm_keeps h _) fun _ => Frame.update fun _ => rfl
  | admInit m f =>
    exact h.bind (needAdm_keeps h _) fun _ => h.bind (needAlphabet_keeps h _) fun _ => Frame.update fun _ => rfl
  | admReset m => exact h.bind (needAdmInit_keeps h _) fun _ => Frame.update fun _ => rfl
  | allReset => exact Frame.update fun _ => rfl
  | encBitA ra m =>
    exact h.bind (needMode_keeps h _) fun _ => h.bind (needAbm_keeps h _) fun _ => h.bind (needBit_keeps h _) fun _ =>
      h.bind h.get fun _ => enc (encBitA_encCodes _ _)
  | encBitS ra =>
    exact h.bind (needMode_keeps h _) fun _ => h.bind (needBit_keeps h _) fun _ => h.bind h.get fun _ =>
      encM (encBit_encMoves _ _)
  | decBitA ra m =>
    exact h.bind (needMode_keeps h _) fun _ => h.bind (needAbm_keeps h _) fun _ =>
      h.bind (dec (decBitA_decCodes _)) fun _ => writeReg_bodyFrame _ _
  | decBitS ra =>
    exact h.bind (needMode_keeps h _) fun _ => h.bind (decM (decBit_decMoves _)) fun _ => writeReg_bodyFrame _ _
  | encSym ra m =>
    exact h.bind (needMode_keeps h _) fun _ => h.bind (needAdmInit_keeps h _) fun _ =>
      h.bind (needSymbol_keeps h _ _) fun _ => h.bind h.get fun _ => enc (encSym_encCodes _ _)
  | decSym ra m =>
    exact h.bind (needMode_keeps h _) fun _ => h.bind (needAdmInit_keeps h _) fun _ =>
      h.bind (dec (decSym_decCodes _)) fun _ => writeReg_bodyFrame _ _
  | encUint ra f =>
    exact h.bind (needCount_keeps h _) fun _ => h.bind (needMode_keeps h _) fun _ =>
      h.bind (needFits_keeps h _ _) fun _ => h.bind h.get fun _ => encM (encBitsUp_encMoves _ _ _)
  | decUint ra f =>
    exact h.bind (needCount_keeps h _) fun _ => h.bind (needMode_keeps h _) fun _ =>
      h.bind (decM (decBitsUp_decMoves _ _ _)) fun _ => writeReg_bodyFrame _ _
  | zzenc ra rb => exact h.bind (readReg_keeps h _) fun _ => writeReg_bodyFrame _ _
  | zzdec ra rb => exact h.bind (readReg_keeps h _) fun _ => writeReg_bodyFrame _ _
  | encEg0 ra m =>
    exact h.bind (needMode_keeps h _) fun _ => h.bind (needAbm_keeps h _) fun _ => h.bind h.get fun _ =>
      enc (encEg0_encCodes _ _)
  | decEg0 ra m =>
    exact h.bind (needMode_keeps h _) fun _ => h.bind (needAbm_keeps h _) fun _ =>
      h.bind (dec (decEg0_decCodes _)) fun _ => writeReg_bodyFrame _ _
  | encSdelta ra m =>
    exact h.bind (needMode_keeps h _) fun _ => h.bind (needAbm_keeps h _) fun _ => h.bind h.get fun _ =>
      enc (encEg0_encCodes _ _)
  | decSdelta ra m =>
    exact h.bind (needMode_keeps h _) fun _ => h.bind (needAbm_keeps h _) fun _ =>
      h.bind (dec (decEg0_decCodes _)) fun _ => writeReg_bodyFrame _ _
  | occEncBlk ra =>
    exact h.bind (needMode_keeps h _) fun _ => h.bind (occModels_keeps h) fun _ => h.bind (readReg_keeps h _) fun _ =>
      enc (occEncBlock_encCodes _ _ _)
  | occDecBlk ra =>
    exact h.bind (needMode_keeps h _) fun _ => h.bind (occModels_keeps h) fun _ =>
      h.bind (dec (occDecBlock_decCodes _ _)) fun _ => writeReg_bodyFrame _ _
  | occEncPatch =>
    exact h.bind (needMode_keeps h _) fun _ => h.bind (occModels_keeps h) fun _ => h.bind (patchCheck_keeps h) fun _ =>
      enc (scanPatch_keeps EncCodes.frame (encPatchBlock_encCodes _))
  | occDecPatch =>
    exact h.bind (needMode_keeps h _) fun _ => h.bind (occModels_keeps h) fun _ => h.bind (patchCheck_keeps h) fun _ =>
      (scanPatch_keeps PatchCodes.frame (decPatchBlock_patchCodes _)).mono fun _ _ => PatchCodes.bodyFrame

end Sys2Proof.Machine
end

