-- ==== Sys2Proof/Laws/PerInstr.lean ====
section
/-! SUPPORT. Statements about every instruction, one lemma per constructor of Instr. -/

namespace Sys2Proof

/-- The place of an instruction's row in the opcode map (spec/30_encoding.md R74). -/
def Instr.rowIndex (i : Instr) : Nat :=
  match i with
  | .nop => 0
  | .li _ _ => 1
  | .lih _ _ => 2
  | .csrr _ _ => 3
  | .csrw _ _ => 4
  | .ldcb _ _ => 5
  | .stcb _ _ => 6
  | .ldbm _ _ => 7
  | .stbm _ _ => 8
  | .encStart _ _ => 9
  | .encStop _ => 10
  | .decStart _ _ => 11
  | .decStop => 12
  | .abmReset _ => 13
  | .admInit _ _ => 14
  | .admReset _ => 15
  | .allReset => 16
  | .encBitA _ _ => 17
  | .encBitS _ => 18
  | .decBitA _ _ => 19
  | .decBitS _ => 20
  | .encSym _ _ => 21
  | .decSym _ _ => 22
  | .encUint _ _ => 23
  | .decUint _ _ => 24
  | .zzenc _ _ => 25
  | .zzdec _ _ => 26
  | .encEg0 _ _ => 27
  | .decEg0 _ _ => 28
  | .encSdelta _ _ => 29
  | .decSdelta _ _ => 30
  | .occEncBlk _ => 31
  | .occDecBlk _ => 32
  | .occEncPatch => 33
  | .occDecPatch => 34

/-! ### The words of each format, under their row's mask (R71, R74) -/

/-- The must-be-zero fields and the opcode survive the mask, the operand fields do not. -/
theorem cmdWord_masked (op : BitVec 8) (ra a rb b : Reg) (m mm f ff : BitVec 8) (hra : ra &&& a = 0#4)
    (hrb : rb &&& b = 0#4) (hm : m &&& mm = 0#8) (hf : f &&& ff = 0#8) :
    cmdWord op ra rb m f &&& cmdWord 0xFF#8 a b mm ff = cmdWord op 0#4 0#4 0#8 0#8 := by
  have h8 : ∀ x : BitVec 8, x &&& 0xFF#8 = x := by decide
  rw [cmdWord_and, hra, hrb, hm, hf, h8]

theorem masked_z (op : BitVec 8) :
    cmdWord op 0#4 0#4 0#8 0#8 &&& 0xFFFFFFFF#32 = cmdWord op 0#4 0#4 0#8 0#8 := by
  rw [show 0xFFFFFFFF#32 = cmdWord 0xFF#8 0xF#4 0xF#4 0xFF#8 0xFF#8 by decide]
  exact cmdWord_masked _ _ _ _ _ _ _ _ _ (by simp) (by simp) (by simp) (by simp)

theorem masked_a (op : BitVec 8) (ra : Reg) :
    cmdWord op ra 0#4 0#8 0#8 &&& 0xFF0FFFFF#32 = cmdWord op 0#4 0#4 0#8 0#8 := by
  rw [show 0xFF0FFFFF#32 = cmdWord 0xFF#8 0#4 0xF#4 0xFF#8 0xFF#8 by decide]
  exact cmdWord_masked _ _ _ _ _ _ _ _ _ (by simp) (by simp) (by simp) (by simp)

theorem masked_ab (op : BitVec 8) (ra rb : Reg) :
    cmdWord op ra rb 0#8 0#8 &&& 0xFF00FFFF#32 = cmdWord op 0#4 0#4 0#8 0#8 := by
  rw [show 0xFF00FFFF#32 = cmdWord 0xFF#8 0#4 0#4 0xFF#8 0xFF#8 by decide]
  exact cmdWord_masked _ _ _ _ _ _ _ _ _ (by simp) (by simp) (by simp) (by simp)

theorem masked_am (op : BitVec 8) (ra : Reg) (m : Slot) :
    cmdWord op ra 0#4 m 0#8 &&& 0xFF0F00FF#32 = cmdWord op 0#4 0#4 0#8 0#8 := by
  rw [show 0xFF0F00FF#32 = cmdWord 0xFF#8 0#4 0xF#4 0#8 0xFF#8 by decide]
  exact cmdWord_masked _ _ _ _ _ _ _ _ _ (by simp) (by simp) (by simp) (by simp)

theorem masked_m (op : BitVec 8) (m : Slot) :
    cmdWord op 0#4 0#4 m 0#8 &&& 0xFFFF00FF#32 = cmdWord op 0#4 0#4 0#8 0#8 := by
  rw [show 0xFFFF00FF#32 = cmdWord 0xFF#8 0xF#4 0xF#4 0#8 0xFF#8 by decide]
  exact cmdWord_masked _ _ _ _ _ _ _ _ _ (by simp) (by simp) (by simp) (by simp)

theorem masked_mf (op : BitVec 8) (m : Slot) (f : BitVec 8) :
    cmdWord op 0#4 0#4 m f &&& 0xFFFF0000#32 = cmdWord op 0#4 0#4 0#8 0#8 := by
  rw [show 0xFFFF0000#32 = cmdWord 0xFF#8 0xF#4 0xF#4 0#8 0#8 by decide]
  exact cmdWord_masked _ _ _ _ _ _ _ _ _ (by simp) (by simp) (by simp) (by simp)

theorem masked_af (op : BitVec 8) (ra : Reg) (f : BitVec 8) :
    cmdWord op ra 0#4 0#8 f &&& 0xFF0FFF00#32 = cmdWord op 0#4 0#4 0#8 0#8 := by
  rw [show 0xFF0FFF00#32 = cmdWord 0xFF#8 0#4 0xF#4 0xFF#8 0#8 by decide]
  exact cmdWord_masked _ _ _ _ _ _ _ _ _ (by simp) (by simp) (by simp) (by simp)

theorem masked_i (op : BitVec 8) (ra : Reg) (imm : BitVec 16) :
    cmdWordImm op ra imm &&& 0xFF0F0000#32 = cmdWord op 0#4 0#4 0#8 0#8 := by
  rw [cmdWordImm_eq, show 0xFF0F0000#32 = cmdWord 0xFF#8 0#4 0xF#4 0#8 0#8 by decide]
  exact cmdWord_masked _ _ _ _ _ _ _ _ _ (by simp) (by simp) (by simp) (by simp)

end Sys2Proof

namespace Sys2Proof.Laws.EncodeRow

/-- The word of the instruction selects the instruction's own row of the opcode map (R74): the opcode is the row's and
every must-be-zero bit is zero. -/
def Statement (i : Instr) : Prop :=
  ∃ row, opcodeRows[i.rowIndex]? = some row ∧ encode i &&& row.mask = row.pattern

theorem nop : Statement .nop := ⟨_, rfl, (masked_z 0x00#8).trans (by decide)⟩

theorem li (ra : Reg) (imm : BitVec 16) : Statement (.li ra imm) := ⟨_, rfl, (masked_i 0x01#8 ra imm).trans (by decide)⟩

theorem lih (ra : Reg) (imm : BitVec 16) : Statement (.lih ra imm) := ⟨_, rfl, (masked_i 0x02#8 ra imm).trans (by decide)⟩

theorem csrr (ra : Reg) (f : BitVec 8) : Statement (.csrr ra f) := ⟨_, rfl, (masked_af 0x03#8 ra f).trans (by decide)⟩

theorem csrw (ra : Reg) (f : BitVec 8) : Statement (.csrw ra f) := ⟨_, rfl, (masked_af 0x04#8 ra f).trans (by decide)⟩

theorem ldcb (ra : Reg) (rb : Reg) : Statement (.ldcb ra rb) := ⟨_, rfl, (masked_ab 0x08#8 ra rb).trans (by decide)⟩

theorem stcb (ra : Reg) (rb : Reg) : Statement (.stcb ra rb) := ⟨_, rfl, (masked_ab 0x09#8 ra rb).trans (by decide)⟩

theorem ldbm (ra : Reg) (rb : Reg) : Statement (.ldbm ra rb) := ⟨_, rfl, (masked_ab 0x0A#8 ra rb).trans (by decide)⟩

theorem stbm (ra : Reg) (rb : Reg) : Statement (.stbm ra rb) := ⟨_, rfl, (masked_ab 0x0B#8 ra rb).trans (by decide)⟩

theorem encStart (ra : Reg) (rb : Reg) : Statement (.encStart ra rb) := ⟨_, rfl, (masked_ab 0x10#8 ra rb).trans (by decide)⟩

theorem encStop (ra : Reg) : Statement (.encStop ra) := ⟨_, rfl, (masked_a 0x11#8 ra).trans (by decide)⟩

theorem decStart (ra : Reg) (rb : Reg) : Statement (.decStart ra rb) := ⟨_, rfl, (masked_ab 0x12#8 ra rb).trans (by decide)⟩

theorem decStop : Statement .decStop := ⟨_, rfl, (masked_z 0x13#8).trans (by decide)⟩

theorem abmReset (m : Slot) : Statement (.abmReset m) := ⟨_, rfl, (masked_m 0x20#8 m).trans (by decide)⟩

theorem admInit (m : Slot) (f : BitVec 8) : Statement (.admInit m f) := ⟨_, rfl, (masked_mf 0x21#8 m f).trans (by decide)⟩

theorem admReset (m : Slot) : Statement (.admReset m) := ⟨_, rfl, (masked_m 0x22#8 m).trans (by decide)⟩

theorem allReset : Statement .allReset := ⟨_, rfl, (masked_z 0x23#8).trans (by decide)⟩

theorem encBitA (ra : Reg) (m : Slot) : Statement (.encBitA ra m) := ⟨_, rfl, (masked_am 0x30#8 ra m).trans (by decide)⟩

theorem encBitS (ra : Reg) : Statement (.encBitS ra) := ⟨_, rfl, (masked_a 0x31#8 ra).trans (by decide)⟩

theorem decBitA (ra : Reg) (m : Slot) : Statement (.decBitA ra m) := ⟨_, rfl, (masked_am 0x32#8 ra m).trans (by decide)⟩

theorem decBitS (ra : Reg) : Statement (.decBitS ra) := ⟨_, rfl, (masked_a 0x33#8 ra).trans (by decide)⟩

theorem encSym (ra : Reg) (m : Slot) : Statement (.encSym ra m) := ⟨_, rfl, (masked_am 0x34#8 ra m).trans (by decide)⟩

theorem decSym (ra : Reg) (m : Slot) : Statement (.decSym ra m) := ⟨_, rfl, (masked_am 0x35#8 ra m).trans (by decide)⟩

theorem encUint (ra : Reg) (f : BitVec 8) : Statement (.encUint ra f) := ⟨_, rfl, (masked_af 0x38#8 ra f).trans (by decide)⟩

theorem decUint (ra : Reg) (f : BitVec 8) : Statement (.decUint ra f) := ⟨_, rfl, (masked_af 0x39#8 ra f).trans (by decide)⟩

theorem zzenc (ra : Reg) (rb : Reg) : Statement (.zzenc ra rb) := ⟨_, rfl, (masked_ab 0x40#8 ra rb).trans (by decide)⟩

theorem zzdec (ra : Reg) (rb : Reg) : Statement (.zzdec ra rb) := ⟨_, rfl, (masked_ab 0x41#8 ra rb).trans (by decide)⟩

theorem encEg0 (ra : Reg) (m : Slot) : Statement (.encEg0 ra m) := ⟨_, rfl, (masked_am 0x42#8 ra m).trans (by decide)⟩

theorem decEg0 (ra : Reg) (m : Slot) : Statement (.decEg0 ra m) := ⟨_, rfl, (masked_am 0x43#8 ra m).trans (by decide)⟩

theorem encSdelta (ra : Reg) (m : Slot) : Statement (.encSdelta ra m) := ⟨_, rfl, (masked_am 0x44#8 ra m).trans (by decide)⟩

theorem decSdelta (ra : Reg) (m : Slot) : Statement (.decSdelta ra m) := ⟨_, rfl, (masked_am 0x45#8 ra m).trans (by decide)⟩

theorem occEncBlk (ra : Reg) : Statement (.occEncBlk ra) := ⟨_, rfl, (masked_a 0x50#8 ra).trans (by decide)⟩

theorem occDecBlk (ra : Reg) : Statement (.occDecBlk ra) := ⟨_, rfl, (masked_a 0x51#8 ra).trans (by decide)⟩

theorem occEncPatch : Statement .occEncPatch := ⟨_, rfl, (masked_z 0x52#8).trans (by decide)⟩

theorem occDecPatch : Statement .occDecPatch := ⟨_, rfl, (masked_z 0x53#8).trans (by decide)⟩

end Sys2Proof.Laws.EncodeRow
end

