-- ==== Sys2Proof/Laws/Symbols.lean ====
section
/-! SUPPORT. The parts of the interval that stand for the symbols of a data model, and what coding one computes
(spec/41_bit_and_symbol_coding.md R120, R121, R123). -/

namespace Sys2Proof.Machine

/-! ### The distribution of a slot -/

/-- In a slot in its ranges a later symbol starts higher. -/
theorem AdmSlot.okInit.dist_lt {maxSym : Nat} {d : AdmSlot} (h : d.okInit maxSym) {i j : Nat} (hij : i < j)
    (hj : j < d.nsym.toNat) : (d.dist.getD i 0#15).toNat < (d.dist.getD j 0#15).toNat := by
  obtain ⟨_, ⟨hlen, _⟩, ⟨_, hpair⟩, _⟩ := h
  have hj' : j < d.dist.length := by omega
  have hi' : i < d.dist.length := by omega
  rw [List.getD_eq_getElem _ _ hj', List.getD_eq_getElem _ _ hi']
  exact List.pairwise_iff_getElem.mp hpair i j hi' hj' hij

/-- `dist[k] * (RANGE >> 15)` does not wrap (R120). -/
theorem distAt_mul_toNat (d : AdmSlot) (k : Nat) (r : Word) :
    (d.distAt k * (r >>> 15)).toNat = (d.dist.getD k 0#15).toNat * (r.toNat / 2 ^ 15) := by
  have hd := (d.dist.getD k 0#15).isLt
  have hr := r.isLt
  unfold AdmSlot.distAt
  rw [BitVec.toNat_mul, BitVec.toNat_setWidth, BitVec.toNat_ushiftRight, Nat.shiftRight_eq_div_pow,
    Nat.mod_eq_of_lt (by omega : (d.dist.getD k 0#15).toNat < 2 ^ 32)]
  refine Nat.mod_eq_of_lt ?_
  calc (d.dist.getD k 0#15).toNat * (r.toNat / 2 ^ 15) ≤ (2 ^ 15 - 1) * (2 ^ 17 - 1) :=
        Nat.mul_le_mul (by omega) (by omega)
    _ < 2 ^ 32 := by omega

/-- A symbol's part starts inside the interval, and the width of the part is exact. -/
theorem symWidth_spec {maxSym : Nat} {d : AdmSlot} (h : d.okInit maxSym) {k : Nat} (hk : k < d.nsym.toNat) {r : Word}
    (hr : minRange ≤ r) :
    let part := fun j => (d.dist.getD j 0#15).toNat * (r.toNat / 2 ^ 15)
    (symWidth d k r).toNat = (if k + 1 = d.nsym.toNat then r.toNat - part k else part (k + 1) - part k) ∧
      2 ^ 9 ≤ (symWidth d k r).toNat ∧ part k + (symWidth d k r).toNat ≤ r.toNat := by
  intro part
  have hmin : 2 ^ 24 ≤ r.toNat := by simpa [BitVec.le_def, minRange] using hr
  have hq : 2 ^ 9 ≤ r.toNat / 2 ^ 15 := by omega
  have hle := Nat.div_mul_le_self r.toNat (2 ^ 15)
  have hpart : ∀ j, (d.distAt j * (r >>> 15)).toNat = part j := fun j => distAt_mul_toNat d j r
  have hdlt : ∀ j, part j + r.toNat / 2 ^ 15 ≤ r.toNat := fun j => by
    have hd := (d.dist.getD j 0#15).isLt
    have h1 : part j ≤ (2 ^ 15 - 1) * (r.toNat / 2 ^ 15) := Nat.mul_le_mul_right _ (by omega)
    omega
  unfold symWidth
  simp only []
  by_cases hlast : k + 1 = d.nsym.toNat
  · rw [if_pos hlast, if_pos hlast, BitVec.toNat_sub_of_le (by rw [BitVec.le_def, hpart]; have := hdlt k; omega), hpart]
    have := hdlt k
    omega
  · have hlt : part k + r.toNat / 2 ^ 15 ≤ part (k + 1) := by
      have h1 : (d.dist.getD k 0#15).toNat + 1 ≤ (d.dist.getD (k + 1) 0#15).toNat :=
        h.dist_lt (Nat.lt_succ_self k) (by omega)
      have h2 := Nat.mul_le_mul_right (r.toNat / 2 ^ 15) h1
      rw [Nat.add_mul, Nat.one_mul] at h2
      exact h2
    rw [if_neg hlast, if_neg hlast, BitVec.toNat_sub_of_le (by rw [BitVec.le_def, hpart, hpart]; omega), hpart, hpart]
    have := hdlt (k + 1)
    omega

/-! ### Coding a symbol -/

/-- What the narrowed interval leaves alone, the slots among it. -/
theorem EncMoves.admSlot {s t : State} (h : EncMoves s t) (j : Nat) : t.admSlot j = s.admSlot j := by
  unfold State.admSlot
  unfold EncMoves at h
  rw [h]

theorem EncMoves.abmSlot {s t : State} (h : EncMoves s t) (m : Nat) : t.abmSlot m = s.abmSlot m := by
  unfold State.abmSlot
  unfold EncMoves at h
  rw [h]

theorem DecMoves.admSlot {s t : State} (h : DecMoves s t) (j : Nat) : t.admSlot j = s.admSlot j := by
  unfold State.admSlot
  unfold DecMoves at h
  rw [h]

theorem DecMoves.abmSlot {s t : State} (h : DecMoves s t) (m : Nat) : t.abmSlot m = s.abmSlot m := by
  unfold State.abmSlot
  unfold DecMoves at h
  rw [h]

/-- Raising the low end to a symbol's part keeps the carry bound's premise (R112, R120). -/
theorem symPart_room {s : State} {maxSym j k : Nat} (hr : minRange ≤ s.range) (hc : s.carryBound)
    (hd : (s.admSlot j).okInit maxSym) (hk : k < (s.admSlot j).nsym.toNat) :
    2 ^ 8 ≤ (symWidth (s.admSlot j) k s.range).toNat ∧
      s.codeNumber + ((s.admSlot j).distAt k * (s.range >>> 15)).toNat < 256 ^ s.ptr.toNat * 2 ^ 32 := by
  obtain ⟨_, hlo, hhi⟩ := symWidth_spec hd hk hr
  unfold State.carryBound at hc
  change ((s.admSlot j).dist.getD k 0#15).toNat * (s.range.toNat / 2 ^ 15) + _ ≤ _ at hhi
  rw [distAt_mul_toNat]
  omega

/-- `enc_sym` (R120) in a window with room, with a slot in its ranges. -/
theorem encSym_ok {s : State} {maxSym j k : Nat} (hw : s.windowFits) (hr : minRange ≤ s.range) (hc : s.carryBound)
    (hd : (s.admSlot j).okInit maxSym) (hk : k < (s.admSlot j).nsym.toNat)
    (hp : s.ptr.toNat + renormTurns (symWidth (s.admSlot j) k s.range) ≤ s.wlen.toNat) :
    ∃ t, encSym k j s = .ok () (t.setAdm j ((s.admSlot j).count k)) ∧ EncMoves s t ∧
      s.encodedTo t ((s.admSlot j).distAt k * (s.range >>> 15)) (symWidth (s.admSlot j) k s.range) := by
  obtain ⟨h8, hroom⟩ := symPart_room hr hc hd hk
  obtain ⟨t, ht, hmoves, henc⟩ := addLow_renorm_ok hw _ (symWidth (s.admSlot j) k s.range) h8 hp hroom
  refine ⟨t, ?_, hmoves, henc⟩
  obtain ⟨_, u, hadd, hren⟩ := Cmd.bind_eq_ok.mp ht
  show (addLow ((s.admSlot j).distAt k * (s.range >>> 15)) (symWidth (s.admSlot j) k s.range) >>= fun _ =>
    renormEncIfSmall >>= fun _ => admCount j k) s = _
  rw [Cmd.bind_of_ok hadd, Cmd.bind_of_ok hren]
  unfold admCount
  rw [Cmd.modify_run, hmoves.admSlot]

/-- `enc_sym` with fewer bytes left in the window than the symbol's part needs: the symbol is not counted. -/
theorem encSym_full {s : State} {maxSym j k : Nat} (hw : s.windowFits) (hr : minRange ≤ s.range) (hc : s.carryBound)
    (hd : (s.admSlot j).okInit maxSym) (hk : k < (s.admSlot j).nsym.toNat) (hle : s.ptr.toNat ≤ s.wlen.toNat)
    (hp : s.wlen.toNat < s.ptr.toNat + renormTurns (symWidth (s.admSlot j) k s.range)) :
    ∃ t, encSym k j s = .error (.raise .codeBufferOverflow s.wlen) t ∧ EncMoves s t ∧
      s.encodedBy t ((s.admSlot j).distAt k * (s.range >>> 15)) (symWidth (s.admSlot j) k s.range)
        (s.wlen.toNat - s.ptr.toNat) := by
  obtain ⟨_, hroom⟩ := symPart_room hr hc hd hk
  obtain ⟨t, ht, h⟩ := addLow_renorm_full hw _ (symWidth (s.admSlot j) k s.range) hle hp hroom
  refine ⟨t, ?_, h⟩
  show (addLow ((s.admSlot j).distAt k * (s.range >>> 15)) (symWidth (s.admSlot j) k s.range) >>= fun _ =>
    renormEncIfSmall >>= fun _ => admCount j k) s = _
  rcases Cmd.bind_eq_error.mp ht with hadd | ⟨_, u, hadd, hren⟩
  · exact Cmd.bind_of_error hadd
  · rw [Cmd.bind_of_ok hadd, Cmd.bind_of_error hren]

/-- The symbol that `dec_sym` finds: the last one whose part starts at or below `VALUE` (R121). -/
theorem scanSym_selects {s : State} {maxSym j k : Nat} (hd : (s.admSlot j).okInit maxSym)
    (hk : scanSym (s.range >>> 15) s.value (s.admSlot j).dist 0 0 = k) :
    k < (s.admSlot j).nsym.toNat ∧ (s.admSlot j).distAt k * (s.range >>> 15) ≤ s.value ∧
      ∀ i, k < i → i < (s.admSlot j).nsym.toNat → s.value < (s.admSlot j).distAt i * (s.range >>> 15) := by
  obtain ⟨⟨hn, _⟩, ⟨hlen, _⟩, ⟨hzero, _⟩, _⟩ := id hd
  obtain ⟨hfound, hlargest⟩ := scanSym_spec (s.range >>> 15) s.value (s.admSlot j).dist 0 0
  rw [hk] at hfound hlargest
  refine ⟨?_, ?_, fun i hki hin => ?_⟩
  · rcases hfound with h | ⟨_, h, _⟩ <;> omega
  · rcases hfound with h | ⟨_, _, h⟩
    · rw [h]
      unfold AdmSlot.distAt
      rw [hzero, BitVec.le_def]
      simp
    · simpa [AdmSlot.distAt] using h
  · exact BitVec.not_le.mp (by simpa [AdmSlot.distAt] using hlargest i (by omega) (by omega))

/-- `dec_sym` (R121) where the bytes may be fetched that the found symbol's part needs. -/
theorem decSym_ok {s : State} {maxSym j k : Nat} (hw : s.windowFits) (hr : minRange ≤ s.range)
    (hd : (s.admSlot j).okInit maxSym) (hk : scanSym (s.range >>> 15) s.value (s.admSlot j).dist 0 0 = k)
    (hp : s.ptr.toNat + renormTurns (symWidth (s.admSlot j) k s.range) ≤ s.wlen.toNat + 3) :
    ∃ t, decSym j s = .ok k (t.setAdm j ((s.admSlot j).count k)) ∧ DecMoves s t ∧
      s.decodedTo t (s.value - (s.admSlot j).distAt k * (s.range >>> 15)) (symWidth (s.admSlot j) k s.range) := by
  obtain ⟨_, hlo, _⟩ := symWidth_spec hd (scanSym_selects hd hk).1 hr
  obtain ⟨t, ht, hmoves, hdec⟩ := renormDec_narrowed_ok hw (s.value - (s.admSlot j).distAt k * (s.range >>> 15))
    (symWidth (s.admSlot j) k s.range) (by omega) hp
  refine ⟨t, ?_, hmoves, hdec⟩
  unfold decSym
  rw [Cmd.get_bind_run]
  simp only [hk]
  rw [Cmd.set_bind_run, Cmd.bind_of_ok ht]
  unfold admCount
  rw [Cmd.modify_bind_run, hmoves.admSlot]
  rfl

/-- `dec_sym` with fewer bytes to fetch than the found symbol's part needs: the symbol is not counted. -/
theorem decSym_short {s : State} {j k : Nat} (hw : s.windowFits) (hle : s.ptr.toNat ≤ s.wlen.toNat + 3)
    (hk : scanSym (s.range >>> 15) s.value (s.admSlot j).dist 0 0 = k)
    (hp : s.wlen.toNat + 3 < s.ptr.toNat + renormTurns (symWidth (s.admSlot j) k s.range)) :
    ∃ t, decSym j s = .error (.raise .streamOverrun (s.wlen + 3#32)) t ∧ DecMoves s t ∧
      s.decodedBy t (s.value - (s.admSlot j).distAt k * (s.range >>> 15)) (symWidth (s.admSlot j) k s.range)
        (s.wlen.toNat + 3 - s.ptr.toNat) := by
  obtain ⟨t, ht, h⟩ := renormDec_narrowed_short hw (s.value - (s.admSlot j).distAt k * (s.range >>> 15))
    (symWidth (s.admSlot j) k s.range) hle hp
  refine ⟨t, ?_, h⟩
  unfold decSym
  rw [Cmd.get_bind_run]
  simp only [hk]
  rw [Cmd.set_bind_run, Cmd.bind_of_error ht]

/-! ### Coding a bit with an adaptive model -/

/-- `enc_bit` with the slot's own probability, then the count (R126, R144, R174). -/
theorem encBitA_ok {s : State} {m : Nat} (hw : s.windowFits) (hr : minRange ≤ s.range) (hc : s.carryBound)
    (hm : (s.abmSlot m).ok) (bit : Bool)
    (hp : s.ptr.toNat + renormTurns
        (if bit then s.range - zeroPart (s.abmSlot m).p0 s.range else zeroPart (s.abmSlot m).p0 s.range) ≤
      s.wlen.toNat) :
    ∃ t, encBitA m bit s = .ok () (t.setAbm m ((s.abmSlot m).count bit)) ∧ EncMoves s t ∧
      s.encodedTo t (if bit then zeroPart (s.abmSlot m).p0 s.range else 0#32)
        (if bit then s.range - zeroPart (s.abmSlot m).p0 s.range else zeroPart (s.abmSlot m).p0 s.range) := by
  obtain ⟨t, ht, hmoves, henc⟩ := encBit_ok hw hr hc hm.1 bit hp
  refine ⟨t, ?_, hmoves, henc⟩
  unfold encBitA abmCount
  rw [Cmd.get_bind_run, Cmd.bind_of_ok ht, Cmd.modify_run, hmoves.abmSlot]

/-- The same with fewer bytes left in the window than the bit's part needs: the bit is not counted. -/
theorem encBitA_full {s : State} {m : Nat} (hw : s.windowFits) (hr : minRange ≤ s.range) (hc : s.carryBound)
    (hm : (s.abmSlot m).ok) (bit : Bool) (hle : s.ptr.toNat ≤ s.wlen.toNat)
    (hp : s.wlen.toNat < s.ptr.toNat + renormTurns
        (if bit then s.range - zeroPart (s.abmSlot m).p0 s.range else zeroPart (s.abmSlot m).p0 s.range)) :
    ∃ t, encBitA m bit s = .error (.raise .codeBufferOverflow s.wlen) t ∧ EncMoves s t ∧
      s.encodedBy t (if bit then zeroPart (s.abmSlot m).p0 s.range else 0#32)
        (if bit then s.range - zeroPart (s.abmSlot m).p0 s.range else zeroPart (s.abmSlot m).p0 s.range)
        (s.wlen.toNat - s.ptr.toNat) := by
  obtain ⟨t, ht, h⟩ := encBit_full hw hr hc hm.1 bit hle hp
  refine ⟨t, ?_, h⟩
  unfold encBitA
  rw [Cmd.get_bind_run, Cmd.bind_of_error ht]

/-- `dec_bit` with the slot's own probability, then the count (R128, R144, R174). -/
theorem decBitA_ok {s : State} {m : Nat} (hw : s.windowFits) (hr : minRange ≤ s.range) (hm : (s.abmSlot m).ok) :
    let x := zeroPart (s.abmSlot m).p0 s.range
    s.ptr.toNat + renormTurns (if x ≤ s.value then s.range - x else x) ≤ s.wlen.toNat + 3 →
    ∃ t, decBitA m s =
        .ok (decide (x ≤ s.value)) (t.setAbm m ((s.abmSlot m).count (decide (x ≤ s.value)))) ∧ DecMoves s t ∧
      s.decodedTo t (if x ≤ s.value then s.value - x else s.value) (if x ≤ s.value then s.range - x else x) := by
  intro x hp
  obtain ⟨t, ht, hmoves, hdec⟩ := decBit_ok hw hr hm.1 hp
  refine ⟨t, ?_, hmoves, hdec⟩
  unfold decBitA abmCount
  rw [Cmd.get_bind_run, Cmd.bind_of_ok ht, Cmd.modify_bind_run, hmoves.abmSlot]
  rfl

/-- The same with fewer bytes to fetch than the bit's part needs: the bit is not counted. -/
theorem decBitA_short {s : State} {m : Nat} (hw : s.windowFits) (hle : s.ptr.toNat ≤ s.wlen.toNat + 3) :
    let x := zeroPart (s.abmSlot m).p0 s.range
    s.wlen.toNat + 3 < s.ptr.toNat + renormTurns (if x ≤ s.value then s.range - x else x) →
    ∃ t, decBitA m s = .error (.raise .streamOverrun (s.wlen + 3#32)) t ∧ DecMoves s t ∧
      s.decodedBy t (if x ≤ s.value then s.value - x else s.value) (if x ≤ s.value then s.range - x else x)
        (s.wlen.toNat + 3 - s.ptr.toNat) := by
  intro x hp
  obtain ⟨t, ht, h⟩ := decBit_short hw hle hp
  refine ⟨t, ?_, h⟩
  unfold decBitA
  rw [Cmd.get_bind_run, Cmd.bind_of_error ht]

/-! ### The parts of the interval as claims state them (Safety.lean) -/

/-- The part of a 0 bit, as claims state it. -/
theorem bitPart_eq (p0 : BitVec 13) (r : Word) : bitPart p0 r = zeroPart p0 r :=
  BitVec.eq_of_toNat_eq (by
    rw [zeroPart_toNat]
    unfold bitPart
    rw [BitVec.toNat_ofNat, ← zeroPart_toNat]
    exact Nat.mod_eq_of_lt (zeroPart p0 r).isLt)

/-- The part below a symbol, as claims state it. -/
theorem symPart_eq (d : AdmSlot) (r : Word) (k : Nat) : symPart d r k = d.distAt k * (r >>> 15) :=
  BitVec.eq_of_toNat_eq (by
    rw [distAt_mul_toNat]
    unfold symPart
    rw [BitVec.toNat_ofNat, ← distAt_mul_toNat]
    exact Nat.mod_eq_of_lt (d.distAt k * (r >>> 15)).isLt)

/-- The width of a symbol, as claims state it. -/
theorem Decision.width_sym (s : State) (j k : Nat) :
    (Decision.sym j k).width s = symWidth (s.admSlot j) k s.range := by
  simp only [Decision.width, symWidth, symPart_eq]

end Sys2Proof.Machine
end

