-- ==== Sys2Proof/Laws/Sequences.lean ====
section
/-! SUPPORT. One decision and sequences of decisions as claims state them (Safety.lean): what coding one decision can do,
and how sequences split. -/

namespace Sys2Proof.Machine

/-! ### The slots of a ready session -/

/-- In a state with the invariant a bit model slot that exists is in its ranges. -/
theorem State.Inv.abmSlot_ok {s : State} (h : s.Inv) {m : Nat} (hm : m < s.params.nAbm) : (s.abmSlot m).ok := by
  obtain ⟨_, ⟨hlen, hall, _⟩, _⟩ := h
  unfold State.abmSlot
  rw [List.getD_eq_getElem _ _ (hlen ▸ hm)]
  exact hall _ (List.getElem_mem _)

/-- A data model slot that exists and is in use is in its ranges. -/
theorem State.Inv.admSlot_ok {s : State} (h : s.Inv) {j : Nat} (hj : j < s.params.nAdm)
    (hn : (s.admSlot j).nsym ≠ 0#8) : (s.admSlot j).okInit s.params.maxSym := by
  obtain ⟨_, ⟨_, _, hlen, hall⟩, _⟩ := h
  have hmem : s.admSlot j ∈ s.adm := by
    unfold State.admSlot
    rw [List.getD_eq_getElem _ _ (hlen ▸ hj)]
    exact List.getElem_mem _
  exact (hall _ hmem).resolve_left hn

/-- What every lemma on the encoder asks of the session (R28, R51). -/
theorem State.encReady.coder {s : State} {n : Nat} (h : s.encReady n) : s.windowFits ∧ minRange ≤ s.range := by
  obtain ⟨⟨hp, _, _, _, _, hs⟩, hf, hm, _⟩ := h
  obtain ⟨hwin, hr, _⟩ := hs hf (by rw [hm]; decide)
  exact ⟨⟨hwin, hp.2.2.2.1.2⟩, hr⟩

/-- What every lemma on the decoder asks of the session. -/
theorem State.decReady.coder {s : State} {n : Nat} (h : s.decReady n) : s.windowFits ∧ minRange ≤ s.range := by
  obtain ⟨⟨hp, _, _, _, _, hs⟩, hf, hm, _⟩ := h
  obtain ⟨hwin, hr, _⟩ := hs hf (by rw [hm]; decide)
  exact ⟨⟨hwin, hp.2.2.2.1.2⟩, hr⟩

/-! ### One decision -/

/-- The decision counted in its own model; the static model is in no slot (R118, R123, R126). -/
def Decision.counted (d : Decision) (s : State) : State :=
  match d with
  | .bitS _ => s
  | .bitA m b => s.setAbm m ((s.abmSlot m).count b)
  | .sym j k => s.setAdm j ((s.admSlot j).count k)

/-- A coded symbol names a slot in use. -/
theorem AdmSlot.inUse {d : AdmSlot} {k : Nat} (h : k < d.nsym.toNat) : d.nsym ≠ 0#8 := by
  rintro h0
  rw [h0] at h
  exact absurd h (Nat.not_lt_zero k)

/-- Coding a decision with room for its bytes (R114, R116, R120). -/
theorem Decision.enc_ok {s : State} {d : Decision} (h : s.encReady (renormTurns (d.width s))) (hf : d.fits s) :
    ∃ t, d.enc s = .ok () (d.counted t) ∧ EncMoves s t ∧ s.encodedTo t (d.base s) (d.width s) := by
  obtain ⟨hw, hr⟩ := h.coder
  obtain ⟨hinv, _, _, hc, hroom⟩ := h
  cases d with
  | bitS b =>
    simp only [Decision.base, Decision.width, bitPart_eq] at hroom ⊢
    exact encBit_ok hw hr hc (by decide) b hroom
  | bitA m b =>
    simp only [Decision.base, Decision.width, bitPart_eq] at hroom ⊢
    obtain ⟨t, ht, hmoves, henc⟩ := encBitA_ok hw hr hc (hinv.abmSlot_ok hf) b hroom
    exact ⟨t, by rw [Decision.counted, hmoves.abmSlot]; exact ht, hmoves, henc⟩
  | sym j k =>
    rw [Decision.width_sym] at hroom ⊢
    rw [Decision.base, symPart_eq]
    obtain ⟨t, ht, hmoves, henc⟩ :=
      encSym_ok hw hr hc (hinv.admSlot_ok hf.1 (AdmSlot.inUse hf.2)) hf.2 hroom
    exact ⟨t, by rw [Decision.counted, hmoves.admSlot]; exact ht, hmoves, henc⟩

/-- Coding a decision with fewer bytes left in the window: what fits is sent, nothing is counted (R111, R223). -/
theorem Decision.enc_full {s : State} {d : Decision} (h : s.encReady 0) (hf : d.fits s)
    (hp : s.wlen.toNat < s.ptr.toNat + renormTurns (d.width s)) :
    ∃ t, d.enc s = .error (.raise .codeBufferOverflow s.wlen) t ∧ EncMoves s t ∧
      s.encodedBy t (d.base s) (d.width s) (s.wlen.toNat - s.ptr.toNat) := by
  obtain ⟨hw, hr⟩ := h.coder
  obtain ⟨hinv, _, _, hc, hle⟩ := h
  cases d with
  | bitS b =>
    simp only [Decision.base, Decision.width, bitPart_eq] at hp ⊢
    exact encBit_full hw hr hc (by decide) b hle hp
  | bitA m b =>
    simp only [Decision.base, Decision.width, bitPart_eq] at hp ⊢
    exact encBitA_full hw hr hc (hinv.abmSlot_ok hf) b hle hp
  | sym j k =>
    rw [Decision.width_sym] at hp ⊢
    rw [Decision.base, symPart_eq]
    exact encSym_full hw hr hc (hinv.admSlot_ok hf.1 (AdmSlot.inUse hf.2)) hf.2 hle hp

/-- The bit that `VALUE` selects, and what is left (R117). -/
theorem bit_selected {p0 : BitVec 13} {r v : Word} {b : Bool} (h : b = decide (bitPart p0 r ≤ v)) :
    (if bitPart p0 r ≤ v then v - bitPart p0 r else v) = v - (if b then bitPart p0 r else 0#32) ∧
      (if bitPart p0 r ≤ v then r - bitPart p0 r else bitPart p0 r) =
        (if b then r - bitPart p0 r else bitPart p0 r) := by
  subst h
  by_cases hx : bitPart p0 r ≤ v <;> simp [hx]

/-- The symbol that `VALUE` selects is the one the decoder finds (R121). -/
theorem sym_selected {s : State} {maxSym j k : Nat} (hd : (s.admSlot j).okInit maxSym)
    (h : (Decision.sym j k).selected s) : scanSym (s.range >>> 15) s.value (s.admSlot j).dist 0 0 = k := by
  obtain ⟨hk, hle, hlt⟩ := h
  obtain ⟨hk', hle', hlt'⟩ := scanSym_selects hd rfl
  rcases Nat.lt_trichotomy (scanSym (s.range >>> 15) s.value (s.admSlot j).dist 0 0) k with h | h | h
  · exact absurd (symPart_eq _ _ k ▸ hle) (BitVec.not_le.mpr (hlt' k h hk))
  · exact h
  · exact absurd hle' (BitVec.not_le.mpr (symPart_eq (s.admSlot j) s.range _ ▸ hlt _ h hk'))

/-- The decision names a slot that exists, a data model slot in use. -/
abbrev Decision.usable (s : State) (d : Decision) : Prop :=
  match d with
  | .bitS _ => True
  | .bitA m _ => m < s.params.nAbm
  | .sym j _ => j < s.params.nAdm ∧ (s.admSlot j).nsym ≠ 0#8

/-- The selected decision is decoded where its bytes may be fetched (R115, R117, R121). -/
theorem Decision.dec_ok {s : State} {d : Decision} (h : s.decReady (renormTurns (d.width s))) (hu : d.usable s)
    (hsel : d.selected s) :
    ∃ t, d.dec s = .ok d (d.counted t) ∧ DecMoves s t ∧ s.decodedTo t (s.value - d.base s) (d.width s) := by
  obtain ⟨hw, hr⟩ := h.coder
  obtain ⟨hinv, _, _, hroom⟩ := h
  cases d with
  | bitS b =>
    obtain ⟨hv, hwid⟩ := bit_selected hsel
    simp only [Decision.base, Decision.width] at hroom ⊢
    rw [← hwid, bitPart_eq] at hroom
    obtain ⟨t, ht, hmoves, hdec⟩ := decBit_ok hw hr (by decide) hroom
    rw [← bitPart_eq, ← hsel] at ht
    rw [← bitPart_eq, hv, hwid] at hdec
    exact ⟨t, (Cmd.bind_of_ok ht).trans rfl, hmoves, hdec⟩
  | bitA m b =>
    obtain ⟨hv, hwid⟩ := bit_selected hsel
    simp only [Decision.base, Decision.width] at hroom ⊢
    rw [← hwid, bitPart_eq] at hroom
    obtain ⟨t, ht, hmoves, hdec⟩ := decBitA_ok hw hr (hinv.abmSlot_ok hu) hroom
    rw [← bitPart_eq, ← hsel, ← hmoves.abmSlot] at ht
    rw [← bitPart_eq, hv, hwid] at hdec
    exact ⟨t, (Cmd.bind_of_ok ht).trans rfl, hmoves, hdec⟩
  | sym j k =>
    have hd := hinv.admSlot_ok hu.1 hu.2
    rw [Decision.width_sym] at hroom ⊢
    rw [Decision.base, symPart_eq]
    obtain ⟨t, ht, hmoves, hdec⟩ := decSym_ok hw hr hd (sym_selected hd hsel) hroom
    rw [← hmoves.admSlot] at ht
    exact ⟨t, (Cmd.bind_of_ok ht).trans rfl, hmoves, hdec⟩

/-- The selected decision with fewer bytes to fetch: the bytes there are come in, nothing is counted (R113, R224). -/
theorem Decision.dec_short {s : State} {d : Decision} (h : s.decReady 0) (hu : d.usable s) (hsel : d.selected s)
    (hp : s.wlen.toNat + 3 < s.ptr.toNat + renormTurns (d.width s)) :
    ∃ t, d.dec s = .error (.raise .streamOverrun (s.wlen + 3#32)) t ∧ DecMoves s t ∧
      s.decodedBy t (s.value - d.base s) (d.width s) (s.wlen.toNat + 3 - s.ptr.toNat) := by
  obtain ⟨hw, _⟩ := h.coder
  obtain ⟨hinv, _, _, hle⟩ := h
  cases d with
  | bitS b =>
    obtain ⟨hv, hwid⟩ := bit_selected hsel
    simp only [Decision.base, Decision.width] at hp ⊢
    rw [← hwid, bitPart_eq] at hp
    obtain ⟨t, ht, hmoves, hdec⟩ := decBit_short hw hle hp
    rw [← bitPart_eq, hv, hwid] at hdec
    exact ⟨t, Cmd.bind_of_error ht, hmoves, hdec⟩
  | bitA m b =>
    obtain ⟨hv, hwid⟩ := bit_selected hsel
    simp only [Decision.base, Decision.width] at hp ⊢
    rw [← hwid, bitPart_eq] at hp
    obtain ⟨t, ht, hmoves, hdec⟩ := decBitA_short hw hle hp
    rw [← bitPart_eq, hv, hwid] at hdec
    exact ⟨t, Cmd.bind_of_error ht, hmoves, hdec⟩
  | sym j k =>
    have hd := hinv.admSlot_ok hu.1 hu.2
    rw [Decision.width_sym] at hp ⊢
    rw [Decision.base, symPart_eq]
    obtain ⟨t, ht, hmoves, hdec⟩ := decSym_short hw hle (sym_selected hd hsel) hp
    exact ⟨t, Cmd.bind_of_error ht, hmoves, hdec⟩

/-! ### Sequences -/

@[simp] theorem encDecisions_nil (s : State) : encDecisions [] s = .ok () s := rfl

@[simp] theorem decDecisions_nil (s : State) : decDecisions [] s = .ok [] s := rfl

@[simp] theorem encSteps_nil (s : State) : encSteps [] s = .ok () s := rfl

@[simp] theorem decSteps_nil (s : State) : decSteps [] s = .ok [] s := rfl

/-- The first decision of a sequence that is coded is coded, and then the rest. -/
theorem encDecisions_cons_eq_ok {d : Decision} {ds : List Decision} {s u : State} :
    encDecisions (d :: ds) s = .ok () u ↔ ∃ t, d.enc s = .ok () t ∧ encDecisions ds t = .ok () u := by
  show (d.enc >>= fun _ => encDecisions ds) s = _ ↔ _
  rw [Cmd.bind_eq_ok]
  exact ⟨fun ⟨_, t, h⟩ => ⟨t, h⟩, fun ⟨t, h⟩ => ⟨(), t, h⟩⟩

/-- A sequence is coded exactly when its two parts are, one after the other. -/
theorem encDecisions_append_eq_ok {ds es : List Decision} {s u : State} :
    encDecisions (ds ++ es) s = .ok () u ↔ ∃ t, encDecisions ds s = .ok () t ∧ encDecisions es t = .ok () u := by
  induction ds generalizing s with
  | nil => simp
  | cons d ds ih =>
    simp only [List.cons_append, encDecisions_cons_eq_ok, ih]
    exact ⟨fun ⟨t, h, v, h'⟩ => ⟨v, ⟨t, h, h'.1⟩, h'.2⟩, fun ⟨v, ⟨t, h, h'⟩, h''⟩ => ⟨t, h, v, h', h''⟩⟩

/-- The same for the steps of a session. -/
theorem encSteps_cons_eq_ok {e : SessionStep} {es : List SessionStep} {s u : State} :
    encSteps (e :: es) s = .ok () u ↔ ∃ t, e.enc s = .ok () t ∧ encSteps es t = .ok () u := by
  show (e.enc >>= fun _ => encSteps es) s = _ ↔ _
  rw [Cmd.bind_eq_ok]
  exact ⟨fun ⟨_, t, h⟩ => ⟨t, h⟩, fun ⟨t, h⟩ => ⟨(), t, h⟩⟩

theorem encSteps_append_eq_ok {ds es : List SessionStep} {s u : State} :
    encSteps (ds ++ es) s = .ok () u ↔ ∃ t, encSteps ds s = .ok () t ∧ encSteps es t = .ok () u := by
  induction ds generalizing s with
  | nil => simp
  | cons d ds ih =>
    simp only [List.cons_append, encSteps_cons_eq_ok, ih]
    exact ⟨fun ⟨t, h, v, h'⟩ => ⟨v, ⟨t, h, h'.1⟩, h'.2⟩, fun ⟨v, ⟨t, h, h'⟩, h''⟩ => ⟨t, h, v, h', h''⟩⟩

/-- The first decision of a sequence is decoded as `f`, and then the rest as `fs`. -/
theorem decDecisions_cons_eq_ok {d f : Decision} {ds fs : List Decision} {s u : State} :
    decDecisions (d :: ds) s = .ok (f :: fs) u ↔ ∃ t, d.dec s = .ok f t ∧ decDecisions ds t = .ok fs u := by
  show (d.dec >>= fun e => decDecisions ds >>= fun es => pure (e :: es)) s = _ ↔ _
  rw [Cmd.bind_eq_ok]
  constructor
  · rintro ⟨e, t, he, h⟩
    obtain ⟨es, v, hes, hp⟩ := Cmd.bind_eq_ok.mp h
    cases hp
    exact ⟨t, he, hes⟩
  · rintro ⟨t, he, hes⟩
    exact ⟨f, t, he, by rw [Cmd.bind_of_ok hes]; rfl⟩

/-- What a sequence decodes, its two parts decode one after the other. -/
theorem decDecisions_append_eq_ok {ds es fs gs : List Decision} {s u : State} (hlen : ds.length = fs.length) :
    decDecisions (ds ++ es) s = .ok (fs ++ gs) u ↔
      ∃ t, decDecisions ds s = .ok fs t ∧ decDecisions es t = .ok gs u := by
  induction ds generalizing s fs with
  | nil =>
    cases fs with
    | nil => simp
    | cons f fs => cases hlen
  | cons d ds ih =>
    cases fs with
    | nil => cases hlen
    | cons f fs =>
      simp only [List.cons_append, decDecisions_cons_eq_ok, ih (Nat.succ.inj hlen)]
      exact ⟨fun ⟨t, h, v, h'⟩ => ⟨v, ⟨t, h, h'.1⟩, h'.2⟩, fun ⟨v, ⟨t, h, h'⟩, h''⟩ => ⟨t, h, v, h', h''⟩⟩

/-- The first step of a mirror sequence gives `f`, and then the rest `fs`. -/
theorem decSteps_cons_eq_ok {e f : SessionStep} {es fs : List SessionStep} {s u : State} :
    decSteps (e :: es) s = .ok (f :: fs) u ↔ ∃ t, e.dec s = .ok f t ∧ decSteps es t = .ok fs u := by
  show (e.dec >>= fun e => decSteps es >>= fun es => pure (e :: es)) s = _ ↔ _
  rw [Cmd.bind_eq_ok]
  constructor
  · rintro ⟨e, t, he, h⟩
    obtain ⟨es, v, hes, hp⟩ := Cmd.bind_eq_ok.mp h
    cases hp
    exact ⟨t, he, hes⟩
  · rintro ⟨t, he, hes⟩
    exact ⟨f, t, he, by rw [Cmd.bind_of_ok hes]; rfl⟩

end Sys2Proof.Machine
end

