-- ==== Sys2Proof/Laws/Slots.lean ====
section
/-! SUPPORT. The arithmetic of the model updates (spec/41_bit_and_symbol_coding.md R118, R123). -/

namespace Sys2Proof.Machine

/-! ### Bit models -/

/-- The halving of a bit model's counters: not at all, or both, with one more for the total where they would meet. -/
theorem abmHalve_cases (c0 cn : Nat) :
    (cn ≤ bmMax ∧ abmHalve c0 cn = (c0, cn)) ∨
      (bmMax < cn ∧ (c0 + 1) / 2 = (cn + 1) / 2 ∧ abmHalve c0 cn = ((c0 + 1) / 2, (cn + 1) / 2 + 1)) ∨
      (bmMax < cn ∧ (c0 + 1) / 2 ≠ (cn + 1) / 2 ∧ abmHalve c0 cn = ((c0 + 1) / 2, (cn + 1) / 2)) := by
  unfold abmHalve
  simp only [Nat.shiftRight_eq_div_pow, Nat.pow_one]
  split
  · exact .inl ⟨‹_›, rfl⟩
  · split
    · exact .inr (.inl ⟨by omega, ‹_›, by simp [*]⟩)
    · exact .inr (.inr ⟨by omega, ‹_›, rfl⟩)

/-- A counted bit that is not the last of its cycle only moves the counters. -/
theorem AbmSlot.count_of_left_ne {a : AbmSlot} {bit : Bool} (h : a.left - 1#7 ≠ 0#7) :
    a.count bit = { a with c0 := if bit then a.c0 else a.c0 + 1#14, left := a.left - 1#7 } := by
  unfold AbmSlot.count
  simp [h]

/-- The last bit of a cycle is counted and the model updated. -/
theorem AbmSlot.count_of_left_eq {a : AbmSlot} {bit : Bool} (h : a.left - 1#7 = 0#7) :
    a.count bit =
      ({ a with c0 := if bit then a.c0 else a.c0 + 1#14, left := a.left - 1#7 } : AbmSlot).update := by
  unfold AbmSlot.count
  simp [h]

/-! ### Data models -/

/-- The halving of a data model's counts keeps their number; without it the total is the one given, with it the sum of
the halved counts. -/
theorem admHalve_cases (cnt : List (BitVec 16)) (total : Nat) :
    (total ≤ dmMax ∧ admHalve cnt total = (cnt, total)) ∨
      (dmMax < total ∧
        admHalve cnt total =
          (cnt.map (fun c => BitVec.ofNat 16 ((c.toNat + 1) / 2)),
            cntSum (cnt.map (fun c => BitVec.ofNat 16 ((c.toNat + 1) / 2))))) := by
  unfold admHalve
  simp only [Nat.shiftRight_eq_div_pow, Nat.pow_one]
  split
  · exact .inl ⟨‹_›, rfl⟩
  · exact .inr ⟨by omega, rfl⟩

@[simp] theorem admHalve_length (cnt : List (BitVec 16)) (total : Nat) :
    (admHalve cnt total).1.length = cnt.length := by
  rcases admHalve_cases cnt total with ⟨_, h⟩ | ⟨_, h⟩ <;> simp [h]

@[simp] theorem admDist_length (scale : Nat) (cnt : List (BitVec 16)) (sum : Nat) :
    (admDist scale cnt sum).length = cnt.length := by
  induction cnt generalizing sum with
  | nil => rfl
  | cons c rest ih => simp [admDist, ih]

/-- Entry `k` of the new distribution is made of the counts before `k`. -/
theorem admDist_getElem? (scale : Nat) (cnt : List (BitVec 16)) (sum k : Nat) (h : k < cnt.length) :
    (admDist scale cnt sum)[k]? = some (BitVec.ofNat 15 ((scale * (sum + cntSum (cnt.take k))) >>> 16)) := by
  induction cnt generalizing sum k with
  | nil => exact absurd h (Nat.not_lt_zero k)
  | cons c rest ih =>
    cases k with
    | zero => simp [admDist, cntSum]
    | succ k => simp [admDist, ih (sum + c.toNat) k (by simpa using h), cntSum, Nat.add_assoc]

/-- Adding one to one count adds one to their sum. -/
theorem cntSum_set {cnt : List (BitVec 16)} {k : Nat} (h : k < cnt.length) (hmax : (cnt.getD k 0#16).toNat + 1 < 2 ^ 16) :
    cntSum (cnt.set k (cnt.getD k 0#16 + 1#16)) = cntSum cnt + 1 := by
  induction cnt generalizing k with
  | nil => exact absurd h (Nat.not_lt_zero k)
  | cons c rest ih =>
    cases k with
    | zero =>
      simp only [List.getD_cons_zero] at hmax
      simp only [cntSum, List.getD_cons_zero, List.set_cons_zero, List.map_cons, List.sum_cons, BitVec.toNat_add]
      have h1 : (1#16).toNat = 1 := rfl
      rw [h1]
      omega
    | succ k =>
      have := ih (k := k) (by simpa using h) (by simpa using hmax)
      simp only [cntSum, List.getD_cons_succ, List.set_cons_succ, List.map_cons, List.sum_cons] at *
      omega

/-- A count is at most their sum. -/
theorem le_cntSum {cnt : List (BitVec 16)} {c : BitVec 16} (h : c ∈ cnt) : c.toNat ≤ cntSum cnt := by
  unfold cntSum
  exact List.single_le_sum (fun _ _ => Nat.zero_le _) _ (List.mem_map_of_mem h)

/-- Counting and updating keep the alphabet size. -/
@[simp] theorem AdmSlot.update_nsym (d : AdmSlot) : d.update.nsym = d.nsym := rfl

@[simp] theorem AdmSlot.count_nsym (d : AdmSlot) (k : Nat) : (d.count k).nsym = d.nsym := by
  unfold AdmSlot.count
  simp only []
  split <;> rfl

@[simp] theorem AdmSlot.reset_nsym (d : AdmSlot) : d.reset.nsym = d.nsym := rfl

/-- A counted symbol that is not the last of its cycle only moves the counters. -/
theorem AdmSlot.count_of_left_ne {d : AdmSlot} {k : Nat} (h : d.left - 1#12 ≠ 0#12) :
    d.count k = { d with cnt := d.cnt.set k (d.cnt.getD k 0#16 + 1#16), left := d.left - 1#12 } := by
  unfold AdmSlot.count
  simp [h]

/-- The last symbol of a cycle is counted and the model updated. -/
theorem AdmSlot.count_of_left_eq {d : AdmSlot} {k : Nat} (h : d.left - 1#12 = 0#12) :
    d.count k =
      ({ d with cnt := d.cnt.set k (d.cnt.getD k 0#16 + 1#16), left := d.left - 1#12 } : AdmSlot).update := by
  unfold AdmSlot.count
  simp [h]

end Sys2Proof.Machine
end

