-- ==== Sys2Proof/Tests/Slice0.lean ====
section
/-! SUPPORT. Tests of the model. Expected results come from spec/30_encoding.md R74, R84 and from the vectors of
spec/95_test_vectors.md, named before each test; the witnesses at the end show states that meet the hypotheses of the
statements. -/

namespace Sys2Proof.Tests

-- Each test is checked by the kernel before the next begins, so that they do not all wait at once.
set_option Elab.async false

open Sys2Proof.Machine

/-! ### Well-formedness -/

theorem test_wf_refuses_enc_uint_33 : (Instr.encUint 3#4 33#8).wf = false := rfl

theorem test_wf_refuses_dec_uint_33 : (Instr.decUint 3#4 33#8).wf = false := rfl

theorem test_wf_admits_count_32 : (Instr.encUint 3#4 32#8).wf = true ∧ (Instr.decUint 3#4 32#8).wf = true := ⟨rfl, rfl⟩

/-! ### Decoding: every row of R74, words of R84 and of the vectors and programs -/

theorem test_decode_host_support :
    decode 0x00000000#32 = .ok .nop ∧ decode 0x01301234#32 = .ok (.li 3#4 0x1234#16) ∧
      decode 0x0230FFFF#32 = .ok (.lih 3#4 0xFFFF#16) ∧ decode 0x03200017#32 = .ok (.csrr 2#4 0x17#8) ∧
      decode 0x04900010#32 = .ok (.csrw 9#4 0x10#8) ∧ decode 0x08610000#32 = .ok (.ldcb 6#4 1#4) ∧
      decode 0x09510000#32 = .ok (.stcb 5#4 1#4) ∧ decode 0x0A610000#32 = .ok (.ldbm 6#4 1#4) ∧
      decode 0x0B510000#32 = .ok (.stbm 5#4 1#4) := ⟨rfl, rfl, rfl, rfl, rfl, rfl, rfl, rfl, rfl⟩

theorem test_decode_session :
    decode 0x10120000#32 = .ok (.encStart 1#4 2#4) ∧ decode 0x11400000#32 = .ok (.encStop 4#4) ∧
      decode 0x12140000#32 = .ok (.decStart 1#4 4#4) ∧ decode 0x13000000#32 = .ok .decStop := ⟨rfl, rfl, rfl, rfl⟩

theorem test_decode_models :
    decode 0x20000700#32 = .ok (.abmReset 7#8) ∧ decode 0x21000103#32 = .ok (.admInit 1#8 3#8) ∧
      decode 0x22000000#32 = .ok (.admReset 0#8) ∧ decode 0x23000000#32 = .ok .allReset := ⟨rfl, rfl, rfl, rfl⟩

theorem test_decode_bits_and_symbols :
    decode 0x30304000#32 = .ok (.encBitA 3#4 64#8) ∧ decode 0x31300000#32 = .ok (.encBitS 3#4) ∧
      decode 0x32600300#32 = .ok (.decBitA 6#4 3#8) ∧ decode 0x33300000#32 = .ok (.decBitS 3#4) ∧
      decode 0x34300800#32 = .ok (.encSym 3#4 8#8) ∧ decode 0x35700200#32 = .ok (.decSym 7#4 2#8) :=
  ⟨rfl, rfl, rfl, rfl, rfl, rfl⟩

theorem test_decode_fixed_width :
    decode 0x3830000A#32 = .ok (.encUint 3#4 10#8) ∧ decode 0x39300020#32 = .ok (.decUint 3#4 32#8) := ⟨rfl, rfl⟩

theorem test_decode_exp_golomb :
    decode 0x40530000#32 = .ok (.zzenc 5#4 3#4) ∧ decode 0x41530000#32 = .ok (.zzdec 5#4 3#4) ∧
      decode 0x42300200#32 = .ok (.encEg0 3#4 2#8) ∧ decode 0x43500200#32 = .ok (.decEg0 5#4 2#8) ∧
      decode 0x44300500#32 = .ok (.encSdelta 3#4 5#8) ∧ decode 0x45700500#32 = .ok (.decSdelta 7#4 5#8) :=
  ⟨rfl, rfl, rfl, rfl, rfl, rfl⟩

theorem test_decode_occupancy :
    decode 0x50300000#32 = .ok (.occEncBlk 3#4) ∧ decode 0x51A00000#32 = .ok (.occDecBlk 10#4) ∧
      decode 0x52000000#32 = .ok .occEncPatch ∧ decode 0x53000000#32 = .ok .occDecPatch := ⟨rfl, rfl, rfl, rfl⟩

/-- V24: words with an unassigned opcode or a must-be-zero bit. -/
theorem test_decode_illegal :
    decode 0x05000000#32 = .error .unassignedOpcode ∧ decode 0xFF000000#32 = .error .unassignedOpcode ∧
      decode 0x00000001#32 = .error .mustBeZero ∧ decode 0x13000100#32 = .error .mustBeZero ∧
      decode 0x23000001#32 = .error .mustBeZero ∧ decode 0x11410000#32 = .error .mustBeZero ∧
      decode 0x30300001#32 = .error .mustBeZero ∧ decode 0x01F1FFFF#32 = .error .mustBeZero ∧
      decode 0x3830FF04#32 = .error .mustBeZero ∧ decode 0x39300021#32 = .error .bitCount ∧
      decode 0x21100003#32 = .error .mustBeZero := ⟨rfl, rfl, rfl, rfl, rfl, rfl, rfl, rfl, rfl, rfl, rfl⟩

/-! ### Small states -/

/-- Small legal parameters. -/
def small : Params := { nAbm := 3, nAdm := 2, maxSym := 16, cbSize := 32, nblk := 16 }

/-- The state after reset. -/
def idle : State := State.resetWith small 0 []

/-- Bytes at CB address 0 on. -/
def cells (bytes : List Byte) : Memory := (List.range bytes.length).zip bytes

/-- An encode session just started on a window of 16 bytes at 0. -/
def encoding : State := { idle.openWindow 0#32 16#32 with mode := .enc }

/-- A decode session just started on the given payload. -/
def decoding (bytes : List Byte) : State :=
  { idle.openWindow 0#32 (BitVec.ofNat 32 bytes.length) with
    mode := .dec, cb := cells bytes, ptr := 4#32, overread := decide (bytes.length < 4)
    value := bytes.getD 0 0#8 ++ bytes.getD 1 0#8 ++ bytes.getD 2 0#8 ++ bytes.getD 3 0#8 }

/-- A fresh data model of three symbols (V6). -/
def ternary : AdmSlot := ⟨3#8, [0#15, 10922#15, 21845#15], [1#16, 1#16, 1#16], 3#16, 4#12, 4#12⟩

/-- The state with both data models ternary and the binding of V21. -/
def bound (s : State) : State := { s with adm := [ternary, ternary], occm := 0x10020100#32 }

/-- A canvas of 4 × 4 blocks, all records clear, and a patch of 2 × 2 blocks at its corner (P2). -/
def canvas (s : State) : State :=
  { s with
    btpw := 4#32, btph := 4#32, pszu := 2#32, pszv := 2#32
    bm := (List.range 64).map (fun a => (a, 0#8)) }

/-- Presenting the word answers a next state with the property. -/
def runs (s : State) (cw : Word) (p : State → Bool) : Bool :=
  match step (s.withFetchWord 32 cw.toNat) with
  | .next t => p t
  | .fault _ => false
  | .refused _ => false

/-- The command of V and P: presented word, what a register then holds. -/
def writes (s : State) (cw : Word) (r : Reg) (v : Word) : Bool := runs s cw (fun t => decide (t.reg r = v))

/-! ### Reset (V28) -/

theorem test_reset_registers :
    State.reset.statusWord = 0#32 ∧ State.reset.range = 0#32 ∧ State.reset.observeCsr 0x23#8 = 0x00100000#32 ∧
      State.reset.observeCsr 0x24#8 = 0x00010000#32 ∧ State.reset.observeCsr 0x25#8 = 0x00010000#32 ∧
      State.reset.observeCsr 0x31#8 = 4096#32 := by decide

theorem test_step_after_reset_decodes_and_runs :
    runs State.reset 0x01301234#32 (fun t => decide (t.reg 3#4 = 0x1234#32 ∧ t.cmdcnt = 1#32 ∧ t.port = [])) = true := by
  decide +kernel

/-! ### Host support (V23) -/

theorem test_nop_counts : runs idle 0x00000000#32 (fun t => decide (t.cmdcnt = 1#32 ∧ t.x = idle.x)) = true := by
  decide +kernel

theorem test_li_clears_the_upper_half :
    writes (idle.setReg 3#4 0xAAAA5555#32) 0x01301234#32 3#4 0x00001234#32 = true := by decide +kernel

theorem test_lih_keeps_the_lower_half :
    writes (idle.setReg 3#4 0x00001234#32) 0x0230FFFF#32 3#4 0xFFFF1234#32 = true := by decide +kernel

theorem test_csrr_reads_msel :
    writes { idle with msel := 0x00FF01FF#32 } 0x03200030#32 2#4 0x00FF01FF#32 = true := by decide +kernel

theorem test_csrr_of_no_register_faults :
    runs idle 0x03100005#32 (fun t => decide (t.statusWord = 0x00000B01#32 ∧ t.finfo = 5#32)) = true := by decide +kernel

theorem test_csrw_masks_pidx :
    runs (idle.setReg 1#4 0xFFFFFFFF#32) 0x04100017#32 (fun t => decide (t.pidx = 0x00FFFFFF#32)) = true := by
  decide +kernel

theorem test_csrw_of_status_faults :
    runs idle 0x04100000#32 (fun t => decide (t.fcmd = 0x04100000#32 ∧ t.fcode = 11#8)) = true := by decide +kernel

theorem test_ldcb_zero_extends :
    writes (({ idle with cb := [(31, 0xCD#8)] } : State).setReg 1#4 31#32) 0x08610000#32 6#4 0x000000CD#32 = true := by
  decide +kernel

theorem test_ldcb_beyond_cb_faults :
    runs (idle.setReg 1#4 32#32) 0x08510000#32
      (fun t => decide (t.statusWord = 0x00000A01#32 ∧ t.finfo = 32#32)) = true := by decide +kernel

theorem test_stcb_stores_the_low_byte :
    runs ((idle.setReg 1#4 31#32).setReg 5#4 0x1234ABCD#32) 0x09510000#32
      (fun t => decide (t.cb = [(31, 0xCD#8)])) = true := by decide +kernel

theorem test_ldbm_reads_a_record :
    writes ((idle.setBmRecord 15 0xDEADBEEF#32).setReg 1#4 15#32) 0x0A610000#32 6#4 0xDEADBEEF#32 = true := by
  decide +kernel

theorem test_ldbm_beyond_bm_faults :
    runs (idle.setReg 1#4 16#32) 0x0A510000#32
      (fun t => decide (t.statusWord = 0x00000901#32 ∧ t.finfo = 0x10#32)) = true := by decide +kernel

theorem test_stbm_is_little_endian :
    runs ((idle.setReg 1#4 15#32).setReg 5#4 0xDEADBEEF#32) 0x0B510000#32
      (fun t => decide (t.bm = [(60, 0xEF#8), (61, 0xBE#8), (62, 0xAD#8), (63, 0xDE#8)])) = true := by decide +kernel

/-! ### Sessions (V1, V8) -/

theorem test_enc_start_opens :
    runs ((idle.setReg 1#4 16#32).setReg 2#4 16#32) 0x10120000#32
      (fun t => decide (t.statusWord = 2#32 ∧ t.range = 0xFFFFFFFF#32 ∧ t.wbase = 16#32 ∧ t.wlen = 16#32)) = true := by
  decide +kernel

theorem test_enc_start_beyond_cb_faults :
    runs ((idle.setReg 1#4 16#32).setReg 2#4 17#32) 0x10120000#32
      (fun t => decide (t.statusWord = 0x00000301#32 ∧ t.finfo = 17#32)) = true := by decide +kernel

theorem test_enc_stop_of_an_empty_session :
    runs encoding 0x11400000#32
      (fun t => decide (t.reg 4#4 = 1#32 ∧ t.cb = [(0, 0x01#8)] ∧ t.statusWord = 0#32)) = true := by decide +kernel

theorem test_enc_stop_without_a_window_faults :
    runs { encoding with wlen := 0#32 } 0x11400000#32
      (fun t => decide (t.statusWord = 0x00000403#32 ∧ t.low = 0x01000000#32 ∧ t.range = 0x00800000#32)) = true := by
  decide +kernel

theorem test_dec_start_of_one_byte :
    runs (({ idle with cb := [(0, 0x01#8)] } : State).setReg 2#4 1#32) 0x12120000#32
      (fun t => decide (t.value = 0x01000000#32 ∧ t.ptr = 4#32 ∧ t.statusWord = 0x0000000C#32)) = true := by
  decide +kernel

theorem test_dec_start_of_nothing_faults :
    runs idle 0x12120000#32
      (fun t => decide (t.statusWord = 0x00000509#32 ∧ t.finfo = 3#32 ∧ t.ptr = 3#32)) = true := by decide +kernel

theorem test_dec_stop_keeps_overread :
    runs (decoding [0x01#8]) 0x13000000#32 (fun t => decide (t.statusWord = 0x00000008#32)) = true := by decide +kernel

theorem test_dec_stop_in_an_encode_session_faults :
    runs encoding 0x13000000#32 (fun t => decide (t.statusWord = 0x00000203#32 ∧ t.finfo = 1#32)) = true := by
  decide +kernel

/-! ### Models (V5, V6, V26) -/

theorem test_abm_reset_gives_the_fresh_slot :
    runs (idle.setAbm 1 ⟨1365#13, 1#14, 6#14, 5#7, 4#7⟩) 0x20000100#32
      (fun t => decide (t.abmSlot 1 = ⟨4096#13, 1#14, 2#14, 4#7, 4#7⟩)) = true := by decide +kernel

theorem test_abm_reset_beyond_the_bank_faults :
    runs idle 0x20000300#32 (fun t => decide (t.fcode = 7#8 ∧ t.finfo = 3#32)) = true := by decide +kernel

theorem test_adm_init_of_six :
    runs idle 0x21000006#32
      (fun t => decide (t.admSlot 0 =
        ⟨6#8, [0#15, 5461#15, 10922#15, 16383#15, 21845#15, 27306#15], [1#16, 1#16, 1#16, 1#16, 1#16, 1#16], 6#16,
          6#12, 6#12⟩)) = true := by decide +kernel

theorem test_adm_init_of_seventeen_faults :
    runs idle 0x21000011#32 (fun t => decide (t.fcode = 7#8 ∧ t.finfo = 0x11#32)) = true := by decide +kernel

theorem test_adm_reset_keeps_the_size :
    runs (idle.setAdm 0 ⟨3#8, [0#15, 4681#15, 9362#15], [1#16, 1#16, 6#16], 7#16, 5#12, 4#12⟩) 0x22000000#32
      (fun t => decide (t.admSlot 0 = ternary)) = true := by decide +kernel

theorem test_adm_reset_of_an_uninitialised_slot_faults :
    runs idle 0x22000000#32 (fun t => decide (t.fcode = 7#8 ∧ t.finfo = 0#32)) = true := by decide +kernel

theorem test_all_reset :
    runs ((idle.setAbm 2 ⟨1365#13, 1#14, 6#14, 5#7, 4#7⟩).setAdm 0
        ⟨3#8, [0#15, 4681#15, 9362#15], [1#16, 1#16, 6#16], 7#16, 5#12, 4#12⟩) 0x23000000#32
      (fun t => decide (t.abm = idle.abm ∧ t.adm = [ternary, AdmSlot.uninit])) = true := by decide +kernel

/-! ### Bits and symbols (V2, V3, V7, V10, V12, V14, P3) -/

theorem test_enc_bit_a_updates_the_model :
    runs { encoding with range := 0x1FFFF000#32, abm := [⟨4096#13, 4#14, 2#14, 4#7, 1#7⟩] } 0x30300000#32
      (fun t => decide (t.range = 0x0FFFF000#32 ∧ t.abmSlot 0 = ⟨6826#13, 5#14, 6#14, 5#7, 5#7⟩)) = true := by
  decide +kernel

theorem test_enc_bit_a_of_one :
    runs (({ encoding with range := 0x0FFFF000#32, abm := [⟨6826#13, 5#14, 6#14, 5#7, 5#7⟩] } : State).setReg 3#4 1#32)
      0x30300000#32
      (fun t => decide (t.low = 0x0D54E556#32 ∧ t.range = 0x02AB0AAA#32 ∧
        t.abmSlot 0 = ⟨6826#13, 5#14, 6#14, 5#7, 4#7⟩)) = true := by decide +kernel

theorem test_enc_bit_s_of_one :
    runs (encoding.setReg 3#4 1#32) 0x31300000#32
      (fun t => decide (t.low = 0x7FFFF000#32 ∧ t.range = 0x80000FFF#32 ∧ t.ptr = 0#32)) = true := by decide +kernel

/-- V12, row 18: the carry goes through an `FF` byte. -/
theorem test_enc_bit_s_carries :
    runs (({ encoding with low := 0xF0000000#32, range := 0x80000000#32, ptr := 2#32, cb := cells [0xDD#8, 0xFF#8] } :
        State).setReg 3#4 1#32) 0x31300000#32
      (fun t => decide (t.low = 0x30000000#32 ∧ t.range = 0x40000000#32 ∧ t.cb = cells [0xDE#8, 0x00#8])) = true := by
  decide +kernel

theorem test_dec_bit_a_of_one :
    runs { decoding [0x0D#8, 0xD4#8] with range := 0x0FFFF000#32, abm := [⟨6826#13, 5#14, 6#14, 5#7, 5#7⟩] }
      0x32500000#32
      (fun t => decide (t.reg 5#4 = 1#32 ∧ t.value = 0x007F1AAA#32 ∧ t.range = 0x02AB0AAA#32 ∧
        t.abmSlot 0 = ⟨6826#13, 5#14, 6#14, 5#7, 4#7⟩)) = true := by decide +kernel

theorem test_dec_bit_s_first :
    runs (decoding [0x01#8]) 0x33300000#32
      (fun t => decide (t.reg 3#4 = 0#32 ∧ t.range = 0x7FFFF000#32 ∧ t.ptr = 4#32)) = true := by decide +kernel

/-- V10: the ninth bit needs a byte at offset `WLEN + 3`. -/
theorem test_dec_bit_s_overruns :
    runs { decoding [0x01#8] with range := 0x01000000#32, value := 0x00001000#32 } 0x33300000#32
      (fun t => decide (t.statusWord = 0x0000050D#32 ∧ t.finfo = 4#32 ∧ t.range = 0x00800000#32 ∧
        t.value = 0x00001000#32 ∧ t.ptr = 4#32)) = true := by decide +kernel

theorem test_enc_sym_of_the_last_symbol :
    runs ((bound encoding).setReg 3#4 2#32) 0x34300000#32
      (fun t => decide (t.low = 0xAAA9AAAB#32 ∧ t.range = 0x55565554#32 ∧
        t.admSlot 0 = { ternary with cnt := [1#16, 1#16, 2#16], left := 3#12 })) = true := by decide +kernel

/-- V14, row 4: the update of a data model. -/
theorem test_enc_sym_updates_the_model :
    runs (({ encoding with
        low := 0xED08CBD9#32, range := 0x097B92F7#32
        adm := [{ ternary with cnt := [1#16, 2#16, 3#16], left := 1#12 }] } : State).setReg 3#4 2#32) 0x34300000#32
      (fun t => decide (t.low = 0xF35B1ADC#32 ∧ t.range = 0x032943F4#32 ∧
        t.admSlot 0 = ⟨3#8, [0#15, 4681#15, 14043#15], [1#16, 2#16, 4#16], 7#16, 5#12, 5#12⟩)) = true := by
  decide +kernel

/-- V14, decoding row 5. -/
theorem test_dec_sym_fetches_a_byte :
    runs { decoding [0xF3#8, 0xA9#8] with
        range := 0x032943F4#32, value := 0x004DE524#32
        adm := [⟨3#8, [0#15, 4681#15, 14043#15], [1#16, 2#16, 4#16], 7#16, 5#12, 5#12⟩] } 0x35500000#32
      (fun t => decide (t.reg 5#4 = 0#32 ∧ t.value = 0x4DE52400#32 ∧ t.range = 0x73916200#32 ∧ t.ptr = 5#32)) = true := by
  decide +kernel

/-- P3, command 29, with a fresh model of four symbols. -/
theorem test_dec_sym_of_four :
    runs { decoding [0x9D#8, 0xCB#8, 0x38#8] with
        range := 0x08000000#32, value := 0x05CB4800#32
        adm := [⟨4#8, [0#15, 8192#15, 16384#15, 24576#15], [1#16, 1#16, 1#16, 1#16], 4#16, 5#12, 5#12⟩] } 0x35700000#32
      (fun t => decide (t.reg 7#4 = 2#32 ∧ t.value = 0x01CB4800#32 ∧ t.range = 0x02000000#32)) = true := by
  decide +kernel

/-! ### Fixed width (V18, P3) -/

theorem test_enc_uint_of_nine :
    runs (encoding.setReg 3#4 9#32) 0x38300004#32
      (fun t => decide (t.low = 0x8FFFF000#32 ∧ t.range = 0x10000000#32)) = true := by decide +kernel

theorem test_enc_uint_that_does_not_fit_faults :
    runs (encoding.setReg 3#4 16#32) 0x38300004#32
      (fun t => decide (t.statusWord = 0x00000603#32 ∧ t.finfo = 16#32 ∧ t.range = 0xFFFFFFFF#32)) = true := by
  decide +kernel

theorem test_dec_uint_of_nine :
    runs (decoding [0x9D#8, 0xCB#8, 0x38#8]) 0x39500004#32
      (fun t => decide (t.reg 5#4 = 9#32 ∧ t.range = 0x10000000#32 ∧ t.value = 0x0DCB4800#32)) = true := by
  decide +kernel

theorem test_dec_uint_of_no_bits :
    runs ((decoding [0x9D#8]).setReg 5#4 7#32) 0x39500000#32
      (fun t => decide (t.reg 5#4 = 0#32 ∧ t.range = 0xFFFFFFFF#32)) = true := by decide +kernel

/-! ### Exp-Golomb and zig-zag (V15, V16, V20, P1) -/

theorem test_zzenc_ends_of_the_range :
    writes (idle.setReg 3#4 0x80000000#32) 0x40530000#32 5#4 0xFFFFFFFF#32 = true ∧
      writes (idle.setReg 3#4 0x7FFFFFFF#32) 0x40530000#32 5#4 0xFFFFFFFE#32 = true := by decide +kernel

theorem test_zzdec_of_five :
    writes (idle.setReg 3#4 5#32) 0x41530000#32 5#4 0xFFFFFFFD#32 = true ∧
      writes (idle.setReg 3#4 0xFFFFFFFF#32) 0x41530000#32 5#4 0x80000000#32 = true := by decide +kernel

theorem test_enc_eg0_of_fourteen :
    runs (encoding.setReg 3#4 0xE#32) 0x42300200#32
      (fun t => decide (t.low = 0xEDFFF000#32 ∧ t.range = 0x02000000#32 ∧
        t.abmSlot 2 = ⟨2730#13, 2#14, 6#14, 5#7, 5#7⟩)) = true := by decide +kernel

theorem test_enc_eg0_of_the_largest :
    runs (encoding.setReg 3#4 0xFFFFFFFF#32) 0x42300200#32
      (fun t => decide (t.low = 0#32 ∧ t.range = 0x0CB50000#32 ∧ t.ptr = 5#32 ∧
        t.cb = cells [0xFE#8, 0x69#8, 0x4E#8, 0x52#8, 0x00#8] ∧
        t.abmSlot 2 = ⟨256#13, 2#14, 32#14, 10#7, 7#7⟩)) = true := by decide +kernel

theorem test_dec_eg0_of_the_largest :
    writes (decoding [0xFE#8, 0x69#8, 0x4E#8, 0x52#8, 0x00#8, 0x01#8]) 0x43500200#32 5#4 0xFFFFFFFF#32 = true := by
  decide +kernel

/-- V20 (a): the length part never ends. -/
theorem test_dec_eg0_of_ones_is_corrupt :
    runs ((decoding (List.replicate 8 0xFF#8)).setReg 5#4 0x77#32) 0x43500000#32
      (fun t => decide (t.statusWord = 0x00000805#32 ∧ t.finfo = 33#32 ∧ t.reg 5#4 = 0x77#32 ∧
        t.range = 0x0189FCAD#32 ∧ t.value = 0x0189FCAD#32 ∧ t.abmSlot 0 = ⟨256#13, 1#14, 32#14, 10#7, 7#7⟩)) = true := by
  decide +kernel

theorem test_enc_sdelta_of_minus_three :
    runs (encoding.setReg 3#4 0xFFFFFFFD#32) 0x44300100#32
      (fun t => decide (t.low = 0xCFFFF000#32 ∧ t.range = 0x08000000#32)) = true := by decide +kernel

theorem test_dec_sdelta_of_minus_three :
    runs (decoding [0xD3#8, 0xFB#8, 0x1D#8, 0x2A#8]) 0x45500100#32
      (fun t => decide (t.reg 5#4 = 0xFFFFFFFD#32 ∧ t.range = 0x08000000#32 ∧ t.value = 0x03FB2D2A#32)) = true := by
  decide +kernel

/-! ### Occupancy (V21, V22, P2) -/

theorem test_occ_enc_blk_of_an_interpolated_block :
    runs ((bound encoding).setReg 3#4 0xB#32) 0x50300000#32
      (fun t => decide (t.low = 0xD554F000#32 ∧ t.range = 0x038E3000#32 ∧
        t.abmSlot 2 = ⟨4096#13, 2#14, 2#14, 4#7, 3#7⟩ ∧ (t.admSlot 0).cnt = [1#16, 2#16, 1#16] ∧
        (t.admSlot 1).cnt = [2#16, 1#16, 1#16])) = true := by decide +kernel

theorem test_occ_enc_blk_of_mind1_three_faults :
    runs ((bound encoding).setReg 3#4 0x31#32) 0x50300000#32
      (fun t => decide (t.statusWord = 0x00000603#32 ∧ t.finfo = 0x31#32 ∧ t.abm = encoding.abm)) = true := by
  decide +kernel

theorem test_occ_dec_blk_is_canonical :
    writes ((bound (decoding [0xD6#8])).setReg 5#4 0xAAAAAAAA#32) 0x51500000#32 5#4 0x0000000B#32 = true := by
  decide +kernel

theorem test_occ_enc_patch_of_scenario_b :
    runs (((canvas (bound encoding)).setBmRecord 0 1#32).setBmRecord 4 0x67#32) 0x52000000#32
      (fun t => decide (t.low = 0xBD61E858#32 ∧ t.range = 0x12F54000#32 ∧ t.ptr = 1#32)) = true := by decide +kernel

theorem test_occ_enc_patch_off_the_canvas_faults :
    runs { canvas (bound encoding) with pu0 := 3#32 } 0x52000000#32
      (fun t => decide (t.statusWord = 0x00000903#32 ∧ t.finfo = 0#32)) = true := by decide +kernel

theorem test_occ_dec_patch_of_scenario_b :
    runs (canvas (bound (decoding [0x88#8, 0xBE#8]))) 0x53000000#32
      (fun t => decide (t.bmRecord 0 = 1#32 ∧ t.bmRecord 1 = 0#32 ∧ t.bmRecord 4 = 0x67#32 ∧ t.bmRecord 5 = 0#32 ∧
        t.range = 0x12F54000#32 ∧ t.value = 0x009E17A8#32 ∧ t.ptr = 5#32)) = true := by decide +kernel

/-- V22: decoding into records that are not clear. -/
theorem test_occ_dec_patch_keeps_what_is_not_coded :
    runs { ((canvas (bound (decoding [0x88#8, 0xBE#8]))).setBmRecord 0 0xABCDEFFE#32).setBmRecord 4 0xABCDEFFE#32 with
        pidx := 0x123456#32 } 0x53000000#32
      (fun t => decide (t.bmRecord 0 = 0x123456CD#32 ∧ t.bmRecord 4 = 0x123456E7#32)) = true := by decide +kernel

/-! ### Faults and refusals (V24, V25) -/

theorem test_illegal_word_faults :
    runs idle 0x3830FF04#32
      (fun t => decide (t.statusWord = 0x00000101#32 ∧ t.fcmd = 0x3830FF04#32 ∧ t.finfo = 0#32 ∧ t.cmdcnt = 0#32)) =
      true := by decide +kernel

theorem test_fault_state_refuses :
    runs { idle with fault := true, fcode := 5#8 } 0x00000000#32
      (fun t => decide (t = { idle with fault := true, fcode := 5#8, response := some .refused })) = true := by
  decide +kernel

/-! ### Witnesses: states and operands that meet the hypotheses of each statement -/

/-- An outcome that is a next state with a property. -/
def nextHas (o : Host.Outcome State Fault Refusal) (p : State → Prop) [DecidablePred p] : Bool :=
  match o with
  | .next t => decide (p t)
  | .fault _ => false
  | .refused _ => false

theorem exists_next {o : Host.Outcome State Fault Refusal} {p : State → Prop} [DecidablePred p]
    (h : nextHas o p = true) : ∃ t, o = .next t ∧ p t := by
  cases o with
  | next t => exact ⟨t, rfl, of_decide_eq_true h⟩
  | fault r => cases h
  | refused r => cases h

/-- Pseudocode that ends normally with a result of a property. -/
def okHas {α : Type} (r : EStateM.Result Stop State α) (p : α → Prop) [DecidablePred p] : Bool :=
  match r with
  | .ok a _ => decide (p a)
  | .error _ _ => false

theorem exists_ok {α : Type} {r : EStateM.Result Stop State α} {p : α → Prop} [DecidablePred p]
    (h : okHas r p = true) : ∃ a t, r = .ok a t ∧ p a := by
  cases r with
  | ok a t => exact ⟨a, t, rfl, of_decide_eq_true h⟩
  | error e t => cases h

/-- Pseudocode that ends normally with the given result. -/
theorem exists_ok_eq {α : Type} [DecidableEq α] {r : EStateM.Result Stop State α} {a : α}
    (h : okHas r (fun b => b = a) = true) : ∃ t, r = .ok a t := by
  obtain ⟨b, t, hr, rfl⟩ := exists_ok h
  exact ⟨t, hr⟩

/-- The state in which pseudocode ended. -/
def endState {α : Type} (r : EStateM.Result Stop State α) : State :=
  match r with
  | .ok _ t => t
  | .error _ t => t

/-- The next state of an outcome, the reset state where it is none. -/
def nextState (o : Host.Outcome State Fault Refusal) : State :=
  match o with
  | .next t => t
  | .fault _ => State.reset
  | .refused _ => State.reset

/-- Pseudocode that ends normally with the given result, in a state with a property. -/
def endsWith {α : Type} [DecidableEq α] (r : EStateM.Result Stop State α) (a : α) (p : State → Prop)
    [DecidablePred p] : Bool :=
  match r with
  | .ok b t => decide (b = a ∧ p t)
  | .error _ _ => false

theorem exists_dec_end {α : Type} [DecidableEq α] {r : EStateM.Result Stop State α} {a : α} {p : State → Prop}
    [DecidablePred p] (h : endsWith r a p = true) : ∃ t, r = .ok a t ∧ p t := by
  cases r with
  | ok b t =>
    obtain ⟨rfl, hp⟩ := of_decide_eq_true h
    exact ⟨t, rfl, hp⟩
  | error e t => cases h

theorem exists_end {r : EStateM.Result Stop State Unit} {p : State → Prop} [DecidablePred p]
    (h : endsWith r () p = true) : ∃ t, r = .ok () t ∧ p t := exists_dec_end h

/-- Pseudocode that ends normally ends in `endState`. -/
theorem ok_endState {r : EStateM.Result Stop State Unit} (h : okHas r (fun _ => True) = true) :
    r = .ok () (endState r) := by
  cases r with
  | ok a t => rfl
  | error e t => cases h

/-- A step that is taken leads to `nextState`. -/
theorem next_nextState {o : Host.Outcome State Fault Refusal} (h : nextHas o (fun _ => True) = true) :
    o = .next (nextState o) := by
  cases o with
  | next t => rfl
  | fault r => cases h
  | refused r => cases h

/-- Which bit `VALUE` selects. -/
theorem bitS_selected {s : State} {b : Bool} (h : b = decide (bitPart pHalf s.range ≤ s.value)) :
    (Decision.bitS b).selected s := h

theorem bitA_selected {s : State} {m : Nat} {b : Bool}
    (h : b = decide (bitPart (s.abmSlot m).p0 s.range ≤ s.value)) : (Decision.bitA m b).selected s := h

/-- The invariant as a test. -/
def invCheck (s : State) : Bool :=
  decide s.params.legal && (decide s.banksOk && (decide s.memoriesOk && (decide s.csrsOk &&
    (decide s.faultRecordOk && decide (s.fault = false → s.sessionOk)))))

theorem inv_of_check {s : State} (h : invCheck s = true) : s.Inv := by
  simp only [invCheck, Bool.and_eq_true, decide_eq_true_iff] at h
  exact h

/-- Readiness to encode as a test. -/
def encCheck (s : State) (bytes : Nat) : Bool :=
  invCheck s &&
    decide (s.fault = false ∧ s.mode = .enc ∧ s.carryBound ∧ s.ptr.toNat + bytes ≤ s.wlen.toNat)

theorem enc_of_check {s : State} {bytes : Nat} (h : encCheck s bytes = true) : s.encReady bytes := by
  simp only [encCheck, Bool.and_eq_true, decide_eq_true_iff] at h
  exact ⟨inv_of_check h.1, h.2⟩

/-- Readiness to decode as a test. -/
def decCheck (s : State) (bytes : Nat) : Bool :=
  invCheck s && decide (s.fault = false ∧ s.mode = .dec ∧ s.ptr.toNat + bytes ≤ s.wlen.toNat + 3)

theorem dec_of_check {s : State} {bytes : Nat} (h : decCheck s bytes = true) : s.decReady bytes := by
  simp only [decCheck, Bool.and_eq_true, decide_eq_true_iff] at h
  exact ⟨inv_of_check h.1, h.2⟩

/-- A state whose next host event is the given one. -/
def facing (s : State) (e : HostEvent) : State := { s with port := [e] }

/-- A fault record as `STREAM_OVERRUN` leaves it. -/
def faulty : State := { decoding [0x01#8] with fault := true, fcode := 5#8, fcmd := 0x33300000#32, finfo := 4#32 }

/-- A session with a window of 256 bytes. -/
def roomy (s : State) : State := { s with params := { small with cbSize := 256 }, wlen := 256#32 }

/-- The largest legal parameters (spec/00_scope.md R7). -/
def largest : Params := { nAbm := 256, nAdm := 16, maxSym := 255, cbSize := 2 ^ 31, nblk := 2 ^ 24 }

/-- The smallest legal parameters. -/
def smallest : Params := { nAbm := 3, nAdm := 2, maxSym := 3, cbSize := 4, nblk := 1 }

theorem witness_DecodeOfEncode : (Instr.encUint 15#4 32#8).wf = true := rfl

theorem witness_EncodeOfDecode : decode 0x38F00020#32 = .ok (.encUint 15#4 32#8) := rfl

theorem witness_StepRunsTheDecodedCommand :
    (facing encoding (.issue 0x31300000#32)).port = .issue 0x31300000#32 :: [] ∧
      decode 0x31300000#32 = .ok (.encBitS 3#4) ∧ decodeTableWord 32 0x31300000 = some (.encBitS 3#4) :=
  ⟨rfl, rfl, rfl⟩

theorem witness_IllegalWordsFault :
    idle.fault = false ∧ (facing idle (.issue 0x05000000#32)).port = .issue 0x05000000#32 :: [] ∧
      illegalWord 0x05000000#32 ∧ illegalWord 0x00000001#32 ∧ illegalWord 0x38300021#32 ∧
      ¬ illegalWord 0x38300020#32 := by
  refine ⟨rfl, rfl, ?_, ?_, ?_, ?_⟩ <;> unfold illegalWord <;> decide +kernel

theorem witness_FaultStateRefusesEveryWord :
    faulty.fault = true ∧ (facing faulty (.issue 0x00000000#32)).port = .issue 0x00000000#32 :: [] := ⟨rfl, rfl⟩

theorem witness_OnlyResetLeavesTheFaultState :
    (∃ t, step (facing faulty (.cbWrite 0 0x02#8)) = .next t ∧ t.fault = true) ∧
      (∃ t, step (facing faulty .reset) = .next t ∧ t.fault = false) ∧
      (∀ rest, (facing faulty (.cbWrite 0 0x02#8)).port ≠ .reset :: rest) := by
  refine ⟨exists_next (by decide +kernel), exists_next (by decide +kernel), ?_⟩
  intro _ h
  cases h

theorem witness_ResetGivesTheResetState :
    (facing faulty .reset).port = .reset :: [] ∧ ∃ t, step (facing faulty .reset) = .next t ∧ t.range = 0#32 :=
  ⟨rfl, exists_next (by decide +kernel)⟩

theorem witness_IdleWithoutAnEvent : encoding.port = [] := rfl

theorem witness_MemoryPortWritesOneCell :
    (facing idle (.cbWrite 31 0x02#8)).port = .cbWrite 31 0x02#8 :: [] ∧ 31 < idle.params.cbSize ∧
      idle.params.cbSize ≤ 32 ∧ (facing idle (.bmWrite 15 2#32)).port = .bmWrite 15 2#32 :: [] ∧
      15 < idle.params.nblk ∧ idle.params.nblk ≤ 16 := ⟨rfl, by decide, by decide, rfl, by decide, by decide⟩

theorem witness_RecordsAreLittleEndianBytes : 0 < idle.params.nblk ∧ 15 < idle.params.nblk := by decide

theorem witness_InvHoldsAfterReset : small.legal ∧ smallest.legal ∧ largest.legal := by decide

theorem witness_StepKeepsInv :
    (facing encoding (.issue 0x31300000#32)).Inv ∧
      (∃ t, step (facing encoding (.issue 0x31300000#32)) = .next t ∧ t.fault = false) ∧
      (facing (decoding [0x01#8]) (.issue 0x33300000#32)).Inv ∧ faulty.Inv :=
  ⟨inv_of_check (by decide +kernel), exists_next (by decide +kernel), inv_of_check (by decide +kernel),
    inv_of_check (by decide +kernel)⟩

theorem witness_EveryWordIsAnswered :
    (facing encoding (.issue 0x11400000#32)).Inv ∧
      (facing encoding (.issue 0x11400000#32)).port = .issue 0x11400000#32 :: [] :=
  ⟨inv_of_check (by decide +kernel), rfl⟩

theorem witness_ParametersNeverChange : ∃ t, step (facing idle .reset) = .next t ∧ t.memEpoch = 1 :=
  exists_next (by decide +kernel)

theorem witness_BitModelRanges :
    (⟨8190#13, 8189#14, 8132#14, 64#7, 6#7⟩ : AbmSlot).ok ∧ (⟨1#13, 1#14, 7425#14, 64#7, 2#7⟩ : AbmSlot).ok ∧
      (⟨8191#13, 8254#14, 8192#14, 64#7, 1#7⟩ : AbmSlot).ok := by decide +kernel

/-- A data model at its ceiling, whose next symbol halves the counts. -/
def fullModel : AdmSlot := ⟨2#8, [0#15, 32767#15], [32830#16, 1#16], 32768#16, 64#12, 1#12⟩

theorem witness_DataModelRanges :
    (2 ≤ (2#8).toNat ∧ (255#8).toNat ≤ 255) ∧ (16 ≤ 255 ∧ ternary.okInit 16 ∧ 2 < ternary.nsym.toNat) ∧
      (fullModel.okInit 2 ∧ 0 < fullModel.nsym.toNat) := by decide +kernel

theorem witness_BitModelAdaptation :
    (AbmSlot.fresh.ok ∧ 1 < AbmSlot.fresh.left.toNat) ∧
      ((⟨8191#13, 8254#14, 8192#14, 64#7, 1#7⟩ : AbmSlot).ok ∧ (1#7).toNat = 1) := by decide +kernel

theorem witness_DataModelAdaptation :
    (ternary.okInit 255 ∧ 2 < ternary.nsym.toNat ∧ 1 < ternary.left.toNat) ∧
      (fullModel.okInit 255 ∧ 1 < fullModel.nsym.toNat ∧ fullModel.left.toNat = 1) := by decide +kernel

theorem witness_CommandsDoneFaultedOrRefused :
    (faulty.fault = true ∧ ∃ t, exec .nop faulty = .next t ∧ t.response = some .refused) ∧
      (idle.fault = false ∧ ∃ t, exec .nop idle = .next t ∧ t.response = some .done) ∧
      (∃ t, exec .decStop idle = .next t ∧ t.response = some .faulted) :=
  ⟨⟨rfl, exists_next (by decide +kernel)⟩, ⟨rfl, exists_next (by decide +kernel)⟩, exists_next (by decide +kernel)⟩

theorem witness_OnlyTheDestinationRegisterChanges :
    (∃ t, exec (.li 3#4 5#16) idle = .next t ∧ t.fault = false) ∧ (Instr.li 3#4 5#16).dest ≠ some 4#4 ∧
      (∃ t, exec (.decBitS 3#4) idle = .next t ∧ t.fault = true) :=
  ⟨exists_next (by decide +kernel), by decide, exists_next (by decide +kernel)⟩

theorem witness_OnlyCsrwWritesTheRwCsrs :
    (∃ t, exec (.encStart 1#4 2#4) idle = .next t ∧ t.mode = .enc) ∧
      (∀ ra f, Instr.encStart 1#4 2#4 ≠ .csrw ra f) ∧
      (∃ t, exec (.csrw 1#4 0x10#8) (idle.setReg 1#4 5#32) = .next t ∧ t.occm = 5#32) := by
  refine ⟨exists_next (by decide +kernel), ?_, exists_next (by decide +kernel)⟩
  intro _ _ h
  cases h

/-- A state in which `STCB x5, x1` changes the last byte of CB. -/
def storing : State := (({ idle with cb := [(31, 0#8)] } : State).setReg 1#4 31#32).setReg 5#4 7#32

/-- A session whose window already holds a byte. -/
def overwriting : State := { encoding with cb := [(0, 0xAA#8)] }

theorem witness_CommandsWriteCbOnlyInTheWindow :
    (storing.Inv ∧ ∃ t, exec (.stcb 5#4 1#4) storing = .next t ∧ t.cbByte 31 ≠ storing.cbByte 31) ∧
      (overwriting.Inv ∧ ∃ t, exec (.encStop 4#4) overwriting = .next t ∧ t.cbByte 0 ≠ overwriting.cbByte 0) :=
  ⟨⟨inv_of_check (by decide +kernel), exists_next (by decide +kernel)⟩,
    ⟨inv_of_check (by decide +kernel), exists_next (by decide +kernel)⟩⟩

theorem witness_CommandsWriteBmOnlyInTheFootprint :
    (∃ t, exec (.stbm 5#4 1#4) (((canvas idle).setReg 1#4 15#32).setReg 5#4 7#32) = .next t ∧
        t.bmRecord 15 ≠ (canvas idle).bmRecord 15) ∧
      (∃ t, exec .occDecPatch (canvas (bound (decoding [0x88#8, 0xBE#8]))) = .next t ∧
        t.bmRecord 4 ≠ (canvas idle).bmRecord 4) :=
  ⟨exists_next (by decide +kernel), exists_next (by decide +kernel)⟩

theorem witness_ModelsChangeOnlyWhereNamed :
    (∃ t, exec (.encBitS 3#4) encoding = .next t ∧ t.fault = false) ∧
      (∃ t, exec (.encBitA 3#4 2#8) encoding = .next t ∧ t.abm ≠ encoding.abm) ∧
      (∃ t, exec (.encSym 3#4 1#8) (bound encoding) = .next t ∧ t.adm ≠ (bound encoding).adm) :=
  ⟨exists_next (by decide +kernel), exists_next (by decide +kernel), exists_next (by decide +kernel)⟩

theorem witness_WrongModeIsASessionFault :
    ((Instr.encUint 3#4 32#8).wf = true ∧ idle.fault = false ∧ (Instr.encUint 3#4 32#8).needs = some .enc ∧
        idle.mode ≠ .enc) ∧
      ((Instr.encStart 1#4 2#4).wf = true ∧ encoding.fault = false ∧
        (Instr.encStart 1#4 2#4).needs = some .idle ∧ encoding.mode ≠ .idle) ∧
      ((Instr.csrr 1#4 5#8).needs = none ∧ ∃ t, exec (.csrr 1#4 5#8) idle = .next t ∧ t.fault = true) :=
  ⟨by decide, by decide, rfl, exists_next (by decide +kernel)⟩

/-- An encode session with ternary models and a binding. -/
def boundTo (occm : Word) : State := { bound encoding with occm := occm }

theorem witness_UnusableModelSlotsFault :
    (idle.fault = false ∧ idle.params.nAbm ≤ (3#8).toNat ∧ encoding.mode = .enc ∧ encoding.fault = false ∧
        (decoding [0x01#8]).mode = .dec ∧ (decoding [0x01#8]).fault = false) ∧
      (encoding.params.nAdm ≤ (2#8).toNat ∧ (encoding.admSlot (0#8).toNat).nsym = 0#8) ∧
      (idle.params.nAdm ≤ (2#8).toNat ∧ (1#8).toNat < idle.params.nAdm ∧ (1#8).toNat < 2 ∧
        idle.params.maxSym < (17#8).toNat) := by decide

theorem witness_UnusableModelSlotsFault_binding :
    ((boundTo 0x10020103#32).fault = false ∧ (boundTo 0x10020103#32).mode = .enc ∧
        (boundTo 0x10020103#32).params.nAbm ≤ (boundTo 0x10020103#32).occBinding.mOcc) ∧
      ((boundTo 0x10020300#32).occBinding.mOcc < (boundTo 0x10020300#32).params.nAbm ∧
        (boundTo 0x10020300#32).params.nAbm ≤ (boundTo 0x10020300#32).occBinding.mInt) ∧
      ((boundTo 0x10030202#32).occBinding.mOcc < small.nAbm ∧ (boundTo 0x10030202#32).occBinding.mInt < small.nAbm ∧
        (boundTo 0x10030202#32).params.nAbm ≤ (boundTo 0x10030202#32).occBinding.mFil) ∧
      ((boundTo 0x02020202#32).occBinding.mFil < small.nAbm ∧
        ¬ (boundTo 0x02020202#32).admTernary (boundTo 0x02020202#32).occBinding.dNei) ∧
      ((boundTo 0x21020202#32).admTernary (boundTo 0x21020202#32).occBinding.dNei ∧
        ¬ (boundTo 0x21020202#32).admTernary (boundTo 0x21020202#32).occBinding.dMin) := by
  decide +kernel

theorem witness_OutOfRangeOperandsFault :
    ((bound encoding).fault = false ∧ (bound encoding).mode = .enc ∧ (2#8).toNat < (bound encoding).params.nAbm ∧
        1 < (((bound encoding).setReg 3#4 2#32).reg 3#4).toNat) ∧
      ((1#8).toNat < (bound encoding).params.nAdm ∧ ((bound encoding).admSlot (1#8).toNat).nsym ≠ 0#8 ∧
        ((bound encoding).admSlot (1#8).toNat).nsym.toNat ≤ (((bound encoding).setReg 3#4 3#32).reg 3#4).toNat) ∧
      ((31#8).toNat < 32 ∧ 2 ^ (31#8).toNat ≤ (((bound encoding).setReg 3#4 0x80000000#32).reg 3#4).toNat) ∧
      ((bound encoding).occModelsOk ∧ (recOcc 3#32 = true ∧ recInterp 3#32 = true ∧ recNeigh 3#32 = 0#2) ∧
        (recOcc 0x31#32 = true ∧ recMind1 0x31#32 = 3#2)) := by decide +kernel

/-- A patch whose second block holds a record that the syntax cannot carry (P2, V21). -/
def badPatch : State := ((roomy (canvas (bound encoding))).setBmRecord 0 0x67#32).setBmRecord 1 0x03#32

/-- The same with the other bad field in the first block, in a full window. -/
def badFirst : State := { (canvas (bound encoding)).setBmRecord 0 0x31#32 with wlen := 0#32 }

theorem witness_OutOfRangeOperandsFault_patch :
    (badPatch.encReady (10 * [0].length) ∧ badPatch.occModelsOk ∧ badPatch.patchFits ∧
        badPatch.patchBlocks = [0] ++ 1 :: [4, 5] ∧ badPatch.blocksCodable [0] ∧ badPatch.patchOccupied 1 = true ∧
        (recInterp (badPatch.bmRecord 1) = true ∧ recNeigh (badPatch.bmRecord 1) = 0#2) ∧
        encDecisions (badPatch.blocksDecisions [0]) badPatch =
          .ok () (endState (encDecisions (badPatch.blocksDecisions [0]) badPatch))) ∧
      (badFirst.encReady 0 ∧ badFirst.occModelsOk ∧ badFirst.patchFits ∧
        badFirst.patchBlocks = [] ++ 0 :: [1, 4, 5] ∧ badFirst.patchOccupied 0 = true ∧
        recMind1 (badFirst.bmRecord 0) = 3#2) := by
  refine ⟨⟨enc_of_check (by decide +kernel), by decide +kernel, by decide +kernel, by decide +kernel,
    by decide +kernel, by decide +kernel, by decide +kernel, ok_endState (by decide +kernel)⟩,
    enc_of_check (by decide +kernel), ?_⟩
  decide +kernel

/-- An encode session whose patch leaves the canvas, and a decode session whose canvas leaves BM. -/
def offCanvas : State := { canvas (bound encoding) with pu0 := 3#32 }

def offMap : State := { canvas (bound (decoding [0x01#8])) with btph := 5#32 }

theorem witness_AddressesOutsideTheSpacesFault :
    (idle.fault = false ∧ idle.params.nblk ≤ ((idle.setReg 1#4 16#32).reg 1#4).toNat) ∧
      (offCanvas.fault = false ∧ offCanvas.occModelsOk ∧ ¬ offCanvas.patchFits ∧ offCanvas.mode = .enc) ∧
      (offMap.fault = false ∧ offMap.occModelsOk ∧ ¬ offMap.patchFits ∧ offMap.mode = .dec) ∧
      (idle.params.cbSize ≤ ((idle.setReg 1#4 32#32).reg 1#4).toNat) ∧
      (0x05#8 ∉ (csrTable idle).map Prod.fst ∧ 0x37#8 ∉ (csrTable idle).map Prod.fst ∧ 0x00#8 ∉ rwCsrNumbers ∧
        0x31#8 ∉ rwCsrNumbers) := by decide +kernel

/-- An encode session whose window is full (V10), and one whose window is empty (V8). -/
def full : State := { encoding with wlen := 1#32, ptr := 1#32, cb := [(0, 0#8)], range := 0x01FFF000#32 }

def empty : State := { encoding with wlen := 0#32 }

/-- A decode session that needs a byte at offset `WLEN + 3` (V10). -/
def short : State := { decoding [0x01#8] with range := 0x01000000#32, value := 0x1000#32 }

/-- A patch that a session without a window starts to code (P2). -/
def tightPatch : State :=
  { ((canvas (bound encoding)).setBmRecord 0 0x67#32).setBmRecord 4 0x67#32 with wlen := 0#32 }

theorem tightPatch_encodes :
    Encodes tightPatch .occEncPatch
      (tightPatch.patchDecisions.take 6 ++ .bitA 0 true :: tightPatch.patchDecisions.drop 7) := by
  have h : tightPatch.patchDecisions.take 6 ++ .bitA 0 true :: tightPatch.patchDecisions.drop 7 =
      tightPatch.blocksDecisions tightPatch.patchBlocks := by decide +kernel
  rw [h]
  exact .occPatch tightPatch.patchBlocks [] (by decide +kernel) (by decide +kernel) (by decide +kernel)
    (by decide +kernel)

/-- A bit that the full window has no byte for; a second bit of two; the seventh decision of a patch. -/
theorem witness_FullWindowsAndShortStreamsFault_encoding :
    (full.encReady 0 ∧ Encodes full (.encBitS 3#4) ([] ++ .bitS false :: []) ∧ encDecisions [] full = .ok () full ∧
        full.wlen.toNat < full.ptr.toNat + renormTurns ((Decision.bitS false).width full)) ∧
      (let s := full.setReg 3#4 1#32;
        s.encReady 0 ∧ Encodes s (.encUint 3#4 2#8) ([.bitS true] ++ .bitS false :: []) ∧
          ∃ t, encDecisions [.bitS true] s = .ok () t ∧
            t.wlen.toNat < t.ptr.toNat + renormTurns ((Decision.bitS false).width t)) ∧
      (tightPatch.encReady 0 ∧
        ∃ t, encDecisions (tightPatch.patchDecisions.take 6) tightPatch = .ok () t ∧
          t.wlen.toNat < t.ptr.toNat + renormTurns ((Decision.bitA 0 true).width t)) := by
  refine ⟨⟨enc_of_check (by decide +kernel), .bitS 3#4 (by decide +kernel), rfl, by decide +kernel⟩,
    ⟨enc_of_check (by decide +kernel), .uint 3#4 2#8 (by decide) (by decide +kernel), exists_end (by decide +kernel)⟩,
    enc_of_check (by decide +kernel), exists_end (by decide +kernel)⟩

/-- `ENC_STOP` with no byte of room for the two it sends, none for the one, and one for the two (R94). -/
def oneLeft : State := { encoding with range := 0x02000000#32, wlen := 1#32 }

theorem witness_FullWindowsAndShortStreamsFault :
    (full.encReady 0 ∧ ¬ 2 ^ 25 < full.range.toNat ∧ full.wlen = full.ptr) ∧
      (empty.encReady 0 ∧ 2 ^ 25 < empty.range.toNat ∧ empty.wlen.toNat < empty.ptr.toNat + 1) ∧
      (oneLeft.encReady 0 ∧ ¬ 2 ^ 25 < oneLeft.range.toNat ∧ oneLeft.wlen.toNat = oneLeft.ptr.toNat + 1) ∧
      (idle.fault = false ∧ idle.mode = .idle ∧ ((idle.setReg 1#4 32#32).reg 1#4).toNat ≤ idle.params.cbSize ∧
        (idle.setReg 1#4 32#32).reg 2#4 = 0#32) :=
  ⟨⟨enc_of_check (by decide +kernel), by decide +kernel⟩, ⟨enc_of_check (by decide +kernel), by decide +kernel⟩,
    ⟨enc_of_check (by decide +kernel), by decide +kernel⟩, by decide +kernel⟩

/-- A session with data models that needs a byte at offset `WLEN + 3` for symbol 1 and for an unoccupied block. -/
def shortSymbol : State := bound { short with value := 0x00600000#32 }

theorem witness_FullWindowsAndShortStreamsFault_decoding :
    (short.decReady 0 ∧ Decodes short (.decBitS 3#4) ([] ++ .bitS false :: []) ∧
        decDecisions [] short = .ok [] short ∧ (Decision.bitS false).selected short ∧
        short.wlen.toNat + 3 < short.ptr.toNat + renormTurns ((Decision.bitS false).width short)) ∧
      (let s := decoding [0x9D#8];
        s.decReady 0 ∧ Decodes s (.decUint 3#4 9#8) (uintDecisions 0xB9 8 ++ .bitS false :: []) ∧
          ∃ t, decDecisions (uintDecisions 0xB9 8) s = .ok (uintDecisions 0xB9 8) t ∧
            (Decision.bitS false).selected t ∧
            t.wlen.toNat + 3 < t.ptr.toNat + renormTurns ((Decision.bitS false).width t)) ∧
      (shortSymbol.decReady 0 ∧ Decodes shortSymbol (.decSym 3#4 0#8) ([] ++ .sym 0 1 :: []) ∧
        decDecisions [] shortSymbol = .ok [] shortSymbol ∧ (Decision.sym 0 1).selected shortSymbol ∧
        shortSymbol.wlen.toNat + 3 < shortSymbol.ptr.toNat + renormTurns ((Decision.sym 0 1).width shortSymbol)) ∧
      (Decodes shortSymbol (.occDecBlk 3#4) ([] ++ .bitA 0 false :: []) ∧
        (Decision.bitA 0 false).selected shortSymbol ∧
        shortSymbol.wlen.toNat + 3 < shortSymbol.ptr.toNat + renormTurns ((Decision.bitA 0 false).width shortSymbol)) := by
  refine ⟨⟨dec_of_check (by decide +kernel), .bitS 3#4 false, rfl, bitS_selected (by decide +kernel), by decide +kernel⟩,
    ⟨dec_of_check (by decide +kernel), .uint 3#4 9#8 0xB9 (by decide), ?_⟩,
    ⟨dec_of_check (by decide +kernel), .sym 3#4 0#8 1 (by decide) (by decide), rfl, ?_, by decide +kernel⟩,
    .occBlk 3#4 0#32 (by decide +kernel), bitA_selected (by decide +kernel), by decide +kernel⟩
  · obtain ⟨t, h, h1, h2⟩ := exists_dec_end (r := decDecisions (uintDecisions 0xB9 8) (decoding [0x9D#8]))
      (a := uintDecisions 0xB9 8)
      (p := fun t => false = decide (bitPart pHalf t.range ≤ t.value) ∧
        t.wlen.toNat + 3 < t.ptr.toNat + renormTurns ((Decision.bitS false).width t)) (by decide +kernel)
    exact ⟨t, h, bitS_selected h1, h2⟩
  · show 1 < (shortSymbol.admSlot 0).nsym.toNat ∧ symPart (shortSymbol.admSlot 0) shortSymbol.range 1 ≤ shortSymbol.value ∧
      ∀ l, 1 < l → l < 3 → shortSymbol.value < symPart (shortSymbol.admSlot 0) shortSymbol.range l
    refine ⟨by decide +kernel, by decide +kernel, fun l h1 h3 => ?_⟩
    obtain rfl : l = 2 := by omega
    decide +kernel

theorem witness_HostSupportRegisterCommands : encoding.fault = false := rfl

theorem witness_CsrrReadsEveryCsr :
    idle.fault = false ∧ (0x00#8, 0#32) ∈ csrTable idle ∧ (0x36#8, 0#32) ∈ csrTable idle ∧
      (0x25#8, 0x00010000#32) ∈ csrTable idle := by decide +kernel

theorem witness_ObservationPortReads :
    (0x09#8, 0xFFFFFFFF#32) ∈ csrTable encoding ∧ 0x05#8 ∉ (csrTable encoding).map Prod.fst ∧
      0xFF#8 ∉ (csrTable encoding).map Prod.fst := by decide +kernel

theorem witness_ModelViewShowsTheSlot :
    (idle.fault = false ∧ 0x36#8 ∈ [0x31#8, 0x32#8, 0x33#8, 0x34#8, 0x35#8, 0x36#8]) ∧
    (let s := { bound idle with msel := 0x2#32 };
      s.msel.toNat / 256 % 2 = 0 ∧ s.msel.toNat % 256 < s.params.nAbm) ∧
      (let s := { bound idle with msel := 0x3#32 };
        s.msel.toNat / 256 % 2 = 0 ∧ s.params.nAbm ≤ s.msel.toNat % 256) ∧
      (let s := { bound idle with msel := 0x00020101#32 };
        s.msel.toNat / 256 % 2 ≠ 0 ∧ s.msel.toNat % 256 < s.params.nAdm ∧
          s.msel.toNat / 2 ^ 16 % 256 < (s.admSlot (s.msel.toNat % 256)).nsym.toNat) ∧
      (let s := { bound idle with msel := 0x00030101#32 };
        s.msel.toNat / 256 % 2 ≠ 0 ∧ s.msel.toNat % 256 < s.params.nAdm ∧
          (s.admSlot (s.msel.toNat % 256)).nsym.toNat ≤ s.msel.toNat / 2 ^ 16 % 256) ∧
      (let s := { idle with msel := 0x00000102#32 };
        s.msel.toNat / 256 % 2 ≠ 0 ∧ s.params.nAdm ≤ s.msel.toNat % 256) ∧
      (let s := { idle with msel := 0x00000101#32 };
        s.msel.toNat / 256 % 2 ≠ 0 ∧ (s.admSlot (s.msel.toNat % 256)).nsym.toNat = 0) := by decide +kernel

theorem witness_CsrwWritesTheRwCsrs : (encoding.setReg 1#4 0xFFFFFFFF#32).fault = false := rfl

theorem witness_CbLoadAndStore :
    (encoding.setReg 1#4 31#32).fault = false ∧
      ((encoding.setReg 1#4 31#32).reg 1#4).toNat < (encoding.setReg 1#4 31#32).params.cbSize := by decide

theorem witness_BmLoadAndStore :
    (encoding.setReg 1#4 15#32).fault = false ∧
      ((encoding.setReg 1#4 15#32).reg 1#4).toNat < (encoding.setReg 1#4 15#32).params.nblk := by decide

theorem witness_SessionStartsOpenTheWindow :
    let s := (idle.setReg 1#4 31#32).setReg 2#4 1#32;
    let t := (idle.setReg 1#4 31#32).setReg 2#4 2#32;
    (s.params.legal ∧ s.fault = false ∧ s.mode = .idle ∧
        (s.reg 1#4).toNat + (s.reg 2#4).toNat ≤ s.params.cbSize ∧ 1 ≤ (s.reg 2#4).toNat) ∧
      t.params.cbSize < (t.reg 1#4).toNat + (t.reg 2#4).toNat := by decide +kernel

/-- A session with a narrow interval and a window of two bytes. -/
def narrow : State := { encoding with range := 0x02000000#32, wlen := 2#32 }

/-- An encode session with exactly one byte of room and a wide interval (R94). -/
def oneByte : State := { encoding with wlen := 1#32 }

theorem witness_EncStopWritesTheLastBytes :
    (oneByte.encReady (if 2 ^ 25 < oneByte.range.toNat then 1 else 2) ∧ 2 ^ 25 < oneByte.range.toNat ∧
        oneByte.wlen.toNat = oneByte.ptr.toNat + 1) ∧
      (narrow.encReady (if 2 ^ 25 < narrow.range.toNat then 1 else 2) ∧ ¬ 2 ^ 25 < narrow.range.toNat ∧
        narrow.wlen.toNat = narrow.ptr.toNat + 2) :=
  ⟨⟨enc_of_check (by decide +kernel), by decide +kernel⟩, enc_of_check (by decide +kernel), by decide +kernel⟩

theorem witness_DecStopClosesTheSession :
    ((decoding [0x01#8]).fault = false ∧ (decoding [0x01#8]).mode = .dec) ∧ (idle.fault = false ∧ idle.mode = .idle) ∧
      (encoding.fault = false ∧ encoding.mode = .enc) := ⟨⟨rfl, rfl⟩, ⟨rfl, rfl⟩, ⟨rfl, rfl⟩⟩

theorem witness_ModelResetCommands :
    let s := bound encoding;
    s.fault = false ∧ (2#8).toNat < s.params.nAbm ∧ (1#8).toNat < s.params.nAdm ∧ 2 ≤ (2#8).toNat ∧
      (16#8).toNat ≤ s.params.maxSym ∧ (s.admSlot (1#8).toNat).nsym ≠ 0#8 := by decide

/-- V11, after row 9: the next 1 carries into the byte already written. -/
def carrying : State :=
  { encoding with wlen := 3#32, ptr := 1#32, cb := [(0, 0x67#8)], low := 0xFFF00000#32, range := 0x80000000#32 }

/-- A full window, and an interval whose 0 part keeps its width without a byte. -/
def noRoom : State := empty.setReg 3#4 1#32

theorem witness_EncodedBitNarrowsTheInterval :
    ((noRoom.reg 3#4).toNat ≤ 1 ∧ (2#8).toNat < noRoom.params.nAbm ∧ noRoom.reg 3#4 = 1#32 ∧
        noRoom.encReady (renormTurns
          (noRoom.range - BitVec.ofNat 32 ((noRoom.abmSlot (2#8).toNat).p0.toNat * (noRoom.range.toNat / 2 ^ 13))))) ∧
      ((empty.reg 3#4).toNat ≤ 1 ∧ empty.reg 3#4 ≠ 1#32 ∧
        empty.encReady (renormTurns (BitVec.ofNat 32 (4096 * (empty.range.toNat / 2 ^ 13))))) ∧
      (narrow.reg 3#4 ≠ 1#32 ∧ renormTurns (BitVec.ofNat 32 (1 * (narrow.range.toNat / 2 ^ 13))) = 2) ∧
      (let s := { narrow with abm := narrow.abm.set 0 ⟨1#13, 1#14, 7425#14, 64#7, 2#7⟩ };
        (0#8).toNat < s.params.nAbm ∧ s.encReady (renormTurns
          (BitVec.ofNat 32 ((s.abmSlot (0#8).toNat).p0.toNat * (s.range.toNat / 2 ^ 13)))) ∧
          s.ptr.toNat + 2 = s.wlen.toNat) ∧
      ((carrying.setReg 3#4 1#32).encReady (renormTurns
        ((carrying.setReg 3#4 1#32).range - BitVec.ofNat 32 (4096 * ((carrying.setReg 3#4 1#32).range.toNat / 2 ^ 13))))) :=
  ⟨⟨by decide +kernel, by decide, by decide +kernel, enc_of_check (by decide +kernel)⟩,
    ⟨by decide +kernel, by decide +kernel, enc_of_check (by decide +kernel)⟩, by decide +kernel,
    ⟨by decide, enc_of_check (by decide +kernel), by decide +kernel⟩, enc_of_check (by decide +kernel)⟩

/-- Decode sessions whose first bit is 0 and 1; in the first, the second byte to come is the last that may be fetched. -/
def lowStream : State := decoding [0x01#8, 0x02#8, 0x03#8]

def highStream : State := decoding [0xFF#8, 0xFF#8, 0xFF#8, 0xFF#8]

/-- A payload of one byte: every byte that may be fetched has been (V16). -/
def oneByteStream : State := decoding [0x01#8]

theorem witness_DecodedBitNarrowsTheInterval :
    (oneByteStream.ptr.toNat = oneByteStream.wlen.toNat + 3 ∧ (2#8).toNat < oneByteStream.params.nAbm ∧
        ¬ BitVec.ofNat 32 (4096 * (oneByteStream.range.toNat / 2 ^ 13)) ≤ oneByteStream.value ∧
        oneByteStream.decReady (renormTurns (BitVec.ofNat 32 (4096 * (oneByteStream.range.toNat / 2 ^ 13))))) ∧
      ((2#8).toNat < highStream.params.nAbm ∧
        BitVec.ofNat 32 ((highStream.abmSlot (2#8).toNat).p0.toNat * (highStream.range.toNat / 2 ^ 13)) ≤
          highStream.value ∧
        highStream.decReady (renormTurns (highStream.range -
          BitVec.ofNat 32 ((highStream.abmSlot (2#8).toNat).p0.toNat * (highStream.range.toNat / 2 ^ 13))))) ∧
      (let s := { lowStream with range := 0x01000000#32, value := 5#32, ptr := 5#32, overread := true };
        ¬ BitVec.ofNat 32 (4096 * (s.range.toNat / 2 ^ 13)) ≤ s.value ∧
          renormTurns (BitVec.ofNat 32 (4096 * (s.range.toNat / 2 ^ 13))) = 1 ∧ s.ptr.toNat + 1 = s.wlen.toNat + 3 ∧
          s.decReady (renormTurns (BitVec.ofNat 32 (4096 * (s.range.toNat / 2 ^ 13))))) :=
  ⟨⟨by decide +kernel, by decide, by decide +kernel, dec_of_check (by decide +kernel)⟩,
    ⟨by decide, by decide +kernel, dec_of_check (by decide +kernel)⟩, by decide +kernel, by decide +kernel,
    by decide +kernel, dec_of_check (by decide +kernel)⟩

/-- The first and the last of three symbols in a full window that neither needs a byte of. -/
theorem witness_EncodedSymbolNarrowsTheInterval :
    (let s := bound empty;
      (1#8).toNat < s.params.nAdm ∧ (s.reg 3#4).toNat = 0 ∧ (s.reg 3#4).toNat < (s.admSlot (1#8).toNat).nsym.toNat ∧
        s.encReady (renormTurns (BitVec.ofNat 32 (10922 * (s.range.toNat / 2 ^ 15) - 0 * (s.range.toNat / 2 ^ 15))))) ∧
      (let s := bound (empty.setReg 3#4 2#32);
        (s.reg 3#4).toNat + 1 = (s.admSlot (1#8).toNat).nsym.toNat ∧
          s.encReady (renormTurns (BitVec.ofNat 32 (s.range.toNat - 21845 * (s.range.toNat / 2 ^ 15))))) :=
  ⟨⟨by decide, by decide +kernel, by decide +kernel, enc_of_check (by decide +kernel)⟩, by decide +kernel,
    enc_of_check (by decide +kernel)⟩

theorem witness_DecodedSymbolNarrowsTheInterval :
    let s := bound oneByteStream;
    s.decReady 0 ∧ (1#8).toNat < s.params.nAdm ∧ (s.admSlot (1#8).toNat).nsym ≠ 0#8 ∧
      (s.value.toNat < 10922 * (s.range.toNat / 2 ^ 15) ∧
        s.decReady (renormTurns
          (BitVec.ofNat 32 (10922 * (s.range.toNat / 2 ^ 15) - 0 * (s.range.toNat / 2 ^ 15))))) :=
  ⟨dec_of_check (by decide +kernel), by decide, by decide, by decide +kernel, dec_of_check (by decide +kernel)⟩

/-- One decision of each kind. -/
def someDecisions : List Decision := [.bitS true, .bitA 2 false, .sym 1 2]

theorem someDecisions_fit : ∀ d ∈ someDecisions, d.fits (bound encoding) := by
  intro d hd
  simp only [someDecisions, List.mem_cons, List.not_mem_nil, or_false] at hd
  rcases hd with rfl | rfl | rfl
  · exact trivial
  · show 2 < (bound encoding).params.nAbm
    decide
  · show 1 < (bound encoding).params.nAdm ∧ 2 < ((bound encoding).admSlot 1).nsym.toNat
    decide

theorem witness_EncodingNeverRunsOffTheWindow :
    (bound encoding).encReady (2 * someDecisions.length + 10) ∧ ∀ d ∈ someDecisions, d.fits (bound encoding) :=
  ⟨enc_of_check (by decide +kernel), someDecisions_fit⟩

/-- A step that fits its model, as a test. -/
def fitsNow (e : SessionStep) (s : State) : Bool :=
  match e with
  | .code (.bitS _) => true
  | .code (.bitA m _) => decide (m < s.params.nAbm)
  | .code (.sym j k) => decide (j < s.params.nAdm ∧ k < (s.admSlot j).nsym.toNat)
  | .reset _ => true

theorem fits_of_fitsNow {e : SessionStep} {s : State} (h : fitsNow e s = true) : e.fits s := by
  rcases e with (b | ⟨m, b⟩ | ⟨j, k⟩) | r
  · trivial
  · exact of_decide_eq_true h
  · exact of_decide_eq_true h
  · trivial

/-- The rest of a session, from the state in which pseudocode ended normally. -/
def afterOk (r : EStateM.Result Stop State Unit) (check : State → Bool) : Bool :=
  match r with
  | .ok _ t => check t
  | .error _ _ => true

/-- The steps of an encoder's session fit their models, step by step. -/
def stepsFit (es : List SessionStep) (s : State) : Bool :=
  match es with
  | [] => true
  | e :: rest => fitsNow e s && afterOk (e.enc s) (stepsFit rest)

theorem fits_of_stepsFit {es : List SessionStep} {s : State} (h : stepsFit es s = true) :
    ∀ pre e post v, es = pre ++ e :: post → encSteps pre s = .ok () v → e.fits v := by
  induction es generalizing s with
  | nil =>
    intro pre e post v hes _
    cases pre <;> cases hes
  | cons d rest ih =>
    obtain ⟨hd, hrest⟩ := Bool.and_eq_true_iff.mp h
    intro pre e post v hes hv
    cases pre with
    | nil =>
      cases hes
      cases hv
      exact fits_of_fitsNow hd
    | cons d' pre =>
      cases hes
      obtain ⟨t, ht, hv⟩ := encSteps_cons_eq_ok.mp hv
      rw [ht] at hrest
      exact ih hrest pre e post v rfl hv

/-- Codings and resets of one session; the data model gets another size on the way. -/
def someSteps : List SessionStep :=
  [.code (.bitS true), .code (.bitA 2 false), .reset (.abmReset 2#8), .code (.bitA 2 true), .reset (.admInit 0#8 16#8),
    .code (.sym 0 15), .reset (.admReset 0#8), .reset .allReset, .code (.sym 1 2)]

/-- The encoder of `someSteps`, before `ENC_STOP`. -/
def coded : State := endState (encSteps someSteps (bound encoding))

/-- The encoder of `someSteps`, after `ENC_STOP`. -/
def stopped : State := nextState (exec (.encStop 4#4) coded)

/-- A decode session just started on the encoder's bytes, with two more bytes behind them. -/
def mirrored : State :=
  let bytes := stopped.cb.map Prod.snd ++ [0xFF#8, 0xFF#8]
  bound (decoding bytes)

theorem witness_DecodingReturnsWhatWasEncoded :
    (bound encoding).encReady 0 ∧
      ((bound encoding).ptr = 0#32 ∧ (bound encoding).low = 0#32 ∧ (bound encoding).range = 0xFFFFFFFF#32) ∧
      (∀ pre e post v, someSteps = pre ++ e :: post → encSteps pre (bound encoding) = .ok () v → e.fits v) ∧
      encSteps someSteps (bound encoding) = .ok () coded ∧
      exec (.encStop 4#4) coded = .next stopped ∧ stopped.fault = false ∧
      mirrored.decReady 0 ∧ (mirrored.ptr = 4#32 ∧ mirrored.range = 0xFFFFFFFF#32) ∧
      mirrored.value.toNat = mirrored.servedNumber 0 4 ∧
      (mirrored.params = (bound encoding).params ∧ mirrored.abm = (bound encoding).abm ∧
        mirrored.adm = (bound encoding).adm) ∧
      (stopped.reg 4#4).toNat ≤ mirrored.wlen.toNat ∧
      (∀ o, o < (stopped.reg 4#4).toNat →
        mirrored.servedByte o = stopped.cbByte (stopped.windowAddr (BitVec.ofNat 32 o))) := by
  exact ⟨enc_of_check (by decide +kernel), by decide +kernel, fits_of_stepsFit (by decide +kernel),
    ok_endState (by decide +kernel), next_nextState (by decide +kernel), by decide +kernel,
    dec_of_check (by decide +kernel), by decide +kernel, by decide +kernel, by decide +kernel,
    by decide +kernel, by decide +kernel⟩

/-- The decoder gives the steps back, and both sides hold the same models. -/
theorem test_mirror_of_some_steps :
    endsWith (decSteps someSteps mirrored) someSteps (fun t => t.abm = coded.abm ∧ t.adm = coded.adm) = true := by
  decide +kernel

/-- A roomy session with the largest register value. -/
def roomyMax : State := (roomy encoding).setReg 3#4 0xFFFFFFFF#32

theorem witness_EncUintCodesItsBits :
    ((32#8).toNat ≤ 32 ∧ (roomyMax.reg 3#4).toNat < 2 ^ (32#8).toNat ∧ roomyMax.encReady (2 * (32#8).toNat)) ∧
      ((empty.reg 3#4).toNat < 2 ^ (0#8).toNat ∧ empty.encReady (2 * (0#8).toNat)) ∧
      (let s := { encoding.setReg 3#4 0xFFFFFFFF#32 with wlen := 4#32 };
        s.encReady 0 ∧ (s.reg 3#4).toNat < 2 ^ (32#8).toNat ∧
          ∃ t, encDecisions (uintDecisions (s.reg 3#4).toNat (32#8).toNat) s = .ok () t ∧ t.ptr.toNat ≤ 4) :=
  ⟨⟨by decide, by decide +kernel, enc_of_check (by decide +kernel)⟩,
    ⟨by decide +kernel, enc_of_check (by decide +kernel)⟩, enc_of_check (by decide +kernel), by decide +kernel,
    exists_end (by decide +kernel)⟩

theorem witness_DecUintReturnsItsBits :
    ((32#8).toNat ≤ 32 ∧ (roomy highStream).decReady (2 * (32#8).toNat)) ∧ oneByteStream.decReady (2 * (0#8).toNat) ∧
      ((decoding [0x9D#8]).decReady 0 ∧ 0xB9 < 2 ^ (8#8).toNat ∧
        ∃ t, decDecisions (uintDecisions 0xB9 (8#8).toNat) (decoding [0x9D#8]) =
          .ok (uintDecisions 0xB9 (8#8).toNat) t) :=
  ⟨⟨by decide, dec_of_check (by decide +kernel)⟩, dec_of_check (by decide +kernel), dec_of_check (by decide +kernel),
    by decide, exists_ok_eq (by decide +kernel)⟩

theorem witness_ZigzagCommands : (encoding.setReg 3#4 0x80000000#32).fault = false := rfl

theorem witness_ExpGolombEncodersCodeTheCodeWord :
    ((2#8).toNat < roomyMax.params.nAbm ∧ 0 < 2 ^ 32 ∧ roomyMax.encReady (2 * (2 * 32 + 1)) ∧
        (roomyMax.reg 3#4).toNat + 1 = 2 ^ 32 + 0) ∧
      (0 < 2 ^ 1 ∧ (zigzag (roomyMax.reg 3#4)).toNat + 1 = 2 ^ 1 + 0) ∧
      (empty.encReady 0 ∧ (2#8).toNat < empty.params.nAbm ∧ 0 < 2 ^ 0 ∧ (empty.reg 3#4).toNat + 1 = 2 ^ 0 + 0 ∧
        ∃ t, encDecisions (egCodeWord (2#8).toNat 0 0) empty = .ok () t ∧ t.ptr.toNat = 0) :=
  ⟨⟨by decide, by decide, enc_of_check (by decide +kernel), by decide +kernel⟩, by decide +kernel,
    enc_of_check (by decide +kernel), by decide, by decide, by decide +kernel, exists_end (by decide +kernel)⟩

theorem witness_ExpGolombDecodersReturnTheValue :
    ((decoding [0xD0#8]).fault = false ∧ (decoding [0xD0#8]).mode = .dec ∧
        (2#8).toNat < (decoding [0xD0#8]).params.nAbm ∧ 2 < 2 ^ 2 ∧
        ∃ t, decDecisions (egCodeWord 2 2 2) (decoding [0xD0#8]) = .ok (egCodeWord 2 2 2) t) ∧
      (∃ t, decDecisions (egCodeWord 2 32 0) (decoding [0xFE#8, 0x69#8, 0x4E#8, 0x52#8, 0x00#8, 0x01#8]) =
        .ok (egCodeWord 2 32 0) t) ∧
      (oneByteStream.ptr.toNat = oneByteStream.wlen.toNat + 3 ∧ oneByteStream.value.toNat <
          (oneByteStream.abmSlot (2#8).toNat).p0.toNat * (oneByteStream.range.toNat / 2 ^ 13) ∧
        oneByteStream.decReady (renormTurns (BitVec.ofNat 32
          ((oneByteStream.abmSlot (2#8).toNat).p0.toNat * (oneByteStream.range.toNat / 2 ^ 13))))) :=
  ⟨⟨rfl, rfl, by decide, by decide, exists_ok_eq (by decide +kernel)⟩, exists_ok_eq (by decide +kernel),
    by decide +kernel, by decide +kernel, dec_of_check (by decide +kernel)⟩

theorem witness_OverlongCodeWordsAreCorrupt :
    ((decoding (List.replicate 8 0xFF#8)).fault = false ∧ (decoding (List.replicate 8 0xFF#8)).mode = .dec ∧
        (0#8).toNat < (decoding (List.replicate 8 0xFF#8)).params.nAbm ∧
        ∃ t, decDecisions (List.replicate 33 (Decision.bitA 0 true)) (decoding (List.replicate 8 0xFF#8)) =
          .ok (List.replicate 33 (Decision.bitA 0 true)) t) ∧
      (0 < 1 ∧ 1 < 2 ^ 32 ∧
        ∃ t, decDecisions (egCodeWord 0 32 1) (decoding [0xFE#8, 0x69#8, 0x4E#8, 0x52#8, 0x00#8, 0x0D#8]) =
          .ok (egCodeWord 0 32 1) t) :=
  ⟨⟨rfl, rfl, by decide, exists_ok_eq (by decide +kernel)⟩, by decide, by decide, exists_ok_eq (by decide +kernel)⟩

theorem witness_OccEncBlkCodesTheBlock :
    (let s := bound (encoding.setReg 3#4 0x67#32);
      s.encReady 10 ∧ s.occModelsOk ∧ recOcc (s.reg 3#4) = true ∧ recCodable (s.reg 3#4)) ∧
      (let s := bound (empty.setReg 3#4 0x32#32);
        s.encReady 0 ∧ s.occModelsOk ∧ recOcc (s.reg 3#4) = false ∧
          ∃ t, encDecisions (blockDecisions s.occBinding (recOcc (s.reg 3#4)) (s.reg 3#4)) s = .ok () t ∧
            t.ptr.toNat = 0) := by
  refine ⟨⟨enc_of_check (by decide +kernel), by decide +kernel⟩, enc_of_check (by decide +kernel), ?_⟩
  exact ⟨by decide +kernel, by decide +kernel, exists_end (by decide +kernel)⟩

/-- A decode session with room for ten bytes and ternary models. -/
def longStream : State := bound (decoding (List.replicate 11 0xD6#8))

theorem witness_OccDecBlkReturnsACanonicalRecord :
    (longStream.decReady 10 ∧ longStream.occModelsOk) ∧
      (let s := bound (decoding [0xFF#8]);
        s.decReady 0 ∧ s.occModelsOk ∧ recCanonical 0x6F#32 = true ∧ recOwner 0x6F#32 = 0#24 ∧
          ∃ t, decDecisions (blockDecisions s.occBinding (recOcc 0x6F#32) 0x6F#32) s =
            .ok (blockDecisions s.occBinding (recOcc 0x6F#32) 0x6F#32) t) := by
  refine ⟨⟨dec_of_check (by decide +kernel), by decide +kernel⟩, dec_of_check (by decide +kernel), ?_⟩
  exact ⟨by decide +kernel, by decide, by decide, exists_ok_eq (by decide +kernel)⟩

/-- Scenario B with room (P2), and a patch without blocks in a full window (V22). -/
def scenarioB : State := ((roomy (canvas (bound encoding))).setBmRecord 0 1#32).setBmRecord 4 0x67#32

def emptyPatch : State := { canvas (bound empty) with pszu := 0#32, pu0 := 4#32 }

theorem witness_OccEncPatchCodesTheFootprint :
    (scenarioB.encReady (10 * (scenarioB.pszu.toNat * scenarioB.pszv.toNat)) ∧ scenarioB.occModelsOk ∧
        scenarioB.patchFits ∧ (∃ i ∈ scenarioB.patchBlocks, scenarioB.patchOccupied i = true) ∧
        scenarioB.blocksCodable scenarioB.patchBlocks) ∧
      (emptyPatch.encReady (10 * (emptyPatch.pszu.toNat * emptyPatch.pszv.toNat)) ∧ emptyPatch.occModelsOk ∧
        emptyPatch.patchFits ∧ emptyPatch.patchBlocks = []) ∧
      (let s := ((canvas (bound encoding)).setBmRecord 0 1#32).setBmRecord 4 0x67#32;
        s.encReady 0 ∧ s.occModelsOk ∧ s.patchFits ∧ s.blocksCodable s.patchBlocks ∧
          ∃ t, encDecisions s.patchDecisions s = .ok () t ∧ t.ptr.toNat = 1) := by
  refine ⟨⟨enc_of_check (by decide +kernel), by decide +kernel⟩,
    ⟨enc_of_check (by decide +kernel), by decide +kernel⟩, enc_of_check (by decide +kernel), ?_⟩
  exact ⟨by decide +kernel, by decide +kernel, by decide +kernel, exists_end (by decide +kernel)⟩

/-- The decoder of scenario B with room, and without. -/
def scenarioBDecoder : State := roomy (canvas (bound (decoding [0x88#8, 0xBE#8, 0x00#8, 0x00#8])))

def scenarioBTight : State := canvas (bound (decoding [0x88#8, 0xBE#8]))

/-- The records of scenario B. -/
def scenarioBRecords (i : Nat) : Word := if i = 0 then 1#32 else if i = 4 then 0x67#32 else 0#32

theorem witness_OccDecPatchWritesTheFootprint :
    (scenarioBDecoder.decReady (10 * (scenarioBDecoder.pszu.toNat * scenarioBDecoder.pszv.toNat)) ∧
        scenarioBDecoder.occModelsOk ∧ scenarioBDecoder.patchFits) ∧
      (scenarioBTight.decReady 0 ∧ scenarioBTight.occModelsOk ∧ scenarioBTight.patchFits ∧
        (∀ i ∈ scenarioBTight.patchBlocks, recOcc (scenarioBRecords i) = true → recCodable (scenarioBRecords i)) ∧
        ∃ t, decDecisions (recordsDecisions scenarioBTight.occBinding scenarioBRecords scenarioBTight.patchBlocks)
          scenarioBTight =
            .ok (recordsDecisions scenarioBTight.occBinding scenarioBRecords scenarioBTight.patchBlocks) t) := by
  refine ⟨⟨dec_of_check (by decide +kernel), by decide +kernel⟩, dec_of_check (by decide +kernel), ?_⟩
  exact ⟨by decide +kernel, by decide +kernel, by decide +kernel, exists_ok_eq (by decide +kernel)⟩

/-- A patch of which one byte carries the first block and the first element of the second. -/
def cutPatch : State := canvas (bound (decoding [0xFF#8]))

/-- The records that the byte stands for, as far as it goes. -/
def cutRecords (i : Nat) : Word := if i = 0 then 0x6F#32 else 0x01#32

/-- What is decoded before the stream is used up. -/
def cutDecisions : List Decision := recordsDecisions cutPatch.occBinding cutRecords [0] ++ [.bitA 0 true]

theorem witness_ShortStreamsStopPatchDecoding :
    cutPatch.decReady 0 ∧ cutPatch.occModelsOk ∧ cutPatch.patchFits ∧ cutPatch.patchBlocks = [0] ++ 1 :: [4, 5] ∧
      (∀ i ∈ [0], recOcc (cutRecords i) = true → recCodable (cutRecords i)) ∧
      blockDecisions cutPatch.occBinding (recOcc (cutRecords 1)) (cutRecords 1) =
        [.bitA 0 true] ++ .bitA 1 false :: [.sym 1 0] ∧
      ∃ t, decDecisions cutDecisions cutPatch = .ok cutDecisions t ∧ (Decision.bitA 1 false).selected t ∧
        t.wlen.toNat + 3 < t.ptr.toNat + renormTurns ((Decision.bitA 1 false).width t) := by
  refine ⟨dec_of_check (by decide +kernel), by decide +kernel, by decide +kernel, by decide +kernel,
    by decide +kernel, by decide +kernel, ?_⟩
  obtain ⟨t, h, h1, h2⟩ := exists_dec_end (r := decDecisions cutDecisions cutPatch) (a := cutDecisions)
    (p := fun t => false = decide (bitPart (t.abmSlot 1).p0 t.range ≤ t.value) ∧
      t.wlen.toNat + 3 < t.ptr.toNat + renormTurns ((Decision.bitA 1 false).width t)) (by decide +kernel)
  exact ⟨t, h, bitA_selected h1, h2⟩

end Sys2Proof.Tests
end

