-- ==== Sys2Proof/Proofs/Scope.lean ====
section
/-! The step function inverted once, from the host's acts down to a command's pseudocode, and what every step says of
the implementation parameters (spec/00_scope.md R7). -/

namespace Sys2Proof.Machine

/-! ### What a step that answers a next state has done -/

/-- The idle step (log 2), or the first event of the port, taken off it. -/
theorem step_eq_next {s t : State} (h : step s = .next t) :
    (s.port = [] ∧ t = s) ∨ ∃ e rest, s.port = e :: rest ∧ hostEvent e { s with port := rest } = .next t := by
  unfold step takeEvent at h
  split at h
  case h_1 hport =>
    cases h
    exact .inl ⟨hport, rfl⟩
  case h_2 e rest hport => exact .inr ⟨e, rest, hport, h⟩

/-- A presented word is refused in the fault state (R216), executed (R244), or illegal (R218). -/
theorem presentWord_eq_next {cw : Word} {s t : State} (h : presentWord cw s = .next t) :
    (s.fault = true ∧ t = s.refuse) ∨
      (s.fault = false ∧ ∃ i, decode cw = .ok i ∧ exec i s = .next t) ∨
      (s.fault = false ∧ (∃ e, decode cw = .error e) ∧ t = s.faultEntry .illegalCommand 0#32 cw) := by
  unfold presentWord at h
  cases hf : s.fault with
  | true =>
    rw [if_pos hf] at h
    cases h
    exact .inl ⟨rfl, rfl⟩
  | false =>
    rw [if_neg (by simp [hf])] at h
    cases hd : decode cw with
    | ok i =>
      rw [hd] at h
      exact .inr (.inl ⟨rfl, i, rfl, h⟩)
    | error e =>
      rw [hd] at h
      cases h
      exact .inr (.inr ⟨rfl, ⟨e, rfl⟩, rfl⟩)

/-- A byte written by the host lies in CB (R246). -/
theorem hostWriteCb_eq_next {a : Nat} {v : Byte} {s t : State} (h : hostWriteCb a v s = .next t) :
    a < s.params.cbSize ∧ t = s.setCbByte a v := by
  unfold hostWriteCb at h
  split at h
  · cases h
    exact ⟨‹_›, rfl⟩
  · cases h

/-- A record written by the host lies in BM (R246). -/
theorem hostWriteBm_eq_next {i : Nat} {v : Word} {s t : State} (h : hostWriteBm i v s = .next t) :
    i < s.params.nblk ∧ t = s.setBmRecord i v := by
  unfold hostWriteBm at h
  split at h
  · cases h
    exact ⟨‹_›, rfl⟩
  · cases h

/-- A command that answers a next state was refused, or its pseudocode stayed inside `BodyFrame` and was then completed
or ended by the fault entry. -/
theorem exec_eq_next {i : Instr} {s u : State} (h : exec i s = .next u) :
    (s.fault = true ∧ u = s.refuse) ∨
      (s.fault = false ∧ ∃ t, BodyFrame s t ∧
        (u = t.complete ∨ ∃ f info, u = t.faultEntry f info (encode i))) := by
  rw [exec_eq_command] at h
  cases hf : s.fault with
  | true =>
    rw [command_of_fault hf] at h
    cases h
    exact .inl ⟨rfl, rfl⟩
  | false => exact .inr ⟨rfl, command_keeps (bodyOf_bodyFrame i) h hf⟩

/-! ### The implementation parameters -/

@[simp] theorem State.resetWith_params (p : Params) (epoch : Nat) (events : List HostEvent) :
    (State.resetWith p epoch events).params = p := rfl

@[simp] theorem State.applyReset_params (s : State) : s.applyReset.params = s.params := rfl

theorem BodyFrame.params_eq {s t : State} (h : BodyFrame s t) : t.params = s.params := by
  unfold BodyFrame at h
  rw [h]

theorem exec_params {i : Instr} {s u : State} (h : exec i s = .next u) : u.params = s.params := by
  rcases exec_eq_next h with ⟨_, rfl⟩ | ⟨_, t, hbody, rfl | ⟨f, info, rfl⟩⟩
  · exact s.refuse_params
  · exact t.complete_params.trans hbody.params_eq
  · exact (t.faultEntry_params f info _).trans hbody.params_eq

theorem presentWord_params {cw : Word} {s t : State} (h : presentWord cw s = .next t) : t.params = s.params := by
  rcases presentWord_eq_next h with ⟨_, rfl⟩ | ⟨_, i, _, hexec⟩ | ⟨_, _, rfl⟩
  · exact s.refuse_params
  · exact exec_params hexec
  · exact s.faultEntry_params _ _ _

theorem hostEvent_params {e : HostEvent} {s t : State} (h : hostEvent e s = .next t) : t.params = s.params := by
  cases e with
  | issue cw => exact presentWord_params h
  | cbWrite a v =>
    obtain ⟨_, rfl⟩ := hostWriteCb_eq_next h
    exact s.setCbByte_params a v
  | bmWrite i v =>
    obtain ⟨_, rfl⟩ := hostWriteBm_eq_next h
    exact s.setBmRecord_params i v
  | reset =>
    cases h
    exact s.applyReset_params

/-- Settles O16: the idle step changes nothing, and every act of the host keeps the parameters, a reset by building the
reset state from them and a command because its pseudocode stays inside `BodyFrame`. -/
theorem parametersNeverChange : Obligations.ParametersNeverChange := by
  intro s t h
  rcases step_eq_next h with ⟨_, rfl⟩ | ⟨e, rest, _, hevent⟩
  · rfl
  · have hkept := hostEvent_params hevent
    exact hkept

end Sys2Proof.Machine
end

