-- ==== Sys2Proof/Proofs/State.lean ====
section
/-! The general registers, `STATUS` and the model view (spec/10_state.md R20 to R25, R41); what a command leaves alone
however it ends (spec/60_exceptions.md R214 to R216); and the invariant of a run (R28, R29, R32, R35, R37;
spec/41_bit_and_symbol_coding.md R122, R124; spec/20_memory.md R50), kept by every step. -/

namespace Sys2Proof.Machine

/-! ### The general registers (R20, R21) -/

/-- A register read after a write of any register. -/
theorem State.setReg_reg (s : State) (r q : Reg) (v : Word) :
    (s.setReg r v).reg q = if q = r then v else s.reg q := by
  split
  · rename_i h
    rw [h, State.setReg_reg_self]
  · rename_i h
    exact s.setReg_reg_of_ne v h

/-- Settles O33: a register is ordinary, whichever it is, and a write of one changes the register file alone. -/
theorem registerFileHoldsWhatIsWritten : Obligations.RegisterFileHoldsWhatIsWritten := fun s r q v =>
  ⟨s.setReg_reg r q v, rfl⟩

/-! ### The fields of `STATUS` (R24, R25) -/

theorem Mode.code_eq (m : Mode) : m.code = if m = .idle then 0#2 else if m = .enc then 1#2 else 2#2 := by
  cases m <;> rfl

theorem State.statusWord_toNat (s : State) :
    s.statusWord.toNat =
      ((s.fcode.toNat * 2 ^ 4 * 2 + s.overread.toNat) * 2 ^ 2 + s.mode.code.toNat) * 2 + s.fault.toNat := by
  unfold State.statusWord
  simp only [toNat_append_eq, BitVec.toNat_ofBool, BitVec.toNat_ofNat]
  omega

/-- A field of a word, read off the word's value. -/
theorem extractLsb'_eq_of_toNat {n lo w : Nat} {v : BitVec n} {x : BitVec w} (h : v.toNat / 2 ^ lo % 2 ^ w = x.toNat) :
    v.extractLsb' lo w = x :=
  BitVec.eq_of_toNat_eq (by rw [BitVec.extractLsb'_toNat, Nat.shiftRight_eq_div_pow, h])

/-- Settles O12: `STATUS` is the sum of its fields, each at its place and below the next. -/
theorem statusWordLayout : Obligations.StatusWordLayout := by
  intro s
  have hword := s.statusWord_toNat
  have hfault := s.fault.toNat_lt
  have hmode := s.mode.code.isLt
  have hover := s.overread.toNat_lt
  have hcode := s.fcode.isLt
  rw [← Mode.code_eq]
  refine ⟨?_, ?_, ?_, ?_, ?_, ?_⟩ <;> refine extractLsb'_eq_of_toNat ?_
  · rw [BitVec.toNat_ofBool]
    omega
  · omega
  · rw [BitVec.toNat_ofBool]
    omega
  · rw [BitVec.toNat_ofNat]
    omega
  · omega
  · rw [BitVec.toNat_ofNat]
    omega

/-! ### The model view (R41) -/

/-- `CSRR` of an implemented number reads what the observation port shows (R193, R245). -/
theorem exec_csrr {s : State} (hf : s.fault = false) {n : BitVec 8} {c : Csr} (hc : Csr.ofNumber n = some c)
    (ra : Reg) : exec (.csrr ra n) s = .next (s.setReg ra (s.observeCsr n)).counted := by
  have hread : s.observeCsr n = s.csrRead c := by
    unfold State.observeCsr
    rw [hc]
  have hbody : csrrBody ra n s = .ok () (s.setReg ra (s.csrRead c)) := by
    unfold csrrBody
    rw [Cmd.get_bind_run, hc]
    rfl
  rw [hread]
  exact command_of_ok hf hbody

/-- The six registers of the view have numbers. -/
theorem csr_of_viewNumber {n : BitVec 8} (h : n ∈ [0x31#8, 0x32#8, 0x33#8, 0x34#8, 0x35#8, 0x36#8]) :
    ∃ c, Csr.ofNumber n = some c := by
  simp only [List.mem_cons, List.not_mem_nil, or_false] at h
  rcases h with rfl | rfl | rfl | rfl | rfl | rfl <;> exact ⟨_, rfl⟩

/-- The six values of a view, in the order of their CSR numbers. -/
def ModelView.values (v : ModelView) : List Nat :=
  [v.p0.toNat, v.c0.toNat, v.cn.toNat, v.cyc.toNat, v.left.toNat, v.nsym.toNat]

/-- The observation port shows the view at the six numbers. -/
theorem State.observe_view (s : State) :
    [0x31#8, 0x32#8, 0x33#8, 0x34#8, 0x35#8, 0x36#8].map (fun n => (s.observeCsr n).toNat) = s.modelView.values := rfl

theorem ModelView.zero_values : ModelView.zero.values = [0, 0, 0, 0, 0, 0] := rfl

theorem ModelView.ofAbm_values (a : AbmSlot) :
    (ModelView.ofAbm a).values = [a.p0.toNat, a.c0.toNat, a.cn.toNat, a.cyc.toNat, a.left.toNat, 0] := by
  simp [ModelView.values, ModelView.ofAbm, BitVec.toNat_setWidth_of_le, -BitVec.toNat_setWidth]

theorem ModelView.ofAdm_values_of_lt {d : AdmSlot} {k : Nat} (h : k < d.nsym.toNat) :
    (ModelView.ofAdm d k).values =
      [(d.dist.getD k 0#15).toNat, (d.cnt.getD k 0#16).toNat, d.total.toNat, d.cyc.toNat, d.left.toNat,
        d.nsym.toNat] := by
  simp [ModelView.values, ModelView.ofAdm, AdmSlot.distAt, AdmSlot.cntAt, h, BitVec.toNat_setWidth_of_le,
    -BitVec.toNat_setWidth]

theorem ModelView.ofAdm_values_of_le {d : AdmSlot} {k : Nat} (h : d.nsym.toNat ≤ k) :
    (ModelView.ofAdm d k).values = [0, 0, d.total.toNat, d.cyc.toNat, d.left.toNat, d.nsym.toNat] := by
  simp [ModelView.values, ModelView.ofAdm, Nat.not_lt.mpr h, BitVec.toNat_setWidth_of_le, -BitVec.toNat_setWidth]

/-- Which slot `MSEL` selects, its fields read as numbers. -/
theorem State.modelView_eq (s : State) :
    s.modelView =
      if s.msel.toNat / 256 % 2 = 0 then
        if s.msel.toNat % 256 < s.params.nAbm then ModelView.ofAbm (s.abmSlot (s.msel.toNat % 256)) else ModelView.zero
      else if s.msel.toNat % 256 < s.params.nAdm ∧ (s.admSlot (s.msel.toNat % 256)).nsym.toNat ≠ 0 then
        ModelView.ofAdm (s.admSlot (s.msel.toNat % 256)) (s.msel.toNat / 2 ^ 16 % 256)
      else ModelView.zero := by
  have hidx : (s.msel.extractLsb' 0 8).toNat = s.msel.toNat % 256 := by
    rw [BitVec.extractLsb'_toNat, Nat.shiftRight_zero]
  have hk : (s.msel.extractLsb' 16 8).toNat = s.msel.toNat / 2 ^ 16 % 256 := by
    rw [BitVec.extractLsb'_toNat, Nat.shiftRight_eq_div_pow]
  have hbank : s.msel.getLsbD 8 = decide (¬ s.msel.toNat / 256 % 2 = 0) := by
    rw [BitVec.getLsbD, Nat.testBit_eq_decide_div_mod_eq]
    exact decide_eq_decide.mpr (by omega)
  have hsym : ∀ n : BitVec 8, n ≠ 0#8 ↔ n.toNat ≠ 0 := fun n => not_congr BitVec.toNat_eq
  unfold State.modelView
  simp only [hidx, hk, hbank, hsym, decide_eq_true_eq, ite_not]

/-- Settles O36: the observation port shows the view of the slot that `MSEL` selects, and `CSRR` reads it. -/
theorem modelViewShowsTheSlot : Obligations.ModelViewShowsTheSlot := by
  intro s
  constructor
  · intro ra n hf hn
    obtain ⟨c, hc⟩ := csr_of_viewNumber hn
    exact exec_csrr hf hc ra
  · intro idx k view a d
    have hview : view = s.modelView.values := s.observe_view
    rw [State.modelView_eq] at hview
    by_cases hbank : s.msel.toNat / 256 % 2 = 0
    · rw [if_pos hbank] at hview ⊢
      refine ⟨fun hidx => ?_, fun hidx => ?_⟩
      · rw [hview, if_pos hidx, ModelView.ofAbm_values]
      · rw [hview, if_neg (Nat.not_lt.mpr hidx), ModelView.zero_values]
    · rw [if_neg hbank] at hview ⊢
      refine ⟨fun hidx hn hk => ?_, fun hidx hn hk => ?_, fun hout => ?_⟩
      · rw [hview, if_pos ⟨hidx, hn⟩, ModelView.ofAdm_values_of_lt hk]
      · rw [hview, if_pos ⟨hidx, hn⟩, ModelView.ofAdm_values_of_le hk]
      · have hnot : ¬ (idx < s.params.nAdm ∧ d.nsym.toNat ≠ 0) := by
          rintro ⟨hidx, hn⟩
          exact hout.elim (fun h => absurd hidx (Nat.not_lt.mpr h)) hn
        rw [hview, if_neg hnot, ModelView.zero_values]

/-! ### What a command leaves alone, completed or abandoned -/

/-- The nine CSRs marked RW are the same in both states (R35, R36). -/
def SameRwCsrs (s t : State) : Prop :=
  t = { t with
    occm := s.occm, pu0 := s.pu0, pv0 := s.pv0, pszu := s.pszu, pszv := s.pszv, btpw := s.btpw, btph := s.btph
    pidx := s.pidx, msel := s.msel }

/-- The RW CSRs, `MODE` and the general registers are the same in both states: what an abandoned command has not
touched (spec/60_exceptions.md R215). -/
def Untouched (s t : State) : Prop :=
  t = { t with
    x := s.x, mode := s.mode, occm := s.occm, pu0 := s.pu0, pv0 := s.pv0, pszu := s.pszu, pszv := s.pszv
    btpw := s.btpw, btph := s.btph, pidx := s.pidx, msel := s.msel }

theorem SameRwCsrs.frame : Frame SameRwCsrs where
  refl _ := rfl
  trans s t u h k := by
    unfold SameRwCsrs at *
    rw [h] at k
    exact k

theorem Untouched.frame : Frame Untouched where
  refl _ := rfl
  trans s t u h k := by
    unfold Untouched at *
    rw [h] at k
    exact k

theorem Untouched.sameRwCsrs {s t : State} (h : Untouched s t) : SameRwCsrs s t := by
  unfold Untouched at h
  unfold SameRwCsrs
  rw [h]

theorem Untouched.mode_eq {s t : State} (h : Untouched s t) : t.mode = s.mode := by
  unfold Untouched at h
  rw [h]

theorem Untouched.x_eq {s t : State} (h : Untouched s t) : t.x = s.x := by
  unfold Untouched at h
  rw [h]

theorem EncCodes.untouched {s t : State} (h : EncCodes s t) : Untouched s t := by
  unfold EncCodes at h
  rw [h]
  rfl

theorem DecCodes.untouched {s t : State} (h : DecCodes s t) : Untouched s t := by
  unfold DecCodes at h
  rw [h]
  rfl

theorem PatchCodes.untouched {s t : State} (h : PatchCodes s t) : Untouched s t := by
  unfold PatchCodes at h
  rw [h]
  rfl

/-- How a piece of pseudocode may end: completed with the RW CSRs kept, or abandoned with `Untouched` kept. -/
def EndsPrecisely {α : Type} (s : State) (r : EStateM.Result Stop State α) : Prop :=
  match r with
  | .ok _ t => SameRwCsrs s t
  | .error _ t => Untouched s t

theorem EndsPrecisely.of_untouched {α : Type} {s : State} {r : EStateM.Result Stop State α}
    (h : Untouched s (EndState r)) : EndsPrecisely s r := by
  cases r with
  | ok a t => exact Untouched.sameRwCsrs h
  | error e t => exact h

theorem EndsPrecisely.after {α : Type} {s t : State} {r : EStateM.Result Stop State α} (hst : Untouched s t)
    (h : EndsPrecisely t r) : EndsPrecisely s r := by
  cases r with
  | ok a u => exact SameRwCsrs.frame.trans _ _ _ hst.sameRwCsrs h
  | error e u => exact Untouched.frame.trans _ _ _ hst h

/-- From every state the pseudocode ends so. -/
def Cmd.Precise {α : Type} (c : Cmd α) : Prop := ∀ s, EndsPrecisely s (c s)

namespace Cmd.Precise

variable {α β : Type}

theorem of_keeps {c : Cmd α} (h : Cmd.Keeps Untouched c) : Cmd.Precise c := fun s => .of_untouched (h s)

/-- Only the last part of a sequence may leave `Untouched`. -/
theorem bind {x : Cmd α} {f : α → Cmd β} (hx : Cmd.Keeps Untouched x) (hf : ∀ a, Cmd.Precise (f a)) :
    Cmd.Precise (x >>= f) := fun s => by
  have hxs := hx s
  cases hr : x s with
  | ok a t =>
    rw [hr] at hxs
    rw [Cmd.bind_of_ok hr]
    exact (hf a t).after hxs
  | error e t =>
    rw [hr] at hxs
    rw [Cmd.bind_of_error hr]
    exact hxs

/-- A change of the state that raises nothing. -/
theorem update {g : State → State} (hg : ∀ s, SameRwCsrs s (g s)) : Cmd.Precise (modify g : Cmd PUnit) := hg

end Cmd.Precise

/-- `CSRW` is abandoned only before it writes (R36, R194). -/
theorem csrwBody_of_error {ra : Reg} {f : BitVec 8} {s t : State} {e : Stop} (h : csrwBody ra f s = .error e t) :
    t = s := by
  unfold csrwBody at h
  rw [Cmd.get_bind_run] at h
  cases hw : s.csrWriteNumber f (s.reg ra) <;> rw [hw] at h <;> cases h
  rfl

/-- A command's pseudocode touches registers and `MODE` last, where it raises no more, and only `CSRW` touches the RW
CSRs. -/
theorem bodyOf_precise (i : Instr) (hi : ∀ ra f, i ≠ .csrw ra f) : Cmd.Precise (bodyOf i) := by
  have h := Untouched.frame
  have enc {α : Type} {c : Cmd α} (hc : Cmd.Keeps EncCodes c) : Cmd.Keeps Untouched c :=
    hc.mono fun _ _ => EncCodes.untouched
  have dec {α : Type} {c : Cmd α} (hc : Cmd.Keeps DecCodes c) : Cmd.Keeps Untouched c :=
    hc.mono fun _ _ => DecCodes.untouched
  have encM {α : Type} {c : Cmd α} (hc : Cmd.Keeps EncMoves c) : Cmd.Keeps Untouched c :=
    enc (hc.mono fun _ _ => EncMoves.codes)
  have decM {α : Type} {c : Cmd α} (hc : Cmd.Keeps DecMoves c) : Cmd.Keeps Untouched c :=
    dec (hc.mono fun _ _ => DecMoves.codes)
  have window (base len : Word) : Cmd.Keeps Untouched (modify (fun t => t.openWindow base len) : Cmd Unit) :=
    Frame.update fun _ => rfl
  have reg (r : Reg) (v : Word) : Cmd.Precise (writeReg r v) := Cmd.Precise.update fun _ => rfl
  have mode (m : Mode) : Cmd.Precise (setMode m) := Cmd.Precise.update fun _ => rfl
  cases i with
  | nop => exact .of_keeps (h.pure ())
  | li ra imm => exact reg _ _
  | lih ra imm => exact .bind (readReg_keeps h _) fun _ => reg _ _
  | csrr ra f =>
    refine .bind h.get fun s => ?_
    cases Csr.ofNumber f with
    | some c => exact reg _ _
    | none => exact .of_keeps (h.raise _ _)
  | csrw ra f => exact absurd rfl (hi ra f)
  | ldcb ra rb =>
    exact .bind h.get fun _ => .bind (h.check _ _ _) fun _ => .bind (memRead_keeps h _) fun _ => reg _ _
  | stcb ra rb =>
    exact .of_keeps (h.bind h.get fun _ => h.bind (h.check _ _ _) fun _ => encM (memWrite_encMoves _ _))
  | ldbm ra rb =>
    exact .bind h.get fun _ => .bind (h.check _ _ _) fun _ => .bind (mapRead_keeps h _) fun _ => reg _ _
  | stbm ra rb =>
    refine .of_keeps (h.bind h.get fun _ => h.bind (h.check _ _ _) fun _ s => ?_)
    rw [mapWrite_run]
    split <;> rfl
  | encStart ra rb =>
    exact .bind (needMode_keeps h _) fun _ => .bind h.get fun _ => .bind (needWindow_keeps h _ _) fun _ =>
      .bind (window _ _) fun _ => mode _
  | encStop ra =>
    refine .bind (needMode_keeps h _) fun _ => .bind (encM terminate_encMoves) fun _ =>
      .bind (encM renormEnc_encMoves) fun _ => .bind h.get fun s => ?_
    show Cmd.Precise (modify (fun t => { t.setReg ra s.ptr with mode := .idle }))
    exact Cmd.Precise.update fun _ => rfl
  | decStart ra rb =>
    exact .bind (needMode_keeps h _) fun _ => .bind h.get fun _ => .bind (needWindow_keeps h _ _) fun _ =>
      .bind (window _ _) fun _ => .bind (h.forUp (fun _ => decM loadByte_decMoves) _ _) fun _ => mode _
  | decStop => exact .bind (needMode_keeps h _) fun _ => mode _
  | abmReset m => exact .of_keeps (h.bind (needAbm_keeps h _) fun _ => Frame.update fun _ => rfl)
  | admInit m f =>
    exact .of_keeps (h.bind (needAdm_keeps h _) fun _ => h.bind (needAlphabet_keeps h _) fun _ =>
      Frame.update fun _ => rfl)
  | admReset m => exact .of_keeps (h.bind (needAdmInit_keeps h _) fun _ => Frame.update fun _ => rfl)
  | allReset => exact .of_keeps (Frame.update fun _ => rfl)
  | encBitA ra m =>
    exact .of_keeps (h.bind (needMode_keeps h _) fun _ => h.bind (needAbm_keeps h _) fun _ =>
      h.bind (needBit_keeps h _) fun _ => h.bind h.get fun _ => enc (encBitA_encCodes _ _))
  | encBitS ra =>
    exact .of_keeps (h.bind (needMode_keeps h _) fun _ => h.bind (needBit_keeps h _) fun _ => h.bind h.get fun _ =>
      encM (encBit_encMoves _ _))
  | decBitA ra m =>
    exact .bind (needMode_keeps h _) fun _ => .bind (needAbm_keeps h _) fun _ =>
      .bind (dec (decBitA_decCodes _)) fun _ => reg _ _
  | decBitS ra => exact .bind (needMode_keeps h _) fun _ => .bind (decM (decBit_decMoves _)) fun _ => reg _ _
  | encSym ra m =>
    exact .of_keeps (h.bind (needMode_keeps h _) fun _ => h.bind (needAdmInit_keeps h _) fun _ =>
      h.bind (needSymbol_keeps h _ _) fun _ => h.bind h.get fun _ => enc (encSym_encCodes _ _))
  | decSym ra m =>
    exact .bind (needMode_keeps h _) fun _ => .bind (needAdmInit_keeps h _) fun _ =>
      .bind (dec (decSym_decCodes _)) fun _ => reg _ _
  | encUint ra f =>
    exact .of_keeps (h.bind (needCount_keeps h _) fun _ => h.bind (needMode_keeps h _) fun _ =>
      h.bind (needFits_keeps h _ _) fun _ => h.bind h.get fun _ => encM (encBitsUp_encMoves _ _ _))
  | decUint ra f =>
    exact .bind (needCount_keeps h _) fun _ => .bind (needMode_keeps h _) fun _ =>
      .bind (decM (decBitsUp_decMoves _ _ _)) fun _ => reg _ _
  | zzenc ra rb => exact .bind (readReg_keeps h _) fun _ => reg _ _
  | zzdec ra rb => exact .bind (readReg_keeps h _) fun _ => reg _ _
  | encEg0 ra m =>
    exact .of_keeps (h.bind (needMode_keeps h _) fun _ => h.bind (needAbm_keeps h _) fun _ => h.bind h.get fun _ =>
      enc (encEg0_encCodes _ _))
  | decEg0 ra m =>
    exact .bind (needMode_keeps h _) fun _ => .bind (needAbm_keeps h _) fun _ =>
      .bind (dec (decEg0_decCodes _)) fun _ => reg _ _
  | encSdelta ra m =>
    exact .of_keeps (h.bind (needMode_keeps h _) fun _ => h.bind (needAbm_keeps h _) fun _ => h.bind h.get fun _ =>
      enc (encEg0_encCodes _ _))
  | decSdelta ra m =>
    exact .bind (needMode_keeps h _) fun _ => .bind (needAbm_keeps h _) fun _ =>
      .bind (dec (decEg0_decCodes _)) fun _ => reg _ _
  | occEncBlk ra =>
    exact .of_keeps (h.bind (needMode_keeps h _) fun _ => h.bind (occModels_keeps h) fun _ =>
      h.bind (readReg_keeps h _) fun _ => enc (occEncBlock_encCodes _ _ _))
  | occDecBlk ra =>
    exact .bind (needMode_keeps h _) fun _ => .bind (occModels_keeps h) fun _ =>
      .bind (dec (occDecBlock_decCodes _ _)) fun _ => reg _ _
  | occEncPatch =>
    exact .of_keeps (h.bind (needMode_keeps h _) fun _ => h.bind (occModels_keeps h) fun _ =>
      h.bind (patchCheck_keeps h) fun _ => enc (scanPatch_keeps EncCodes.frame (encPatchBlock_encCodes _)))
  | occDecPatch =>
    exact .of_keeps (h.bind (needMode_keeps h _) fun _ => h.bind (occModels_keeps h) fun _ =>
      h.bind (patchCheck_keeps h) fun _ =>
        (scanPatch_keeps PatchCodes.frame (decPatchBlock_patchCodes _)).mono fun _ _ => PatchCodes.untouched)

/-- An abandoned command has touched neither a register nor `MODE` (R215). -/
theorem bodyOf_untouched_of_error {i : Instr} {s t : State} {e : Stop} (h : bodyOf i s = .error e t) :
    Untouched s t := by
  by_cases hi : ∀ ra f, i ≠ .csrw ra f
  · have hs := bodyOf_precise i hi s
    rw [h] at hs
    exact hs
  · simp only [ne_eq, not_forall, not_not] at hi
    obtain ⟨ra, f, rfl⟩ := hi
    rw [csrwBody_of_error h]
    exact Untouched.frame.refl s

theorem bodyOf_sameRwCsrs {i : Instr} (hi : ∀ ra f, i ≠ .csrw ra f) {s t : State} (h : bodyOf i s = .ok () t) :
    SameRwCsrs s t := by
  have hs := bodyOf_precise i hi s
  rw [h] at hs
  exact hs

/-! ### The three outcomes of a command -/

/-- A command that answers a next state was refused, or its pseudocode was completed and counted, or it was abandoned
and its fault recorded; the pseudocode itself stayed inside `BodyFrame`. -/
theorem exec_outcome {i : Instr} {s u : State} (h : exec i s = .next u) :
    (s.fault = true ∧ u = s.refuse) ∨
      (s.fault = false ∧ ∃ t, bodyOf i s = .ok () t ∧ BodyFrame s t ∧ u = t.complete) ∨
      (s.fault = false ∧ ∃ f info t, bodyOf i s = .error (.raise f info) t ∧ BodyFrame s t ∧
        u = t.faultEntry f info (encode i)) := by
  rw [exec_eq_command] at h
  have hframe := bodyOf_bodyFrame i s
  rcases command_eq_next h with hrefused | ⟨hf, t, ht, hu⟩ | ⟨hf, f, info, t, ht, hu⟩
  · exact .inl hrefused
  · rw [ht] at hframe
    exact .inr (.inl ⟨hf, t, ht, hframe, hu⟩)
  · rw [ht] at hframe
    exact .inr (.inr ⟨hf, f, info, t, ht, hframe, hu⟩)

theorem BodyFrame.cmdcnt_eq {s t : State} (h : BodyFrame s t) : t.cmdcnt = s.cmdcnt := by
  unfold BodyFrame at h
  rw [h]

/-- No pseudocode touches the fault record. -/
theorem BodyFrame.faultRecord_eq {s t : State} (h : BodyFrame s t) :
    t.fault = s.fault ∧ t.fcode = s.fcode ∧ t.fcmd = s.fcmd ∧ t.finfo = s.finfo ∧ t.fseq = s.fseq := by
  unfold BodyFrame at h
  rw [h]
  exact ⟨rfl, rfl, rfl, rfl, rfl⟩

/-- Nor the model's own fields beside the response. -/
theorem BodyFrame.host_eq {s t : State} (h : BodyFrame s t) : t.port = s.port ∧ t.memEpoch = s.memEpoch := by
  unfold BodyFrame at h
  rw [h]
  exact ⟨rfl, rfl⟩

/-- Settles O21: the three outcomes of a command, with what its pseudocode leaves to the common frame and what an
abandoned one has not touched. -/
theorem commandsDoneFaultedOrRefused : Obligations.CommandsDoneFaultedOrRefused := by
  intro i s u h
  rcases exec_outcome h with ⟨hf, rfl⟩ | ⟨hf, t, _, hframe, rfl⟩ | ⟨hf, f, info, t, ht, hframe, rfl⟩
  · exact ⟨fun _ => rfl, fun hf' => Bool.noConfusion (hf.symm.trans hf')⟩
  · obtain ⟨hfault, hcode, hcmd, hinfo, hseq⟩ := hframe.faultRecord_eq
    refine ⟨fun hf' => Bool.noConfusion (hf.symm.trans hf'), fun _ => .inl ⟨hfault.trans hf, rfl, ?_, hcode, hcmd,
      hinfo, hseq⟩⟩
    rw [State.complete_cmdcnt, hframe.cmdcnt_eq]
  · have hkept := bodyOf_untouched_of_error ht
    exact ⟨fun hf' => Bool.noConfusion (hf.symm.trans hf'), fun _ => .inr ⟨rfl, rfl, hframe.cmdcnt_eq, f.code_range,
      rfl, hframe.cmdcnt_eq, hkept.mode_eq, hkept.x_eq⟩⟩

theorem SameRwCsrs.each_eq {s t : State} (h : SameRwCsrs s t) :
    t.occm = s.occm ∧ t.pu0 = s.pu0 ∧ t.pv0 = s.pv0 ∧ t.pszu = s.pszu ∧ t.pszv = s.pszv ∧ t.btpw = s.btpw ∧
      t.btph = s.btph ∧ t.pidx = s.pidx ∧ t.msel = s.msel := by
  unfold SameRwCsrs at h
  rw [h]
  exact ⟨rfl, rfl, rfl, rfl, rfl, rfl, rfl, rfl, rfl⟩

/-- Settles O23: the pseudocode of every other command keeps the RW CSRs, and the common frame touches none. -/
theorem onlyCsrwWritesTheRwCsrs : Obligations.OnlyCsrwWritesTheRwCsrs := by
  intro i s u h
  rcases exec_outcome h with ⟨_, rfl⟩ | ⟨_, t, ht, hframe, rfl⟩ | ⟨_, f, info, t, ht, hframe, rfl⟩
  · exact ⟨fun _ => (SameRwCsrs.frame.refl s).each_eq, rfl, rfl, rfl⟩
  · exact ⟨fun hi => (bodyOf_sameRwCsrs hi ht).each_eq, hframe.params_eq, hframe.host_eq⟩
  · exact ⟨fun _ => (bodyOf_untouched_of_error ht).sameRwCsrs.each_eq, hframe.params_eq, hframe.host_eq⟩

/-! ### The cycle of an update -/

/-- A cycle grown by a quarter up to its limit is no shorter than before and not above the limit (R118, R123). -/
theorem grownCycle_range {w c least most : Nat} (hleast : least ≤ c) (hc : c ≤ most) (hw : most < 2 ^ w) :
    least ≤ (BitVec.ofNat w (if (5 * c) >>> 2 > most then most else (5 * c) >>> 2)).toNat ∧
      (BitVec.ofNat w (if (5 * c) >>> 2 > most then most else (5 * c) >>> 2)).toNat ≤ most := by
  have hquarter : (5 * c) >>> 2 = 5 * c / 4 := Nat.shiftRight_eq_div_pow _ 2
  rw [BitVec.toNat_ofNat, hquarter]
  split
  · rw [Nat.mod_eq_of_lt hw]
    omega
  · rw [Nat.mod_eq_of_lt (by omega)]
    omega

/-! ### The ranges of the bit models (R29, R122) -/

theorem AbmSlot.fresh_ok : AbmSlot.fresh.ok := by decide

/-- In its ranges a slot counts a bit without a wrap, and `c0` stays below the count of all bits. -/
theorem AbmSlot.ok.counted_c0 {a : AbmSlot} (h : a.ok) (bit : Bool) :
    (if bit then a.c0 else a.c0 + 1#14).toNat = a.c0.toNat + (if bit then 0 else 1) := by
  obtain ⟨_, _, ⟨_, hcn⟩, ⟨_, hcyc⟩, _, hsum⟩ := h
  unfold bmMax at hcn
  cases bit
  · simp only [Bool.false_eq_true, if_false, BitVec.toNat_add, BitVec.toNat_ofNat]
    omega
  · rfl

/-- The halving of R118 leaves a count of 0 bits, at least 1, below a count of all bits that is at most 8192. -/
theorem abmHalve_range {c0 cn : Nat} (hc : 1 ≤ c0) (hlt : c0 < cn) (hcn : cn ≤ bmMax + 64) :
    1 ≤ (abmHalve c0 cn).1 ∧ (abmHalve c0 cn).1 < (abmHalve c0 cn).2 ∧ (abmHalve c0 cn).2 ≤ bmMax := by
  have hcases := abmHalve_cases c0 cn
  unfold bmMax at *
  rcases hcases with ⟨hle, h⟩ | ⟨_, _, h⟩ | ⟨_, hne, h⟩
  · rw [h]
    exact ⟨hc, hlt, hle⟩
  · rw [h]
    exact ⟨by omega, by omega, by omega⟩
  · rw [h]
    exact ⟨by omega, by omega, by omega⟩

/-- The new probability of R118 is neither 0 nor 2^13. -/
theorem abmProbability_range {c n : Nat} (hc : 1 ≤ c) (hlt : c < n) (hn : n ≤ bmMax) :
    1 ≤ (c * (0x80000000 / n)) >>> 18 ∧ (c * (0x80000000 / n)) >>> 18 < 2 ^ 13 := by
  unfold bmMax at hn
  have hscale : 2 ^ 18 ≤ 0x80000000 / n := (Nat.le_div_iff_mul_le (by omega)).mpr (by omega)
  have hlow : 1 * 2 ^ 18 ≤ c * (0x80000000 / n) := Nat.mul_le_mul hc hscale
  have hhigh : c * (0x80000000 / n) < n * (0x80000000 / n) := Nat.mul_lt_mul_of_pos_right hlt (by omega)
  have hwhole : n * (0x80000000 / n) ≤ 0x80000000 := Nat.mul_div_le _ _
  rw [Nat.shiftRight_eq_div_pow]
  omega

/-- An update at the end of a cycle gives a slot in its ranges (R118, R122). -/
theorem AbmSlot.update_ok {a : AbmSlot} (hc : 1 ≤ a.c0.toNat) (hlt : a.c0.toNat < a.cn.toNat + a.cyc.toNat)
    (hcn : a.cn.toNat ≤ bmMax) (hcyc : 4 ≤ a.cyc.toNat ∧ a.cyc.toNat ≤ 64) : a.update.ok := by
  obtain ⟨h1, h2, h3⟩ := abmHalve_range hc hlt (by omega)
  obtain ⟨hp1, hp2⟩ := abmProbability_range h1 h2 h3
  unfold bmMax at h3
  have hcyc' : 4 ≤ a.update.cyc.toNat ∧ a.update.cyc.toNat ≤ 64 :=
    grownCycle_range hcyc.1 hcyc.2 (by decide)
  have hleft : a.update.left = a.update.cyc := rfl
  have hp0 : a.update.p0.toNat = _ := BitVec.toNat_ofNat _ _
  have hc0 : a.update.c0.toNat = _ := BitVec.toNat_ofNat _ _
  have hcn' : a.update.cn.toNat = _ := BitVec.toNat_ofNat _ _
  rw [Nat.mod_eq_of_lt hp2] at hp0
  rw [Nat.mod_eq_of_lt (by omega)] at hc0
  rw [Nat.mod_eq_of_lt (by omega)] at hcn'
  unfold AbmSlot.ok bmMax
  rw [hleft, hp0, hc0, hcn']
  exact ⟨hp1, h1, ⟨by omega, h3⟩, hcyc', ⟨by omega, Nat.le_refl _⟩, by omega⟩

/-- Counting a bit keeps a slot in its ranges (R118, R122). -/
theorem AbmSlot.ok.count {a : AbmSlot} (h : a.ok) (bit : Bool) : (a.count bit).ok := by
  have hc0 := h.counted_c0 bit
  obtain ⟨hp, hc, ⟨hcn2, hcn⟩, hcyc, ⟨hl1, hl⟩, hsum⟩ := h
  have hbit : (if bit then 0 else 1) ≤ 1 := by cases bit <;> decide
  have hleft : (a.left - 1#7).toNat = a.left.toNat - 1 := BitVec.toNat_sub_of_le hl1
  by_cases hlast : a.left - 1#7 = 0#7
  · have hone : a.left.toNat - 1 = 0 := by rw [← hleft, hlast]; rfl
    rw [AbmSlot.count_of_left_eq hlast]
    refine AbmSlot.update_ok ?_ ?_ hcn hcyc <;> simp only [hc0] <;> omega
  · have hne : a.left.toNat - 1 ≠ 0 := fun e => hlast (BitVec.eq_of_toNat_eq (hleft.trans e))
    rw [AbmSlot.count_of_left_ne hlast]
    unfold AbmSlot.ok
    simp only [hc0, hleft]
    exact ⟨hp, by omega, ⟨hcn2, hcn⟩, hcyc, ⟨by omega, by omega⟩, by omega⟩

/-! ### The ranges of the data models (R32, R124) -/

/-- Every count of an alphabet is at least 1, so their sum is at least the alphabet's size. -/
theorem length_le_cntSum {cnt : List (BitVec 16)} (h : ∀ n ∈ cnt.map BitVec.toNat, 1 ≤ n) :
    cnt.length ≤ cntSum cnt := by
  simpa [cntSum] using List.card_nsmul_le_sum (cnt.map BitVec.toNat) 1 h

/-- A longer part of the counts has a larger sum. -/
theorem cntSum_take_lt {cnt : List (BitVec 16)} (h : ∀ n ∈ cnt.map BitVec.toNat, 1 ≤ n) {i j : Nat} (hij : i < j)
    (hj : j ≤ cnt.length) : cntSum (cnt.take i) < cntSum (cnt.take j) := by
  have hsplit : cnt.take j = cnt.take i ++ (cnt.take j).drop i := by
    conv_lhs => rw [← List.take_append_drop i (cnt.take j), List.take_take, Nat.min_eq_left (Nat.le_of_lt hij)]
  have hrest := length_le_cntSum (cnt := (cnt.take j).drop i) fun n hn => h n
    (List.map_subset _ (fun _ hc => List.take_subset _ _ (List.drop_subset _ _ hc)) hn)
  rw [List.length_drop, List.length_take, Nat.min_eq_left hj] at hrest
  rw [hsplit]
  unfold cntSum at *
  rw [List.map_append, List.sum_append]
  omega

/-- The distribution of R123 starts at 0 and rises strictly, as no count is 0 and the total is at most 32768. -/
theorem admDist_rises {cnt : List (BitVec 16)} (h : ∀ n ∈ cnt.map BitVec.toNat, 1 ≤ n) (hmax : cntSum cnt ≤ dmMax) :
    (admDist (0x80000000 / cntSum cnt) cnt 0).getD 0 0#15 = 0#15 ∧
      (admDist (0x80000000 / cntSum cnt) cnt 0).Pairwise (fun p q => p < q) := by
  unfold dmMax at hmax
  generalize hscale : 0x80000000 / cntSum cnt = scale
  have hwhole : cntSum cnt * scale ≤ 0x80000000 := hscale ▸ Nat.mul_div_le _ _
  have hentry : ∀ k, (hk : k < cnt.length) → ∀ hk',
      ((admDist scale cnt 0)[k]'hk').toNat = scale * cntSum (cnt.take k) / 2 ^ 16 := fun k hk hk' => by
    have hget := admDist_getElem? scale cnt 0 k hk
    rw [List.getElem?_eq_getElem hk', Option.some_inj] at hget
    have hlt := cntSum_take_lt h hk (Nat.le_refl _)
    rw [List.take_length] at hlt
    have hpart : scale * cntSum (cnt.take k) < 0x80000000 := by
      rcases Nat.eq_zero_or_pos scale with hz | hz
      · simp [hz]
      · exact Nat.lt_of_lt_of_le (Nat.mul_lt_mul_of_pos_left hlt hz) (Nat.mul_comm _ _ ▸ hwhole)
    rw [hget, BitVec.toNat_ofNat, Nat.shiftRight_eq_div_pow, Nat.zero_add]
    omega
  constructor
  · cases cnt with
    | nil => rfl
    | cons c rest => simp [admDist]
  · refine List.pairwise_iff_getElem.mpr fun i j hi hj hij => ?_
    rw [admDist_length] at hi hj
    have hpos : 2 ^ 16 ≤ scale := by
      have hsum := length_le_cntSum h
      rw [← hscale]
      exact (Nat.le_div_iff_mul_le (by omega)).mpr (by omega)
    have hstep : scale * (cntSum (cnt.take i) + 1) ≤ scale * cntSum (cnt.take j) :=
      Nat.mul_le_mul_left _ (cntSum_take_lt h hij (Nat.le_of_lt hj))
    rw [BitVec.lt_def, hentry i hi, hentry j hj]
    rw [Nat.mul_add] at hstep
    omega

/-- Halving counts keeps each at least 1, and their sum at most half of it and of their number. -/
theorem halved_range {cnt : List (BitVec 16)} (h : ∀ n ∈ cnt.map BitVec.toNat, 1 ≤ n) :
    (∀ n ∈ (cnt.map (fun c => BitVec.ofNat 16 ((c.toNat + 1) / 2))).map BitVec.toNat, 1 ≤ n) ∧
      2 * cntSum (cnt.map (fun c => BitVec.ofNat 16 ((c.toNat + 1) / 2))) ≤ cntSum cnt + cnt.length := by
  induction cnt with
  | nil => exact ⟨fun n hn => absurd hn List.not_mem_nil, Nat.le_refl _⟩
  | cons c rest ih =>
    obtain ⟨hc, hrest⟩ := List.forall_mem_cons.mp h
    obtain ⟨ih1, ih2⟩ := ih hrest
    have hlt := c.isLt
    have hhalf : (BitVec.ofNat 16 ((c.toNat + 1) / 2)).toNat = (c.toNat + 1) / 2 := by
      rw [BitVec.toNat_ofNat]
      omega
    refine ⟨List.forall_mem_cons.mpr ⟨?_, ih1⟩, ?_⟩
    · rw [hhalf]
      omega
    · unfold cntSum at *
      simp only [List.map_cons, List.sum_cons, List.length_cons, hhalf]
      omega

/-- The halving of R123 leaves counts of at least 1 whose sum is the new total, at most 32768. -/
theorem admHalve_range {cnt : List (BitVec 16)} (h : ∀ n ∈ cnt.map BitVec.toNat, 1 ≤ n)
    (hmax : cntSum cnt + cnt.length ≤ 2 * dmMax) :
    (∀ n ∈ (admHalve cnt (cntSum cnt)).1.map BitVec.toNat, 1 ≤ n) ∧
      (admHalve cnt (cntSum cnt)).2 = cntSum (admHalve cnt (cntSum cnt)).1 ∧
      (admHalve cnt (cntSum cnt)).2 ≤ dmMax := by
  rcases admHalve_cases cnt (cntSum cnt) with ⟨hle, heq⟩ | ⟨_, heq⟩ <;> rw [heq]
  · exact ⟨h, rfl, hle⟩
  · obtain ⟨h1, h2⟩ := halved_range h
    exact ⟨h1, rfl, by omega⟩

/-- An update on counts that add up gives counts of at least 1, their sum as the total, and a rising distribution
(R123, R124). -/
theorem AdmSlot.update_counts {d : AdmSlot} (hlen : d.cnt.length = d.nsym.toNat)
    (hpos : ∀ n ∈ d.cnt.map BitVec.toNat, 1 ≤ n) (hsum : cntSum d.cnt = d.total.toNat + d.cyc.toNat)
    (hmax : cntSum d.cnt + d.cnt.length ≤ 2 * dmMax) :
    (d.update.dist.length = d.nsym.toNat ∧ d.update.cnt.length = d.nsym.toNat) ∧
      (d.update.dist.getD 0 0#15 = 0#15 ∧ d.update.dist.Pairwise (fun p q => p < q)) ∧
      (∀ n ∈ d.update.cnt.map BitVec.toNat, 1 ≤ n) ∧ (d.nsym.toNat ≤ d.update.total.toNat ∧
      d.update.total.toNat ≤ dmMax) ∧ cntSum d.update.cnt = d.update.total.toNat := by
  obtain ⟨h1, h2, h3⟩ := admHalve_range hpos hmax
  have hcnt : d.update.cnt = (admHalve d.cnt (cntSum d.cnt)).1 := by rw [hsum]; rfl
  have hdist : d.update.dist = admDist (0x80000000 / cntSum d.update.cnt) d.update.cnt 0 := by
    rw [hcnt, ← h2, hsum]
    rfl
  have htotal : d.update.total.toNat = cntSum d.update.cnt := by
    rw [hcnt, ← h2, hsum]
    refine (BitVec.toNat_ofNat _ _).trans (Nat.mod_eq_of_lt ?_)
    rw [← hsum]
    unfold dmMax at h3
    omega
  have hlen' : d.update.cnt.length = d.nsym.toNat := by rw [hcnt, admHalve_length, hlen]
  rw [← hcnt] at h1 h2
  rw [h2] at h3
  rw [htotal, hdist]
  exact ⟨⟨by rw [admDist_length, hlen'], hlen'⟩, admDist_rises h1 h3, h1, ⟨hlen' ▸ length_le_cntSum h1, h3⟩, rfl⟩

/-- The initial state of an alphabet of 2 to `MAXSYM` symbols is in the ranges (R98, R124). -/
theorem AdmSlot.reset_okInit {maxSym : Nat} {d : AdmSlot} (hmax : maxSym ≤ 255) (h2 : 2 ≤ d.nsym.toNat)
    (hn : d.nsym.toNat ≤ maxSym) : d.reset.okInit maxSym := by
  have hsize : d.nsym.toNat ≤ 255 := hn.trans hmax
  have hcyc : (BitVec.ofNat 12 d.nsym.toNat).toNat = d.nsym.toNat := by
    rw [BitVec.toNat_ofNat]
    omega
  have hones : cntSum (List.replicate d.nsym.toNat 1#16) = d.nsym.toNat := by simp [cntSum]
  obtain ⟨hlen, hdist, hpos, htotal, hsum⟩ := AdmSlot.update_counts
    (d := { nsym := d.nsym, dist := [], cnt := List.replicate d.nsym.toNat 1#16, total := 0#16,
            cyc := BitVec.ofNat 12 d.nsym.toNat, left := 0#12 })
    (by simp) (by simp) (by rw [hones, hcyc]; simp) (by rw [hones]; unfold dmMax; simp; omega)
  have hnew : d.reset.cyc.toNat = (d.nsym.toNat + 6) / 2 := by
    refine (BitVec.toNat_ofNat _ _).trans ?_
    rw [Nat.shiftRight_eq_div_pow]
    omega
  have hleft : d.reset.left = d.reset.cyc := rfl
  unfold AdmSlot.okInit
  rw [AdmSlot.reset_nsym, hleft, hnew]
  refine ⟨⟨h2, hn⟩, hlen, hdist, hpos, htotal, ⟨Nat.le_refl _, by omega⟩, ⟨by omega, Nat.le_refl _⟩, ?_⟩
  exact congrArg (· + (d.nsym.toNat + 6) / 2) hsum

/-- Counting a symbol of the alphabet wraps no count and adds 1 to their sum. -/
theorem AdmSlot.okInit.counted_cnt {maxSym : Nat} {d : AdmSlot} (hmax : maxSym ≤ 255) (h : d.okInit maxSym) {k : Nat}
    (hk : k < d.nsym.toNat) :
    (∀ n ∈ (d.cnt.set k (d.cnt.getD k 0#16 + 1#16)).map BitVec.toNat, 1 ≤ n) ∧
      cntSum (d.cnt.set k (d.cnt.getD k 0#16 + 1#16)) = cntSum d.cnt + 1 := by
  obtain ⟨hn, ⟨_, hlen⟩, _, hpos, ⟨_, htotal⟩, ⟨_, hcyc⟩, _, hsum⟩ := h
  have hsize : d.nsym.toNat ≤ 255 := hn.2.trans hmax
  unfold dmMax at htotal
  have hk' : k < d.cnt.length := hlen ▸ hk
  have hle : (d.cnt.getD k 0#16).toNat ≤ cntSum d.cnt := by
    rw [List.getD_eq_getElem _ _ hk']
    exact le_cntSum (List.getElem_mem hk')
  have hone : (1#16).toNat = 1 := rfl
  refine ⟨fun n hn => ?_, cntSum_set hk' (by omega)⟩
  obtain ⟨c, hc, rfl⟩ := List.mem_map.mp hn
  rcases List.mem_or_eq_of_mem_set hc with hc | rfl
  · exact hpos _ (List.mem_map_of_mem hc)
  · rw [BitVec.toNat_add, hone]
    omega

/-- Counting a symbol of the alphabet keeps a slot in its ranges (R123, R124). -/
theorem AdmSlot.okInit.count {maxSym : Nat} {d : AdmSlot} (hmax : maxSym ≤ 255) (h : d.okInit maxSym) {k : Nat}
    (hk : k < d.nsym.toNat) : (d.count k).okInit maxSym := by
  obtain ⟨hpos', hsum'⟩ := h.counted_cnt hmax hk
  obtain ⟨hn, ⟨hdlen, hlen⟩, hdist, hpos, htotal, hcyc, ⟨hl1, hl⟩, hsum⟩ := h
  have halphabet : d.nsym.toNat ≤ 255 := hn.2.trans hmax
  have hlen' : (d.cnt.set k (d.cnt.getD k 0#16 + 1#16)).length = d.nsym.toNat := by rw [List.length_set, hlen]
  have hleft : (d.left - 1#12).toNat = d.left.toNat - 1 := BitVec.toNat_sub_of_le hl1
  by_cases hlast : d.left - 1#12 = 0#12
  · have hone : d.left.toNat - 1 = 0 := by rw [← hleft, hlast]; rfl
    rw [AdmSlot.count_of_left_eq hlast]
    generalize hcounted :
      ({ d with cnt := d.cnt.set k (d.cnt.getD k 0#16 + 1#16), left := d.left - 1#12 } : AdmSlot) = e
    have hen : e.nsym = d.nsym := by rw [← hcounted]
    have hec : e.cyc = d.cyc := by rw [← hcounted]
    have hecnt : e.cnt = d.cnt.set k (d.cnt.getD k 0#16 + 1#16) := by rw [← hcounted]
    have het : e.total = d.total := by rw [← hcounted]
    have hsize : cntSum e.cnt + e.cnt.length ≤ 2 * dmMax := by
      rw [hecnt, hlen', hsum']
      unfold dmMax at *
      omega
    obtain ⟨ulen, udist, upos, utotal, usum⟩ := AdmSlot.update_counts (d := e) (by rw [hecnt, hlen', hen])
      (hecnt ▸ hpos') (by rw [hecnt, hsum', het, hec]; omega) hsize
    have hnew : (d.nsym.toNat + 6) / 2 ≤ e.update.cyc.toNat ∧ e.update.cyc.toNat ≤ (d.nsym.toNat + 6) * 8 := by
      have hmost : (d.nsym.toNat + 6) <<< 3 = (d.nsym.toNat + 6) * 8 := Nat.shiftLeft_eq _ 3
      have hrange := grownCycle_range (w := 12) hcyc.1 hcyc.2 (by omega)
      rw [← hmost, ← hen, ← hec] at hrange
      rw [← hmost, ← hen]
      exact hrange
    have huleft : e.update.left = e.update.cyc := rfl
    unfold AdmSlot.okInit
    rw [AdmSlot.update_nsym, huleft, usum, hen]
    rw [hen] at ulen utotal
    exact ⟨hn, ulen, udist, upos, utotal, hnew, ⟨by omega, Nat.le_refl _⟩, rfl⟩
  · have hne : d.left.toNat - 1 ≠ 0 := fun e => hlast (BitVec.eq_of_toNat_eq (hleft.trans e))
    rw [AdmSlot.count_of_left_ne hlast]
    unfold AdmSlot.okInit
    simp only [hleft, hsum']
    exact ⟨hn, ⟨hdlen, hlen'⟩, hdist, hpos', htotal, hcyc, ⟨by omega, by omega⟩, by omega⟩

/-! ### The part of the invariant that holds wherever a command ends -/

/-- The parts of `State.Inv` that an abandoned command keeps too: the banks, the memories and the CSRs
(spec/60_exceptions.md R215). -/
def State.Stored (s : State) : Prop := s.params.legal ∧ s.banksOk ∧ s.memoriesOk ∧ s.csrsOk

/-- What a completed command keeps. -/
def State.Sound (s : State) : Prop := s.Stored ∧ s.sessionOk

theorem State.inv_iff (s : State) :
    s.Inv ↔ s.Stored ∧ s.faultRecordOk ∧ (s.fault = false → s.sessionOk) := by
  constructor
  · rintro ⟨hlegal, hbanks, hmem, hcsrs, hrest⟩
    exact ⟨⟨hlegal, hbanks, hmem, hcsrs⟩, hrest⟩
  · rintro ⟨⟨hlegal, hbanks, hmem, hcsrs⟩, hrest⟩
    exact ⟨hlegal, hbanks, hmem, hcsrs, hrest⟩

namespace State.Stored

variable {s : State}

theorem maxSym_le (h : s.Stored) : s.params.maxSym ≤ 255 := by
  obtain ⟨⟨_, _, ⟨_, hmax⟩, _⟩, _⟩ := h
  exact hmax

theorem windowFits (h : s.Stored) (hw : s.wbase.toNat + s.wlen.toNat ≤ s.params.cbSize) : s.windowFits := by
  obtain ⟨⟨_, _, _, ⟨_, hcb⟩, _⟩, _⟩ := h
  exact ⟨hw, hcb⟩

/-- A data model slot that is in use is in its ranges. -/
theorem admSlot_okInit (h : s.Stored) {j : Nat} (hn : (s.admSlot j).nsym ≠ 0#8) :
    j < s.adm.length ∧ (s.admSlot j).okInit s.params.maxSym := by
  obtain ⟨_, ⟨_, _, _, hall⟩, _⟩ := h
  have hj : j < s.adm.length := by
    by_contra hout
    refine hn ?_
    unfold State.admSlot
    rw [List.getD_eq_default _ _ (Nat.not_lt.mp hout)]
    rfl
  exact ⟨hj, (hall _ (State.admSlot_mem hj)).resolve_left hn⟩

theorem setCbByte (h : s.Stored) {a : Nat} (v : Byte) (ha : a < s.params.cbSize) : (s.setCbByte a v).Stored := by
  obtain ⟨hlegal, hbanks, ⟨⟨hwf, hcb⟩, hbm⟩, hcsrs⟩ := h
  exact ⟨hlegal, hbanks, ⟨⟨State.setCbByte_cb_wf a v hwf, Memory.bounded_write v ha hcb⟩, hbm⟩, hcsrs⟩

theorem setBmRecord (h : s.Stored) {i : Nat} (v : Word) (hi : i < s.params.nblk) : (s.setBmRecord i v).Stored := by
  obtain ⟨hlegal, hbanks, ⟨hcb, hwf, hbm⟩, hcsrs⟩ := h
  exact ⟨hlegal, hbanks, ⟨hcb, State.setBmRecord_bm_wf i v hwf, State.setBmRecord_bm_bounded v hi hbm⟩, hcsrs⟩

theorem setAbm (h : s.Stored) (m : Nat) {a : AbmSlot} (ha : a.ok) : (s.setAbm m a).Stored := by
  obtain ⟨hlegal, ⟨hlen, hall, hadm⟩, hmem, hcsrs⟩ := h
  refine ⟨hlegal, ⟨List.length_set.trans hlen, fun b hb => ?_, hadm⟩, hmem, hcsrs⟩
  rcases List.mem_or_eq_of_mem_set hb with hb | rfl
  · exact hall b hb
  · exact ha

theorem setAdm (h : s.Stored) (j : Nat) {d : AdmSlot} (hd : d.ok s.params.maxSym) : (s.setAdm j d).Stored := by
  obtain ⟨hlegal, ⟨hlen, hall, hlen', hall'⟩, hmem, hcsrs⟩ := h
  refine ⟨hlegal, ⟨hlen, hall, List.length_set.trans hlen', fun e he => ?_⟩, hmem, hcsrs⟩
  rcases List.mem_or_eq_of_mem_set he with he | rfl
  · exact hall' e he
  · exact hd

/-- A counted bit: a slot that does not exist is not written (log 20). -/
theorem countAbm (h : s.Stored) (m : Nat) (bit : Bool) : (s.setAbm m ((s.abmSlot m).count bit)).Stored := by
  by_cases hm : m < s.abm.length
  · obtain ⟨_, ⟨_, hall, _⟩, _⟩ := id h
    exact h.setAbm m ((hall _ (State.abmSlot_mem hm)).count bit)
  · unfold State.setAbm
    rw [List.set_eq_of_length_le (Nat.not_lt.mp hm)]
    exact h

/-- A counted symbol of the slot's alphabet. -/
theorem countAdm (h : s.Stored) {j k : Nat} (hk : k < (s.admSlot j).nsym.toNat) :
    (s.setAdm j ((s.admSlot j).count k)).Stored :=
  h.setAdm j (.inr ((h.admSlot_okInit (AdmSlot.inUse hk)).2.count h.maxSym_le hk))

/-- `ALL_RESET` of both banks (R100). -/
theorem resetModels (h : s.Stored) : s.resetModels.Stored := by
  have hmax := h.maxSym_le
  obtain ⟨hlegal, ⟨hlen, _, hlen', hall'⟩, hmem, hcsrs⟩ := h
  refine ⟨hlegal, ⟨(List.length_map _).trans hlen, fun a ha => ?_, (List.length_map _).trans hlen', fun d hd => ?_⟩,
    hmem, hcsrs⟩
  · obtain ⟨_, _, rfl⟩ := List.mem_map.mp ha
    exact AbmSlot.fresh_ok
  · obtain ⟨e, he, rfl⟩ := List.mem_map.mp hd
    unfold AdmSlot.resetIfInit
    split
    · exact .inl ‹_›
    · obtain ⟨⟨h2, hn⟩, _⟩ := (hall' e he).resolve_left ‹_›
      exact .inr (AdmSlot.reset_okInit hmax h2 hn)

end State.Stored

/-- A write of a CSR keeps the hardwired-zero bits 0 (R35, R194). -/
theorem State.csrWrite_csrsOk {s t : State} {c : Csr} {v : Word} (h : s.csrsOk) (hw : s.csrWrite c v = some t) :
    t.csrsOk := by
  obtain ⟨hpidx, hmsel⟩ := h
  have masked {p q : Word} (hpq : p &&& q = 0#32) : (v &&& p) &&& q = 0#32 := by
    rw [BitVec.and_assoc, hpq, BitVec.and_zero]
  cases c with
  | pidx =>
    cases hw
    exact ⟨masked (by decide), hmsel⟩
  | msel =>
    cases hw
    exact ⟨hpidx, masked (by decide)⟩
  | occm | pu0 | pv0 | pszu | pszv | btpw | btph =>
    cases hw
    exact ⟨hpidx, hmsel⟩
  | _ => cases hw

/-! ### What a piece of pseudocode leads to -/

/-- From `s` the pseudocode is completed as `Q` says, or abandoned in a state whose banks, memories and CSRs are in
order (spec/60_exceptions.md R215). -/
def Cmd.Leads {α : Type} (c : Cmd α) (s : State) (Q : α → State → Prop) : Prop :=
  match c s with
  | .ok a t => Q a t
  | .error _ t => t.Stored

namespace Cmd.Leads

variable {α β : Type} {s t : State}

theorem of_ok {c : Cmd α} {a : α} {Q : α → State → Prop} (hc : c s = .ok a t) (h : Q a t) : c.Leads s Q := by
  unfold Cmd.Leads
  rw [hc]
  exact h

theorem of_error {c : Cmd α} {e : Stop} {Q : α → State → Prop} (hc : c s = .error e t) (h : t.Stored) :
    c.Leads s Q := by
  unfold Cmd.Leads
  rw [hc]
  exact h

theorem mono {c : Cmd α} {P Q : α → State → Prop} (h : c.Leads s P) (hPQ : ∀ a t, P a t → Q a t) : c.Leads s Q := by
  unfold Cmd.Leads at *
  cases hc : c s with
  | ok a t =>
    rw [hc] at h
    exact hPQ a t h
  | error e t =>
    rw [hc] at h
    exact h

theorem bind {x : Cmd α} {f : α → Cmd β} {P : α → State → Prop} {Q : β → State → Prop} (hx : x.Leads s P)
    (hf : ∀ a t, P a t → (f a).Leads t Q) : (x >>= f).Leads s Q := by
  unfold Cmd.Leads at hx
  cases hr : x s with
  | ok a t =>
    rw [hr] at hx
    unfold Cmd.Leads
    rw [Cmd.bind_of_ok hr]
    exact hf a t hx
  | error e t =>
    rw [hr] at hx
    exact of_error (Cmd.bind_of_error hr) hx

/-- A first part whose result is known. -/
theorem bind_ok {x : Cmd α} {f : α → Cmd β} {a : α} {Q : β → State → Prop} (hx : x s = .ok a t)
    (hf : (f a).Leads t Q) : (x >>= f).Leads s Q :=
  bind (P := fun b u => b = a ∧ u = t) (of_ok hx ⟨rfl, rfl⟩) (by rintro _ _ ⟨rfl, rfl⟩; exact hf)

/-- A test that raises without effect where it fails. -/
theorem test {x : Cmd Unit} {p : Prop} [Decidable p] {e : Stop} {Q : Unit → State → Prop}
    (hx : x s = if p then .ok () s else .error e s) (hs : s.Stored) (h : p → Q () s) : x.Leads s Q := by
  by_cases hp : p
  · exact of_ok (hx.trans (if_pos hp)) (h hp)
  · exact of_error (hx.trans (if_neg hp)) hs

theorem test_bind {x : Cmd Unit} {p : Prop} [Decidable p] {e : Stop} {f : Unit → Cmd β} {Q : β → State → Prop}
    (hx : x s = if p then .ok () s else .error e s) (hs : s.Stored) (h : p → (f ()).Leads s Q) :
    (x >>= f).Leads s Q :=
  bind (P := fun _ u => p ∧ u = s) (test hx hs fun hp => ⟨hp, rfl⟩) (by rintro _ _ ⟨hp, rfl⟩; exact h hp)

/-- What a piece of pseudocode keeps however it ends, it also keeps where it is completed. -/
theorem and_keeps {c : Cmd α} {Q : α → State → Prop} {R : State → State → Prop} (h : c.Leads s Q)
    (hR : Cmd.Keeps R c) : c.Leads s fun a t => Q a t ∧ R s t := by
  have hs := hR s
  unfold Cmd.Leads at *
  cases hc : c s with
  | ok a t =>
    rw [hc] at h hs
    exact ⟨h, hs⟩
  | error e t =>
    rw [hc] at h
    exact h

/-- A loop whose every turn takes `I i` to `I (i + 1)`. -/
theorem forUp {I : Nat → State → Prop} {body : Nat → Cmd Unit}
    (hb : ∀ i u, I i u → (body i).Leads u fun _ v => I (i + 1) v) (first count : Nat) (h : I first s) :
    (Machine.forUp first count body).Leads s fun _ u => I (first + count) u := by
  induction count generalizing first s with
  | zero => exact h
  | succ k ih =>
    rw [forUp_succ]
    refine (hb first s h).bind fun _ u hu => (ih (first + 1) hu).mono fun _ v hv => ?_
    rwa [Nat.add_assoc, Nat.add_comm 1 k] at hv

/-- A loop whose every turn keeps `I`. -/
theorem forUp_const {I : State → Prop} {body : Nat → Cmd Unit} (hb : ∀ i u, I u → (body i).Leads u fun _ v => I v)
    (first count : Nat) (h : I s) : (Machine.forUp first count body).Leads s fun _ u => I u :=
  forUp (I := fun _ u => I u) hb first count h

end Cmd.Leads

/-- `MemRead` inside or outside CB: it changes nothing. -/
theorem memRead_leads {s : State} (hs : s.Stored) (a : Nat) :
    (memRead a).Leads s fun _ t => t = s ∧ a < s.params.cbSize := by
  have hrun := memRead_run a s
  by_cases ha : a < s.params.cbSize
  · exact .of_ok (hrun.trans (if_pos ha)) ⟨rfl, ha⟩
  · exact .of_error (hrun.trans (if_neg ha)) hs

theorem memWrite_leads {s : State} (hs : s.Stored) (a : Nat) (v : Byte) :
    (memWrite a v).Leads s fun _ t => t = s.setCbByte a v ∧ a < s.params.cbSize := by
  have hrun := memWrite_run a v s
  by_cases ha : a < s.params.cbSize
  · exact .of_ok (hrun.trans (if_pos ha)) ⟨rfl, ha⟩
  · exact .of_error (hrun.trans (if_neg ha)) hs

theorem mapRead_leads {s : State} (hs : s.Stored) (i : Nat) :
    (mapRead i).Leads s fun _ t => t = s ∧ i < s.params.nblk := by
  have hrun := mapRead_run i s
  by_cases hi : i < s.params.nblk
  · exact .of_ok (hrun.trans (if_pos hi)) ⟨rfl, hi⟩
  · exact .of_error (hrun.trans (if_neg hi)) hs

theorem mapWrite_leads {s : State} (hs : s.Stored) (i : Nat) (v : Word) :
    (mapWrite i v).Leads s fun _ t => t = s.setBmRecord i v ∧ i < s.params.nblk := by
  have hrun := mapWrite_run i v s
  by_cases hi : i < s.params.nblk
  · exact .of_ok (hrun.trans (if_pos hi)) ⟨rfl, hi⟩
  · exact .of_error (hrun.trans (if_neg hi)) hs

/-- `PTR` counts on without a wrap below a bound that is itself no more than a word. -/
theorem Word.succ_toNat {v : Word} {n : Nat} (h : v.toNat < n) (hn : n < 2 ^ 32) : (v + 1#32).toNat = v.toNat + 1 := by
  rw [BitVec.toNat_add]
  exact Nat.mod_eq_of_lt (Nat.lt_of_le_of_lt h hn)

/-! ### An open encode session (R28, R111 to R116, R120) -/

/-- An encode session within its window; its interval may be narrower than `MIN_RANGE`, as before a renormalisation. -/
structure State.EncWindow (s : State) : Prop where
  stored : s.Stored
  mode : s.mode = .enc
  window : s.wbase.toNat + s.wlen.toNat ≤ s.params.cbSize
  ptr : s.ptr.toNat ≤ s.wlen.toNat
  value : s.value = 0#32

/-- An encode session as it stands between commands. -/
structure State.EncOpen (s : State) : Prop extends s.EncWindow where
  range : minRange ≤ s.range

theorem State.Sound.encOpen {s : State} (h : s.Sound) (hm : s.mode = .enc) : s.EncOpen := by
  obtain ⟨hstored, hsession⟩ := h
  obtain ⟨hwindow, hrange, henc, _⟩ := hsession (by rw [hm]; exact Mode.noConfusion)
  obtain ⟨hptr, hvalue⟩ := henc hm
  exact ⟨⟨hstored, hm, hwindow, hptr, hvalue⟩, hrange⟩

theorem State.EncOpen.sound {s : State} (h : s.EncOpen) : s.Sound :=
  ⟨h.stored, fun _ => ⟨h.window, h.range, fun _ => ⟨h.ptr, h.value⟩, fun hd => Mode.noConfusion (h.mode.symm.trans hd)⟩⟩

theorem State.EncWindow.setCbByte {s : State} (h : s.EncWindow) {a : Nat} (v : Byte) (ha : a < s.params.cbSize) :
    (s.setCbByte a v).EncWindow := ⟨h.stored.setCbByte v ha, h.mode, h.window, h.ptr, h.value⟩

theorem State.EncOpen.countAbm {s : State} (h : s.EncOpen) (m : Nat) (bit : Bool) :
    (s.setAbm m ((s.abmSlot m).count bit)).EncOpen :=
  ⟨⟨h.stored.countAbm m bit, h.mode, h.window, h.ptr, h.value⟩, h.range⟩

theorem State.EncOpen.countAdm {s : State} (h : s.EncOpen) {j k : Nat} (hk : k < (s.admSlot j).nsym.toNat) :
    (s.setAdm j ((s.admSlot j).count k)).EncOpen :=
  ⟨⟨h.stored.countAdm hk, h.mode, h.window, h.ptr, h.value⟩, h.range⟩

section Encoder

variable {s : State}

/-- A byte sent moves `PTR` on inside the window. -/
theorem putByte_leads (h : s.EncWindow) (b : Byte) :
    (putByte b).Leads s fun _ t => t.EncWindow ∧ t.wlen = s.wlen ∧ t.ptr.toNat = s.ptr.toNat + 1 := by
  have hfits := h.stored.windowFits h.window
  have hrun := putByte_run hfits b
  by_cases hp : s.ptr.toNat < s.wlen.toNat
  · have hcb := hfits.1
    have hstored := h.stored.setCbByte b (a := s.wbase.toNat + s.ptr.toNat) (by omega)
    have hnext : (s.ptr + 1#32).toNat = s.ptr.toNat + 1 := Word.succ_toNat hp s.wlen.isLt
    exact .of_ok (hrun.trans (if_pos hp))
      ⟨⟨hstored, h.mode, h.window, hnext.trans_le hp, h.value⟩, rfl, hnext⟩
  · exact .of_error (hrun.trans (if_neg hp)) h.stored

theorem carryFrom_leads (h : s.EncWindow) (n : Nat) : (carryFrom n).Leads s fun _ t => t.EncWindow := by
  induction n generalizing s with
  | zero => exact .of_error rfl h.stored
  | succ i ih =>
    refine Cmd.Leads.bind_ok (Cmd.get_run s) ((memRead_leads h.stored _).bind ?_)
    rintro b _ ⟨rfl, _⟩
    split
    · refine (memWrite_leads h.stored _ _).bind ?_
      rintro _ _ ⟨rfl, ha⟩
      exact ih (h.setCbByte _ ha)
    · refine (memWrite_leads h.stored _ _).mono ?_
      rintro _ _ ⟨rfl, ha⟩
      exact h.setCbByte _ ha

theorem addLow_leads (h : s.EncWindow) (x r : Word) : (addLow x r).Leads s fun _ t => t.EncWindow := by
  have hmoved : State.EncWindow { s with low := s.low + x, range := r } :=
    ⟨h.stored, h.mode, h.window, h.ptr, h.value⟩
  refine Cmd.Leads.bind_ok (Cmd.get_run s) (Cmd.Leads.bind_ok (Cmd.set_run _ s) ?_)
  split
  · exact Cmd.Leads.bind_ok (Cmd.get_run _) (carryFrom_leads hmoved _)
  · exact .of_ok rfl hmoved

/-- The loop of R114 ends with a wide interval, as it raises at the end of the window before its fuel is used up. -/
theorem renormEncLoop_leads (fuel : Nat) (h : s.EncWindow) (hfuel : s.wlen.toNat - s.ptr.toNat < fuel) :
    (renormEncLoop fuel).Leads s fun _ t => t.EncOpen := by
  induction fuel generalizing s with
  | zero => exact absurd hfuel (Nat.not_lt_zero _)
  | succ k ih =>
    refine Cmd.Leads.bind_ok (Cmd.get_run s) ((putByte_leads h _).bind ?_)
    rintro _ t ⟨ht, hwlen, hptr⟩
    have hshifted : State.EncWindow { t with low := t.low <<< 8, range := t.range <<< 8 } :=
      ⟨ht.stored, ht.mode, ht.window, ht.ptr, ht.value⟩
    refine Cmd.Leads.bind_ok (Cmd.modify_run _ t) (Cmd.Leads.bind_ok (Cmd.get_run _) ?_)
    split
    · exact .of_ok rfl ⟨hshifted, ‹_›⟩
    · have hin := ht.ptr
      refine ih hshifted ?_
      show t.wlen.toNat - t.ptr.toNat < k
      rw [hwlen] at hin ⊢
      omega

theorem renormEnc_leads (h : s.EncWindow) : renormEnc.Leads s fun _ t => t.EncOpen :=
  Cmd.Leads.bind_ok (Cmd.get_run s) (renormEncLoop_leads _ h (Nat.lt_succ_self _))

theorem renormEncIfSmall_leads (h : s.EncWindow) : renormEncIfSmall.Leads s fun _ t => t.EncOpen := by
  refine Cmd.Leads.bind_ok (Cmd.get_run s) ?_
  split
  · exact renormEnc_leads h
  · exact .of_ok rfl ⟨h, BitVec.not_lt.mp ‹_›⟩

theorem encBit_leads (h : s.EncOpen) (bit : Bool) (p0 : BitVec 13) : (encBit bit p0).Leads s fun _ t => t.EncOpen := by
  unfold Cmd.Leads
  rw [encBit_eq]
  exact (addLow_leads h.toEncWindow _ _).bind fun _ _ ht => renormEncIfSmall_leads ht

theorem encBitA_leads (h : s.EncOpen) (m : Nat) (bit : Bool) : (encBitA m bit).Leads s fun _ t => t.EncOpen :=
  Cmd.Leads.bind_ok (Cmd.get_run s) ((encBit_leads h bit _).bind fun _ t ht =>
    .of_ok (Cmd.modify_run _ t) (ht.countAbm m bit))

/-- A symbol of the slot's alphabet. -/
theorem encSym_leads (h : s.EncOpen) {k j : Nat} (hk : k < (s.admSlot j).nsym.toNat) :
    (encSym k j).Leads s fun _ t => t.EncOpen := by
  refine Cmd.Leads.bind_ok (Cmd.get_run s) (((addLow_leads h.toEncWindow _ _).and_keeps (addLow_encMoves _ _)).bind ?_)
  rintro _ t ⟨ht, hst⟩
  refine ((renormEncIfSmall_leads ht).and_keeps renormEncIfSmall_encMoves).bind ?_
  rintro _ u ⟨hu, htu⟩
  have hslot : u.admSlot j = s.admSlot j := (htu.admSlot j).trans (hst.admSlot j)
  exact .of_ok (Cmd.modify_run _ u) (hu.countAdm (hslot ▸ hk))

theorem encBitsUp_leads (h : s.EncOpen) (v lo count : Nat) : (encBitsUp v lo count).Leads s fun _ t => t.EncOpen :=
  .forUp_const (fun _ _ hu => encBit_leads hu _ _) lo count h

theorem encBitsDown_leads (h : s.EncOpen) (v count : Nat) : (encBitsDown v count).Leads s fun _ t => t.EncOpen := by
  induction count generalizing s with
  | zero => exact h
  | succ i ih => exact (encBit_leads h _ _).bind fun _ _ ht => ih ht

theorem encEg0_leads (h : s.EncOpen) (u : Word) (m : Nat) : (encEg0 u m).Leads s fun _ t => t.EncOpen :=
  (Cmd.Leads.forUp_const (fun _ _ hv => encBitA_leads hv m true) _ _ h).bind fun _ _ ht =>
    (encBitA_leads ht m false).bind fun _ _ hv => encBitsDown_leads hv _ _

theorem terminate_leads (h : s.EncOpen) : terminate.Leads s fun _ t => t.EncWindow := by
  refine Cmd.Leads.bind_ok (Cmd.get_run s) ?_
  split <;> exact addLow_leads h.toEncWindow _ _

end Encoder

/-! ### An open decode session (R28, R113, R115, R117, R121) -/

/-- A decode session within its window and the three bytes beyond; its interval may be narrower than `MIN_RANGE`. -/
structure State.DecWindow (s : State) : Prop where
  stored : s.Stored
  mode : s.mode = .dec
  window : s.wbase.toNat + s.wlen.toNat ≤ s.params.cbSize
  ptr : 4 ≤ s.ptr.toNat ∧ s.ptr.toNat ≤ s.wlen.toNat + 3
  low : s.low = 0#32

/-- A decode session as it stands between commands. -/
structure State.DecOpen (s : State) : Prop extends s.DecWindow where
  range : minRange ≤ s.range

theorem State.Sound.decOpen {s : State} (h : s.Sound) (hm : s.mode = .dec) : s.DecOpen := by
  obtain ⟨hstored, hsession⟩ := h
  obtain ⟨hwindow, hrange, _, hdec⟩ := hsession (by rw [hm]; exact Mode.noConfusion)
  obtain ⟨hptr, hlow⟩ := hdec hm
  exact ⟨⟨hstored, hm, hwindow, hptr, hlow⟩, hrange⟩

theorem State.DecOpen.sound {s : State} (h : s.DecOpen) : s.Sound :=
  ⟨h.stored, fun _ => ⟨h.window, h.range, fun he => Mode.noConfusion (h.mode.symm.trans he), fun _ => ⟨h.ptr, h.low⟩⟩⟩

theorem State.DecOpen.countAbm {s : State} (h : s.DecOpen) (m : Nat) (bit : Bool) :
    (s.setAbm m ((s.abmSlot m).count bit)).DecOpen :=
  ⟨⟨h.stored.countAbm m bit, h.mode, h.window, h.ptr, h.low⟩, h.range⟩

theorem State.DecOpen.countAdm {s : State} (h : s.DecOpen) {j k : Nat} (hk : k < (s.admSlot j).nsym.toNat) :
    (s.setAdm j ((s.admSlot j).count k)).DecOpen :=
  ⟨⟨h.stored.countAdm hk, h.mode, h.window, h.ptr, h.low⟩, h.range⟩

theorem State.DecOpen.setBmRecord {s : State} (h : s.DecOpen) {i : Nat} (v : Word) (hi : i < s.params.nblk) :
    (s.setBmRecord i v).DecOpen := ⟨⟨h.stored.setBmRecord v hi, h.mode, h.window, h.ptr, h.low⟩, h.range⟩

section Decoder

variable {s : State}

/-- A byte fetched moves `PTR` on, at most to three bytes beyond the window. -/
theorem getByte_leads (hs : s.Stored) (hw : s.wbase.toNat + s.wlen.toNat ≤ s.params.cbSize) :
    getByte.Leads s fun _ t => t = { s with ptr := t.ptr, overread := t.overread } ∧
      t.ptr.toNat = s.ptr.toNat + 1 ∧ t.ptr.toNat ≤ s.wlen.toNat + 3 := by
  have hfits := hs.windowFits hw
  have hrun := getByte_run hfits
  by_cases hp : s.ptr.toNat < s.wlen.toNat + 3
  · obtain ⟨_, hcb⟩ := hfits
    have hnext : (s.ptr + 1#32).toNat = s.ptr.toNat + 1 := Word.succ_toNat hp (by omega)
    exact .of_ok (hrun.trans (if_pos hp)) ⟨rfl, hnext, hnext.trans_le hp⟩
  · exact .of_error (hrun.trans (if_neg hp)) hs

/-- The loop of R115 ends with a wide interval, as it raises at the end of the stream before its fuel is used up. -/
theorem renormDecLoop_leads (fuel : Nat) (h : s.DecWindow) (hfuel : s.wlen.toNat + 3 - s.ptr.toNat < fuel) :
    (renormDecLoop fuel).Leads s fun _ t => t.DecOpen := by
  induction fuel generalizing s with
  | zero => exact absurd hfuel (Nat.not_lt_zero _)
  | succ k ih =>
    refine (getByte_leads h.stored h.window).bind ?_
    rintro b t ⟨hframe, hptr, hmax⟩
    have hmin := h.ptr.1
    have hfetched : State.DecWindow
        { t with value := (t.value <<< 8) ||| b.setWidth 32, range := t.range <<< 8 } := by
      rw [hframe]
      exact ⟨h.stored, h.mode, h.window, ⟨by show 4 ≤ t.ptr.toNat; omega, hmax⟩, h.low⟩
    refine Cmd.Leads.bind_ok (Cmd.modify_run _ t) (Cmd.Leads.bind_ok (Cmd.modify_run _ _)
      (Cmd.Leads.bind_ok (Cmd.get_run _) ?_))
    split
    · exact .of_ok rfl ⟨hfetched, ‹_›⟩
    · have hwlen : t.wlen = s.wlen := by rw [hframe]
      refine ih hfetched ?_
      show t.wlen.toNat + 3 - t.ptr.toNat < k
      rw [hwlen]
      omega

theorem renormDec_leads (h : s.DecWindow) : renormDec.Leads s fun _ t => t.DecOpen :=
  Cmd.Leads.bind_ok (Cmd.get_run s) (renormDecLoop_leads _ h (Nat.lt_succ_self _))

theorem renormDecIfSmall_leads (h : s.DecWindow) : renormDecIfSmall.Leads s fun _ t => t.DecOpen := by
  refine Cmd.Leads.bind_ok (Cmd.get_run s) ?_
  split
  · exact renormDec_leads h
  · exact .of_ok rfl ⟨h, BitVec.not_lt.mp ‹_›⟩

theorem decBit_leads (h : s.DecOpen) (p0 : BitVec 13) : (decBit p0).Leads s fun _ t => t.DecOpen := by
  unfold Cmd.Leads
  rw [decBit_eq]
  exact Cmd.Leads.bind (renormDecIfSmall_leads ⟨h.stored, h.mode, h.window, h.ptr, h.low⟩) fun _ _ ht => ht

theorem decBitA_leads (h : s.DecOpen) (m : Nat) : (decBitA m).Leads s fun _ t => t.DecOpen :=
  Cmd.Leads.bind_ok (Cmd.get_run s) ((decBit_leads h _).bind fun bit t ht =>
    Cmd.Leads.bind_ok (Cmd.modify_run _ t) (.of_ok rfl (ht.countAbm m bit)))

/-- The symbol found is one of the slot's alphabet, so counting it keeps the slot in its ranges. -/
theorem decSym_leads (h : s.DecOpen) {j : Nat} (hn : (s.admSlot j).nsym ≠ 0#8) :
    (decSym j).Leads s fun _ t => t.DecOpen := by
  obtain ⟨hk, _⟩ := scanSym_selects (h.stored.admSlot_okInit hn).2 rfl
  refine Cmd.Leads.bind_ok (Cmd.get_run s) (Cmd.Leads.bind_ok (Cmd.set_run _ s) ?_)
  refine Cmd.Leads.bind (Cmd.Leads.and_keeps
    (renormDecIfSmall_leads ⟨h.stored, h.mode, h.window, h.ptr, h.low⟩) renormDecIfSmall_decMoves) ?_
  rintro _ t ⟨ht, hst⟩
  have hslot : t.admSlot j = s.admSlot j := hst.admSlot j
  refine Cmd.Leads.bind_ok (Cmd.modify_run _ t) (.of_ok rfl (ht.countAdm ?_))
  rw [hslot]
  exact hk

theorem decBitsUp_leads (h : s.DecOpen) (lo count w : Nat) : (decBitsUp lo count w).Leads s fun _ t => t.DecOpen := by
  induction count generalizing s lo w with
  | zero => exact h
  | succ k ih => exact (decBit_leads h _).bind fun _ _ ht => ih ht _ _

theorem decBitsDown_leads (h : s.DecOpen) (count r : Nat) : (decBitsDown count r).Leads s fun _ t => t.DecOpen := by
  induction count generalizing s r with
  | zero => exact h
  | succ i ih => exact (decBit_leads h _).bind fun _ _ ht => ih ht _

theorem decOnes_leads (h : s.DecOpen) (m more n : Nat) : (decOnes m more n).Leads s fun _ t => t.DecOpen := by
  induction more generalizing s n with
  | zero =>
    refine (decBitA_leads h m).bind fun b t ht => ?_
    cases b
    · exact .of_ok rfl ht
    · exact .of_error rfl ht.stored
  | succ k ih =>
    refine (decBitA_leads h m).bind fun b t ht => ?_
    cases b
    · exact .of_ok rfl ht
    · exact ih ht _

theorem decEg0_leads (h : s.DecOpen) (m : Nat) : (decEg0 m).Leads s fun _ t => t.DecOpen :=
  (decOnes_leads h m 32 0).bind fun n _ ht => (decBitsDown_leads ht n 0).bind fun _ u hu =>
    Cmd.Leads.test_bind (check_run _ _ _ u) hu.stored fun _ => .of_ok rfl hu

end Decoder

/-! ### Occupancy: the bound data models stay 3-ary (spec/44_occupancy.md R173, R174) -/

/-- The data model slots have the same alphabet sizes. -/
def SameAlphabets (s t : State) : Prop := ∀ j, (t.admSlot j).nsym = (s.admSlot j).nsym

theorem SameAlphabets.frame : Frame SameAlphabets where
  refl _ _ := rfl
  trans _ _ _ h k j := (k j).trans (h j)

theorem NoModel.sameAlphabets {s t : State} (h : NoModel s t) : SameAlphabets s t := fun j => by
  simp [State.admSlot, h.2]

theorem OnlyAbm.sameAlphabets {m : Nat} {s t : State} (h : OnlyAbm m s t) : SameAlphabets s t := fun j => by
  simp [State.admSlot, h.1]

theorem admCount_sameAlphabets (j k : Nat) : Cmd.Keeps SameAlphabets (admCount j k) :=
  Frame.update fun s n => by
    by_cases hn : n = j
    · subst hn
      by_cases hj : n < s.adm.length
      · rw [State.setAdm_admSlot_self _ hj, AdmSlot.count_nsym]
      · unfold State.setAdm
        rw [List.set_eq_of_length_le (Nat.not_lt.mp hj)]
    · rw [State.setAdm_admSlot_of_ne _ _ hn]

theorem encSym_sameAlphabets (k j : Nat) : Cmd.Keeps SameAlphabets (encSym k j) :=
  SameAlphabets.frame.bind SameAlphabets.frame.get fun _ =>
    SameAlphabets.frame.bind ((addLow_encMoves _ _).mono fun _ _ h => h.noModel.sameAlphabets) fun _ =>
      SameAlphabets.frame.bind (renormEncIfSmall_encMoves.mono fun _ _ h => h.noModel.sameAlphabets) fun _ =>
        admCount_sameAlphabets _ _

theorem decSym_sameAlphabets (j : Nat) : Cmd.Keeps SameAlphabets (decSym j) :=
  Frame.get_bind fun _ => SameAlphabets.frame.set_bind (NoModel.sameAlphabets ⟨rfl, rfl⟩)
    (SameAlphabets.frame.bind (renormDecIfSmall_decMoves.mono fun _ _ h => h.noModel.sameAlphabets) fun _ =>
      SameAlphabets.frame.bind (admCount_sameAlphabets _ _) fun _ => SameAlphabets.frame.pure _)

/-- The two data models of a binding are 3-ary. -/
def State.Ternary (s : State) (o : OccModels) : Prop :=
  (s.admSlot o.dNei).nsym = 3#8 ∧ (s.admSlot o.dMin).nsym = 3#8

theorem SameAlphabets.ternary {s t : State} (h : SameAlphabets s t) {o : OccModels} (ho : s.Ternary o) :
    t.Ternary o := ⟨(h _).trans ho.1, (h _).trans ho.2⟩

/-- `occ_models` gives a binding whose data models are 3-ary (R173). -/
theorem occModels_leads {s : State} (hs : s.Stored) : occModels.Leads s fun o t => t = s ∧ s.Ternary o :=
  Cmd.Leads.bind_ok (Cmd.get_run s)
    (.test_bind (check_run _ _ _ s) hs fun _ => .test_bind (check_run _ _ _ s) hs fun _ =>
      .test_bind (check_run _ _ _ s) hs fun _ => .test_bind (check_run _ _ _ s) hs fun hnei =>
        .test_bind (check_run _ _ _ s) hs fun hmin => .of_ok rfl ⟨rfl, hnei.2, hmin.2⟩)

section Occupancy

variable {s : State} {o : OccModels}

/-- An encode session with the data models of a binding 3-ary. -/
def State.EncOcc (s : State) (o : OccModels) : Prop := s.EncOpen ∧ s.Ternary o

/-- The same for a decode session. -/
def State.DecOcc (s : State) (o : OccModels) : Prop := s.DecOpen ∧ s.Ternary o

theorem encBitA_occ (h : s.EncOcc o) (m : Nat) (bit : Bool) : (encBitA m bit).Leads s fun _ t => t.EncOcc o :=
  ((encBitA_leads h.1 m bit).and_keeps (encBitA_onlyAbm m bit)).mono fun _ _ ⟨ht, hst⟩ =>
    ⟨ht, hst.sameAlphabets.ternary h.2⟩

theorem encSym_occ (h : s.EncOcc o) {k j : Nat} (hj : (s.admSlot j).nsym = 3#8) (hk : k < 3) :
    (encSym k j).Leads s fun _ t => t.EncOcc o :=
  ((encSym_leads h.1 (by rw [hj]; exact hk)).and_keeps (encSym_sameAlphabets k j)).mono fun _ _ ⟨ht, hst⟩ =>
    ⟨ht, hst.ternary h.2⟩

theorem decBitA_occ (h : s.DecOcc o) (m : Nat) : (decBitA m).Leads s fun _ t => t.DecOcc o :=
  ((decBitA_leads h.1 m).and_keeps (decBitA_onlyAbm m)).mono fun _ _ ⟨ht, hst⟩ =>
    ⟨ht, hst.sameAlphabets.ternary h.2⟩

theorem decSym_occ (h : s.DecOcc o) {j : Nat} (hj : (s.admSlot j).nsym = 3#8) :
    (decSym j).Leads s fun _ t => t.DecOcc o :=
  ((decSym_leads h.1 (by rw [hj]; decide)).and_keeps (decSym_sameAlphabets j)).mono fun _ _ ⟨ht, hst⟩ =>
    ⟨ht, hst.ternary h.2⟩

theorem onlyIf_leads {I : State → Prop} {c : Bool} {act : Cmd Unit} (h : I s)
    (ha : c = true → act.Leads s fun _ t => I t) : (onlyIf c act).Leads s fun _ t => I t := by
  cases c
  · exact h
  · exact ha rfl

/-- The elements of an occupied block are symbols of the 3-ary alphabets, as `mind1` is not 3 (R174). -/
theorem occEncFields_leads (h : s.EncOcc o) {r : Word} (hr : recMind1 r ≠ 3#2) :
    (occEncFields o r).Leads s fun _ t => t.EncOcc o := by
  have hnei : (recNeigh r).toNat - 1 < 3 := by omega
  have hmin : (recMind1 r).toNat < 3 := by
    have hne : (recMind1 r).toNat ≠ 3 := fun e => hr (BitVec.eq_of_toNat_eq e)
    omega
  exact (encBitA_occ h _ _).bind fun _ t ht =>
    (onlyIf_leads (I := fun t => t.EncOcc o) ht fun _ => encSym_occ ht ht.2.1 hnei).bind fun _ u hu =>
      (encSym_occ hu hu.2.2 hmin).bind fun _ v hv => onlyIf_leads hv fun _ => encBitA_occ hv _ _

theorem occEncBlock_leads (h : s.EncOcc o) (occupied : Bool) (r : Word) :
    (occEncBlock o occupied r).Leads s fun _ t => t.EncOcc o := by
  refine .test_bind (check_run _ _ _ s) h.1.stored fun hcodable => ?_
  refine (encBitA_occ h _ _).bind fun _ t ht => onlyIf_leads ht fun hocc => occEncFields_leads ht fun hr => ?_
  refine hcodable ⟨hocc, ?_⟩
  unfold recUncodable
  rw [decide_eq_true hr, Bool.or_true]

theorem occDecFields_leads (h : s.DecOcc o) (r : Word) : (occDecFields o r).Leads s fun _ t => t.DecOcc o := by
  have hneigh (interp : Bool) (q : Word) {t : State} (ht : t.DecOcc o) :
      (occDecNeigh o interp q).Leads t fun _ u => u.DecOcc o := by
    cases interp
    · exact ht
    · exact (decSym_occ ht ht.2.1).bind fun _ _ hu => .of_ok rfl hu
  have hfill (coded : Bool) (q : Word) {t : State} (ht : t.DecOcc o) :
      (occDecFill o coded q).Leads t fun _ u => u.DecOcc o := by
    cases coded
    · exact ht
    · exact (decBitA_occ ht _).bind fun _ _ hu => .of_ok rfl hu
  exact (decBitA_occ h _).bind fun _ _ ht => (hneigh _ _ ht).bind fun _ _ hu =>
    (decSym_occ hu hu.2.2).bind fun _ _ hv => hfill _ _ hv

theorem occDecBlock_leads (h : s.DecOcc o) (old : Word) : (occDecBlock o old).Leads s fun _ t => t.DecOcc o := by
  refine (decBitA_occ h _).bind fun occupied t ht => ?_
  cases occupied
  · exact ht
  · exact (occDecFields_leads ht _).bind fun _ _ hu => .of_ok rfl hu

theorem encPatchBlock_leads (h : s.EncOcc o) (pos : Nat) : (encPatchBlock o pos).Leads s fun _ t => t.EncOcc o := by
  refine Cmd.Leads.bind_ok (Cmd.get_run s) ((mapRead_leads h.1.stored pos).bind ?_)
  rintro r _ ⟨rfl, _⟩
  exact occEncBlock_leads h _ _

theorem decPatchBlock_leads (h : s.DecOcc o) (pos : Nat) : (decPatchBlock o pos).Leads s fun _ t => t.DecOcc o := by
  refine Cmd.Leads.bind_ok (Cmd.get_run s) ((mapRead_leads h.1.stored pos).bind ?_)
  rintro r _ ⟨rfl, _⟩
  refine (occDecBlock_leads h _).bind fun found t ht => onlyIf_leads ht fun _ => ?_
  refine (mapWrite_leads ht.1.stored _ _).mono ?_
  rintro _ _ ⟨rfl, hpos⟩
  exact ⟨ht.1.setBmRecord _ hpos, ht.2⟩

/-- A scan keeps what every block keeps (R177). -/
theorem scanPatch_leads {I : State → Prop} {block : Nat → Cmd Unit}
    (hb : ∀ pos u, I u → (block pos).Leads u fun _ v => I v) (h : I s) : (scanPatch block).Leads s fun _ t => I t :=
  Cmd.Leads.bind_ok (Cmd.get_run s)
    (.forUp_const (fun _ _ hu => .forUp_const (fun _ _ hv => hb _ _ hv) _ _ hu) _ _ h)

end Occupancy

/-! ### The start of a decode session (spec/40_session_and_models.md R92) -/

/-- `DEC_START` with `n` bytes of the window loaded. -/
structure State.Loading (n : Nat) (s : State) : Prop where
  stored : s.Stored
  window : s.wbase.toNat + s.wlen.toNat ≤ s.params.cbSize
  ptr : s.ptr.toNat = n ∧ n ≤ s.wlen.toNat + 3
  low : s.low = 0#32
  range : s.range = maxRange

theorem loadByte_leads {s : State} {n : Nat} (h : s.Loading n) : loadByte.Leads s fun _ t => t.Loading (n + 1) := by
  refine (getByte_leads h.stored h.window).bind ?_
  rintro b t ⟨hframe, hptr, hmax⟩
  refine .of_ok (Cmd.modify_run _ t) ?_
  rw [h.ptr.1] at hptr
  rw [hframe]
  exact ⟨h.stored, h.window, ⟨hptr, hptr ▸ hmax⟩, h.low, h.range⟩

/-- Four bytes loaded make a session that stands between commands. -/
theorem State.Loading.sound {s : State} (h : s.Loading 4) : ({ s with mode := .dec } : State).Sound := by
  obtain ⟨hptr, hmax⟩ := h.ptr
  have hrange : minRange ≤ s.range := by
    rw [h.range]
    decide
  exact ⟨h.stored, fun _ => ⟨h.window, hrange, fun he => Mode.noConfusion he,
    fun _ => ⟨⟨hptr.ge, hptr.trans_le hmax⟩, h.low⟩⟩⟩

/-! ### Every command's pseudocode -/

theorem needSymbol_run (ra : Reg) (m : Slot) (s : State) :
    needSymbol ra m s =
      if (s.reg ra).toNat < (s.admSlot m.toNat).nsym.toNat then .ok () s
      else .error (.raise .operandRange (s.reg ra)) s := by
  unfold needSymbol
  rw [Cmd.get_bind_run, check_run]

theorem needAlphabet_run (f : BitVec 8) (s : State) :
    needAlphabet f s =
      if 2 ≤ f.toNat ∧ f.toNat ≤ s.params.maxSym then .ok () s else .error (.raise .model (f.setWidth 32)) s := by
  unfold needAlphabet
  rw [Cmd.get_bind_run, check_run]

theorem needWindow_run (base len : Word) (s : State) :
    needWindow base len s =
      if base.toNat + len.toNat ≤ s.params.cbSize then .ok () s else .error (.raise .windowRange len) s := by
  unfold needWindow
  rw [Cmd.get_bind_run, check_run]

theorem needCount_run (f : BitVec 8) (s : State) :
    needCount f s = if f.toNat ≤ 32 then .ok () s else .error (.raise .illegalCommand 0#32) s := check_run _ _ _ s

theorem needFits_run (ra : Reg) (f : BitVec 8) (s : State) :
    needFits ra f s =
      if f.toNat < 32 → (s.reg ra).toNat < 2 ^ f.toNat then .ok () s
      else .error (.raise .operandRange (s.reg ra)) s := by
  unfold needFits
  rw [Cmd.get_bind_run, check_run]

theorem patchCheck_run (s : State) :
    patchCheck s = if s.patchFits then .ok () s else .error (.raise .mapRange 0#32) s := by
  unfold patchCheck
  rw [Cmd.get_bind_run, check_run]

section Bodies

variable {s : State}

theorem writeReg_leads (h : s.Sound) (r : Reg) (v : Word) : (writeReg r v).Leads s fun _ t => t.Sound :=
  .of_ok (writeReg_run r v s) h

/-- The end of a session needs no range. -/
theorem State.Stored.idle (h : s.Stored) : ({ s with mode := .idle } : State).Sound := ⟨h, fun hne => absurd rfl hne⟩

theorem csrwBody_leads (h : s.Sound) (ra : Reg) (f : BitVec 8) : (csrwBody ra f).Leads s fun _ t => t.Sound := by
  refine Cmd.Leads.bind_ok (Cmd.get_run s) ?_
  cases hw : s.csrWriteNumber f (s.reg ra) with
  | none => exact .of_error rfl h.1
  | some t =>
    refine .of_ok (Cmd.set_run t s) ?_
    unfold State.csrWriteNumber at hw
    split at hw
    · obtain ⟨⟨hlegal, hbanks, hmem, hcsrs⟩, hsession⟩ := h
      have hcsrs' := State.csrWrite_csrsOk hcsrs hw
      rw [State.csrWrite_frame hw]
      exact ⟨⟨hlegal, hbanks, hmem, hcsrs'⟩, hsession⟩
    · cases hw

theorem encStartBody_leads (h : s.Sound) (ra rb : Reg) : (encStartBody ra rb).Leads s fun _ t => t.Sound := by
  obtain ⟨hstored, _⟩ := h
  refine .test_bind (needMode_run _ s) hstored fun _ => Cmd.Leads.bind_ok (Cmd.get_run s) ?_
  refine .test_bind (needWindow_run _ _ s) hstored fun hwindow => Cmd.Leads.bind_ok (Cmd.modify_run _ s) ?_
  refine .of_ok (Cmd.modify_run _ _) ⟨hstored, fun _ => ⟨hwindow, ?_, fun _ => ⟨Nat.zero_le _, rfl⟩,
    fun hd => Mode.noConfusion hd⟩⟩
  show minRange ≤ maxRange
  decide

theorem encStopBody_leads (h : s.Sound) (ra : Reg) : (encStopBody ra).Leads s fun _ t => t.Sound := by
  refine .test_bind (needMode_run _ s) h.1 fun hm => (terminate_leads (h.encOpen hm)).bind fun _ _ ht => ?_
  refine (renormEnc_leads ht).bind fun _ u hu => Cmd.Leads.bind_ok (Cmd.get_run u) ?_
  exact Cmd.Leads.bind_ok (writeReg_run _ _ u) (.of_ok (Cmd.modify_run _ _) (State.Stored.idle hu.stored))

theorem decStartBody_leads (h : s.Sound) (ra rb : Reg) : (decStartBody ra rb).Leads s fun _ t => t.Sound := by
  obtain ⟨hstored, _⟩ := h
  refine .test_bind (needMode_run _ s) hstored fun _ => Cmd.Leads.bind_ok (Cmd.get_run s) ?_
  refine .test_bind (needWindow_run _ _ s) hstored fun hwindow => Cmd.Leads.bind_ok (Cmd.modify_run _ s) ?_
  have hopened : (s.openWindow (s.reg ra) (s.reg rb)).Loading 0 :=
    ⟨hstored, hwindow, ⟨rfl, Nat.zero_le _⟩, rfl, rfl⟩
  refine (Cmd.Leads.forUp (fun _ _ hu => loadByte_leads hu) 0 4 hopened).bind fun _ t ht => ?_
  exact .of_ok (Cmd.modify_run _ t) ht.sound

theorem admInitBody_leads (h : s.Sound) (m : Slot) (f : BitVec 8) : (admInitBody m f).Leads s fun _ t => t.Sound := by
  refine .test_bind (needAdm_run m s) h.1 fun _ => .test_bind (needAlphabet_run f s) h.1 fun ⟨h2, hn⟩ => ?_
  exact .of_ok (Cmd.modify_run _ s)
    ⟨h.1.setAdm _ (.inr (AdmSlot.reset_okInit h.1.maxSym_le h2 hn)), h.2⟩

theorem admResetBody_leads (h : s.Sound) (m : Slot) : (admResetBody m).Leads s fun _ t => t.Sound := by
  refine .test_bind (needAdmInit_run m s) h.1 fun ⟨_, hn⟩ => ?_
  obtain ⟨_, ⟨h2, hmax⟩, _⟩ := h.1.admSlot_okInit hn
  exact .of_ok (Cmd.modify_run _ s)
    ⟨h.1.setAdm _ (.inr (AdmSlot.reset_okInit h.1.maxSym_le h2 hmax)), h.2⟩

/-- A command that needs an open decode session and then writes a register. -/
theorem decThenReg_leads {α : Type} {x : Cmd α} {v : α → Word} {Q : State → Prop} {t : State}
    (hx : x.Leads t fun _ u => Q u) (hQ : ∀ u, Q u → u.DecOpen) (ra : Reg) :
    (x >>= fun a => writeReg ra (v a)).Leads t fun _ u => u.Sound :=
  hx.bind fun _ u hu => writeReg_leads (hQ u hu).sound _ _

/-- Every command's pseudocode keeps the invariant where it is completed, and what `State.Stored` says where it is
abandoned. -/
theorem bodyOf_leads (h : s.Sound) (i : Instr) : (bodyOf i).Leads s fun _ t => t.Sound := by
  have hs := h.1
  have encoded {c : Cmd Unit} (hc : c.Leads s fun _ t => t.EncOpen) : c.Leads s fun _ t => t.Sound :=
    hc.mono fun _ _ ht => ht.sound
  cases i with
  | nop => exact h
  | li ra imm => exact writeReg_leads h _ _
  | lih ra imm => exact Cmd.Leads.bind_ok (readReg_run ra s) (writeReg_leads h _ _)
  | csrr ra f =>
    refine Cmd.Leads.bind_ok (Cmd.get_run s) ?_
    cases Csr.ofNumber f with
    | some c => exact writeReg_leads h _ _
    | none => exact .of_error rfl hs
  | csrw ra f => exact csrwBody_leads h ra f
  | ldcb ra rb =>
    refine Cmd.Leads.bind_ok (Cmd.get_run s) (.test_bind (check_run _ _ _ s) hs fun ha => ?_)
    exact Cmd.Leads.bind_ok (memRead_of_lt ha) (writeReg_leads h _ _)
  | stcb ra rb =>
    refine Cmd.Leads.bind_ok (Cmd.get_run s) (.test_bind (check_run _ _ _ s) hs fun ha => ?_)
    exact .of_ok (memWrite_of_lt _ ha) ⟨hs.setCbByte _ ha, h.2⟩
  | ldbm ra rb =>
    refine Cmd.Leads.bind_ok (Cmd.get_run s) (.test_bind (check_run _ _ _ s) hs fun hi => ?_)
    exact Cmd.Leads.bind_ok (mapRead_of_lt hi) (writeReg_leads h _ _)
  | stbm ra rb =>
    refine Cmd.Leads.bind_ok (Cmd.get_run s) (.test_bind (check_run _ _ _ s) hs fun hi => ?_)
    exact .of_ok (mapWrite_of_lt _ hi) ⟨hs.setBmRecord _ hi, h.2⟩
  | encStart ra rb => exact encStartBody_leads h ra rb
  | encStop ra => exact encStopBody_leads h ra
  | decStart ra rb => exact decStartBody_leads h ra rb
  | decStop => exact .test_bind (needMode_run _ s) hs fun _ => .of_ok (Cmd.modify_run _ s) hs.idle
  | abmReset m =>
    exact .test_bind (needAbm_run m s) hs fun _ =>
      .of_ok (Cmd.modify_run _ s) ⟨hs.setAbm _ AbmSlot.fresh_ok, h.2⟩
  | admInit m f => exact admInitBody_leads h m f
  | admReset m => exact admResetBody_leads h m
  | allReset => exact .of_ok (Cmd.modify_run _ s) ⟨hs.resetModels, h.2⟩
  | encBitA ra m =>
    exact .test_bind (needMode_run _ s) hs fun hm => .test_bind (needAbm_run m s) hs fun _ =>
      .test_bind (needBit_run ra s) hs fun _ => Cmd.Leads.bind_ok (Cmd.get_run s)
        (encoded (encBitA_leads (h.encOpen hm) _ _))
  | encBitS ra =>
    exact .test_bind (needMode_run _ s) hs fun hm => .test_bind (needBit_run ra s) hs fun _ =>
      Cmd.Leads.bind_ok (Cmd.get_run s) (encoded (encBit_leads (h.encOpen hm) _ _))
  | decBitA ra m =>
    exact .test_bind (needMode_run _ s) hs fun hm => .test_bind (needAbm_run m s) hs fun _ =>
      decThenReg_leads (decBitA_leads (h.decOpen hm) _) (fun _ hu => hu) ra
  | decBitS ra =>
    exact .test_bind (needMode_run _ s) hs fun hm =>
      decThenReg_leads (decBit_leads (h.decOpen hm) _) (fun _ hu => hu) ra
  | encSym ra m =>
    exact .test_bind (needMode_run _ s) hs fun hm => .test_bind (needAdmInit_run m s) hs fun _ =>
      .test_bind (needSymbol_run ra m s) hs fun hk => Cmd.Leads.bind_ok (Cmd.get_run s)
        (encoded (encSym_leads (h.encOpen hm) hk))
  | decSym ra m =>
    exact .test_bind (needMode_run _ s) hs fun hm => .test_bind (needAdmInit_run m s) hs fun ⟨_, hn⟩ =>
      decThenReg_leads (decSym_leads (h.decOpen hm) hn) (fun _ hu => hu) ra
  | encUint ra f =>
    exact .test_bind (needCount_run f s) hs fun _ => .test_bind (needMode_run _ s) hs fun hm =>
      .test_bind (needFits_run ra f s) hs fun _ => Cmd.Leads.bind_ok (Cmd.get_run s)
        (encoded (encBitsUp_leads (h.encOpen hm) _ _ _))
  | decUint ra f =>
    exact .test_bind (needCount_run f s) hs fun _ => .test_bind (needMode_run _ s) hs fun hm =>
      decThenReg_leads (decBitsUp_leads (h.decOpen hm) _ _ _) (fun _ hu => hu) ra
  | zzenc ra rb => exact Cmd.Leads.bind_ok (readReg_run rb s) (writeReg_leads h _ _)
  | zzdec ra rb => exact Cmd.Leads.bind_ok (readReg_run rb s) (writeReg_leads h _ _)
  | encEg0 ra m =>
    exact .test_bind (needMode_run _ s) hs fun hm => .test_bind (needAbm_run m s) hs fun _ =>
      Cmd.Leads.bind_ok (Cmd.get_run s) (encoded (encEg0_leads (h.encOpen hm) _ _))
  | decEg0 ra m =>
    exact .test_bind (needMode_run _ s) hs fun hm => .test_bind (needAbm_run m s) hs fun _ =>
      decThenReg_leads (decEg0_leads (h.decOpen hm) _) (fun _ hu => hu) ra
  | encSdelta ra m =>
    exact .test_bind (needMode_run _ s) hs fun hm => .test_bind (needAbm_run m s) hs fun _ =>
      Cmd.Leads.bind_ok (Cmd.get_run s) (encoded (encEg0_leads (h.encOpen hm) _ _))
  | decSdelta ra m =>
    exact .test_bind (needMode_run _ s) hs fun hm => .test_bind (needAbm_run m s) hs fun _ =>
      decThenReg_leads (decEg0_leads (h.decOpen hm) _) (fun _ hu => hu) ra
  | occEncBlk ra =>
    refine .test_bind (needMode_run _ s) hs fun hm => (occModels_leads hs).bind ?_
    rintro o _ ⟨rfl, ho⟩
    refine Cmd.Leads.bind_ok (readReg_run ra _) ?_
    exact (occEncBlock_leads ⟨h.encOpen hm, ho⟩ _ _).mono fun _ _ ht => ht.1.sound
  | occDecBlk ra =>
    refine .test_bind (needMode_run _ s) hs fun hm => (occModels_leads hs).bind ?_
    rintro o _ ⟨rfl, ho⟩
    exact decThenReg_leads (occDecBlock_leads ⟨h.decOpen hm, ho⟩ _) (fun _ hu => hu.1) ra
  | occEncPatch =>
    refine .test_bind (needMode_run _ s) hs fun hm => (occModels_leads hs).bind ?_
    rintro o _ ⟨rfl, ho⟩
    refine .test_bind (patchCheck_run _) hs fun _ => ?_
    exact (scanPatch_leads (I := fun t => t.EncOcc o) (fun pos _ hu => encPatchBlock_leads hu pos)
      ⟨h.encOpen hm, ho⟩).mono fun _ _ ht => ht.1.sound
  | occDecPatch =>
    refine .test_bind (needMode_run _ s) hs fun hm => (occModels_leads hs).bind ?_
    rintro o _ ⟨rfl, ho⟩
    refine .test_bind (patchCheck_run _) hs fun _ => ?_
    exact (scanPatch_leads (I := fun t => t.DecOcc o) (fun pos _ hu => decPatchBlock_leads hu pos)
      ⟨h.decOpen hm, ho⟩).mono fun _ _ ht => ht.1.sound

end Bodies

/-! ### The invariant of a run -/

/-- Settles O13: at reset both banks are fresh, both memories empty, and no session is open. -/
theorem invHoldsAfterReset : Obligations.InvHoldsAfterReset := by
  have hreset (p : Params) (epoch : Nat) (events : List HostEvent) (hp : p.legal) :
      (State.resetWith p epoch events).Inv := by
    refine ⟨hp, ⟨List.length_replicate, fun a ha => ?_, List.length_replicate, fun d hd => ?_⟩,
      ⟨⟨Memory.wf_nil, fun c hc => absurd hc List.not_mem_nil⟩, Memory.wf_nil, fun c hc => absurd hc List.not_mem_nil⟩,
      ⟨BitVec.zero_and, BitVec.zero_and⟩, ⟨rfl, rfl, rfl, rfl⟩, fun _ hne => absurd rfl hne⟩
    · rw [List.eq_of_mem_replicate ha]
      exact AbmSlot.fresh_ok
    · rw [List.eq_of_mem_replicate hd]
      exact .inl rfl
  exact ⟨hreset Params.default 0 [] (by decide), hreset⟩

/-- A fault entry leaves the fault state, in which no session range is asked for (R214, R215). -/
theorem State.Stored.faultEntry_inv {s : State} (h : s.Stored) (f : FaultKind) (info cw : Word) :
    (s.faultEntry f info cw).Inv :=
  (State.inv_iff _).mpr ⟨h, f.code_range, fun hf => Bool.noConfusion hf⟩

/-- A command that answers a next state keeps the invariant, refused, completed or faulted. -/
theorem exec_inv {i : Instr} {s u : State} (h : s.Inv) (hexec : exec i s = .next u) : u.Inv := by
  obtain ⟨hstored, hrecord, hsession⟩ := s.inv_iff.mp h
  rcases exec_outcome hexec with ⟨_, rfl⟩ | ⟨hf, t, ht, hframe, rfl⟩ | ⟨hf, f, info, t, ht, _, rfl⟩
  · exact h
  · have hleads := bodyOf_leads ⟨hstored, hsession hf⟩ i
    unfold Cmd.Leads at hleads
    rw [ht] at hleads
    obtain ⟨hstored', hsession'⟩ := hleads
    refine (State.inv_iff _).mpr ⟨hstored', ?_, fun _ => hsession'⟩
    obtain ⟨hfault, hcode, hcmd, hinfo, hseq⟩ := hframe.faultRecord_eq
    show t.faultRecordOk
    unfold State.faultRecordOk at hrecord ⊢
    rw [hfault, hcode, hcmd, hinfo, hseq]
    exact hrecord
  · have hleads := bodyOf_leads ⟨hstored, hsession hf⟩ i
    unfold Cmd.Leads at hleads
    rw [ht] at hleads
    exact hleads.faultEntry_inv f info _

theorem presentWord_inv {cw : Word} {s t : State} (h : s.Inv) (hword : presentWord cw s = .next t) : t.Inv := by
  rcases presentWord_eq_next hword with ⟨_, rfl⟩ | ⟨_, i, _, hexec⟩ | ⟨_, _, rfl⟩
  · exact h
  · exact exec_inv h hexec
  · exact (s.inv_iff.mp h).1.faultEntry_inv _ _ _

theorem hostEvent_inv {e : HostEvent} {s t : State} (h : s.Inv) (hevent : hostEvent e s = .next t) : t.Inv := by
  obtain ⟨hstored, hrest⟩ := s.inv_iff.mp h
  cases e with
  | issue cw => exact presentWord_inv h hevent
  | cbWrite a v =>
    obtain ⟨ha, rfl⟩ := hostWriteCb_eq_next hevent
    exact (State.inv_iff _).mpr ⟨hstored.setCbByte v ha, hrest⟩
  | bmWrite i v =>
    obtain ⟨hi, rfl⟩ := hostWriteBm_eq_next hevent
    exact (State.inv_iff _).mpr ⟨hstored.setBmRecord v hi, hrest⟩
  | reset =>
    cases hevent
    exact invHoldsAfterReset.2 _ _ _ h.1

/-- Settles O14: the idle step changes nothing, and every act of the host keeps the invariant, a command because its
pseudocode does wherever it ends. -/
theorem stepKeepsInv : Obligations.StepKeepsInv := by
  intro s t h hstep
  rcases step_eq_next hstep with ⟨_, rfl⟩ | ⟨e, rest, _, hevent⟩
  · exact h
  · have hport : State.Inv { s with port := rest } := h
    exact hostEvent_inv hport hevent

end Sys2Proof.Machine
end

section
/-! The two memories (spec/20_memory.md R50 to R63): the host's byte view of BM (R58), and which bytes of CB and which
records of BM a command can change, completed or abandoned (R52, R54; spec/41_bit_and_symbol_coding.md R111;
spec/44_occupancy.md R180; spec/45_host_support.md R196, R198; spec/60_exceptions.md R215). -/

namespace Sys2Proof.Machine

/-! ### The host's byte view of BM (R58) -/

/-- A record is the number its four bytes form, the last the most significant. -/
theorem State.bmRecord_toNat (s : State) (i : Nat) :
    (s.bmRecord i).toNat =
      (((s.bmByte (4 * i + 3)).toNat * 2 ^ 8 + (s.bmByte (4 * i + 2)).toNat) * 2 ^ 8 +
        (s.bmByte (4 * i + 1)).toNat) * 2 ^ 8 + (s.bmByte (4 * i)).toNat := by
  unfold State.bmRecord
  simp only [toNat_append_eq]

/-- The four bytes of a record that exists are inside the host's view. -/
theorem State.observeBmByte_of_lt {s : State} {i k : Nat} (hi : i < s.params.nblk) (hk : k < 4) :
    s.observeBmByte (4 * i + k) = some (s.bmByte (4 * i + k)) := if_pos (by omega)

/-- Settles O11: a record is the number of its four bytes, so each byte is the field of the record at its place. -/
theorem recordsAreLittleEndianBytes : Obligations.RecordsAreLittleEndianBytes := by
  intro s i hi
  have hrecord := s.bmRecord_toNat i
  have h0 := (s.bmByte (4 * i)).isLt
  have h1 := (s.bmByte (4 * i + 1)).isLt
  have h2 := (s.bmByte (4 * i + 2)).isLt
  have field {k lo : Nat} (hk : k < 4) (h : (s.bmRecord i).toNat / 2 ^ lo % 2 ^ 8 = (s.bmByte (4 * i + k)).toNat) :
      s.observeBmByte (4 * i + k) = some ((s.bmRecord i).extractLsb' lo 8) := by
    rw [State.observeBmByte_of_lt hi hk, extractLsb'_eq_of_toNat h]
  refine ⟨field (k := 0) (by omega) ?_, field (k := 1) (by omega) ?_, field (k := 2) (by omega) ?_,
    field (k := 3) (by omega) ?_⟩
  · rw [Nat.add_zero]
    omega
  · omega
  · omega
  · omega

/-! ### Commands that write neither memory -/

/-- Both memories, and the epoch that selects their free contents, are the same in both states. -/
def SameMemories (s t : State) : Prop := t.cb = s.cb ∧ t.bm = s.bm ∧ t.memEpoch = s.memEpoch

theorem SameMemories.frame : Frame SameMemories where
  refl _ := ⟨rfl, rfl, rfl⟩
  trans _ _ _ := fun ⟨hcb, hbm, he⟩ ⟨kcb, kbm, ke⟩ => ⟨kcb.trans hcb, kbm.trans hbm, ke.trans he⟩

theorem SameMemories.cbByte_eq {s t : State} (h : SameMemories s t) (a : Nat) : t.cbByte a = s.cbByte a :=
  State.cbByte_congr h.1 h.2.2 a

theorem SameMemories.bmRecord_eq {s t : State} (h : SameMemories s t) (i : Nat) : t.bmRecord i = s.bmRecord i :=
  State.bmRecord_congr h.2.1 h.2.2 i

theorem DecCodes.sameMemories {s t : State} (h : DecCodes s t) : SameMemories s t := by
  unfold DecCodes at h
  rw [h]
  exact ⟨rfl, rfl, rfl⟩

theorem State.csrWrite_sameMemories {s t : State} {c : Csr} {v : Word} (h : s.csrWrite c v = some t) :
    SameMemories s t := by
  rw [State.csrWrite_frame h]
  exact ⟨rfl, rfl, rfl⟩

theorem csrwBody_sameMemories (ra : Reg) (f : BitVec 8) : Cmd.Keeps SameMemories (csrwBody ra f) :=
  Frame.get_bind fun s => by
    cases hw : s.csrWriteNumber f (s.reg ra) with
    | none => exact SameMemories.frame.refl s
    | some t =>
      show SameMemories s t
      unfold State.csrWriteNumber at hw
      split at hw
      · exact State.csrWrite_sameMemories hw
      · cases hw

/-! ### What the encoder writes (R52, R111, R112) -/

/-- Every record of BM is the same, the window is the same, and if it lies in CB with `PTR` inside, then `PTR` stays
inside and no byte of CB outside the window differs. -/
structure EncWrites (s t : State) : Prop where
  record : ∀ i, t.bmRecord i = s.bmRecord i
  params : t.params = s.params
  wbase : t.wbase = s.wbase
  wlen : t.wlen = s.wlen
  window : s.windowFits → s.ptr.toNat ≤ s.wlen.toNat →
    t.ptr.toNat ≤ t.wlen.toNat ∧
      ∀ a, (a < s.wbase.toNat ∨ s.wbase.toNat + s.wlen.toNat ≤ a) → t.cbByte a = s.cbByte a

theorem EncWrites.frame : Frame EncWrites where
  refl _ := ⟨fun _ => rfl, rfl, rfl, rfl, fun _ hp => ⟨hp, fun _ _ => rfl⟩⟩
  trans s t u h k := by
    refine ⟨fun i => (k.record i).trans (h.record i), k.params.trans h.params, k.wbase.trans h.wbase,
      k.wlen.trans h.wlen, fun hw hp => ?_⟩
    obtain ⟨hpt, hout⟩ := h.window hw hp
    have hwt : t.windowFits := by
      unfold State.windowFits
      rw [h.params, h.wbase, h.wlen]
      exact hw
    obtain ⟨hpu, hout'⟩ := k.window hwt hpt
    rw [h.wbase, h.wlen] at hout'
    exact ⟨hpu, fun a ha => (hout' a ha).trans (hout a ha)⟩

/-- A change of neither memory that moves neither the window nor `PTR`. -/
theorem EncWrites.of_sameMemories {s t : State} (h : SameMemories s t) (hparams : t.params = s.params)
    (hwbase : t.wbase = s.wbase) (hwlen : t.wlen = s.wlen) (hptr : t.ptr = s.ptr) : EncWrites s t :=
  ⟨h.bmRecord_eq, hparams, hwbase, hwlen, fun _ hp => ⟨by rw [hptr, hwlen]; exact hp, fun a _ => h.cbByte_eq a⟩⟩

/-- A part of the interval coder moves only what `EncMoves` says; what is left to show is what it writes to CB. -/
theorem EncMoves.encWrites {s t : State} (h : EncMoves s t)
    (hcb : s.windowFits → s.ptr.toNat ≤ s.wlen.toNat →
      t.ptr.toNat ≤ s.wlen.toNat ∧
        ∀ a, (a < s.wbase.toNat ∨ s.wbase.toNat + s.wlen.toNat ≤ a) → t.cbByte a = s.cbByte a) :
    EncWrites s t := by
  obtain ⟨hbm, hepoch, hparams, hwbase, hwlen⟩ : t.bm = s.bm ∧ t.memEpoch = s.memEpoch ∧ t.params = s.params ∧
      t.wbase = s.wbase ∧ t.wlen = s.wlen := by
    unfold EncMoves at h
    rw [h]
    exact ⟨rfl, rfl, rfl, rfl, rfl⟩
  refine ⟨State.bmRecord_congr hbm hepoch, hparams, hwbase, hwlen, fun hw hp => ?_⟩
  rw [hwlen]
  exact hcb hw hp

/-- `put_byte` writes at `PTR`, below the end of the window, and moves `PTR` on by one (R111). -/
theorem putByte_encWrites (b : Byte) : Cmd.Keeps EncWrites (putByte b) := fun s => by
  refine (putByte_encMoves b s).encWrites fun hw hp => ?_
  rw [putByte_run hw]
  split
  next hlt =>
    have hnext : (s.ptr + 1#32).toNat = s.ptr.toNat + 1 := Word.succ_toNat hlt s.wlen.isLt
    exact ⟨hnext.trans_le hlt, fun a ha => s.setCbByte_cbByte_of_ne b (by omega)⟩
  next => exact ⟨hp, fun _ _ => rfl⟩

/-- A carry that begins at or below the end of the window stays inside it, and no carry moves `PTR` (R112). -/
theorem carryFrom_writes {s : State} (hw : s.windowFits) {n : Nat} (hn : n ≤ s.wlen.toNat) :
    (EndState (carryFrom n s)).ptr = s.ptr ∧
      ∀ a, (a < s.wbase.toNat ∨ s.wbase.toNat + s.wlen.toNat ≤ a) →
        (EndState (carryFrom n s)).cbByte a = s.cbByte a := by
  induction n generalizing s with
  | zero => exact ⟨rfl, fun _ _ => rfl⟩
  | succ i ih =>
    have haddr : s.windowAddr (BitVec.ofNat 32 i) = s.wbase.toNat + i := State.windowAddr_ofNat hw (by omega)
    have hlt : s.wbase.toNat + i < s.params.cbSize := by omega
    unfold carryFrom
    simp only [Cmd.get_bind_run, haddr]
    rw [Cmd.bind_of_ok (memRead_of_lt hlt)]
    split
    · rw [Cmd.bind_of_ok (memWrite_of_lt _ hlt)]
      obtain ⟨hptr, hout⟩ := ih (s := s.setCbByte _ 0x00#8) hw (Nat.le_of_succ_le hn)
      exact ⟨hptr, fun a ha => (hout a ha).trans (s.setCbByte_cbByte_of_ne _ (by omega))⟩
    · rw [memWrite_of_lt _ hlt]
      exact ⟨rfl, fun a ha => s.setCbByte_cbByte_of_ne _ (by omega)⟩

theorem propagateCarry_encWrites : Cmd.Keeps EncWrites propagateCarry := fun s =>
  (propagateCarry_encMoves s).encWrites fun hw hp => by
    obtain ⟨hptr, hout⟩ := carryFrom_writes hw hp
    exact ⟨(congrArg BitVec.toNat hptr).trans_le hp, hout⟩

/-- The interval moved by the encoder. -/
theorem EncWrites.interval (s : State) (low range : Word) : EncWrites s { s with low := low, range := range } :=
  .of_sameMemories ⟨rfl, rfl, rfl⟩ rfl rfl rfl rfl

theorem renormEncLoop_encWrites (fuel : Nat) : Cmd.Keeps EncWrites (renormEncLoop fuel) := by
  have h := EncWrites.frame
  induction fuel with
  | zero => exact h.pure ()
  | succ k ih =>
    exact h.bind h.get fun _ => h.bind (putByte_encWrites _) fun _ =>
      h.bind (Frame.update fun s => .interval s _ _) fun _ => h.bind h.get fun _ => Frame.ite (h.pure ()) ih

theorem renormEnc_encWrites : Cmd.Keeps EncWrites renormEnc :=
  EncWrites.frame.bind EncWrites.frame.get fun _ => renormEncLoop_encWrites _

theorem renormEncIfSmall_encWrites : Cmd.Keeps EncWrites renormEncIfSmall :=
  EncWrites.frame.bind EncWrites.frame.get fun _ => Frame.ite renormEnc_encWrites (EncWrites.frame.pure ())

theorem addLow_encWrites (x r : Word) : Cmd.Keeps EncWrites (addLow x r) :=
  Frame.get_bind fun s => EncWrites.frame.set_bind (.interval s _ _)
    (Frame.ite propagateCarry_encWrites (EncWrites.frame.pure ()))

theorem encBit_encWrites (bit : Bool) (p0 : BitVec 13) : Cmd.Keeps EncWrites (encBit bit p0) := fun s => by
  rw [encBit_eq]
  exact EncWrites.frame.bind (addLow_encWrites _ _) (fun _ => renormEncIfSmall_encWrites) s

theorem encBitA_encWrites (m : Nat) (bit : Bool) : Cmd.Keeps EncWrites (encBitA m bit) :=
  EncWrites.frame.bind EncWrites.frame.get fun _ => EncWrites.frame.bind (encBit_encWrites _ _) fun _ =>
    Frame.update fun _ => .of_sameMemories ⟨rfl, rfl, rfl⟩ rfl rfl rfl rfl

theorem encSym_encWrites (k j : Nat) : Cmd.Keeps EncWrites (encSym k j) :=
  EncWrites.frame.bind EncWrites.frame.get fun _ => EncWrites.frame.bind (addLow_encWrites _ _) fun _ =>
    EncWrites.frame.bind renormEncIfSmall_encWrites fun _ =>
      Frame.update fun _ => .of_sameMemories ⟨rfl, rfl, rfl⟩ rfl rfl rfl rfl

theorem encBitsUp_encWrites (v lo count : Nat) : Cmd.Keeps EncWrites (encBitsUp v lo count) :=
  EncWrites.frame.forUp (fun _ => encBit_encWrites _ _) lo count

theorem encBitsDown_encWrites (v count : Nat) : Cmd.Keeps EncWrites (encBitsDown v count) := by
  induction count with
  | zero => exact EncWrites.frame.pure ()
  | succ i ih => exact EncWrites.frame.bind (encBit_encWrites _ _) fun _ => ih

theorem encEg0_encWrites (u : Word) (m : Nat) : Cmd.Keeps EncWrites (encEg0 u m) :=
  EncWrites.frame.bind (EncWrites.frame.forUp (fun _ => encBitA_encWrites _ _) _ _) fun _ =>
    EncWrites.frame.bind (encBitA_encWrites _ _) fun _ => encBitsDown_encWrites _ _

theorem occEncBlock_encWrites (o : OccModels) (occupied : Bool) (r : Word) :
    Cmd.Keeps EncWrites (occEncBlock o occupied r) := by
  have h := EncWrites.frame
  have hfields : Cmd.Keeps EncWrites (occEncFields o r) :=
    h.bind (encBitA_encWrites _ _) fun _ => h.bind (h.onlyIf _ (encSym_encWrites _ _)) fun _ =>
      h.bind (encSym_encWrites _ _) fun _ => h.onlyIf _ (encBitA_encWrites _ _)
  exact h.bind (h.check _ _ _) fun _ => h.bind (encBitA_encWrites _ _) fun _ => h.onlyIf _ hfields

theorem encPatchBlock_encWrites (o : OccModels) (pos : Nat) : Cmd.Keeps EncWrites (encPatchBlock o pos) :=
  EncWrites.frame.bind EncWrites.frame.get fun _ =>
    EncWrites.frame.bind (mapRead_keeps EncWrites.frame pos) fun _ => occEncBlock_encWrites _ _ _

theorem terminate_encWrites : Cmd.Keeps EncWrites terminate :=
  EncWrites.frame.bind EncWrites.frame.get fun _ => Frame.ite (addLow_encWrites _ _) (addLow_encWrites _ _)

theorem writeReg_encWrites (r : Reg) (v : Word) : Cmd.Keeps EncWrites (writeReg r v) :=
  Frame.update fun _ => .of_sameMemories ⟨rfl, rfl, rfl⟩ rfl rfl rfl rfl

theorem setMode_encWrites (m : Mode) : Cmd.Keeps EncWrites (setMode m) :=
  Frame.update fun _ => .of_sameMemories ⟨rfl, rfl, rfl⟩ rfl rfl rfl rfl

/-- Nothing at all, or what the encoder writes in an encode session. -/
def EncSession (s t : State) : Prop := t = s ∨ (s.mode = .enc ∧ EncWrites s t)

theorem EncSession.frame : Frame EncSession where
  refl _ := .inl rfl
  trans s t u := by
    rintro (rfl | ⟨hm, h⟩) (rfl | ⟨hm', k⟩)
    · exact .inl rfl
    · exact .inr ⟨hm', k⟩
    · exact .inr ⟨hm, h⟩
    · exact .inr ⟨hm, EncWrites.frame.trans _ _ _ h k⟩

/-- A command that needs an encode session writes only in one (spec/60_exceptions.md R219). -/
theorem needMode_enc_bind {f : Unit → Cmd Unit} (hf : Cmd.Keeps EncWrites (f ())) :
    Cmd.Keeps EncSession (needMode .enc >>= f) := fun s => by
  by_cases hm : s.mode = .enc
  · rw [Cmd.bind_of_ok ((needMode_run _ s).trans (if_pos hm))]
    exact .inr ⟨hm, hf s⟩
  · rw [Cmd.bind_of_error ((needMode_run _ s).trans (if_neg hm))]
    exact .inl rfl

/-! ### What `STCB` and `STBM` write (spec/45_host_support.md R196, R198) -/

theorem stcbBody_end (ra rb : Reg) (s : State) :
    EndState (stcbBody ra rb s) = s ∨
      EndState (stcbBody ra rb s) = s.setCbByte (s.reg rb).toNat (lowByte (s.reg ra)) := by
  unfold stcbBody
  rw [Cmd.get_bind_run]
  by_cases ha : (s.reg rb).toNat < s.params.cbSize
  · rw [Cmd.bind_of_ok (check_of ha _ _ s), memWrite_of_lt _ ha]
    exact .inr rfl
  · rw [Cmd.bind_of_error (check_of_not ha _ _ s)]
    exact .inl rfl

/-- `STCB` changes no byte of CB but the one it addresses. -/
theorem stcbBody_cbByte (ra rb : Reg) (s : State) {a : Nat} (ha : a ≠ (s.reg rb).toNat) :
    (EndState (stcbBody ra rb s)).cbByte a = s.cbByte a := by
  rcases stcbBody_end ra rb s with h | h <;> rw [h]
  exact s.setCbByte_cbByte_of_ne _ ha

theorem stcbBody_bmRecord (ra rb : Reg) (s : State) (i : Nat) :
    (EndState (stcbBody ra rb s)).bmRecord i = s.bmRecord i := by
  rcases stcbBody_end ra rb s with h | h <;> rw [h]
  rfl

theorem stbmBody_end (ra rb : Reg) (s : State) :
    EndState (stbmBody ra rb s) = s ∨ EndState (stbmBody ra rb s) = s.setBmRecord (s.reg rb).toNat (s.reg ra) := by
  unfold stbmBody
  rw [Cmd.get_bind_run]
  by_cases hi : (s.reg rb).toNat < s.params.nblk
  · rw [Cmd.bind_of_ok (check_of hi _ _ s), mapWrite_of_lt _ hi]
    exact .inr rfl
  · rw [Cmd.bind_of_error (check_of_not hi _ _ s)]
    exact .inl rfl

/-- `STBM` changes no record of BM but the one it addresses. -/
theorem stbmBody_bmRecord (ra rb : Reg) (s : State) {i : Nat} (hi : i ≠ (s.reg rb).toNat) :
    (EndState (stbmBody ra rb s)).bmRecord i = s.bmRecord i := by
  rcases stbmBody_end ra rb s with h | h <;> rw [h]
  exact s.setBmRecord_bmRecord_of_ne _ hi

theorem stbmBody_cbByte (ra rb : Reg) (s : State) (a : Nat) :
    (EndState (stbmBody ra rb s)).cbByte a = s.cbByte a := by
  rcases stbmBody_end ra rb s with h | h <;> rw [h]
  rfl

/-! ### What `OCC_DEC_PATCH` writes (R54; spec/44_occupancy.md R177, R180) -/

/-- A record of BM that differs is one of the given blocks. -/
def RecordsIn (blocks : List Nat) (s t : State) : Prop := ∀ i, i ∉ blocks → t.bmRecord i = s.bmRecord i

theorem RecordsIn.frame (blocks : List Nat) : Frame (RecordsIn blocks) where
  refl _ _ _ := rfl
  trans _ _ _ h k i hi := (k i hi).trans (h i hi)

theorem SameMemories.recordsIn {s t : State} (h : SameMemories s t) (blocks : List Nat) : RecordsIn blocks s t :=
  fun i _ => h.bmRecord_eq i

theorem mapWrite_recordsIn {blocks : List Nat} {pos : Nat} (hpos : pos ∈ blocks) (v : Word) :
    Cmd.Keeps (RecordsIn blocks) (mapWrite pos v) := fun s => by
  rw [mapWrite_run]
  split
  · exact fun i hi => s.setBmRecord_bmRecord_of_ne v fun e => hi (e ▸ hpos)
  · exact (RecordsIn.frame blocks).refl s

theorem decPatchBlock_recordsIn {blocks : List Nat} {pos : Nat} (hpos : pos ∈ blocks) (o : OccModels) :
    Cmd.Keeps (RecordsIn blocks) (decPatchBlock o pos) := by
  have h := RecordsIn.frame blocks
  have hblock (old : Word) : Cmd.Keeps (RecordsIn blocks) (occDecBlock o old) :=
    (occDecBlock_decCodes o old).mono fun _ _ hc => hc.sameMemories.recordsIn blocks
  exact h.bind h.get fun _ => h.bind (mapRead_keeps h pos) fun _ => h.bind (hblock _) fun _ =>
    h.onlyIf _ (mapWrite_recordsIn hpos _)

/-- A loop keeps what its body keeps at the numbers it runs through. -/
theorem Frame.forUp_range {R : State → State → Prop} (h : Frame R) {body : Nat → Cmd Unit} {first count : Nat}
    (hb : ∀ i, first ≤ i → i < first + count → Cmd.Keeps R (body i)) :
    Cmd.Keeps R (Machine.forUp first count body) := by
  induction count generalizing first with
  | zero => exact h.pure ()
  | succ k ih =>
    rw [forUp_succ]
    exact h.bind (hb first (Nat.le_refl _) (by omega)) fun _ => ih fun i hlo hhi => hb i (by omega) (by omega)

theorem State.mem_patchBlocks {s : State} {u0 v0 : Nat} (hu : u0 < s.pszu.toNat) (hv : v0 < s.pszv.toNat) :
    s.blockPos u0 v0 ∈ s.patchBlocks :=
  List.mem_flatMap.mpr ⟨v0, List.mem_range.mpr hv, List.mem_map.mpr ⟨u0, List.mem_range.mpr hu, rfl⟩⟩

/-- A record of BM that differs belongs to the footprint of the patch registers, which are the same. -/
def FootprintWrites (s t : State) : Prop := t.patchBlocks = s.patchBlocks ∧ RecordsIn s.patchBlocks s t

theorem FootprintWrites.frame : Frame FootprintWrites where
  refl s := ⟨rfl, (RecordsIn.frame _).refl s⟩
  trans s t u := by
    rintro ⟨hblocks, h⟩ ⟨kblocks, k⟩
    rw [hblocks] at k
    exact ⟨kblocks.trans hblocks, (RecordsIn.frame _).trans _ _ _ h k⟩

theorem PatchCodes.patchBlocks_eq {s t : State} (h : PatchCodes s t) : t.patchBlocks = s.patchBlocks := by
  unfold PatchCodes at h
  rw [h]
  rfl

/-- The scan of R177 stays inside the footprint. -/
theorem scanPatch_footprintWrites (o : OccModels) : Cmd.Keeps FootprintWrites (scanPatch (decPatchBlock o)) :=
  fun s => by
    refine ⟨(scanPatch_keeps PatchCodes.frame (decPatchBlock_patchCodes o) s).patchBlocks_eq, ?_⟩
    have h := RecordsIn.frame s.patchBlocks
    unfold scanPatch
    rw [Cmd.get_bind_run]
    refine h.forUp_range (fun v0 _ hv => h.forUp_range fun u0 _ hu => ?_) s
    exact decPatchBlock_recordsIn (State.mem_patchBlocks (by omega) (by omega)) o

theorem occDecPatchBody_footprintWrites : Cmd.Keeps FootprintWrites occDecPatchBody :=
  have h := FootprintWrites.frame
  h.bind (needMode_keeps h _) fun _ => h.bind (occModels_keeps h) fun _ => h.bind (patchCheck_keeps h) fun _ =>
    scanPatch_footprintWrites _

theorem PatchCodes.cbByte_eq {s t : State} (h : PatchCodes s t) (a : Nat) : t.cbByte a = s.cbByte a := by
  unfold PatchCodes at h
  rw [h]
  rfl

theorem occDecPatchBody_patchCodes : Cmd.Keeps PatchCodes occDecPatchBody :=
  have h := PatchCodes.frame
  h.bind (needMode_keeps h _) fun _ => h.bind (occModels_keeps h) fun _ => h.bind (patchCheck_keeps h) fun _ =>
    scanPatch_keeps h (decPatchBlock_patchCodes _)

/-! ### What each command writes -/

/-- Which memory the pseudocode of a command writes: neither, CB inside the window of an encode session, the byte or the
record that the command addresses, or BM inside the footprint of a patch. -/
inductive MemoryUse : Instr → Prop where
  | neither {i : Instr} : Cmd.Keeps SameMemories (bodyOf i) → MemoryUse i
  | window {i : Instr} : i.needs = some .enc → Cmd.Keeps EncSession (bodyOf i) → MemoryUse i
  | byte (ra rb : Reg) : MemoryUse (.stcb ra rb)
  | record (ra rb : Reg) : MemoryUse (.stbm ra rb)
  | footprint : MemoryUse .occDecPatch

theorem writeReg_sameMemories (r : Reg) (v : Word) : Cmd.Keeps SameMemories (writeReg r v) :=
  Frame.update fun _ => ⟨rfl, rfl, rfl⟩

/-- Every command writes at most one of the two memories, and only there. -/
theorem memoryUse (i : Instr) : MemoryUse i := by
  have h := SameMemories.frame
  have e := EncWrites.frame
  have reg := writeReg_sameMemories
  have mode (m : Mode) : Cmd.Keeps SameMemories (setMode m) := Frame.update fun _ => ⟨rfl, rfl, rfl⟩
  have window (base len : Word) : Cmd.Keeps SameMemories (modify (fun t => t.openWindow base len) : Cmd Unit) :=
    Frame.update fun _ => ⟨rfl, rfl, rfl⟩
  have dec {α : Type} {c : Cmd α} (hc : Cmd.Keeps DecCodes c) : Cmd.Keeps SameMemories c :=
    hc.mono fun _ _ => DecCodes.sameMemories
  have decM {α : Type} {c : Cmd α} (hc : Cmd.Keeps DecMoves c) : Cmd.Keeps SameMemories c :=
    dec (hc.mono fun _ _ => DecMoves.codes)
  cases i with
  | stcb ra rb => exact .byte ra rb
  | stbm ra rb => exact .record ra rb
  | occDecPatch => exact .footprint
  | nop => exact .neither (h.pure ())
  | li ra imm => exact .neither (reg _ _)
  | lih ra imm => exact .neither (h.bind (readReg_keeps h _) fun _ => reg _ _)
  | csrr ra f =>
    refine .neither (h.bind h.get fun s => ?_)
    cases Csr.ofNumber f with
    | some c => exact reg _ _
    | none => exact h.raise _ _
  | csrw ra f => exact .neither (csrwBody_sameMemories ra f)
  | ldcb ra rb =>
    exact .neither (h.bind h.get fun _ => h.bind (h.check _ _ _) fun _ => h.bind (memRead_keeps h _) fun _ => reg _ _)
  | ldbm ra rb =>
    exact .neither (h.bind h.get fun _ => h.bind (h.check _ _ _) fun _ => h.bind (mapRead_keeps h _) fun _ => reg _ _)
  | encStart ra rb =>
    exact .neither (h.bind (needMode_keeps h _) fun _ => h.bind h.get fun _ => h.bind (needWindow_keeps h _ _) fun _ =>
      h.bind (window _ _) fun _ => mode _)
  | decStart ra rb =>
    exact .neither (h.bind (needMode_keeps h _) fun _ => h.bind h.get fun _ => h.bind (needWindow_keeps h _ _) fun _ =>
      h.bind (window _ _) fun _ => h.bind (h.forUp (fun _ => decM loadByte_decMoves) _ _) fun _ => mode _)
  | decStop => exact .neither (h.bind (needMode_keeps h _) fun _ => mode _)
  | abmReset m => exact .neither (h.bind (needAbm_keeps h _) fun _ => Frame.update fun _ => ⟨rfl, rfl, rfl⟩)
  | admInit m f =>
    exact .neither (h.bind (needAdm_keeps h _) fun _ => h.bind (needAlphabet_keeps h _) fun _ =>
      Frame.update fun _ => ⟨rfl, rfl, rfl⟩)
  | admReset m => exact .neither (h.bind (needAdmInit_keeps h _) fun _ => Frame.update fun _ => ⟨rfl, rfl, rfl⟩)
  | allReset => exact .neither (Frame.update fun _ => ⟨rfl, rfl, rfl⟩)
  | decBitA ra m =>
    exact .neither (h.bind (needMode_keeps h _) fun _ => h.bind (needAbm_keeps h _) fun _ =>
      h.bind (dec (decBitA_decCodes _)) fun _ => reg _ _)
  | decBitS ra =>
    exact .neither (h.bind (needMode_keeps h _) fun _ => h.bind (decM (decBit_decMoves _)) fun _ => reg _ _)
  | decSym ra m =>
    exact .neither (h.bind (needMode_keeps h _) fun _ => h.bind (needAdmInit_keeps h _) fun _ =>
      h.bind (dec (decSym_decCodes _)) fun _ => reg _ _)
  | decUint ra f =>
    exact .neither (h.bind (needCount_keeps h _) fun _ => h.bind (needMode_keeps h _) fun _ =>
      h.bind (decM (decBitsUp_decMoves _ _ _)) fun _ => reg _ _)
  | zzenc ra rb => exact .neither (h.bind (readReg_keeps h _) fun _ => reg _ _)
  | zzdec ra rb => exact .neither (h.bind (readReg_keeps h _) fun _ => reg _ _)
  | decEg0 ra m =>
    exact .neither (h.bind (needMode_keeps h _) fun _ => h.bind (needAbm_keeps h _) fun _ =>
      h.bind (dec (decEg0_decCodes _)) fun _ => reg _ _)
  | decSdelta ra m =>
    exact .neither (h.bind (needMode_keeps h _) fun _ => h.bind (needAbm_keeps h _) fun _ =>
      h.bind (dec (decEg0_decCodes _)) fun _ => reg _ _)
  | occDecBlk ra =>
    exact .neither (h.bind (needMode_keeps h _) fun _ => h.bind (occModels_keeps h) fun _ =>
      h.bind (dec (occDecBlock_decCodes _ _)) fun _ => reg _ _)
  | encStop ra =>
    exact .window rfl (needMode_enc_bind (e.bind terminate_encWrites fun _ => e.bind renormEnc_encWrites fun _ =>
      e.bind e.get fun _ => e.bind (writeReg_encWrites _ _) fun _ => setMode_encWrites _))
  | encBitA ra m =>
    exact .window rfl (needMode_enc_bind (e.bind (needAbm_keeps e _) fun _ => e.bind (needBit_keeps e _) fun _ =>
      e.bind e.get fun _ => encBitA_encWrites _ _))
  | encBitS ra =>
    exact .window rfl (needMode_enc_bind (e.bind (needBit_keeps e _) fun _ => e.bind e.get fun _ =>
      encBit_encWrites _ _))
  | encSym ra m =>
    exact .window rfl (needMode_enc_bind (e.bind (needAdmInit_keeps e _) fun _ =>
      e.bind (needSymbol_keeps e _ _) fun _ => e.bind e.get fun _ => encSym_encWrites _ _))
  | encUint ra f =>
    have hsession := EncSession.frame
    exact .window rfl (hsession.bind (needCount_keeps hsession f) fun _ => needMode_enc_bind
      (e.bind (needFits_keeps e _ _) fun _ => e.bind e.get fun _ => encBitsUp_encWrites _ _ _))
  | encEg0 ra m =>
    exact .window rfl (needMode_enc_bind (e.bind (needAbm_keeps e _) fun _ => e.bind e.get fun _ =>
      encEg0_encWrites _ _))
  | encSdelta ra m =>
    exact .window rfl (needMode_enc_bind (e.bind (needAbm_keeps e _) fun _ => e.bind e.get fun _ =>
      encEg0_encWrites _ _))
  | occEncBlk ra =>
    exact .window rfl (needMode_enc_bind (e.bind (occModels_keeps e) fun _ => e.bind (readReg_keeps e _) fun _ =>
      occEncBlock_encWrites _ _ _))
  | occEncPatch =>
    exact .window rfl (needMode_enc_bind (e.bind (occModels_keeps e) fun _ => e.bind (patchCheck_keeps e) fun _ =>
      scanPatch_keeps e (encPatchBlock_encWrites _)))

/-- After a command both memories are as before it, or as its pseudocode left them. -/
theorem exec_memories {i : Instr} {s u : State} (h : exec i s = .next u) :
    SameMemories s u ∨ (s.fault = false ∧ SameMemories (EndState (bodyOf i s)) u) := by
  rcases exec_outcome h with ⟨_, rfl⟩ | ⟨hf, t, ht, _, rfl⟩ | ⟨hf, f, info, t, ht, _, rfl⟩
  · exact .inl ⟨rfl, rfl, rfl⟩
  · rw [ht]
    exact .inr ⟨hf, rfl, rfl, rfl⟩
  · rw [ht]
    exact .inr ⟨hf, rfl, rfl, rfl⟩

/-- A byte of CB that a command changed is one its pseudocode changed. -/
theorem exec_cbByte_ne {i : Instr} {s u : State} {a : Nat} (h : exec i s = .next u) (hne : u.cbByte a ≠ s.cbByte a) :
    s.fault = false ∧ (EndState (bodyOf i s)).cbByte a ≠ s.cbByte a := by
  rcases exec_memories h with hsame | ⟨hf, hsame⟩
  · exact absurd (hsame.cbByte_eq a) hne
  · rw [hsame.cbByte_eq a] at hne
    exact ⟨hf, hne⟩

/-- A record of BM that a command changed is one its pseudocode changed. -/
theorem exec_bmRecord_ne {i : Instr} {s u : State} {a : Nat} (h : exec i s = .next u)
    (hne : u.bmRecord a ≠ s.bmRecord a) : (EndState (bodyOf i s)).bmRecord a ≠ s.bmRecord a := by
  rcases exec_memories h with hsame | ⟨_, hsame⟩
  · exact absurd (hsame.bmRecord_eq a) hne
  · rw [hsame.bmRecord_eq a] at hne
    exact hne

/-- Between commands an encode session stands in its window (R51; spec/10_state.md R28). -/
theorem State.Inv.encWindow {s : State} (h : s.Inv) (hf : s.fault = false) (hm : s.mode = .enc) : s.EncWindow := by
  obtain ⟨hstored, _, hsession⟩ := s.inv_iff.mp h
  have hsound : s.Sound := ⟨hstored, hsession hf⟩
  exact (hsound.encOpen hm).toEncWindow

/-- Settles O24: by what each command writes; the invariant puts `PTR` inside the window, where the encoder keeps it. -/
theorem commandsWriteCbOnlyInTheWindow : Obligations.CommandsWriteCbOnlyInTheWindow := by
  intro i s u a hinv hexec hne
  obtain ⟨hf, hbody⟩ := exec_cbByte_ne hexec hne
  cases memoryUse i with
  | neither hkeeps => exact absurd ((hkeeps s).cbByte_eq a) hbody
  | window hneeds hkeeps =>
    rcases hkeeps s with hsame | ⟨hm, hwrites⟩
    · rw [hsame] at hbody
      exact absurd rfl hbody
    · have hwindow := hinv.encWindow hf hm
      obtain ⟨_, hout⟩ := hwrites.window (hwindow.stored.windowFits hwindow.window) hwindow.ptr
      have hin := mt (hout a) hbody
      exact .inr ⟨hneeds, hm, by omega, by omega⟩
  | byte ra rb => exact .inl ⟨ra, rb, rfl, by_contra fun ha => hbody (stcbBody_cbByte ra rb s ha)⟩
  | record ra rb => exact absurd (stbmBody_cbByte ra rb s a) hbody
  | footprint => exact absurd ((occDecPatchBody_patchCodes s).cbByte_eq a) hbody

/-- Settles O25: by what each command writes. -/
theorem commandsWriteBmOnlyInTheFootprint : Obligations.CommandsWriteBmOnlyInTheFootprint := by
  intro i s u a hexec hne
  have hbody := exec_bmRecord_ne hexec hne
  cases memoryUse i with
  | neither hkeeps => exact absurd ((hkeeps s).bmRecord_eq a) hbody
  | window hneeds hkeeps =>
    rcases hkeeps s with hsame | ⟨_, hwrites⟩
    · rw [hsame] at hbody
      exact absurd rfl hbody
    · exact absurd (hwrites.record a) hbody
  | byte ra rb => exact absurd (stcbBody_bmRecord ra rb s a) hbody
  | record ra rb => exact .inl ⟨ra, rb, rfl, by_contra fun ha => hbody (stbmBody_bmRecord ra rb s ha)⟩
  | footprint =>
    obtain ⟨_, hrecords⟩ := occDecPatchBody_footprintWrites s
    exact .inr ⟨rfl, by_contra fun ha => hbody (hrecords a ha)⟩

end Sys2Proof.Machine
end

section
/-! The command words (spec/30_encoding.md R70 to R75, R80): the decoder by opcode, format and operands, the encoder as
its inverse, and the words that are illegal; and the general register that a command writes (R74; spec/10_state.md R21). -/

namespace Sys2Proof

/-! ### The format of each command, and its words (R71, R74) -/

/-- The format of an instruction's row (R74). -/
def Instr.format (i : Instr) : Format :=
  match i with
  | .nop | .decStop | .allReset | .occEncPatch | .occDecPatch => .z
  | .encStop _ | .encBitS _ | .decBitS _ | .occEncBlk _ | .occDecBlk _ => .a
  | .ldcb _ _ | .stcb _ _ | .ldbm _ _ | .stbm _ _ | .encStart _ _ | .decStart _ _ | .zzenc _ _ | .zzdec _ _ => .ab
  | .encBitA _ _ | .decBitA _ _ | .encSym _ _ | .decSym _ _ | .encEg0 _ _ | .decEg0 _ _ | .encSdelta _ _
  | .decSdelta _ _ => .am
  | .abmReset _ | .admReset _ => .m
  | .admInit _ _ => .mf
  | .csrr _ _ | .csrw _ _ | .encUint _ _ | .decUint _ _ => .af
  | .li _ _ | .lih _ _ => .i

/-- The word of a format with a given opcode whose operand fields are those of `cw` (R70, R71). -/
def Format.word (fmt : Format) (op : BitVec 8) (cw : Word) : Word :=
  match fmt with
  | .z => cmdWord op 0#4 0#4 0#8 0#8
  | .a => cmdWord op (raField cw) 0#4 0#8 0#8
  | .ab => cmdWord op (raField cw) (rbField cw) 0#8 0#8
  | .am => cmdWord op (raField cw) 0#4 (mField cw) 0#8
  | .m => cmdWord op 0#4 0#4 (mField cw) 0#8
  | .mf => cmdWord op 0#4 0#4 (mField cw) (fField cw)
  | .af => cmdWord op (raField cw) 0#4 0#8 (fField cw)
  | .i => cmdWordImm op (raField cw) (immField cw)

@[simp] theorem Format.opField_word (fmt : Format) (op : BitVec 8) (cw : Word) : opField (fmt.word op cw) = op := by
  cases fmt <;> simp [Format.word]

theorem Format.word_mbz (fmt : Format) (op : BitVec 8) (cw : Word) : fmt.word op cw &&& fmt.mbz = 0#32 := by
  rw [mbz_eq_zero_iff]
  cases fmt <;> simp [Format.word]

/-- A word whose must-be-zero bits are zero is its opcode and its operands. -/
theorem Format.word_eq_self {fmt : Format} {cw : Word} (h : cw &&& fmt.mbz = 0#32) :
    fmt.word (opField cw) cw = cw := by
  rw [mbz_eq_zero_iff] at h
  cases fmt with
  | i => exact cmdWordImm_fields h
  | _ =>
    conv_rhs => rw [← cmdWord_fields cw]
    simp only [Format.word, cmdWord_inj]
    simp [h]

/-! ### The operands of a word -/

/-- The command of the same row as `i` with the operands that `cw` carries (R70, R74). -/
def Instr.readFrom (i : Instr) (cw : Word) : Instr :=
  match i with
  | .nop => .nop
  | .li _ _ => .li (raField cw) (immField cw)
  | .lih _ _ => .lih (raField cw) (immField cw)
  | .csrr _ _ => .csrr (raField cw) (fField cw)
  | .csrw _ _ => .csrw (raField cw) (fField cw)
  | .ldcb _ _ => .ldcb (raField cw) (rbField cw)
  | .stcb _ _ => .stcb (raField cw) (rbField cw)
  | .ldbm _ _ => .ldbm (raField cw) (rbField cw)
  | .stbm _ _ => .stbm (raField cw) (rbField cw)
  | .encStart _ _ => .encStart (raField cw) (rbField cw)
  | .encStop _ => .encStop (raField cw)
  | .decStart _ _ => .decStart (raField cw) (rbField cw)
  | .decStop => .decStop
  | .abmReset _ => .abmReset (mField cw)
  | .admInit _ _ => .admInit (mField cw) (fField cw)
  | .admReset _ => .admReset (mField cw)
  | .allReset => .allReset
  | .encBitA _ _ => .encBitA (raField cw) (mField cw)
  | .encBitS _ => .encBitS (raField cw)
  | .decBitA _ _ => .decBitA (raField cw) (mField cw)
  | .decBitS _ => .decBitS (raField cw)
  | .encSym _ _ => .encSym (raField cw) (mField cw)
  | .decSym _ _ => .decSym (raField cw) (mField cw)
  | .encUint _ _ => .encUint (raField cw) (fField cw)
  | .decUint _ _ => .decUint (raField cw) (fField cw)
  | .zzenc _ _ => .zzenc (raField cw) (rbField cw)
  | .zzdec _ _ => .zzdec (raField cw) (rbField cw)
  | .encEg0 _ _ => .encEg0 (raField cw) (mField cw)
  | .decEg0 _ _ => .decEg0 (raField cw) (mField cw)
  | .encSdelta _ _ => .encSdelta (raField cw) (mField cw)
  | .decSdelta _ _ => .decSdelta (raField cw) (mField cw)
  | .occEncBlk _ => .occEncBlk (raField cw)
  | .occDecBlk _ => .occDecBlk (raField cw)
  | .occEncPatch => .occEncPatch
  | .occDecPatch => .occDecPatch

/-- The operands that an instruction puts into its word are read back from it. -/
theorem Instr.readFrom_encode (i : Instr) : i.readFrom (encode i) = i := by
  cases i <;> simp [encode, Instr.readFrom]

theorem encode_readFrom (i : Instr) (cw : Word) :
    encode (i.readFrom cw) = i.format.word (opField (encode i)) cw := by
  cases i <;> simp only [encode, opField_cmdWord, opField_cmdWordImm] <;> rfl

/-- The word of an instruction is the word of its format. -/
theorem encode_eq_word (i : Instr) : encode i = i.format.word (opField (encode i)) (encode i) := by
  rw [← encode_readFrom, Instr.readFrom_encode]

theorem encode_mbz (i : Instr) : encode i &&& i.format.mbz = 0#32 := by
  rw [encode_eq_word]
  exact Format.word_mbz _ _ _

/-- A word with the opcode of `i` and its must-be-zero bits zero is the word of the operands read from it. -/
theorem encode_readFrom_of_mbz {i : Instr} {cw : Word} (hop : opField cw = opField (encode i))
    (hmbz : cw &&& i.format.mbz = 0#32) : encode (i.readFrom cw) = cw := by
  rw [encode_readFrom, ← hop, Format.word_eq_self hmbz]

/-! ### The decoding procedure by opcode (R75) -/

/-- The arm of a command's opcode: the must-be-zero test of its format, then the bit count. -/
theorem decode_of_opcode {i : Instr} {cw : Word} (hop : opField cw = opField (encode i)) :
    decode cw =
      if cw &&& i.format.mbz = 0#32 then
        if (i.readFrom cw).wf = true then .ok (i.readFrom cw) else .error .bitCount
      else .error .mustBeZero := by
  unfold decode
  rw [hop]
  cases i <;> simp only [encode, opField_cmdWord, opField_cmdWordImm]
  case encUint => simp [checkMbzCount, Instr.format, Instr.wf, Instr.readFrom, bitCountOk]
  case decUint => simp [checkMbzCount, Instr.format, Instr.wf, Instr.readFrom, bitCountOk]
  all_goals rfl

theorem decode_encode {i : Instr} (hwf : i.wf = true) : decode (encode i) = .ok i := by
  rw [decode_of_opcode rfl, Instr.readFrom_encode, if_pos (encode_mbz i), if_pos hwf]

/-! ### The rows of the opcode map (R74) -/

theorem Instr.rowIndex_lt (i : Instr) : i.rowIndex < opcodeRows.length := by
  cases i <;> simp [Instr.rowIndex, opcodeRows]

/-- The mask of a format's rows: the opcode and the must-be-zero bits (R74). -/
def Format.rowMask (fmt : Format) : Word :=
  match fmt with
  | .z => 0xFFFFFFFF#32
  | .a => 0xFF0FFFFF#32
  | .ab => 0xFF00FFFF#32
  | .am => 0xFF0F00FF#32
  | .m => 0xFFFF00FF#32
  | .mf => 0xFFFF0000#32
  | .af => 0xFF0FFF00#32
  | .i => 0xFF0F0000#32

theorem Format.rowMask_eq (fmt : Format) : fmt.rowMask = 0xFF000000#32 ||| fmt.mbz := by
  cases fmt <;> decide

/-- The row of an instruction. -/
def Instr.row (i : Instr) : OpcodeRow := opcodeRows[i.rowIndex]'i.rowIndex_lt

theorem Instr.row_mem (i : Instr) : i.row ∈ opcodeRows := List.getElem_mem _

theorem Instr.row_pattern (i : Instr) : i.row.pattern = cmdWord (opField (encode i)) 0#4 0#4 0#8 0#8 := by
  cases i <;> simp only [encode, opField_cmdWord, opField_cmdWordImm] <;>
    simp [Instr.row, Instr.rowIndex, opcodeRows, cmdWord]

theorem Instr.row_mask (i : Instr) : i.row.mask = i.format.rowMask := by
  cases i <;> rfl

theorem Instr.opField_row (i : Instr) : opField i.row.pattern = opField (encode i) := by
  rw [i.row_pattern, opField_cmdWord]

/-- The bit count is the only test that a command with its must-be-zero bits zero can still fail. -/
theorem wf_readFrom_iff (i : Instr) (cw : Word) :
    (i.readFrom cw).wf = true ↔ (i.row.counted = true → (fField cw).toNat ≤ 32) := by
  cases i <;> simp [Instr.readFrom, Instr.wf, bitCountOk, Instr.row, Instr.rowIndex, opcodeRows]

/-- Masking with the opcode's bits leaves the opcode alone. -/
theorem and_opcodeMask (cw : Word) : cw &&& 0xFF000000#32 = cmdWord (opField cw) 0#4 0#4 0#8 0#8 := by
  have hall (x : BitVec 8) : x &&& 0xFF#8 = x := BitVec.and_allOnes
  conv_lhs => rw [← cmdWord_fields cw]
  rw [show 0xFF000000#32 = cmdWord 0xFF#8 0#4 0#4 0#8 0#8 by decide, cmdWord_and, hall]
  simp

theorem Format.opcodeMask_and_mbz (fmt : Format) : 0xFF000000#32 &&& fmt.mbz = 0#32 := by
  cases fmt <;> decide

/-- A word with a command's opcode selects the command's row exactly when its must-be-zero bits are zero. -/
theorem row_selects_iff {i : Instr} {cw : Word} (hop : opField cw = opField (encode i)) :
    cw &&& i.row.mask = i.row.pattern ↔ cw &&& i.format.mbz = 0#32 := by
  rw [i.row_mask, Format.rowMask_eq, i.row_pattern, ← hop, ← and_opcodeMask, BitVec.and_or_distrib_left]
  constructor
  · intro h
    have hmbz := congrArg (· &&& i.format.mbz) h
    simpa [BitVec.and_or_distrib_right, BitVec.and_assoc, i.format.opcodeMask_and_mbz] using hmbz
  · intro h
    rw [h, BitVec.or_zero]

/-- No two rows have one opcode. -/
theorem opcodeRows_nodup : (opcodeRows.map fun row => opField row.pattern).Nodup := by decide

/-- The pattern of a row is itself a command of that row. -/
theorem opcodeRows_decode :
    ∀ row ∈ opcodeRows, (decode row.pattern).toOption.map Instr.row = some row := by decide

theorem exists_instr_of_row {row : OpcodeRow} (hrow : row ∈ opcodeRows) : ∃ i : Instr, i.row = row := by
  obtain ⟨i, _, hi⟩ := Option.map_eq_some_iff.mp (opcodeRows_decode row hrow)
  exact ⟨i, hi⟩

/-- The rows with a command's opcode are its own row alone. -/
theorem eq_row_of_opcode {i : Instr} {cw : Word} (hop : opField cw = opField (encode i)) {row : OpcodeRow}
    (hrow : row ∈ opcodeRows) (h : opField row.pattern = opField cw) : row = i.row :=
  List.inj_on_of_nodup_map opcodeRows_nodup hrow i.row_mem (h.trans (hop.trans i.opField_row.symm))

/-- An opcode is that of some command, or no row has it. -/
theorem opcode_cases (cw : Word) :
    (∃ i : Instr, opField cw = opField (encode i)) ∨ ∀ row ∈ opcodeRows, opField row.pattern ≠ opField cw := by
  by_cases h : ∃ row ∈ opcodeRows, opField row.pattern = opField cw
  · obtain ⟨row, hrow, hop⟩ := h
    obtain ⟨i, rfl⟩ := exists_instr_of_row hrow
    exact .inl ⟨i, hop.symm.trans i.opField_row⟩
  · exact .inr fun row hrow hop => h ⟨row, hrow, hop⟩

/-- A word whose opcode no row has reaches no arm of the decoder but the last. -/
theorem decode_of_unassigned {cw : Word} (h : ∀ row ∈ opcodeRows, opField row.pattern ≠ opField cw) :
    decode cw = .error .unassignedOpcode := by
  have hno : (opField cw).toNat ∉ opcodeRows.map fun row => (opField row.pattern).toNat := by
    intro hmem
    obtain ⟨row, hrow, hop⟩ := List.mem_map.mp hmem
    exact h row hrow (BitVec.eq_of_toNat_eq hop)
  unfold decode
  split
  case h_36 => rfl
  all_goals
    rename_i hop
    rw [hop] at hno
    exact absurd (by decide) hno

/-! ### Legal and illegal words -/

/-- The decoder accepts exactly the words of the well-formed commands, each as its command. -/
theorem decode_eq_ok_iff {cw : Word} {i : Instr} : decode cw = .ok i ↔ i.wf = true ∧ encode i = cw := by
  constructor
  · intro h
    rcases opcode_cases cw with ⟨j, hop⟩ | hno
    · rw [decode_of_opcode hop] at h
      split at h
      next hmbz =>
        split at h
        next hwf =>
          cases h
          exact ⟨hwf, encode_readFrom_of_mbz hop hmbz⟩
        next => cases h
      next => cases h
    · rw [decode_of_unassigned hno] at h
      cases h
  · rintro ⟨hwf, rfl⟩
    exact decode_encode hwf

/-- R80's three cases for a word with a command's opcode, as the decoder tests them. -/
theorem illegalWord_iff_of_opcode {i : Instr} {cw : Word} (hop : opField cw = opField (encode i)) :
    Machine.illegalWord cw ↔ cw &&& i.format.mbz ≠ 0#32 ∨ ¬ (i.readFrom cw).wf = true := by
  have hown : opField i.row.pattern = opField cw := i.opField_row.trans hop.symm
  rw [ne_eq, ← row_selects_iff hop, wf_readFrom_iff, Classical.not_imp, Nat.not_le]
  constructor
  · rintro (hno | ⟨row, hrow, h, hmask⟩ | ⟨row, hrow, h, hcount⟩)
    · exact absurd hown (hno i.row i.row_mem)
    · rw [eq_row_of_opcode hop hrow h] at hmask
      exact .inl hmask
    · rw [eq_row_of_opcode hop hrow h] at hcount
      exact .inr hcount
  · rintro (hmask | hcount)
    · exact .inr (.inl ⟨i.row, i.row_mem, hown, hmask⟩)
    · exact .inr (.inr ⟨i.row, i.row_mem, hown, hcount⟩)

/-- The illegal words of R80 are exactly those that the decoder rejects. -/
theorem illegalWord_iff (cw : Word) : Machine.illegalWord cw ↔ ∃ e, decode cw = .error e := by
  rcases opcode_cases cw with ⟨i, hop⟩ | hno
  · rw [illegalWord_iff_of_opcode hop, decode_of_opcode hop]
    by_cases hmbz : cw &&& i.format.mbz = 0#32 <;> by_cases hwf : (i.readFrom cw).wf = true <;> simp [hmbz, hwf]
  · exact iff_of_true (.inl hno) ⟨_, decode_of_unassigned hno⟩

/-- Settles O1: the operands that the encoder puts into a word are those that the decoder reads from it. -/
theorem decodeOfEncode : Obligations.DecodeOfEncode := fun _ hwf => decode_encode hwf

/-- Settles O2: outside the operands a word has its opcode and zeros, and the encoder writes just these. -/
theorem encodeOfDecode : Obligations.EncodeOfDecode := fun _ _ h => decode_eq_ok_iff.mp h

/-- Settles O3: each word is the word of its command. -/
theorem specWordsDecode : Obligations.SpecWordsDecode := by
  refine ⟨?_, ?_, ?_, ?_, ?_, ?_, ?_⟩ <;> exact decode_eq_ok_iff.mpr ⟨rfl, by decide⟩

end Sys2Proof

namespace Sys2Proof.Machine

/-! ### A presented word (R218; spec/70_reset_and_hazards.md R244) -/

theorem step_of_issue {s : State} {cw : Word} {rest : List HostEvent} (hport : s.port = .issue cw :: rest) :
    step s = presentWord cw { s with port := rest } := by
  unfold step takeEvent
  rw [hport]
  rfl

theorem presentWord_of_ok {s : State} {cw : Word} {i : Instr} (hf : s.fault = false) (hd : decode cw = .ok i) :
    presentWord cw s = exec i s := by
  simp [presentWord, hf, hd]

theorem presentWord_of_error {s : State} {cw : Word} {e : Illegal} (hf : s.fault = false)
    (hd : decode cw = .error e) : presentWord cw s = .next (s.faultEntry .illegalCommand 0#32 cw) := by
  simp [presentWord, hf, hd, illegalCommand]

/-- Settles O5: the decoder rejects exactly the illegal words, and whatever its reason the fault is the same. -/
theorem illegalWordsFault : Obligations.IllegalWordsFault := by
  intro s cw rest hf hport
  rw [illegalWord_iff, step_of_issue hport]
  constructor
  · rintro ⟨e, he⟩
    exact presentWord_of_error hf he
  · intro hlegal
    cases hd : decode cw with
    | ok i => exact ⟨i, rfl, presentWord_of_ok hf hd⟩
    | error e => exact absurd ⟨e, hd⟩ hlegal

/-! ### The destination register (R74; spec/10_state.md R21) -/

/-- Every general register but `d` holds the same in both states. -/
def OtherRegs (d : Option Reg) (s t : State) : Prop := ∀ r, d ≠ some r → t.reg r = s.reg r

theorem OtherRegs.frame (d : Option Reg) : Frame (OtherRegs d) where
  refl _ _ _ := rfl
  trans _ _ _ h k r hr := (k r hr).trans (h r hr)

theorem OtherRegs.of_x_eq {s t : State} (h : t.x = s.x) (d : Option Reg) : OtherRegs d s t :=
  fun r _ => State.reg_congr h r

theorem Untouched.otherRegs {s t : State} (h : Untouched s t) (d : Option Reg) : OtherRegs d s t :=
  .of_x_eq h.x_eq d

theorem State.setReg_otherRegs (s : State) (ra : Reg) (v : Word) : OtherRegs (some ra) s (s.setReg ra v) :=
  fun _ hr => s.setReg_reg_of_ne v fun h => hr (congrArg some h.symm)

theorem State.csrWriteNumber_otherRegs {s t : State} {f : BitVec 8} {v : Word} (h : s.csrWriteNumber f v = some t)
    (d : Option Reg) : OtherRegs d s t := by
  unfold State.csrWriteNumber at h
  split at h
  · refine .of_x_eq ?_ d
    rw [State.csrWrite_frame h]
  · cases h

/-- A command's pseudocode, completed or abandoned, writes no general register but the command's destination. -/
theorem bodyOf_otherRegs (i : Instr) : Cmd.Keeps (OtherRegs i.dest) (bodyOf i) := by
  have h := OtherRegs.frame i.dest
  have kept {g : State → State} (hg : ∀ s, (g s).x = s.x) : Cmd.Keeps (OtherRegs i.dest) (modify g : Cmd PUnit) :=
    Frame.update fun s => .of_x_eq (hg s) _
  have reg (ra : Reg) (v : Word) (hd : i.dest = some ra) : Cmd.Keeps (OtherRegs i.dest) (writeReg ra v) := by
    rw [hd]
    exact Frame.update fun s => s.setReg_otherRegs ra v
  have enc {α : Type} {c : Cmd α} (hc : Cmd.Keeps EncCodes c) : Cmd.Keeps (OtherRegs i.dest) c :=
    hc.mono fun _ _ hst => hst.untouched.otherRegs _
  have dec {α : Type} {c : Cmd α} (hc : Cmd.Keeps DecCodes c) : Cmd.Keeps (OtherRegs i.dest) c :=
    hc.mono fun _ _ hst => hst.untouched.otherRegs _
  have encM {α : Type} {c : Cmd α} (hc : Cmd.Keeps EncMoves c) : Cmd.Keeps (OtherRegs i.dest) c :=
    enc (hc.mono fun _ _ => EncMoves.codes)
  have decM {α : Type} {c : Cmd α} (hc : Cmd.Keeps DecMoves c) : Cmd.Keeps (OtherRegs i.dest) c :=
    dec (hc.mono fun _ _ => DecMoves.codes)
  cases i with
  | nop => exact h.pure ()
  | li ra imm => exact reg ra _ rfl
  | lih ra imm => exact h.bind (readReg_keeps h _) fun _ => reg ra _ rfl
  | csrr ra f =>
    refine h.bind h.get fun s => ?_
    cases Csr.ofNumber f with
    | some c => exact reg ra _ rfl
    | none => exact h.raise _ _
  | csrw ra f =>
    refine Frame.get_bind fun s => ?_
    cases hw : s.csrWriteNumber f (s.reg ra) with
    | none => exact h.refl s
    | some t => exact State.csrWriteNumber_otherRegs hw _
  | ldcb ra rb =>
    exact h.bind h.get fun _ => h.bind (h.check _ _ _) fun _ => h.bind (memRead_keeps h _) fun _ => reg ra _ rfl
  | stcb ra rb => exact h.bind h.get fun _ => h.bind (h.check _ _ _) fun _ => encM (memWrite_encMoves _ _)
  | ldbm ra rb =>
    exact h.bind h.get fun _ => h.bind (h.check _ _ _) fun _ => h.bind (mapRead_keeps h _) fun _ => reg ra _ rfl
  | stbm ra rb =>
    intro s
    rcases stbmBody_end ra rb s with hend | hend
    · exact .of_x_eq (congrArg State.x hend) _
    · exact .of_x_eq (congrArg State.x hend) _
  | encStart ra rb =>
    exact h.bind (needMode_keeps h _) fun _ => h.bind h.get fun _ => h.bind (needWindow_keeps h _ _) fun _ =>
      h.bind (kept fun _ => rfl) fun _ => kept fun _ => rfl
  | encStop ra =>
    exact h.bind (needMode_keeps h _) fun _ => h.bind (encM terminate_encMoves) fun _ =>
      h.bind (encM renormEnc_encMoves) fun _ => h.bind h.get fun _ => h.bind (reg ra _ rfl) fun _ => kept fun _ => rfl
  | decStart ra rb =>
    exact h.bind (needMode_keeps h _) fun _ => h.bind h.get fun _ => h.bind (needWindow_keeps h _ _) fun _ =>
      h.bind (kept fun _ => rfl) fun _ => h.bind (h.forUp (fun _ => decM loadByte_decMoves) _ _) fun _ =>
        kept fun _ => rfl
  | decStop => exact h.bind (needMode_keeps h _) fun _ => kept fun _ => rfl
  | abmReset m => exact h.bind (needAbm_keeps h _) fun _ => kept fun _ => rfl
  | admInit m f => exact h.bind (needAdm_keeps h _) fun _ => h.bind (needAlphabet_keeps h _) fun _ => kept fun _ => rfl
  | admReset m => exact h.bind (needAdmInit_keeps h _) fun _ => kept fun _ => rfl
  | allReset => exact kept fun _ => rfl
  | encBitA ra m =>
    exact h.bind (needMode_keeps h _) fun _ => h.bind (needAbm_keeps h _) fun _ => h.bind (needBit_keeps h _) fun _ =>
      h.bind h.get fun _ => enc (encBitA_encCodes _ _)
  | encBitS ra =>
    exact h.bind (needMode_keeps h _) fun _ => h.bind (needBit_keeps h _) fun _ => h.bind h.get fun _ =>
      encM (encBit_encMoves _ _)
  | decBitA ra m =>
    exact h.bind (needMode_keeps h _) fun _ => h.bind (needAbm_keeps h _) fun _ =>
      h.bind (dec (decBitA_decCodes _)) fun _ => reg ra _ rfl
  | decBitS ra =>
    exact h.bind (needMode_keeps h _) fun _ => h.bind (decM (decBit_decMoves _)) fun _ => reg ra _ rfl
  | encSym ra m =>
    exact h.bind (needMode_keeps h _) fun _ => h.bind (needAdmInit_keeps h _) fun _ =>
      h.bind (needSymbol_keeps h _ _) fun _ => h.bind h.get fun _ => enc (encSym_encCodes _ _)
  | decSym ra m =>
    exact h.bind (needMode_keeps h _) fun _ => h.bind (needAdmInit_keeps h _) fun _ =>
      h.bind (dec (decSym_decCodes _)) fun _ => reg ra _ rfl
  | encUint ra f =>
    exact h.bind (needCount_keeps h _) fun _ => h.bind (needMode_keeps h _) fun _ =>
      h.bind (needFits_keeps h _ _) fun _ => h.bind h.get fun _ => encM (encBitsUp_encMoves _ _ _)
  | decUint ra f =>
    exact h.bind (needCount_keeps h _) fun _ => h.bind (needMode_keeps h _) fun _ =>
      h.bind (decM (decBitsUp_decMoves _ _ _)) fun _ => reg ra _ rfl
  | zzenc ra rb => exact h.bind (readReg_keeps h _) fun _ => reg ra _ rfl
  | zzdec ra rb => exact h.bind (readReg_keeps h _) fun _ => reg ra _ rfl
  | encEg0 ra m =>
    exact h.bind (needMode_keeps h _) fun _ => h.bind (needAbm_keeps h _) fun _ => h.bind h.get fun _ =>
      enc (encEg0_encCodes _ _)
  | decEg0 ra m =>
    exact h.bind (needMode_keeps h _) fun _ => h.bind (needAbm_keeps h _) fun _ =>
      h.bind (dec (decEg0_decCodes _)) fun _ => reg ra _ rfl
  | encSdelta ra m =>
    exact h.bind (needMode_keeps h _) fun _ => h.bind (needAbm_keeps h _) fun _ => h.bind h.get fun _ =>
      enc (encEg0_encCodes _ _)
  | decSdelta ra m =>
    exact h.bind (needMode_keeps h _) fun _ => h.bind (needAbm_keeps h _) fun _ =>
      h.bind (dec (decEg0_decCodes _)) fun _ => reg ra _ rfl
  | occEncBlk ra =>
    exact h.bind (needMode_keeps h _) fun _ => h.bind (occModels_keeps h) fun _ => h.bind (readReg_keeps h _) fun _ =>
      enc (occEncBlock_encCodes _ _ _)
  | occDecBlk ra =>
    exact h.bind (needMode_keeps h _) fun _ => h.bind (occModels_keeps h) fun _ =>
      h.bind (dec (occDecBlock_decCodes _ _)) fun _ => reg ra _ rfl
  | occEncPatch =>
    exact h.bind (needMode_keeps h _) fun _ => h.bind (occModels_keeps h) fun _ => h.bind (patchCheck_keeps h) fun _ =>
      enc (scanPatch_keeps EncCodes.frame (encPatchBlock_encCodes _))
  | occDecPatch => exact occDecPatchBody_patchCodes.mono fun _ _ hst => hst.untouched.otherRegs _

/-- Settles O22: a completed command has written its destination at most, an abandoned one no register (R215), and a
refused one nothing (R216). -/
theorem onlyTheDestinationRegisterChanges : Obligations.OnlyTheDestinationRegisterChanges := by
  intro i s u r h hr
  rcases exec_outcome h with ⟨_, rfl⟩ | ⟨hf, t, ht, hframe, rfl⟩ | ⟨_, f, info, t, ht, _, rfl⟩
  · rfl
  · obtain ⟨hfault, _⟩ := hframe.faultRecord_eq
    have hdest : i.dest ≠ some r := hr.resolve_right (by rw [State.complete_fault, hfault, hf]; decide)
    have hkept := bodyOf_otherRegs i s
    rw [ht] at hkept
    exact hkept r hdest
  · exact State.reg_congr (bodyOf_untouched_of_error ht).x_eq r

end Sys2Proof.Machine
end

section
/-! The session commands and the model commands (spec/40_session_and_models.md R89 to R101): what each leaves behind,
completed or abandoned, and the model slots a command can change at all (R101; spec/41_bit_and_symbol_coding.md R126,
R130; spec/43_fixed_width.md R161). -/

namespace Sys2Proof.Machine

/-! ### A command run from its pseudocode (R89) -/

/-- A completed command is counted. -/
theorem exec_of_ok {i : Instr} {s t : State} (hf : s.fault = false) (h : bodyOf i s = .ok () t) :
    exec i s = .next t.counted :=
  (exec_eq_command i s).trans (command_of_ok hf h)

/-- A command abandoned before it changed anything faults precisely (spec/60_exceptions.md R215). -/
theorem faultsPrecisely_of_raise {i : Instr} {s : State} {f : FaultKind} {info : Word} (hf : s.fault = false)
    (h : bodyOf i s = .error (.raise f info) s) : faultsPrecisely i s f.code info :=
  (exec_eq_command i s).trans (command_of_raise hf h)

section Checks

variable {s : State} {f : Unit → Cmd Unit} {need : Mode}

/-- In the mode it needs a command goes on (spec/60_exceptions.md R219). -/
theorem needMode_bind_of_eq (hm : s.mode = need) : (needMode need >>= f) s = f () s :=
  Cmd.bind_of_ok ((needMode_run need s).trans (if_pos hm))

theorem needMode_bind_of_ne (hm : s.mode ≠ need) :
    (needMode need >>= f) s = .error (.raise .sessionState (s.mode.code.setWidth 32)) s :=
  Cmd.bind_of_error ((needMode_run need s).trans (if_neg hm))

theorem needWindow_bind_of_le {base len : Word} (h : base.toNat + len.toNat ≤ s.params.cbSize) :
    (needWindow base len >>= f) s = f () s :=
  Cmd.bind_of_ok ((needWindow_run base len s).trans (if_pos h))

theorem needWindow_bind_of_lt {base len : Word} (h : s.params.cbSize < base.toNat + len.toNat) :
    (needWindow base len >>= f) s = .error (.raise .windowRange len) s :=
  Cmd.bind_of_error ((needWindow_run base len s).trans (if_neg (Nat.not_le.mpr h)))

end Checks

/-! ### The end of a decode session (R95) -/

theorem decStopBody_of_dec {s : State} (hm : s.mode = .dec) : decStopBody s = .ok () { s with mode := .idle } :=
  needMode_bind_of_eq hm

theorem decStop_faults {s : State} (hf : s.fault = false) (hm : s.mode ≠ .dec) :
    faultsPrecisely .decStop s 2#8 (s.mode.code.setWidth 32) :=
  faultsPrecisely_of_raise (i := .decStop) (f := .sessionState) hf (needMode_bind_of_ne hm)

/-- Settles O42: the one test of `DEC_STOP` is that of the mode, and `MODE` the one field it writes. -/
theorem decStopClosesTheSession : Obligations.DecStopClosesTheSession := by
  refine ⟨decode_eq_ok_iff.mpr ⟨rfl, by decide⟩, fun s hf => ⟨fun hm => ?_, fun hm => ?_, fun hm => ?_⟩⟩
  · exact exec_of_ok hf (decStopBody_of_dec hm)
  · have hfault := decStop_faults hf (by rw [hm]; decide)
    rwa [hm] at hfault
  · have hfault := decStop_faults hf (by rw [hm]; decide)
    rwa [hm] at hfault

/-! ### The start of a session (R90, R92) -/

theorem encStartBody_of_fits {s : State} {ra rb : Reg} (hm : s.mode = .idle)
    (h : (s.reg ra).toNat + (s.reg rb).toNat ≤ s.params.cbSize) :
    encStartBody ra rb s = .ok () { s.openWindow (s.reg ra) (s.reg rb) with mode := .enc } :=
  (needMode_bind_of_eq hm).trans (needWindow_bind_of_le h)

/-- A window that does not lie in CB is found before anything is written, by either command (R90, R92). -/
theorem sessionStarts_of_outside {s : State} {ra rb : Reg} (hm : s.mode = .idle)
    (h : s.params.cbSize < (s.reg ra).toNat + (s.reg rb).toNat) :
    bodyOf (.encStart ra rb) s = .error (.raise .windowRange (s.reg rb)) s ∧
      bodyOf (.decStart ra rb) s = .error (.raise .windowRange (s.reg rb)) s :=
  ⟨(needMode_bind_of_eq hm).trans (needWindow_bind_of_lt h), (needMode_bind_of_eq hm).trans (needWindow_bind_of_lt h)⟩

/-- A window just opened after `DEC_START` has loaded its first `n` bytes (R92). -/
def State.loaded (s : State) (n : Nat) : State :=
  { s with
    ptr := BitVec.ofNat 32 n, value := BitVec.ofNat 32 (s.servedNumber 0 n), overread := decide (s.wlen.toNat < n) }

theorem State.openWindow_loaded_zero (s : State) (base len : Word) :
    (s.openWindow base len).loaded 0 = s.openWindow base len := by
  simp [State.loaded, State.openWindow, State.servedNumber]

/-- `(VALUE << 8) | b` is the number of the bytes so far with `b` as its last (R92, R115). -/
theorem shiftLeft_or_byte (n : Nat) (b : Byte) :
    (BitVec.ofNat 32 n <<< 8) ||| b.setWidth 32 = BitVec.ofNat 32 (n * 256 + b.toNat) := by
  have hdisjoint : (BitVec.ofNat 32 n <<< 8) &&& b.setWidth 32 = 0#32 := by
    ext i hi
    by_cases h8 : i < 8
    · simp [h8]
    · simp [BitVec.getLsbD_of_ge b i (Nat.not_lt.mp h8)]
  have hb := b.isLt
  rw [← BitVec.add_eq_or_of_and_eq_zero _ _ hdisjoint]
  apply BitVec.eq_of_toNat_eq
  simp only [BitVec.toNat_add, BitVec.toNat_shiftLeft, BitVec.toNat_ofNat, BitVec.toNat_setWidth, Nat.shiftLeft_eq]
  omega

/-- One turn of the loop of `DEC_START`: the next byte served comes in (R92, R113). -/
theorem loadByte_loaded {s : State} (hw : s.windowFits) {n : Nat} (hn : n < s.wlen.toNat + 3) :
    loadByte (s.loaded n) = .ok () (s.loaded (n + 1)) := by
  obtain ⟨_, hcb⟩ := id hw
  have hptr : (s.loaded n).ptr.toNat = n := Nat.mod_eq_of_lt (by omega)
  have hover : ((s.loaded n).overread || decide ((s.loaded n).wlen.toNat ≤ (s.loaded n).ptr.toNat)) =
      decide (s.wlen.toNat < n + 1) := by
    have hbefore : (s.loaded n).overread = true ↔ s.wlen.toNat < n := decide_eq_true_iff
    rw [hptr, Bool.eq_iff_iff, Bool.or_eq_true, hbefore, decide_eq_true_iff, decide_eq_true_iff]
    show _ ∨ s.wlen.toNat ≤ n ↔ _
    omega
  have hserved : (s.loaded n).servedByte n = s.servedByte (0 + n) := by
    rw [Nat.zero_add]
    exact State.servedByte_congr rfl rfl rfl rfl n
  have hget := (getByte_run (s := s.loaded n) hw).trans (if_pos (hptr.trans_lt hn))
  rw [hover, hptr, hserved] at hget
  unfold loadByte
  rw [Cmd.bind_of_ok hget]
  simp only [appendByte, Cmd.modify_run, State.loaded, shiftLeft_or_byte, State.servedNumber, BitVec.ofNat_add]

theorem forUp_loadByte {s : State} (hw : s.windowFits) (first count : Nat) (h : first + count ≤ s.wlen.toNat + 3) :
    forUp first count (fun _ => loadByte) (s.loaded first) = .ok () (s.loaded (first + count)) := by
  induction count generalizing first with
  | zero => rfl
  | succ k ih =>
    rw [forUp_succ, Cmd.bind_of_ok (loadByte_loaded hw (by omega)), ih (first + 1) (by omega)]
    rw [Nat.add_assoc, Nat.add_comm 1 k]

/-- A window of at least one byte serves the four bytes of `DEC_START`, three of them perhaps beyond it (R92, R113). -/
theorem decStartBody_of_fits {s : State} {ra rb : Reg} (hcb : s.params.cbSize ≤ 2 ^ 31) (hm : s.mode = .idle)
    (h : (s.reg ra).toNat + (s.reg rb).toNat ≤ s.params.cbSize) (hlen : 1 ≤ (s.reg rb).toNat) :
    decStartBody ra rb s = .ok () { (s.openWindow (s.reg ra) (s.reg rb)).loaded 4 with mode := .dec } := by
  have hload := forUp_loadByte (s := s.openWindow (s.reg ra) (s.reg rb)) ⟨h, hcb⟩ 0 4 (Nat.add_le_add_right hlen 3)
  rw [State.openWindow_loaded_zero] at hload
  unfold decStartBody
  rw [needMode_bind_of_eq hm, Cmd.get_bind_run, needWindow_bind_of_le h, Cmd.modify_bind_run, Cmd.bind_of_ok hload]
  rfl

/-- Settles O40: both commands open the window they are given if it lies in CB; `DEC_START` loads four bytes of it. -/
theorem sessionStartsOpenTheWindow : Obligations.SessionStartsOpenTheWindow := by
  intro s ra rb hlegal hf hm
  obtain ⟨_, _, _, ⟨_, hcb⟩, _⟩ := hlegal
  refine ⟨fun h => exec_of_ok hf (encStartBody_of_fits hm h), fun h hlen => ?_, fun h => ?_⟩
  · have hserved : (s.openWindow (s.reg ra) (s.reg rb)).servedNumber 0 4 =
        ({ s with wbase := s.reg ra, wlen := s.reg rb } : State).servedNumber 0 4 :=
      State.servedNumber_congr rfl rfl rfl rfl 0 4
    rw [← hserved]
    exact exec_of_ok hf (decStartBody_of_fits hcb hm h hlen)
  · obtain ⟨henc, hdec⟩ := sessionStarts_of_outside hm h
    exact ⟨faultsPrecisely_of_raise hf henc, faultsPrecisely_of_raise hf hdec⟩

/-! ### The end of an encode session (R94) -/

/-- The exact number depends on `PTR`, `LOW` and the bytes of the window alone. -/
theorem State.codeNumber_congr {s t : State} (hptr : t.ptr = s.ptr) (hlow : t.low = s.low)
    (hwbase : t.wbase = s.wbase) (hcb : t.cb = s.cb) (hepoch : t.memEpoch = s.memEpoch) :
    t.codeNumber = s.codeNumber := by
  unfold State.codeNumber
  rw [hptr, hlow, State.payloadNumber_congr fun k _ => ?_]
  rw [State.cbByte_congr hcb hepoch, State.windowAddr_congr hwbase]

/-- On a narrow interval the test before the renormalisation makes no difference. -/
theorem renormEncIfSmall_of_lt {s : State} (h : s.range < minRange) : renormEncIfSmall s = renormEnc s := by
  unfold renormEncIfSmall
  rw [Cmd.get_bind_run, if_pos h]

/-- Narrowing to a width below the threshold and renormalising without a test (R94). -/
theorem addLow_renormEnc_ok {s : State} (hw : s.windowFits) (x r : Word) (h8 : 2 ^ 8 ≤ r.toNat) (hr : r < minRange)
    (hp : s.ptr.toNat + renormTurns r ≤ s.wlen.toNat) (hc : s.codeNumber + x.toNat < 256 ^ s.ptr.toNat * 2 ^ 32) :
    ∃ t, (do addLow x r; renormEnc : Cmd Unit) s = .ok () t ∧ EncMoves s t ∧ s.encodedTo t x r := by
  obtain ⟨u, hu, hframe, _⟩ := addLow_ok hw (by omega) x r hc
  obtain ⟨t, ht, hcoded⟩ := addLow_renorm_ok hw x r h8 hp hc
  have hrange : u.range = r := by rw [hframe]
  rw [Cmd.bind_of_ok hu, renormEncIfSmall_of_lt (hrange ▸ hr)] at ht
  exact ⟨t, (Cmd.bind_of_ok hu).trans ht, hcoded⟩

/-- What `ENC_STOP` adds to the low end (R94). -/
def State.stopAdd (s : State) : Word := if 2 ^ 25 < s.range.toNat then 0x01000000#32 else 0x00800000#32

/-- The width to which `ENC_STOP` narrows the interval (R94). -/
def State.stopWidth (s : State) : Word := if 2 ^ 25 < s.range.toNat then 0x00800000#32 else 0x00008000#32

theorem terminate_run (s : State) : terminate s = addLow s.stopAdd s.stopWidth s := by
  unfold terminate State.stopAdd State.stopWidth
  rw [Cmd.get_bind_run]
  by_cases h : 2 ^ 25 < s.range.toNat
  · rw [if_pos h, if_pos h, if_pos (by simpa [BitVec.lt_def] using h)]
  · rw [if_neg h, if_neg h, if_neg (by simpa [BitVec.lt_def] using h)]

/-- The width of the last interval sends one byte, or two (R94, R114). -/
theorem State.stopWidth_spec (s : State) :
    2 ^ 8 ≤ s.stopWidth.toNat ∧ s.stopWidth < minRange ∧
      renormTurns s.stopWidth = if 2 ^ 25 < s.range.toNat then 1 else 2 := by
  unfold State.stopWidth
  split <;> decide

/-- The last interval lies inside the one before it. -/
theorem State.stopAdd_lt {s : State} (hr : minRange ≤ s.range) : s.stopAdd.toNat < s.range.toNat := by
  have hmin : 2 ^ 24 ≤ s.range.toNat := by simpa [BitVec.le_def, minRange] using hr
  unfold State.stopAdd
  split
  · exact Nat.lt_trans (show _ < 2 ^ 25 by decide) ‹_›
  · exact Nat.lt_of_lt_of_le (show _ < 2 ^ 24 by decide) hmin

/-- The state that `ENC_STOP` leaves when the coder has left `u` (R94). -/
def State.stopped (u : State) (ra : Reg) : State := { u.setReg ra u.ptr with mode := .idle }

theorem encStopBody_ok {s : State} (h : s.encReady (if 2 ^ 25 < s.range.toNat then 1 else 2)) (ra : Reg) :
    ∃ u, encStopBody ra s = .ok () (u.stopped ra) ∧ EncMoves s u ∧ s.encodedTo u s.stopAdd s.stopWidth := by
  obtain ⟨hw, hr⟩ := h.coder
  obtain ⟨_, _, hm, hcarry, hroom⟩ := h
  obtain ⟨h8, hlt, hturns⟩ := s.stopWidth_spec
  have hadd := State.stopAdd_lt hr
  obtain ⟨u, hu, hcoded⟩ := addLow_renormEnc_ok hw s.stopAdd s.stopWidth h8 hlt (hturns ▸ hroom)
    (Nat.lt_of_lt_of_le (Nat.add_lt_add_left hadd _) hcarry)
  obtain ⟨_, t, hadded, hrenorm⟩ := Cmd.bind_eq_ok.mp hu
  refine ⟨u, ?_, hcoded⟩
  unfold encStopBody
  rw [needMode_bind_of_eq hm, Cmd.bind_of_ok ((terminate_run s).trans hadded), Cmd.bind_of_ok hrenorm]
  rfl

/-- Only what the coder moves differs after `ENC_STOP`, and `MODE` and the register it writes. -/
theorem EncMoves.stopped {s u : State} (h : EncMoves s u) (ra : Reg) :
    u.stopped ra = { s with
      x := (s.setReg ra u.ptr).x, low := u.low, range := u.range, ptr := u.ptr, cb := u.cb, mode := .idle } := by
  unfold EncMoves at h
  rw [h]
  rfl

/-- Settles O41: `ENC_STOP` is one more narrowing of the interval, to a width that sends the one or two last bytes. -/
theorem encStopWritesTheLastBytes : Obligations.EncStopWritesTheLastBytes := by
  intro s ra hready
  obtain ⟨_, hf, _⟩ := id hready
  obtain ⟨u, hbody, hmoves, hptr, hrange, hcode, hout⟩ := encStopBody_ok hready ra
  obtain ⟨_, _, hturns⟩ := s.stopWidth_spec
  have hnumber : (u.stopped ra).counted.codeNumber = u.codeNumber := State.codeNumber_congr rfl rfl rfl rfl rfl
  have hcoded : s.encodedTo (u.stopped ra).counted s.stopAdd s.stopWidth := ⟨hptr, hrange, hnumber.trans hcode, hout⟩
  refine ⟨_, exec_of_ok hf hbody, congrArg State.counted (hmoves.stopped ra), ?_⟩
  rw [hturns] at hptr
  unfold State.stopAdd State.stopWidth at hcoded
  split at hcoded
  · rw [if_pos ‹_›] at hptr ⊢
    exact ⟨hcoded, hptr⟩
  · rw [if_neg ‹_›] at hptr ⊢
    exact ⟨hcoded, hptr⟩

/-! ### The model resets (R97 to R100) -/

theorem cntSum_replicate_one (n : Nat) : cntSum (List.replicate n 1#16) = n := by simp [cntSum]

/-- The distribution of counts that are all 1 rises in equal steps (R98). -/
theorem admDist_replicate_one (scale n : Nat) :
    admDist scale (List.replicate n 1#16) 0 =
      (List.range n).map fun k => BitVec.ofNat 15 (scale * k / 2 ^ 16) := by
  refine List.ext_getElem? fun k => ?_
  by_cases hk : k < n
  · rw [admDist_getElem? _ _ _ _ (by simpa using hk), List.take_replicate, cntSum_replicate_one,
      Nat.min_eq_left (Nat.le_of_lt hk), Nat.zero_add, Nat.shiftRight_eq_div_pow]
    simp [hk]
  · rw [List.getElem?_eq_none (by simpa using hk), List.getElem?_eq_none (by simpa using hk)]

/-- `adm_reset` gives the closed form of R98 for the slot's alphabet size, whatever else the slot held. -/
theorem AdmSlot.reset_eq_initial (d : AdmSlot) : d.reset = admInitial d.nsym := by
  have hn := d.nsym.isLt
  have hcyc : (BitVec.ofNat 12 d.nsym.toNat).toNat = d.nsym.toNat := Nat.mod_eq_of_lt (by omega)
  have hhalve : admHalve (List.replicate d.nsym.toNat 1#16) d.nsym.toNat =
      (List.replicate d.nsym.toNat 1#16, d.nsym.toNat) := if_pos (by unfold dmMax; omega)
  simp only [AdmSlot.reset, AdmSlot.update, admInitial, hcyc, BitVec.toNat_zero, Nat.zero_add, hhalve,
    admDist_replicate_one, Nat.shiftRight_eq_div_pow, Nat.reducePow, Nat.pow_one]

theorem abmResetBody_of_lt {s : State} {m : Slot} (hm : m.toNat < s.params.nAbm) :
    abmResetBody m s = .ok () (s.setAbm m.toNat .fresh) :=
  Cmd.bind_of_ok ((needAbm_run m s).trans (if_pos hm))

theorem admInitBody_of_lt {s : State} {m : Slot} {f : BitVec 8} (hm : m.toNat < s.params.nAdm)
    (hsize : 2 ≤ f.toNat ∧ f.toNat ≤ s.params.maxSym) :
    admInitBody m f s = .ok () (s.setAdm m.toNat (admInitial f)) := by
  unfold admInitBody
  rw [Cmd.bind_of_ok ((needAdm_run m s).trans (if_pos hm)),
    Cmd.bind_of_ok ((needAlphabet_run f s).trans (if_pos hsize)), Cmd.modify_run, AdmSlot.reset_eq_initial]

theorem admResetBody_of_init {s : State} {m : Slot} (hm : m.toNat < s.params.nAdm)
    (hinit : (s.admSlot m.toNat).nsym ≠ 0#8) :
    admResetBody m s = .ok () (s.setAdm m.toNat (admInitial (s.admSlot m.toNat).nsym)) := by
  unfold admResetBody
  rw [Cmd.bind_of_ok ((needAdmInit_run m s).trans (if_pos ⟨hm, hinit⟩)), Cmd.modify_run, AdmSlot.reset_eq_initial]

theorem AdmSlot.resetIfInit_eq : AdmSlot.resetIfInit = fun d => if d.nsym = 0#8 then d else admInitial d.nsym := by
  funext d
  rw [← AdmSlot.reset_eq_initial]
  rfl

/-- Settles O43: the three commands on one slot pass their checks and store its initial state; `ALL_RESET` stores one in
every slot in use. -/
theorem modelResetCommands : Obligations.ModelResetCommands := by
  intro s m f hf
  refine ⟨fun hm => ?_, fun hm h2 hmax => ?_, fun hm hinit => ?_, ?_⟩
  · exact exec_of_ok hf (abmResetBody_of_lt hm)
  · exact exec_of_ok hf (admInitBody_of_lt hm ⟨h2, hmax⟩)
  · exact exec_of_ok hf (admResetBody_of_init hm hinit)
  · rw [← AdmSlot.resetIfInit_eq]
    exact exec_of_ok hf (Cmd.modify_run State.resetModels s)

/-! ### The models a command can change (R101) -/

/-- The models that a command names. -/
inductive ModelUse where
  /-- none: the session, static-model and host-support commands -/
  | none
  /-- the bit model of the field `m` -/
  | abm (m : Slot)
  /-- the data model of the field `m` -/
  | adm (m : Slot)
  /-- all of them, or those that `OCCM` binds (spec/44_occupancy.md R173) -/
  | several

/-- No model differs but those named. -/
def ModelUse.Kept (u : ModelUse) : State → State → Prop :=
  match u with
  | .none => NoModel
  | .abm m => OnlyAbm m.toNat
  | .adm m => OnlyAdm m.toNat
  | .several => fun _ _ => True

theorem ModelUse.Kept.frame (u : ModelUse) : Frame u.Kept := by
  cases u with
  | none => exact NoModel.frame
  | abm m => exact OnlyAbm.frame _
  | adm m => exact OnlyAdm.frame _
  | several => exact ⟨fun _ => trivial, fun _ _ _ _ _ => trivial⟩

theorem NoModel.kept {s t : State} (h : NoModel s t) (u : ModelUse) : u.Kept s t := by
  cases u with
  | none => exact h
  | abm m => exact h.onlyAbm _
  | adm m => exact h.onlyAdm _
  | several => trivial

/-- The models that each command names in its word (spec/30_encoding.md R74). -/
def modelUse (i : Instr) : ModelUse :=
  match i with
  | .abmReset m | .encBitA _ m | .decBitA _ m | .encEg0 _ m | .decEg0 _ m | .encSdelta _ m | .decSdelta _ m => .abm m
  | .admInit m _ | .admReset m | .encSym _ m | .decSym _ m => .adm m
  | .allReset | .occEncBlk _ | .occDecBlk _ | .occEncPatch | .occDecPatch => .several
  | _ => .none

theorem csrwBody_noModel (ra : Reg) (f : BitVec 8) : Cmd.Keeps NoModel (csrwBody ra f) :=
  Frame.get_bind fun s => by
    cases hw : s.csrWriteNumber f (s.reg ra) with
    | none => exact NoModel.frame.refl s
    | some t =>
      show NoModel s t
      unfold State.csrWriteNumber at hw
      split at hw
      · rw [State.csrWrite_frame hw]
        exact ⟨rfl, rfl⟩
      · cases hw

theorem stbmBody_noModel (ra rb : Reg) : Cmd.Keeps NoModel (stbmBody ra rb) := fun s => by
  rcases stbmBody_end ra rb s with hend | hend
  · rw [hend]
    exact NoModel.frame.refl s
  · rw [hend]
    exact ⟨rfl, rfl⟩

/-- A command's pseudocode, completed or abandoned, changes no model but those that the command names. -/
theorem bodyOf_models (i : Instr) : Cmd.Keeps (modelUse i).Kept (bodyOf i) := by
  have h := ModelUse.Kept.frame (modelUse i)
  have kept {g : State → State} (hg : ∀ s, NoModel s (g s)) : Cmd.Keeps (modelUse i).Kept (modify g : Cmd PUnit) :=
    Frame.update fun s => (hg s).kept _
  have reg (ra : Reg) (v : Word) : Cmd.Keeps (modelUse i).Kept (writeReg ra v) := kept fun _ => ⟨rfl, rfl⟩
  have mode (m : Mode) : Cmd.Keeps (modelUse i).Kept (setMode m) := kept fun _ => ⟨rfl, rfl⟩
  have enc {α : Type} {c : Cmd α} (hc : Cmd.Keeps EncMoves c) : Cmd.Keeps (modelUse i).Kept c :=
    hc.mono fun _ _ hst => hst.noModel.kept _
  have dec {α : Type} {c : Cmd α} (hc : Cmd.Keeps DecMoves c) : Cmd.Keeps (modelUse i).Kept c :=
    hc.mono fun _ _ hst => hst.noModel.kept _
  cases i with
  | nop => exact h.pure ()
  | li ra imm => exact reg _ _
  | lih ra imm => exact h.bind (readReg_keeps h _) fun _ => reg _ _
  | csrr ra f =>
    refine h.bind h.get fun s => ?_
    cases Csr.ofNumber f with
    | some c => exact reg _ _
    | none => exact h.raise _ _
  | csrw ra f => exact csrwBody_noModel ra f
  | ldcb ra rb =>
    exact h.bind h.get fun _ => h.bind (h.check _ _ _) fun _ => h.bind (memRead_keeps h _) fun _ => reg _ _
  | stcb ra rb => exact h.bind h.get fun _ => h.bind (h.check _ _ _) fun _ => enc (memWrite_encMoves _ _)
  | ldbm ra rb =>
    exact h.bind h.get fun _ => h.bind (h.check _ _ _) fun _ => h.bind (mapRead_keeps h _) fun _ => reg _ _
  | stbm ra rb => exact stbmBody_noModel ra rb
  | encStart ra rb =>
    exact h.bind (needMode_keeps h _) fun _ => h.bind h.get fun _ => h.bind (needWindow_keeps h _ _) fun _ =>
      h.bind (kept fun _ => ⟨rfl, rfl⟩) fun _ => mode _
  | encStop ra =>
    exact h.bind (needMode_keeps h _) fun _ => h.bind (enc terminate_encMoves) fun _ =>
      h.bind (enc renormEnc_encMoves) fun _ => h.bind h.get fun _ => h.bind (reg _ _) fun _ => mode _
  | decStart ra rb =>
    exact h.bind (needMode_keeps h _) fun _ => h.bind h.get fun _ => h.bind (needWindow_keeps h _ _) fun _ =>
      h.bind (kept fun _ => ⟨rfl, rfl⟩) fun _ => h.bind (h.forUp (fun _ => dec loadByte_decMoves) _ _) fun _ => mode _
  | decStop => exact h.bind (needMode_keeps h _) fun _ => mode _
  | abmReset m =>
    exact h.bind (needAbm_keeps h _) fun _ => Frame.update fun s => ⟨rfl, fun _ hn => s.setAbm_abmSlot_of_ne _ hn⟩
  | admInit m f =>
    exact h.bind (needAdm_keeps h _) fun _ => h.bind (needAlphabet_keeps h _) fun _ =>
      Frame.update fun s => ⟨rfl, fun _ hn => s.setAdm_admSlot_of_ne _ hn⟩
  | admReset m =>
    exact h.bind (needAdmInit_keeps h _) fun _ => Frame.update fun s => ⟨rfl, fun _ hn => s.setAdm_admSlot_of_ne _ hn⟩
  | encBitA ra m =>
    exact h.bind (needMode_keeps h _) fun _ => h.bind (needAbm_keeps h _) fun _ => h.bind (needBit_keeps h _) fun _ =>
      h.bind h.get fun _ => encBitA_onlyAbm _ _
  | encBitS ra =>
    exact h.bind (needMode_keeps h _) fun _ => h.bind (needBit_keeps h _) fun _ => h.bind h.get fun _ =>
      enc (encBit_encMoves _ _)
  | decBitA ra m =>
    exact h.bind (needMode_keeps h _) fun _ => h.bind (needAbm_keeps h _) fun _ =>
      h.bind (decBitA_onlyAbm _) fun _ => reg _ _
  | decBitS ra => exact h.bind (needMode_keeps h _) fun _ => h.bind (dec (decBit_decMoves _)) fun _ => reg _ _
  | encSym ra m =>
    exact h.bind (needMode_keeps h _) fun _ => h.bind (needAdmInit_keeps h _) fun _ =>
      h.bind (needSymbol_keeps h _ _) fun _ => h.bind h.get fun _ => encSym_onlyAdm _ _
  | decSym ra m =>
    exact h.bind (needMode_keeps h _) fun _ => h.bind (needAdmInit_keeps h _) fun _ =>
      h.bind (decSym_onlyAdm _) fun _ => reg _ _
  | encUint ra f =>
    exact h.bind (needCount_keeps h _) fun _ => h.bind (needMode_keeps h _) fun _ =>
      h.bind (needFits_keeps h _ _) fun _ => h.bind h.get fun _ => enc (encBitsUp_encMoves _ _ _)
  | decUint ra f =>
    exact h.bind (needCount_keeps h _) fun _ => h.bind (needMode_keeps h _) fun _ =>
      h.bind (dec (decBitsUp_decMoves _ _ _)) fun _ => reg _ _
  | zzenc ra rb => exact h.bind (readReg_keeps h _) fun _ => reg _ _
  | zzdec ra rb => exact h.bind (readReg_keeps h _) fun _ => reg _ _
  | encEg0 ra m =>
    exact h.bind (needMode_keeps h _) fun _ => h.bind (needAbm_keeps h _) fun _ => h.bind h.get fun _ =>
      encEg0_onlyAbm _ _
  | decEg0 ra m =>
    exact h.bind (needMode_keeps h _) fun _ => h.bind (needAbm_keeps h _) fun _ =>
      h.bind (decEg0_onlyAbm _) fun _ => reg _ _
  | encSdelta ra m =>
    exact h.bind (needMode_keeps h _) fun _ => h.bind (needAbm_keeps h _) fun _ => h.bind h.get fun _ =>
      encEg0_onlyAbm _ _
  | decSdelta ra m =>
    exact h.bind (needMode_keeps h _) fun _ => h.bind (needAbm_keeps h _) fun _ =>
      h.bind (decEg0_onlyAbm _) fun _ => reg _ _
  | allReset | occEncBlk | occDecBlk | occEncPatch | occDecPatch => exact fun _ => trivial

/-- The common frame of a command touches no model (R89; spec/60_exceptions.md R214, R216). -/
theorem exec_models {i : Instr} {s u : State} (h : exec i s = .next u) : (modelUse i).Kept s u := by
  have hframe := ModelUse.Kept.frame (modelUse i)
  have hbody := bodyOf_models i s
  rcases exec_outcome h with ⟨_, rfl⟩ | ⟨_, t, ht, _, rfl⟩ | ⟨_, f, info, t, ht, _, rfl⟩
  · have hsame : NoModel s s.refuse := ⟨rfl, rfl⟩
    exact hsame.kept _
  · have hsame : NoModel t t.complete := ⟨rfl, rfl⟩
    rw [ht] at hbody
    exact hframe.trans _ _ _ hbody (hsame.kept _)
  · have hsame : NoModel t (t.faultEntry f info (encode i)) := ⟨rfl, rfl⟩
    rw [ht] at hbody
    exact hframe.trans _ _ _ hbody (hsame.kept _)

/-- Settles O26: each command of the three groups names no model, bit model `m`, or data model `m`. -/
theorem modelsChangeOnlyWhereNamed : Obligations.ModelsChangeOnlyWhereNamed := by
  intro i s t h
  have hkept := exec_models h
  refine ⟨?_, fun m => ?_, fun m => ?_⟩
  · rintro (⟨ra, rb, rfl | rfl | rfl | rfl | rfl | rfl | rfl | rfl⟩ | ⟨ra, f, rfl | rfl | rfl | rfl⟩ |
      ⟨ra, imm, rfl | rfl⟩ | ⟨ra, rfl | rfl | rfl⟩ | rfl | rfl) <;> exact hkept
  · rintro (⟨ra, rfl | rfl | rfl | rfl | rfl | rfl⟩ | rfl) <;> exact hkept
  · rintro (⟨ra, rfl | rfl⟩ | ⟨f, rfl⟩ | rfl) <;> exact hkept

end Sys2Proof.Machine
end

section
/-! Coded decisions one after the other (spec/41_bit_and_symbol_coding.md R110 to R116, R120): an encode session that is
ready stays ready, and no carry leaves its window (R112). -/

namespace Sys2Proof.Machine

/-! ### The state that a decision leaves -/

/-- A command's own effect that ends in a sound state keeps the invariant outside the fault state. -/
theorem State.Inv.of_sound {s t : State} (h : s.Inv) (hframe : BodyFrame s t) (ht : t.Sound) : t.Inv := by
  obtain ⟨_, hrecord, _⟩ := s.inv_iff.mp h
  obtain ⟨hfault, hcode, hcmd, hinfo, hseq⟩ := hframe.faultRecord_eq
  refine (State.inv_iff t).mpr ⟨ht.1, ?_, fun _ => ht.2⟩
  unfold State.faultRecordOk at hrecord ⊢
  rw [hfault, hcode, hcmd, hinfo, hseq]
  exact hrecord

theorem State.Inv.sound {s : State} (h : s.Inv) (hf : s.fault = false) : s.Sound := by
  obtain ⟨hstored, _, hsession⟩ := s.inv_iff.mp h
  exact ⟨hstored, hsession hf⟩

/-- The encoder's number does not see the models. -/
theorem Decision.counted_codeNumber (d : Decision) (s : State) : (d.counted s).codeNumber = s.codeNumber := by
  cases d <;> exact State.codeNumber_congr rfl rfl rfl rfl rfl

/-- What the encoder makes of a state is not a matter of the models. -/
theorem State.encodedTo.counted {s t : State} {x r : Word} (h : s.encodedTo t x r) (d : Decision) :
    s.encodedTo (d.counted t) x r := by
  obtain ⟨hptr, hrange, hcode, hout⟩ := h
  have hnumber := (d.counted_codeNumber t).trans hcode
  cases d <;> exact ⟨hptr, hrange, hnumber, hout⟩

theorem EncMoves.counted {s t : State} (h : EncMoves s t) (d : Decision) : EncCodes s (d.counted t) := by
  have hcounted : EncCodes t (d.counted t) := by cases d <;> rfl
  exact EncCodes.frame.trans _ _ _ h.codes hcounted

/-- A decision's part lies inside the interval (R112). -/
theorem Decision.base_add_width_le {s : State} {d : Decision} (h : s.Inv) (hr : minRange ≤ s.range) (hf : d.fits s) :
    (d.base s).toNat + (d.width s).toNat ≤ s.range.toNat := by
  cases d with
  | bitS b =>
    simp only [Decision.base, Decision.width, bitPart_eq]
    exact (encBit_part hr (by decide) b).2
  | bitA m b =>
    simp only [Decision.base, Decision.width, bitPart_eq]
    exact (encBit_part hr (h.abmSlot_ok hf).1 b).2
  | sym j k =>
    obtain ⟨_, _, hin⟩ := symWidth_spec (h.admSlot_ok hf.1 (AdmSlot.inUse hf.2)) hf.2 hr
    rw [Decision.width_sym, Decision.base, symPart_eq, distAt_mul_toNat]
    exact hin

theorem Decision.enc_leads {s : State} {d : Decision} (h : s.EncOpen) (hf : d.fits s) :
    d.enc.Leads s fun _ t => t.EncOpen := by
  cases d with
  | bitS b => exact encBit_leads h b _
  | bitA m b => exact encBitA_leads h m b
  | sym j k => exact encSym_leads h hf.2

theorem renormTurns_le (r : Word) : renormTurns r ≤ 2 := by
  rcases renormTurns_cases r with ⟨_, h⟩ | ⟨_, _, h⟩ | ⟨_, h⟩ <;> omega

/-- Less room is asked for. -/
theorem State.encReady.mono {s : State} {m n : Nat} (h : s.encReady m) (hle : n ≤ m) : s.encReady n := by
  obtain ⟨hinv, hf, hm, hc, hroom⟩ := h
  exact ⟨hinv, hf, hm, hc, by omega⟩

theorem EncCodes.sameWindow {s t : State} (h : EncCodes s t) :
    t.params = s.params ∧ t.wbase = s.wbase ∧ t.wlen = s.wlen ∧ t.memEpoch = s.memEpoch := by
  unfold EncCodes at h
  rw [h]
  exact ⟨rfl, rfl, rfl, rfl⟩

/-- Coding a decision with room for its bytes leaves a ready session, with the rest of the room (R112, R114). -/
theorem Decision.enc_ready {s : State} {d : Decision} {n : Nat} (h : s.encReady (renormTurns (d.width s) + n))
    (hf : d.fits s) :
    ∃ t, d.enc s = .ok () t ∧ t.encReady n ∧ EncCodes s t ∧ s.encodedTo t (d.base s) (d.width s) := by
  obtain ⟨t, ht, hmoves, henc⟩ := Decision.enc_ok (h.mono (Nat.le_add_right _ n)) hf
  have hencoded := henc.counted d
  have hcodes := hmoves.counted d
  obtain ⟨_, hr⟩ := h.coder
  obtain ⟨hinv, hfault, hmode, hcarry, hroom⟩ := h
  have hopen : (d.counted t).EncOpen := by
    have hleads := Decision.enc_leads ((hinv.sound hfault).encOpen hmode) hf
    unfold Cmd.Leads at hleads
    rwa [ht] at hleads
  obtain ⟨hfault', _⟩ := hcodes.bodyFrame.faultRecord_eq
  obtain ⟨_, _, hwlen, _⟩ := hcodes.sameWindow
  obtain ⟨hptr, _⟩ := id hencoded
  refine ⟨_, ht, ⟨hinv.of_sound hcodes.bodyFrame hopen.sound, hfault'.trans hfault, hopen.mode,
    hencoded.carryBound hcarry (Decision.base_add_width_le hinv hr hf), ?_⟩, hcodes, hencoded⟩
  rw [hwlen, hptr]
  omega

/-- Coding an element changes no alphabet. -/
theorem Decision.enc_sameAlphabets (d : Decision) : Cmd.Keeps SameAlphabets d.enc := by
  cases d with
  | bitS b => exact (encBit_encMoves _ _).mono fun _ _ h => h.noModel.sameAlphabets
  | bitA m b => exact (encBitA_onlyAbm m b).mono fun _ _ h => h.sameAlphabets
  | sym j k => exact encSym_sameAlphabets k j

/-- Whether a decision fits is a matter of the parameters and the alphabets. -/
theorem Decision.fits.congr {s t : State} {d : Decision} (h : d.fits s) (hparams : t.params = s.params)
    (hsize : SameAlphabets s t) : d.fits t := by
  cases d with
  | bitS b => trivial
  | bitA m b =>
    show m < t.params.nAbm
    rw [hparams]
    exact h
  | sym j k =>
    show j < t.params.nAdm ∧ k < (t.admSlot j).nsym.toNat
    rw [hparams, hsize j]
    exact h

theorem Decision.enc_fits {s t : State} {d e : Decision} (hd : d.enc s = .ok () t) (hparams : t.params = s.params)
    (h : e.fits s) : e.fits t := by
  have hsize := d.enc_sameAlphabets s
  rw [hd] at hsize
  exact h.congr hparams hsize

/-- The frame of what one decision writes. -/
theorem EncCodes.encFrame {s t : State} {x r : Word} (h : EncCodes s t) (henc : s.encodedTo t x r) : s.encFrame t := by
  obtain ⟨_, _, _, hout⟩ := henc
  exact ⟨h, hout⟩

theorem State.encFrame.refl (s : State) : s.encFrame s := ⟨rfl, fun _ _ => rfl⟩

theorem State.encFrame.trans {s t u : State} (h : s.encFrame t) (k : t.encFrame u) (hptr : t.ptr.toNat ≤ u.ptr.toNat) :
    s.encFrame u := by
  obtain ⟨hcodes, hout⟩ := h
  obtain ⟨hcodes', hout'⟩ := k
  obtain ⟨_, hwbase, _⟩ := EncCodes.sameWindow hcodes
  rw [hwbase] at hout'
  exact ⟨EncCodes.frame.trans _ _ _ hcodes hcodes', fun a ha => (hout' a ha).trans (hout a (by omega))⟩

/-- Settles O48, by induction on the sequence: a decision sends at most two bytes and leaves the session ready. -/
theorem encodingNeverRunsOffTheWindow : Obligations.EncodingNeverRunsOffTheWindow := by
  intro s ds spare
  induction ds generalizing s with
  | nil =>
    intro h _
    exact ⟨s, rfl, h.mono (Nat.le_add_left _ _), Nat.le_refl _, State.encFrame.refl s⟩
  | cons d ds ih =>
    intro h hfits
    have hturns := renormTurns_le (d.width s)
    obtain ⟨hd, hds⟩ := List.forall_mem_cons.mp hfits
    obtain ⟨t, ht, hready, hcodes, henc⟩ :=
      Decision.enc_ready (n := 2 * ds.length + spare) (h.mono (by rw [List.length_cons]; omega)) hd
    obtain ⟨hparams, _⟩ := hcodes.sameWindow
    obtain ⟨u, hu, hready', hptr', hframe'⟩ := ih t hready fun e he => Decision.enc_fits ht hparams (hds e he)
    obtain ⟨hptr, _⟩ := id henc
    exact ⟨u, encDecisions_cons_eq_ok.mpr ⟨t, ht, hu⟩, hready', by omega,
      (hcodes.encFrame henc).trans hframe' hptr'⟩

end Sys2Proof.Machine
end

section
/-! The round trip (spec/41_bit_and_symbol_coding.md R125): the payload of an encode session lies in the interval of
every state of the session, so a decoder that reads it selects, step by step, what was coded. -/

namespace Sys2Proof.Machine

/-! ### The bytes served as one number (R113, R115) -/

/-- The bytes from an offset on are those of a first part and those after it. -/
theorem State.servedNumber_add (s : State) (o m n : Nat) :
    s.servedNumber o (m + n) = s.servedNumber o m * 256 ^ n + s.servedNumber (o + m) n := by
  induction n with
  | zero => simp [State.servedNumber]
  | succ k ih =>
    rw [← Nat.add_assoc, State.servedNumber, State.servedNumber, ih, Nat.pow_succ, Nat.add_mul, Nat.mul_assoc,
      Nat.add_assoc, Nat.add_assoc o m k]

theorem State.servedNumber_lt (s : State) (o n : Nat) : s.servedNumber o n < 256 ^ n := by
  induction n with
  | zero => simp [State.servedNumber]
  | succ k ih =>
    have hb := (s.servedByte (o + k)).isLt
    rw [State.servedNumber, Nat.pow_succ]
    omega

/-- A decoder that is served the bytes written reads their number. -/
theorem State.servedNumber_eq_payloadNumber {d u : State} {n : Nat}
    (h : ∀ o, o < n → d.servedByte o = u.cbByte (u.windowAddr (BitVec.ofNat 32 o))) :
    d.servedNumber 0 n = u.payloadNumber n := by
  induction n with
  | zero => rfl
  | succ k ih =>
    rw [State.servedNumber, State.payloadNumber, ih fun o ho => h o (Nat.lt_succ_of_lt ho), Nat.zero_add,
      h k (Nat.lt_succ_self k)]

/-! ### The decoder's stream inside the encoder's interval -/

/-- The bytes that the decoder `d` is served from the start of its window lie in the interval of the encoder `v` (R110):
as many of them are taken as the encoder has sent, and four for `LOW`. -/
def State.Covers (v d : State) : Prop :=
  v.codeNumber ≤ d.servedNumber 0 (v.ptr.toNat + 4) ∧
    d.servedNumber 0 (v.ptr.toNat + 4) < v.codeNumber + v.range.toNat

/-- What lies in the interval after a narrowing lay in the part narrowed to, whatever bytes the narrowing sent. -/
theorem State.encodedTo.covers {v t d : State} {x r : Word} (h : v.encodedTo t x r) (hc : t.Covers d) :
    v.codeNumber + x.toNat ≤ d.servedNumber 0 (v.ptr.toNat + 4) ∧
      d.servedNumber 0 (v.ptr.toNat + 4) < v.codeNumber + x.toNat + r.toNat := by
  obtain ⟨hptr, hrange, hcode, _⟩ := h
  unfold State.Covers at hc
  rw [hptr, hrange, hcode, Nat.add_right_comm _ _ 4, State.servedNumber_add, ← Nat.add_mul] at hc
  obtain ⟨hlo, hhi⟩ := hc
  have hrest := d.servedNumber_lt (0 + (v.ptr.toNat + 4)) (renormTurns r)
  constructor
  · refine Nat.lt_succ_iff.mp (Nat.lt_of_mul_lt_mul_right (a := 256 ^ renormTurns r) ?_)
    rw [Nat.succ_mul]
    omega
  · exact Nat.lt_of_mul_lt_mul_right (Nat.lt_of_le_of_lt (Nat.le_add_right _ _) hhi)

/-- The part that a decision keeps is the one that `VALUE` selects (R117, R121). -/
theorem Decision.selected_of_mem {s : State} {d : Decision} (h : s.Inv) (hf : d.fits s)
    (hlo : (d.base s).toNat ≤ s.value.toNat) (hhi : s.value.toNat < (d.base s).toNat + (d.width s).toNat) :
    d.selected s := by
  have hbit (x : Word) (b : Bool) (hlo : (if b then x else 0#32).toNat ≤ s.value.toNat)
      (hhi : s.value.toNat < (if b then x else 0#32).toNat + (if b then s.range - x else x).toNat) :
      b = decide (x ≤ s.value) := by
    cases b with
    | true => exact (decide_eq_true hlo).symm
    | false =>
      refine (decide_eq_false fun hle => ?_).symm
      rw [BitVec.le_def] at hle
      simp only [Bool.false_eq_true, if_false, BitVec.toNat_zero] at hhi
      omega
  cases d with
  | bitS b => exact hbit _ b hlo hhi
  | bitA m b => exact hbit _ b hlo hhi
  | sym j k =>
    obtain ⟨hj, hk⟩ := hf
    have hd := h.admSlot_ok hj (AdmSlot.inUse hk)
    have hpart (i : Nat) : (symPart (s.admSlot j) s.range i).toNat =
        ((s.admSlot j).dist.getD i 0#15).toNat * (s.range.toNat / 2 ^ 15) := by
      rw [symPart_eq, distAt_mul_toNat]
    have hrises {i l : Nat} (hil : i < l) (hl : l < (s.admSlot j).nsym.toNat) :
        (symPart (s.admSlot j) s.range i).toNat ≤ (symPart (s.admSlot j) s.range l).toNat := by
      rw [hpart, hpart]
      exact Nat.mul_le_mul_right _ (Nat.le_of_lt (hd.dist_lt hil hl))
    refine ⟨hk, hlo, fun l hkl hl => ?_⟩
    have hnext : k + 1 < (s.admSlot j).nsym.toNat := Nat.lt_of_le_of_lt hkl hl
    have hwidth : (Decision.width s (.sym j k)).toNat =
        (symPart (s.admSlot j) s.range (k + 1)).toNat - (symPart (s.admSlot j) s.range k).toNat := by
      rw [Decision.width, if_neg (Nat.ne_of_lt hnext), BitVec.toNat_sub_of_le (hrises (Nat.lt_add_one k) hnext)]
    have hfirst : (symPart (s.admSlot j) s.range (k + 1)).toNat ≤ (symPart (s.admSlot j) s.range l).toNat := by
      rcases Nat.eq_or_lt_of_le hkl with heq | hlt
      · rw [← heq]
      · exact hrises hlt hl
    have hstart := hrises (Nat.lt_add_one k) hnext
    have hbase : Decision.base s (.sym j k) = symPart (s.admSlot j) s.range k := rfl
    rw [hwidth, hbase] at hhi
    rw [BitVec.lt_def]
    omega

/-- A decision's part is a matter of the width and the models. -/
theorem Decision.part_congr {s t : State} (d : Decision) (hrange : t.range = s.range) (habm : t.abm = s.abm)
    (hadm : t.adm = s.adm) : d.base t = d.base s ∧ d.width t = d.width s := by
  cases d <;> simp [Decision.base, Decision.width, State.abmSlot, State.admSlot, hrange, habm, hadm]

/-! ### Decoding a decision -/

theorem Decision.dec_leads {s : State} {d : Decision} (h : s.DecOpen) (hu : d.usable s) :
    d.dec.Leads s fun _ t => t.DecOpen := by
  cases d with
  | bitS b => exact (decBit_leads h _).bind fun _ _ ht => ht
  | bitA m b => exact (decBitA_leads h m).bind fun _ _ ht => ht
  | sym j k => exact (decSym_leads h hu.2).bind fun _ _ ht => ht

theorem Decision.fits.usable {s : State} {d : Decision} (h : d.fits s) : d.usable s := by
  cases d with
  | bitS b => trivial
  | bitA m b => exact h
  | sym j k => exact ⟨h.1, AdmSlot.inUse h.2⟩

theorem State.decodedTo.counted {s t : State} {v r : Word} (h : s.decodedTo t v r) (d : Decision) :
    s.decodedTo (d.counted t) v r := by
  cases d <;> exact h

theorem DecMoves.counted {s t : State} (h : DecMoves s t) (d : Decision) : DecCodes s (d.counted t) := by
  have hcounted : DecCodes t (d.counted t) := by cases d <;> rfl
  exact DecCodes.frame.trans _ _ _ h.codes hcounted

theorem DecCodes.sameStream {s t : State} (h : DecCodes s t) :
    t.params = s.params ∧ t.wlen = s.wlen ∧ ∀ o n, t.servedNumber o n = s.servedNumber o n := by
  obtain ⟨hparams, hwbase, hwlen, hcb, hepoch⟩ : t.params = s.params ∧ t.wbase = s.wbase ∧ t.wlen = s.wlen ∧
      t.cb = s.cb ∧ t.memEpoch = s.memEpoch := by
    unfold DecCodes at h
    rw [h]
    exact ⟨rfl, rfl, rfl, rfl, rfl⟩
  exact ⟨hparams, hwlen, State.servedNumber_congr hwbase hwlen hcb hepoch⟩

/-- The selected decision decoded with its bytes at hand leaves a ready session (R115). -/
theorem Decision.dec_ready {s : State} {d : Decision} (h : s.decReady (renormTurns (d.width s))) (hu : d.usable s)
    (hsel : d.selected s) :
    ∃ t, d.dec s = .ok d (d.counted t) ∧ DecMoves s t ∧ (d.counted t).decReady 0 ∧
      s.decodedTo (d.counted t) (s.value - d.base s) (d.width s) := by
  obtain ⟨t, ht, hmoves, hdec⟩ := Decision.dec_ok h hu hsel
  have hcodes := hmoves.counted d
  have hdecoded := hdec.counted d
  obtain ⟨hinv, hfault, hmode, hroom⟩ := h
  have hopen : (d.counted t).DecOpen := by
    have hleads := Decision.dec_leads ((hinv.sound hfault).decOpen hmode) hu
    unfold Cmd.Leads at hleads
    rwa [ht] at hleads
  obtain ⟨hfault', _⟩ := hcodes.bodyFrame.faultRecord_eq
  exact ⟨t, ht, hmoves, ⟨hinv.of_sound hcodes.bodyFrame hopen.sound, hfault'.trans hfault, hopen.mode, hopen.ptr.2⟩,
    hdecoded⟩

/-! ### Model resets between the coded elements (spec/40_session_and_models.md R97 to R100) -/

/-- The command that a model reset of a session is. -/
def ModelReset.instr (r : ModelReset) : Instr :=
  match r with
  | .abmReset m => .abmReset m
  | .admInit m f => .admInit m f
  | .admReset m => .admReset m
  | .allReset => .allReset

theorem ModelReset.run_eq_bodyOf (r : ModelReset) : r.run = bodyOf r.instr := by
  cases r <;> rfl

/-- A state with the model banks of another. -/
def State.withModelsOf (s t : State) : State := { s with abm := t.abm, adm := t.adm }

/-- A reset that is not abandoned changes the banks alone, and does the same to equal banks. -/
theorem ModelReset.run_eq_ok {r : ModelReset} {s t : State} (h : r.run s = .ok () t) {w : State}
    (hparams : w.params = s.params) (habm : w.abm = s.abm) (hadm : w.adm = s.adm) :
    r.run w = .ok () (w.withModelsOf t) := by
  have hslot (j : Nat) : w.admSlot j = s.admSlot j := by simp [State.admSlot, hadm]
  -- a test that has passed on the one side passes on the other, and neither changes anything
  have tested {x : Cmd Unit} {p : State → Prop} [DecidablePred p] {e : State → Stop} {f : Unit → Cmd Unit}
      (hx : ∀ q, x q = if p q then .ok () q else .error (e q) q) (hp : p s → p w) (h : (x >>= f) s = .ok () t) :
      f () s = .ok () t ∧ (x >>= f) w = f () w := by
    by_cases hps : p s
    · exact ⟨by rwa [Cmd.bind_of_ok ((hx s).trans (if_pos hps))] at h,
        Cmd.bind_of_ok ((hx w).trans (if_pos (hp hps)))⟩
    · rw [Cmd.bind_of_error ((hx s).trans (if_neg hps))] at h
      cases h
  cases r with
  | abmReset m =>
    obtain ⟨hs, hw⟩ := tested (needAbm_run m) (by rw [hparams]; exact id) h
    cases hs
    refine hw.trans ?_
    simp [State.withModelsOf, State.setAbm, habm, hadm]
  | admInit m f =>
    obtain ⟨hs, hw⟩ := tested (needAdm_run m) (by rw [hparams]; exact id) h
    obtain ⟨hs', hw'⟩ := tested (needAlphabet_run f) (by rw [hparams]; exact id) hs
    cases hs'
    refine (hw.trans hw').trans ?_
    simp [State.withModelsOf, State.setAdm, habm, hadm, hslot]
  | admReset m =>
    obtain ⟨hs, hw⟩ := tested (needAdmInit_run m) (by rw [hparams, hslot]; exact id) h
    cases hs
    refine hw.trans ?_
    simp [State.withModelsOf, State.setAdm, habm, hadm, hslot]
  | allReset =>
    cases h
    show (modify State.resetModels : Cmd Unit) w = _
    simp [State.withModelsOf, State.resetModels, habm, hadm]

theorem ModelReset.run_self {r : ModelReset} {s t : State} (h : r.run s = .ok () t) : t = s.withModelsOf t := by
  have hself := r.run_eq_ok h rfl rfl rfl
  rw [h] at hself
  injection hself

/-- A reset keeps the invariant in both kinds of session. -/
theorem ModelReset.run_inv {r : ModelReset} {s t : State} (h : s.Inv) (hf : s.fault = false)
    (hrun : r.run s = .ok () t) : t.Inv := by
  have hleads := bodyOf_leads (h.sound hf) r.instr
  have hframe := bodyOf_bodyFrame r.instr s
  rw [r.run_eq_bodyOf] at hrun
  unfold Cmd.Leads at hleads
  rw [hrun] at hleads hframe
  exact h.of_sound hframe hleads

theorem State.withModelsOf_codeNumber (s t : State) : (s.withModelsOf t).codeNumber = s.codeNumber :=
  State.codeNumber_congr rfl rfl rfl rfl rfl

theorem State.encReady.reset {r : ModelReset} {s t : State} {n : Nat} (h : s.encReady n) (hrun : r.run s = .ok () t) :
    t.encReady n := by
  obtain ⟨hinv, hf, hm, hc, hroom⟩ := h
  have hinv' := r.run_inv hinv hf hrun
  have hnumber := s.withModelsOf_codeNumber t
  rw [r.run_self hrun] at hinv' ⊢
  refine ⟨hinv', hf, hm, ?_, hroom⟩
  unfold State.carryBound at hc ⊢
  rw [hnumber]
  exact hc

theorem State.decReady.reset {r : ModelReset} {s t : State} {n : Nat} (h : s.decReady n) (hrun : r.run s = .ok () t) :
    t.decReady n := by
  obtain ⟨hinv, hf, hm, hroom⟩ := h
  have hinv' := r.run_inv hinv hf hrun
  rw [r.run_self hrun] at hinv' ⊢
  exact ⟨hinv', hf, hm, hroom⟩

/-! ### The encoder's side -/

/-- An element that was coded had room for its bytes (R111). -/
theorem Decision.room_of_enc {s t : State} {d : Decision} (h : s.encReady 0) (hf : d.fits s) (hd : d.enc s = .ok () t) :
    s.encReady (renormTurns (d.width s)) := by
  by_contra hnot
  obtain ⟨hinv, hfault, hm, hc, _⟩ := id h
  obtain ⟨u, hu, _⟩ := Decision.enc_full h hf (Nat.not_le.mp fun hle => hnot ⟨hinv, hfault, hm, hc, hle⟩)
  rw [hd] at hu
  cases hu

theorem Decision.enc_eq_ok {s t : State} {d : Decision} (h : s.encReady 0) (hf : d.fits s) (hd : d.enc s = .ok () t) :
    t.encReady 0 ∧ s.encodedTo t (d.base s) (d.width s) := by
  obtain ⟨u, hu, hready, _, henc⟩ := Decision.enc_ready (n := 0) (Decision.room_of_enc h hf hd) hf
  rw [hd] at hu
  cases hu
  exact ⟨hready, henc⟩

/-- A step of an encode session leaves a ready session, whose interval lies in the one before. -/
theorem SessionStep.enc_eq_ok {s t : State} {e : SessionStep} (h : s.encReady 0) (hf : e.fits s)
    (he : e.enc s = .ok () t) :
    t.encReady 0 ∧ s.ptr.toNat ≤ t.ptr.toNat ∧ ∀ d : State, t.Covers d → s.Covers d := by
  cases e with
  | code d =>
    obtain ⟨_, hr⟩ := h.coder
    obtain ⟨hready, henc⟩ := Decision.enc_eq_ok h hf he
    have hin := Decision.base_add_width_le h.1 hr hf
    obtain ⟨hptr, _⟩ := id henc
    refine ⟨hready, by omega, fun D hc => ?_⟩
    obtain ⟨hlo, hhi⟩ := henc.covers hc
    exact ⟨by omega, by omega⟩
  | reset r =>
    refine ⟨h.reset he, ?_, fun D hc => ?_⟩
    · rw [r.run_self he]
      exact Nat.le_refl _
    · unfold State.Covers at hc ⊢
      rwa [r.run_self he, s.withModelsOf_codeNumber t] at hc

/-- Every coded element fits its model when its turn comes. -/
def StepsFit (s : State) (es : List SessionStep) : Prop :=
  ∀ pre e post v, es = pre ++ e :: post → encSteps pre s = .ok () v → e.fits v

theorem StepsFit.head {s : State} {e : SessionStep} {es : List SessionStep} (h : StepsFit s (e :: es)) : e.fits s :=
  h [] e es s rfl rfl

theorem StepsFit.tail {s t : State} {e : SessionStep} {es : List SessionStep} (h : StepsFit s (e :: es))
    (he : e.enc s = .ok () t) : StepsFit t es := fun pre f post v hes hv =>
  h (e :: pre) f post v (by rw [hes]; rfl) (encSteps_cons_eq_ok.mpr ⟨t, he, hv⟩)

theorem encSteps_eq_ok {es : List SessionStep} {s t : State} (h : s.encReady 0) (hfit : StepsFit s es)
    (hes : encSteps es s = .ok () t) :
    t.encReady 0 ∧ s.ptr.toNat ≤ t.ptr.toNat ∧ ∀ d : State, t.Covers d → s.Covers d := by
  induction es generalizing s with
  | nil =>
    cases hes
    exact ⟨h, Nat.le_refl _, fun _ => id⟩
  | cons e es ih =>
    obtain ⟨v, hv, hrest⟩ := encSteps_cons_eq_ok.mp hes
    obtain ⟨hready, hptr, hcovers⟩ := SessionStep.enc_eq_ok h hfit.head hv
    obtain ⟨hready', hptr', hcovers'⟩ := ih hready (hfit.tail hv) hrest
    exact ⟨hready', hptr.trans hptr', fun d hc => hcovers d (hcovers' d hc)⟩

/-- `ENC_STOP` completed only with room for its last bytes (R94, R111). -/
theorem State.encReady.of_encStop {s u : State} {ra : Reg} (h : s.encReady 0) (hstop : encStopBody ra s = .ok () u) :
    s.encReady (if 2 ^ 25 < s.range.toNat then 1 else 2) := by
  obtain ⟨hw, hr⟩ := h.coder
  obtain ⟨hinv, hf, hm, hcarry, hle⟩ := h
  obtain ⟨_, hlt, hturns⟩ := s.stopWidth_spec
  refine ⟨hinv, hf, hm, hcarry, Nat.not_lt.mp fun hfull => ?_⟩
  rw [← hturns] at hfull
  have hadd := State.stopAdd_lt hr
  obtain ⟨t, ht, hframe, _⟩ := addLow_ok hw hle s.stopAdd s.stopWidth
    (Nat.lt_of_lt_of_le (Nat.add_lt_add_left hadd _) hcarry)
  have hrange : t.range = s.stopWidth := by rw [hframe]
  have hptr : t.ptr = s.ptr := by rw [hframe]
  have hwlen : t.wlen = s.wlen := by rw [hframe]
  obtain ⟨v, hv, _⟩ := renormEnc_full (s := t) (by rw [hframe]; exact hw)
    (by rw [hrange]; simpa [BitVec.lt_def, minRange] using hlt) (by rw [hptr, hwlen]; exact hle)
    (by rw [hptr, hwlen, hrange]; exact hfull)
  unfold encStopBody at hstop
  rw [needMode_bind_of_eq hm, Cmd.bind_of_ok ((terminate_run s).trans ht), Cmd.bind_of_error hv] at hstop
  cases hstop

/-- The payload that `ENC_STOP` completes lies in the interval of the state before, whatever bytes follow it (R94, R96,
R125): the low end is raised by at least one unit of the last byte sent, so that without `LOW` the number does not fall
below the interval, and what follows adds less than a unit. -/
theorem State.encodedTo.stop_covers {s u d : State} (hr : minRange ≤ s.range)
    (h : s.encodedTo u s.stopAdd s.stopWidth)
    (hserved : d.servedNumber 0 u.ptr.toNat = u.payloadNumber u.ptr.toNat) : s.Covers d := by
  have hmin : 2 ^ 24 ≤ s.range.toNat := by simpa [BitVec.le_def, minRange] using hr
  obtain ⟨_, _, hturns⟩ := s.stopWidth_spec
  obtain ⟨hptr, _, hcode, _⟩ := h
  have hlow := u.low.isLt
  have hnumber : u.codeNumber = u.payloadNumber u.ptr.toNat * 2 ^ 32 + u.low.toNat := rfl
  rw [hnumber, ← hserved, hturns] at hcode
  rw [hturns] at hptr
  unfold State.Covers
  unfold State.stopAdd at hcode
  by_cases hwide : 2 ^ 25 < s.range.toNat
  · rw [if_pos hwide] at hptr hcode
    rw [if_pos hwide] at hcode
    have hrest := d.servedNumber_lt (0 + u.ptr.toNat) 3
    rw [show s.ptr.toNat + 4 = u.ptr.toNat + 3 by omega, State.servedNumber_add]
    have hstop : (0x01000000#32 : Word).toNat = 2 ^ 24 := rfl
    rw [hstop] at hcode
    omega
  · rw [if_neg hwide] at hptr hcode
    rw [if_neg hwide] at hcode
    have hrest := d.servedNumber_lt (0 + u.ptr.toNat) 2
    rw [show s.ptr.toNat + 4 = u.ptr.toNat + 2 by omega, State.servedNumber_add]
    have hstop : (0x00800000#32 : Word).toNat = 2 ^ 23 := rfl
    rw [hstop] at hcode
    omega

/-! ### Both sides -/

/-- The decoder `w`, which began as `d`, stands where the encoder `v` stands (R125): equal widths and banks, and `VALUE`
is where the stream lies in the encoder's interval. -/
structure Mirrors (d v w : State) : Prop where
  enc : v.encReady 0
  dec : w.decReady 0
  stream : DecCodes d w
  params : w.params = v.params
  abm : w.abm = v.abm
  adm : w.adm = v.adm
  range : w.range = v.range
  ptr : w.ptr.toNat = v.ptr.toNat + 4
  value : v.codeNumber + w.value.toNat = d.servedNumber 0 (v.ptr.toNat + 4)

theorem Decision.counted_models {s t : State} (d : Decision) (habm : t.abm = s.abm) (hadm : t.adm = s.adm) :
    (d.counted t).abm = (d.counted s).abm ∧ (d.counted t).adm = (d.counted s).adm := by
  cases d <;> simp [Decision.counted, State.setAbm, State.setAdm, State.abmSlot, State.admSlot, habm, hadm]

/-- The mirror of a coded element decodes it (R117, R121, R125). -/
theorem Mirrors.code {d v w t : State} {e : Decision} (h : Mirrors d v w) (hf : e.fits v) (he : e.enc v = .ok () t)
    (hc : t.Covers d) (hroom : t.ptr.toNat < d.wlen.toNat) : ∃ u, e.dec w = .ok e u ∧ Mirrors d t u := by
  obtain ⟨v', hv', hmovesV, _⟩ := Decision.enc_ok (Decision.room_of_enc h.enc hf he) hf
  obtain ⟨hready, henc⟩ := Decision.enc_eq_ok h.enc hf he
  obtain ⟨hlo, hhi⟩ := henc.covers hc
  obtain ⟨hparams, hwlen, hserved⟩ := h.stream.sameStream
  obtain ⟨hbase, hwidth⟩ := e.part_congr h.range h.abm h.adm
  have hvalue := h.value
  have hptr := h.ptr
  obtain ⟨hinvW, hfW, hmW, _⟩ := h.dec
  have hfits : e.fits w := hf.congr h.params fun j => by simp [State.admSlot, h.adm]
  obtain ⟨hptrV, hrangeV, hcodeV, _⟩ := id henc
  -- the decoder may fetch as many bytes as the encoder has sent
  have hdec : w.decReady (renormTurns (e.width w)) := ⟨hinvW, hfW, hmW, by rw [hwidth, hwlen]; omega⟩
  have hle : (e.base w).toNat ≤ w.value.toNat := by rw [hbase]; omega
  have hselected : e.selected w := Decision.selected_of_mem hinvW hfits hle (by rw [hbase, hwidth]; omega)
  obtain ⟨w', hw', hmovesW, hreadyW, hdecoded⟩ := Decision.dec_ready hdec hfits.usable hselected
  obtain ⟨hptrW, hrangeW, hvalueW, _⟩ := id hdecoded
  obtain rfl : t = e.counted v' := by
    rw [he] at hv'
    cases hv'
    rfl
  have hsameBanks : w'.abm = v'.abm ∧ w'.adm = v'.adm :=
    ⟨hmovesW.noModel.1.trans (h.abm.trans hmovesV.noModel.1.symm),
      hmovesW.noModel.2.trans (h.adm.trans hmovesV.noModel.2.symm)⟩
  obtain ⟨habm, hadm⟩ := e.counted_models hsameBanks.1 hsameBanks.2
  obtain ⟨hparamsV, _⟩ := (hmovesV.counted e).sameWindow
  obtain ⟨hparamsW, _⟩ := (hmovesW.counted e).sameStream
  have hptr' : (e.counted w').ptr.toNat = (e.counted v').ptr.toNat + 4 := by rw [hptrW, hptrV, hwidth]; omega
  have hrange' : (e.counted w').range = (e.counted v').range :=
    BitVec.eq_of_toNat_eq (by rw [hrangeW, hrangeV, hwidth])
  refine ⟨_, hw', hready, hreadyW, DecCodes.frame.trans _ _ _ h.stream (hmovesW.counted e),
    hparamsW.trans (h.params.trans hparamsV.symm), habm, hadm, hrange', hptr', ?_⟩
  -- `VALUE` loses the part's low end and takes in the bytes that the encoder has sent
  obtain ⟨hcoversLo, hcoversHi⟩ := hc
  have hwidthLt := (e.counted v').range.isLt
  have hsplit : d.servedNumber 0 ((e.counted v').ptr.toNat + 4) =
      d.servedNumber 0 (v.ptr.toNat + 4) * 256 ^ renormTurns (e.width v) +
        d.servedNumber (v.ptr.toNat + 4) (renormTurns (e.width v)) := by
    rw [hptrV, Nat.add_right_comm, State.servedNumber_add, Nat.zero_add]
  have hexact : (e.counted v').codeNumber +
      ((w.value - e.base w).toNat * 256 ^ renormTurns (e.width w) +
        w.servedNumber w.ptr.toNat (renormTurns (e.width w))) =
      d.servedNumber 0 ((e.counted v').ptr.toNat + 4) := by
    have hsum : v.codeNumber + (e.base v).toNat + (w.value.toNat - (e.base v).toNat) =
        d.servedNumber 0 (v.ptr.toNat + 4) := by
      rw [hbase] at hle
      omega
    rw [BitVec.toNat_sub_of_le hle, hbase, hwidth, hserved, hptr, hsplit, hcodeV, ← Nat.add_assoc, ← Nat.add_mul, hsum]
  rw [hvalueW, Nat.mod_eq_of_lt (by omega)]
  exact hexact

/-- The mirror of a reset is the reset. -/
theorem Mirrors.reset {d v w t : State} {r : ModelReset} (h : Mirrors d v w) (hr : r.run v = .ok () t) :
    ∃ u, r.run w = .ok () u ∧ Mirrors d t u := by
  have hrun := r.run_eq_ok hr h.params h.abm h.adm
  have hnumber := v.withModelsOf_codeNumber t
  have henc := h.enc.reset hr
  have hself := r.run_self hr
  refine ⟨_, hrun, henc, h.dec.reset hrun, DecCodes.frame.trans _ _ _ h.stream rfl, ?_, rfl, rfl, ?_, ?_, ?_⟩
  · rw [hself]
    exact h.params
  · rw [hself]
    exact h.range
  · rw [hself]
    exact h.ptr
  · rw [hself, hnumber]
    exact h.value

theorem Mirrors.step {d v w t : State} {e : SessionStep} (h : Mirrors d v w) (hf : e.fits v) (he : e.enc v = .ok () t)
    (hc : t.Covers d) (hroom : t.ptr.toNat < d.wlen.toNat) : ∃ u, e.dec w = .ok e u ∧ Mirrors d t u := by
  cases e with
  | code c =>
    obtain ⟨u, hu, hmirrors⟩ := h.code hf he hc hroom
    exact ⟨u, (Cmd.bind_of_ok hu).trans rfl, hmirrors⟩
  | reset r =>
    obtain ⟨u, hu, hmirrors⟩ := h.reset he
    exact ⟨u, (Cmd.bind_of_ok hu).trans rfl, hmirrors⟩

/-- As long as the stream lies in the last interval, the decoder keeps up with the encoder (R125). -/
theorem Mirrors.steps {d t : State} {es : List SessionStep} (hc : t.Covers d) (hroom : t.ptr.toNat < d.wlen.toNat)
    {v w : State} (h : Mirrors d v w) (hfit : StepsFit v es) (hes : encSteps es v = .ok () t) :
    ∀ pre post, es = pre ++ post →
      ∃ x y : State, encSteps pre v = .ok () x ∧ decSteps pre w = .ok pre y ∧ Mirrors d x y := by
  induction es generalizing v w with
  | nil =>
    intro pre post hsplit
    obtain ⟨rfl, rfl⟩ := List.append_eq_nil_iff.mp hsplit.symm
    exact ⟨v, w, rfl, rfl, h⟩
  | cons e es ih =>
    intro pre post hsplit
    cases pre with
    | nil => exact ⟨v, w, rfl, rfl, h⟩
    | cons f pre =>
      obtain ⟨rfl, hsplit'⟩ := List.cons.inj hsplit
      obtain ⟨v', hv', hrest⟩ := encSteps_cons_eq_ok.mp hes
      obtain ⟨hready, _⟩ := SessionStep.enc_eq_ok h.enc hfit.head hv'
      obtain ⟨_, hptr, hcovers⟩ := encSteps_eq_ok hready (hfit.tail hv') hrest
      obtain ⟨w', hw', hmirrors⟩ := h.step hfit.head hv' (hcovers d hc) (Nat.lt_of_le_of_lt hptr hroom)
      obtain ⟨x, y, hx, hy, hxy⟩ := ih hmirrors (hfit.tail hv') hrest pre post hsplit'
      exact ⟨x, y, encSteps_cons_eq_ok.mpr ⟨v', hv', hx⟩, decSteps_cons_eq_ok.mpr ⟨w', hw', hy⟩, hxy⟩

/-- An `ENC_STOP` that ends outside the fault state has completed. -/
theorem encStop_completed {s u : State} {ra : Reg} (h : exec (.encStop ra) s = .next u) (hs : s.fault = false)
    (hu : u.fault = false) : ∃ t, encStopBody ra s = .ok () t ∧ u = t.complete := by
  rcases exec_outcome h with ⟨hf, _⟩ | ⟨_, t, ht, _, rfl⟩ | ⟨_, f, info, t, _, _, rfl⟩
  · exact Bool.noConfusion (hs.symm.trans hf)
  · exact ⟨t, ht, rfl⟩
  · exact Bool.noConfusion hu

/-- Settles O49: what `ENC_STOP` leaves lies in the interval of every state of the session, and a decoder that is served
it stays a mirror of the encoder. -/
theorem decodingReturnsWhatWasEncoded : Obligations.DecodingReturnsWhatWasEncoded := by
  intro s t u d es ra hs hptr hlow hrange hfit hes hstop hu hd hdptr hdrange hdvalue hparams habm hadm hlen hserved
    pre post hsplit
  obtain ⟨hready, _⟩ := encSteps_eq_ok hs hfit hes
  obtain ⟨_, hr⟩ := hready.coder
  obtain ⟨x, hx, rfl⟩ := encStop_completed hstop hready.2.1 hu
  obtain ⟨y, hy, _, henc⟩ := encStopBody_ok (hready.of_encStop hx) ra
  rw [hx] at hy
  cases hy
  have hcount : State.reg (y.stopped ra).complete ra = y.ptr := State.setReg_reg_self y ra y.ptr
  rw [hcount] at hlen hserved
  have hcovers : t.Covers d := henc.stop_covers hr (State.servedNumber_eq_payloadNumber hserved)
  have hroom : t.ptr.toNat < d.wlen.toNat := by
    obtain ⟨_, _, hturns⟩ := t.stopWidth_spec
    obtain ⟨hsent, _⟩ := henc
    rw [hturns] at hsent
    split at hsent <;> omega
  have hzero : s.ptr.toNat = 0 := congrArg BitVec.toNat hptr
  have hstart : Mirrors d s d := by
    refine ⟨hs, hd, DecCodes.frame.refl d, hparams, habm, hadm, hdrange.trans hrange.symm, ?_, ?_⟩
    · rw [hdptr, hzero]
      rfl
    · have hcode : s.codeNumber = 0 := by simp [State.codeNumber, State.payloadNumber, hzero, hlow]
      rw [hcode, hzero, Nat.zero_add, Nat.zero_add, hdvalue]
  obtain ⟨v, w, hv, hw, hmirrors⟩ := hstart.steps hcovers hroom hfit hes pre post hsplit
  exact ⟨v, w, hv, hw, hmirrors.abm, hmirrors.adm⟩

end Sys2Proof.Machine
end

section
/-! Every presented word is answered (spec/20_memory.md R60; spec/41_bit_and_symbol_coding.md R119): no pseudocode asks
for CB or BM outside its space, so the model's own stop is never reached (log 13). -/

namespace Sys2Proof.Machine

/-! ### Pseudocode that stays inside the memories -/

/-- The pseudocode is completed or raises a fault of the ECU: it is not stopped by the model. -/
def Cmd.Answers {α : Type} (c : Cmd α) (s : State) : Prop := ∀ r t, c s ≠ .error (.outside r) t

/-- It answers, and where it is completed it leaves a state in `I`. -/
def Cmd.EndsIn {α : Type} (I : State → Prop) (c : Cmd α) (s : State) : Prop :=
  c.Answers s ∧ ∀ a t, c s = .ok a t → I t

/-- It does so from every state in `I`. -/
def Cmd.Inside {α : Type} (I : State → Prop) (c : Cmd α) : Prop := ∀ s, I s → c.EndsIn I s

section Rules

variable {α β : Type} {I J : State → Prop} {s t : State}

theorem Cmd.EndsIn.of_ok {c : Cmd α} {a : α} (hc : c s = .ok a t) (ht : I t) : c.EndsIn I s := by
  refine ⟨fun r u h => ?_, fun b u h => ?_⟩
  · rw [hc] at h
    cases h
  · rw [hc] at h
    cases h
    exact ht

theorem Cmd.EndsIn.of_raise {c : Cmd α} {f : FaultKind} {info : Word} (hc : c s = .error (.raise f info) t) :
    c.EndsIn I s := by
  refine ⟨fun r u h => ?_, fun b u h => ?_⟩ <;>
  · rw [hc] at h
    cases h

theorem Cmd.EndsIn.mono {c : Cmd α} (h : c.EndsIn I s) (hIJ : ∀ t, I t → J t) : c.EndsIn J s :=
  ⟨h.1, fun a t ht => hIJ t (h.2 a t ht)⟩

theorem Cmd.EndsIn.bind {x : Cmd α} {f : α → Cmd β} (hx : x.EndsIn I s) (hf : ∀ a t, I t → (f a).EndsIn J t) :
    (x >>= f).EndsIn J s := by
  obtain ⟨hanswers, hok⟩ := hx
  refine ⟨fun r u h => ?_, fun b u h => ?_⟩
  · rcases Cmd.bind_eq_error.mp h with h | ⟨a, t, ht, h⟩
    · exact hanswers r u h
    · exact (hf a t (hok a t ht)).1 r u h
  · obtain ⟨a, t, ht, h⟩ := Cmd.bind_eq_ok.mp h
    exact (hf a t (hok a t ht)).2 b u h

/-- A first part whose result is known. -/
theorem Cmd.EndsIn.bind_ok {x : Cmd α} {f : α → Cmd β} {a : α} (hx : x s = .ok a t) (hf : (f a).EndsIn J t) :
    (x >>= f).EndsIn J s := by
  unfold Cmd.EndsIn Cmd.Answers
  rw [Cmd.bind_of_ok hx]
  exact hf

/-- A test that raises without effect where it fails. -/
theorem Cmd.EndsIn.test_bind {x : Cmd Unit} {p : Prop} [Decidable p] {f : FaultKind} {info : Word} {g : Unit → Cmd β}
    (hx : x s = if p then .ok () s else .error (.raise f info) s) (hg : p → (g ()).EndsIn J s) :
    (x >>= g).EndsIn J s := by
  by_cases hp : p
  · exact .bind_ok (hx.trans (if_pos hp)) (hg hp)
  · exact .of_raise (Cmd.bind_of_error (hx.trans (if_neg hp)))

/-- A sequence that begins by replacing the state. -/
theorem Cmd.EndsIn.set_bind {f : PUnit → Cmd β} (ht : I t) (hf : Cmd.Inside I (f ⟨⟩)) :
    ((MonadStateOf.set t : Cmd PUnit) >>= f).EndsIn I s := .bind_ok rfl (hf t ht)

namespace Cmd.Inside

theorem bind {x : Cmd α} {f : α → Cmd β} (hx : Cmd.Inside I x) (hf : ∀ a, Cmd.Inside I (f a)) :
    Cmd.Inside I (x >>= f) := fun s hs => (hx s hs).bind fun a t ht => hf a t ht

theorem pure (a : α) : Cmd.Inside I (Pure.pure a : Cmd α) := fun _ hs => .of_ok rfl hs

theorem get : Cmd.Inside I (MonadState.get : Cmd State) := fun _ hs => .of_ok rfl hs

/-- A sequence whose second part runs on the state it read. -/
theorem get_bind {f : State → Cmd β} (hf : ∀ s, I s → (f s).EndsIn I s) :
    Cmd.Inside I ((MonadState.get : Cmd State) >>= f) := fun s hs => .bind_ok rfl (hf s hs)

theorem update {g : State → State} (hg : ∀ s, I s → I (g s)) : Cmd.Inside I (modify g : Cmd PUnit) :=
  fun s hs => .of_ok rfl (hg s hs)

theorem raise (f : FaultKind) (info : Word) : Cmd.Inside I (Machine.raise f info : Cmd α) := fun _ _ => .of_raise rfl

theorem check (c : Prop) [Decidable c] (f : FaultKind) (info : Word) : Cmd.Inside I (Machine.check c f info) := by
  unfold Machine.check
  split
  · exact pure ()
  · exact raise f info

theorem ite {c : Prop} [Decidable c] {x y : Cmd α} (hx : Cmd.Inside I x) (hy : Cmd.Inside I y) :
    Cmd.Inside I (if c then x else y) := by
  split <;> assumption

theorem onlyIf {act : Cmd Unit} (c : Bool) (h : Cmd.Inside I act) : Cmd.Inside I (Machine.onlyIf c act) := by
  cases c
  · exact pure ()
  · exact h

theorem forUp {body : Nat → Cmd Unit} (first count : Nat)
    (hb : ∀ i, i < first + count → Cmd.Inside I (body i)) : Cmd.Inside I (Machine.forUp first count body) := by
  induction count generalizing first with
  | zero => exact pure ()
  | succ k ih =>
    rw [forUp_succ]
    exact (hb first (by omega)).bind fun _ => ih (first + 1) fun i hi => hb i (by omega)

end Cmd.Inside

end Rules

/-! ### The encoder -/

/-- A window in CB with `PTR` inside it, in an implementation `p`: all that the encoder needs (R51, R60, R111). -/
structure State.EncFits (p : Params) (s : State) : Prop where
  params : s.params = p
  window : s.windowFits
  ptr : s.ptr.toNat ≤ s.wlen.toNat

section Encoder

variable {p : Params}

theorem putByte_inside (b : Byte) : Cmd.Inside (State.EncFits p) (putByte b) := fun s h => by
  have hrun := putByte_run h.window b
  by_cases hp : s.ptr.toNat < s.wlen.toNat
  · have hnext : (s.ptr + 1#32).toNat = s.ptr.toNat + 1 := Word.succ_toNat hp s.wlen.isLt
    exact .of_ok (hrun.trans (if_pos hp)) ⟨h.params, h.window, hnext.trans_le hp⟩
  · exact .of_raise (hrun.trans (if_neg hp))

/-- The carry reads and writes below `PTR` (R112). -/
theorem carryFrom_endsIn {s : State} (h : s.EncFits p) {n : Nat} (hn : n ≤ s.wlen.toNat) :
    (carryFrom n).EndsIn (State.EncFits p) s := by
  induction n generalizing s with
  | zero => exact .of_raise rfl
  | succ i ih =>
    have hw := h.window
    have haddr : s.windowAddr (BitVec.ofNat 32 i) = s.wbase.toNat + i := State.windowAddr_ofNat hw (by omega)
    have hlt : s.windowAddr (BitVec.ofNat 32 i) < s.params.cbSize := by omega
    have hwritten (v : Byte) : (s.setCbByte (s.windowAddr (BitVec.ofNat 32 i)) v).EncFits p := ⟨h.params, hw, h.ptr⟩
    refine .bind_ok (Cmd.get_run s) (.bind_ok (memRead_of_lt hlt) ?_)
    split
    · exact .bind_ok (memWrite_of_lt _ hlt) (ih (hwritten _) (Nat.le_of_succ_le hn))
    · exact .of_ok (memWrite_of_lt _ hlt) (hwritten _)

theorem addLow_inside (x r : Word) : Cmd.Inside (State.EncFits p) (addLow x r) :=
  Cmd.Inside.get_bind fun s h => by
    have hmoved : State.EncFits p { s with low := s.low + x, range := r } := ⟨h.params, h.window, h.ptr⟩
    refine .bind_ok (Cmd.set_run _ s) ?_
    split
    · exact .bind_ok (Cmd.get_run _) (carryFrom_endsIn hmoved h.ptr)
    · exact .of_ok rfl hmoved

theorem renormEncLoop_inside (fuel : Nat) : Cmd.Inside (State.EncFits p) (renormEncLoop fuel) := by
  induction fuel with
  | zero => exact .pure ()
  | succ k ih =>
    exact .bind .get fun _ => .bind (putByte_inside _) fun _ =>
      .bind (.update fun _ h => ⟨h.params, h.window, h.ptr⟩) fun _ => .bind .get fun _ => .ite (.pure ()) ih

theorem renormEnc_inside : Cmd.Inside (State.EncFits p) renormEnc := .bind .get fun _ => renormEncLoop_inside _

theorem renormEncIfSmall_inside : Cmd.Inside (State.EncFits p) renormEncIfSmall :=
  .bind .get fun _ => .ite renormEnc_inside (.pure ())

theorem encBit_inside (bit : Bool) (p0 : BitVec 13) : Cmd.Inside (State.EncFits p) (encBit bit p0) :=
  .bind (.get_bind fun s h => by
    cases bit
    · exact .of_ok (Cmd.set_run _ s) ⟨h.params, h.window, h.ptr⟩
    · exact addLow_inside _ _ s h) fun _ => renormEncIfSmall_inside

theorem encBitA_inside (m : Nat) (bit : Bool) : Cmd.Inside (State.EncFits p) (encBitA m bit) :=
  .bind .get fun _ => .bind (encBit_inside _ _) fun _ => .update fun _ h => ⟨h.params, h.window, h.ptr⟩

theorem encSym_inside (k j : Nat) : Cmd.Inside (State.EncFits p) (encSym k j) :=
  .bind .get fun _ => .bind (addLow_inside _ _) fun _ => .bind renormEncIfSmall_inside fun _ =>
    .update fun _ h => ⟨h.params, h.window, h.ptr⟩

theorem encBitsUp_inside (v lo count : Nat) : Cmd.Inside (State.EncFits p) (encBitsUp v lo count) :=
  .forUp lo count fun _ _ => encBit_inside _ _

theorem encBitsDown_inside (v count : Nat) : Cmd.Inside (State.EncFits p) (encBitsDown v count) := by
  induction count with
  | zero => exact .pure ()
  | succ i ih => exact .bind (encBit_inside _ _) fun _ => ih

theorem encEg0_inside (u : Word) (m : Nat) : Cmd.Inside (State.EncFits p) (encEg0 u m) :=
  .bind (.forUp _ _ fun _ _ => encBitA_inside _ _) fun _ => .bind (encBitA_inside _ _) fun _ => encBitsDown_inside _ _

theorem terminate_inside : Cmd.Inside (State.EncFits p) terminate :=
  .bind .get fun _ => .ite (addLow_inside _ _) (addLow_inside _ _)

theorem occEncBlock_inside (o : OccModels) (occupied : Bool) (r : Word) :
    Cmd.Inside (State.EncFits p) (occEncBlock o occupied r) := by
  have hfields : Cmd.Inside (State.EncFits p) (occEncFields o r) :=
    .bind (encBitA_inside _ _) fun _ => .bind (.onlyIf _ (encSym_inside _ _)) fun _ =>
      .bind (encSym_inside _ _) fun _ => .onlyIf _ (encBitA_inside _ _)
  exact .bind (.check _ _ _) fun _ => .bind (encBitA_inside _ _) fun _ => .onlyIf _ hfields

theorem encPatchBlock_inside (o : OccModels) {pos : Nat} (hpos : pos < p.nblk) :
    Cmd.Inside (State.EncFits p) (encPatchBlock o pos) :=
  .bind .get fun _ => .bind (fun _ h => .of_ok (mapRead_of_lt (h.params ▸ hpos)) h) fun _ => occEncBlock_inside _ _ _

end Encoder

/-! ### The decoder -/

/-- A window in CB, in an implementation `p`: all that the decoder needs, as `get_byte` looks for the end of the window
itself (R51, R60, R113). -/
structure State.DecFits (p : Params) (s : State) : Prop where
  params : s.params = p
  window : s.windowFits

section Decoder

variable {p : Params}

theorem getByte_inside : Cmd.Inside (State.DecFits p) getByte := fun s h => by
  have hrun := getByte_run h.window
  by_cases hp : s.ptr.toNat < s.wlen.toNat + 3
  · exact .of_ok (hrun.trans (if_pos hp)) ⟨h.params, h.window⟩
  · exact .of_raise (hrun.trans (if_neg hp))

theorem appendByte_inside (b : Byte) : Cmd.Inside (State.DecFits p) (appendByte b) :=
  .update fun _ h => ⟨h.params, h.window⟩

theorem loadByte_inside : Cmd.Inside (State.DecFits p) loadByte := .bind getByte_inside fun _ => appendByte_inside _

theorem renormDecLoop_inside (fuel : Nat) : Cmd.Inside (State.DecFits p) (renormDecLoop fuel) := by
  induction fuel with
  | zero => exact .pure ()
  | succ k ih =>
    exact .bind getByte_inside fun _ => .bind (appendByte_inside _) fun _ =>
      .bind (.update fun _ h => ⟨h.params, h.window⟩) fun _ => .bind .get fun _ => .ite (.pure ()) ih

theorem renormDecIfSmall_inside : Cmd.Inside (State.DecFits p) renormDecIfSmall :=
  .bind .get fun _ => .ite (.bind .get fun _ => renormDecLoop_inside _) (.pure ())

theorem decBit_inside (p0 : BitVec 13) : Cmd.Inside (State.DecFits p) (decBit p0) := fun s h => by
  unfold Cmd.EndsIn Cmd.Answers
  rw [decBit_eq]
  exact Cmd.Inside.bind renormDecIfSmall_inside (fun _ => .pure _) _ ⟨h.params, h.window⟩

theorem decBitA_inside (m : Nat) : Cmd.Inside (State.DecFits p) (decBitA m) :=
  .bind .get fun _ => .bind (decBit_inside _) fun _ =>
    .bind (.update fun _ h => ⟨h.params, h.window⟩) fun _ => .pure _

theorem decSym_inside (j : Nat) : Cmd.Inside (State.DecFits p) (decSym j) :=
  .get_bind fun _ h => .set_bind ⟨h.params, h.window⟩ (.bind renormDecIfSmall_inside fun _ =>
    .bind (.update fun _ h => ⟨h.params, h.window⟩) fun _ => .pure _)

theorem decBitsUp_inside (lo count w : Nat) : Cmd.Inside (State.DecFits p) (decBitsUp lo count w) := by
  induction count generalizing lo w with
  | zero => exact .pure w
  | succ k ih => exact .bind (decBit_inside _) fun _ => ih _ _

theorem decBitsDown_inside (count r : Nat) : Cmd.Inside (State.DecFits p) (decBitsDown count r) := by
  induction count generalizing r with
  | zero => exact .pure r
  | succ i ih => exact .bind (decBit_inside _) fun _ => ih _

theorem decOnes_inside (m more n : Nat) : Cmd.Inside (State.DecFits p) (decOnes m more n) := by
  induction more generalizing n with
  | zero => exact .bind (decBitA_inside m) fun _ => .ite (.raise _ _) (.pure n)
  | succ k ih => exact .bind (decBitA_inside m) fun _ => .ite (ih _) (.pure n)

theorem decEg0_inside (m : Nat) : Cmd.Inside (State.DecFits p) (decEg0 m) :=
  .bind (decOnes_inside m 32 0) fun _ => .bind (decBitsDown_inside _ _) fun _ => .bind (.check _ _ _) fun _ => .pure _

theorem occDecBlock_inside (o : OccModels) (old : Word) : Cmd.Inside (State.DecFits p) (occDecBlock o old) := by
  have hneigh (interp : Bool) (r : Word) : Cmd.Inside (State.DecFits p) (occDecNeigh o interp r) := by
    unfold occDecNeigh
    exact .ite (.bind (decSym_inside _) fun _ => .pure _) (.pure _)
  have hfill (present : Bool) (r : Word) : Cmd.Inside (State.DecFits p) (occDecFill o present r) := by
    unfold occDecFill
    exact .ite (.bind (decBitA_inside _) fun _ => .pure _) (.pure _)
  have hfields (r : Word) : Cmd.Inside (State.DecFits p) (occDecFields o r) :=
    .bind (decBitA_inside _) fun _ => .bind (hneigh _ _) fun _ => .bind (decSym_inside _) fun _ => hfill _ _
  exact .bind (decBitA_inside _) fun _ => .ite (.bind (hfields _) fun _ => .pure _) (.pure _)

theorem decPatchBlock_inside (o : OccModels) {pos : Nat} (hpos : pos < p.nblk) :
    Cmd.Inside (State.DecFits p) (decPatchBlock o pos) :=
  .bind .get fun _ => .bind (fun _ h => .of_ok (mapRead_of_lt (h.params ▸ hpos)) h) fun _ =>
    .bind (occDecBlock_inside _ _) fun _ =>
      .onlyIf _ fun _ h => .of_ok (mapWrite_of_lt _ (h.params ▸ hpos)) ⟨h.params, h.window⟩

end Decoder

/-! ### The scan of a patch (spec/44_occupancy.md R177, R178) -/

/-- A block of a footprint that fits is a record of BM. -/
theorem State.blockPos_lt {s : State} (h : s.patchFits) {u0 v0 : Nat} (hu : u0 < s.pszu.toNat) (hv : v0 < s.pszv.toNat) :
    s.blockPos u0 v0 < s.params.nblk := by
  obtain ⟨hwidth, hheight, hsize⟩ := h
  have hrow : (s.pv0.toNat + v0 + 1) * s.btpw.toNat ≤ s.btph.toNat * s.btpw.toNat := Nat.mul_le_mul_right _ (by omega)
  rw [Nat.succ_mul, Nat.mul_comm s.btph.toNat] at hrow
  unfold State.blockPos
  omega

theorem scanPatch_endsIn {I : State → Prop} {s : State} {block : Nat → Cmd Unit} (hs : I s) (hfits : s.patchFits)
    (hb : ∀ pos, pos < s.params.nblk → Cmd.Inside I (block pos)) : (scanPatch block).EndsIn I s :=
  .bind_ok (Cmd.get_run s) (Cmd.Inside.forUp _ _ (fun _ hv => .forUp _ _ fun _ hu =>
    hb _ (State.blockPos_lt hfits (by omega) (by omega))) s hs)

theorem occModels_inside (I : State → Prop) : Cmd.Inside I occModels :=
  .bind .get fun _ => .bind (.check _ _ _) fun _ => .bind (.check _ _ _) fun _ => .bind (.check _ _ _) fun _ =>
    .bind (.check _ _ _) fun _ => .bind (.check _ _ _) fun _ => .pure _

/-- The bindings are checked without effect. -/
theorem occModels_bind_endsIn {s : State} {I : State → Prop} {f : OccModels → Cmd Unit} (hf : ∀ o, (f o).EndsIn I s) :
    (occModels >>= f).EndsIn I s :=
  (occModels_inside (fun t => t = s) s rfl).bind (by rintro o _ rfl; exact hf o)

/-! ### Every command -/

theorem State.Sound.encFits {s : State} (h : s.Sound) (hm : s.mode = .enc) : s.EncFits s.params :=
  ⟨rfl, h.1.windowFits (h.encOpen hm).window, (h.encOpen hm).ptr⟩

theorem State.Sound.decFits {s : State} (h : s.Sound) (hm : s.mode = .dec) : s.DecFits s.params :=
  ⟨rfl, h.1.windowFits (h.decOpen hm).window⟩

/-- A write of a general register asks for no memory. -/
theorem writeReg_endsIn (r : Reg) (v : Word) (s : State) : (writeReg r v).EndsIn (fun _ => True) s := .of_ok rfl trivial

theorem decThenReg_endsIn {α : Type} {p : Params} {x : Cmd α} {v : α → Word} {s : State}
    (hx : Cmd.Inside (State.DecFits p) x) (hs : s.DecFits p) (ra : Reg) :
    (x >>= fun a => writeReg ra (v a)).EndsIn (fun _ => True) s :=
  (hx s hs).bind fun _ t _ => writeReg_endsIn _ _ t

/-- Every command checks an address or index of its own before it uses it, and an open session has its window in CB. -/
theorem bodyOf_endsIn {s : State} (h : s.Sound) (i : Instr) : (bodyOf i).EndsIn (fun _ => True) s := by
  have encoded {c : Cmd Unit} (hm : s.mode = .enc) (hc : Cmd.Inside (State.EncFits s.params) c) :
      c.EndsIn (fun _ => True) s := (hc s (h.encFits hm)).mono fun _ _ => trivial
  cases i with
  | nop => exact .of_ok rfl trivial
  | li ra imm => exact writeReg_endsIn _ _ s
  | lih ra imm => exact .bind_ok (readReg_run ra s) (writeReg_endsIn _ _ s)
  | csrr ra f =>
    refine .bind_ok (Cmd.get_run s) ?_
    cases Csr.ofNumber f with
    | some c => exact writeReg_endsIn _ _ s
    | none => exact .of_raise rfl
  | csrw ra f =>
    refine .bind_ok (Cmd.get_run s) ?_
    cases s.csrWriteNumber f (s.reg ra) with
    | some t => exact .of_ok (Cmd.set_run t s) trivial
    | none => exact .of_raise rfl
  | ldcb ra rb =>
    refine .bind_ok (Cmd.get_run s) (.test_bind (check_run _ _ _ s) fun ha => ?_)
    exact .bind_ok (memRead_of_lt ha) (writeReg_endsIn _ _ s)
  | stcb ra rb =>
    exact .bind_ok (Cmd.get_run s) (.test_bind (check_run _ _ _ s) fun ha => .of_ok (memWrite_of_lt _ ha) trivial)
  | ldbm ra rb =>
    refine .bind_ok (Cmd.get_run s) (.test_bind (check_run _ _ _ s) fun hi => ?_)
    exact .bind_ok (mapRead_of_lt hi) (writeReg_endsIn _ _ s)
  | stbm ra rb =>
    exact .bind_ok (Cmd.get_run s) (.test_bind (check_run _ _ _ s) fun hi => .of_ok (mapWrite_of_lt _ hi) trivial)
  | encStart ra rb =>
    exact .test_bind (needMode_run _ s) fun _ => .bind_ok (Cmd.get_run s) (.test_bind (needWindow_run _ _ s) fun _ =>
      .bind_ok (Cmd.modify_run _ s) (.of_ok (Cmd.modify_run _ _) trivial))
  | encStop ra =>
    exact .test_bind (needMode_run _ s) fun hm => encoded hm
      (.bind terminate_inside fun _ => .bind renormEnc_inside fun _ => .bind .get fun _ =>
        .bind (.update fun _ h => ⟨h.params, h.window, h.ptr⟩) fun _ =>
          .update fun _ h => ⟨h.params, h.window, h.ptr⟩)
  | decStart ra rb =>
    refine .test_bind (needMode_run _ s) fun _ => .bind_ok (Cmd.get_run s) ?_
    refine .test_bind (needWindow_run _ _ s) fun hwindow => .bind_ok (Cmd.modify_run _ s) ?_
    have hopened : (s.openWindow (s.reg ra) (s.reg rb)).DecFits s.params :=
      ⟨rfl, State.Stored.windowFits (s := s.openWindow (s.reg ra) (s.reg rb)) h.1 hwindow⟩
    exact (Cmd.Inside.forUp 0 4 (fun _ _ => loadByte_inside) _ hopened).bind fun _ _ _ => .of_ok rfl trivial
  | decStop => exact .test_bind (needMode_run _ s) fun _ => .of_ok (Cmd.modify_run _ s) trivial
  | abmReset m => exact .test_bind (needAbm_run m s) fun _ => .of_ok (Cmd.modify_run _ s) trivial
  | admInit m f =>
    exact .test_bind (needAdm_run m s) fun _ => .test_bind (needAlphabet_run f s) fun _ =>
      .of_ok (Cmd.modify_run _ s) trivial
  | admReset m => exact .test_bind (needAdmInit_run m s) fun _ => .of_ok (Cmd.modify_run _ s) trivial
  | allReset => exact .of_ok (Cmd.modify_run _ s) trivial
  | encBitA ra m =>
    exact .test_bind (needMode_run _ s) fun hm => .test_bind (needAbm_run m s) fun _ =>
      .test_bind (needBit_run ra s) fun _ => .bind_ok (Cmd.get_run s) (encoded hm (encBitA_inside _ _))
  | encBitS ra =>
    exact .test_bind (needMode_run _ s) fun hm => .test_bind (needBit_run ra s) fun _ =>
      .bind_ok (Cmd.get_run s) (encoded hm (encBit_inside _ _))
  | decBitA ra m =>
    exact .test_bind (needMode_run _ s) fun hm => .test_bind (needAbm_run m s) fun _ =>
      decThenReg_endsIn (decBitA_inside _) (h.decFits hm) ra
  | decBitS ra =>
    exact .test_bind (needMode_run _ s) fun hm => decThenReg_endsIn (decBit_inside _) (h.decFits hm) ra
  | encSym ra m =>
    exact .test_bind (needMode_run _ s) fun hm => .test_bind (needAdmInit_run m s) fun _ =>
      .test_bind (needSymbol_run ra m s) fun _ => .bind_ok (Cmd.get_run s) (encoded hm (encSym_inside _ _))
  | decSym ra m =>
    exact .test_bind (needMode_run _ s) fun hm => .test_bind (needAdmInit_run m s) fun _ =>
      decThenReg_endsIn (decSym_inside _) (h.decFits hm) ra
  | encUint ra f =>
    exact .test_bind (needCount_run f s) fun _ => .test_bind (needMode_run _ s) fun hm =>
      .test_bind (needFits_run ra f s) fun _ => .bind_ok (Cmd.get_run s) (encoded hm (encBitsUp_inside _ _ _))
  | decUint ra f =>
    exact .test_bind (needCount_run f s) fun _ => .test_bind (needMode_run _ s) fun hm =>
      decThenReg_endsIn (decBitsUp_inside _ _ _) (h.decFits hm) ra
  | zzenc ra rb => exact .bind_ok (readReg_run rb s) (writeReg_endsIn _ _ s)
  | zzdec ra rb => exact .bind_ok (readReg_run rb s) (writeReg_endsIn _ _ s)
  | encEg0 ra m =>
    exact .test_bind (needMode_run _ s) fun hm => .test_bind (needAbm_run m s) fun _ =>
      .bind_ok (Cmd.get_run s) (encoded hm (encEg0_inside _ _))
  | decEg0 ra m =>
    exact .test_bind (needMode_run _ s) fun hm => .test_bind (needAbm_run m s) fun _ =>
      decThenReg_endsIn (decEg0_inside _) (h.decFits hm) ra
  | encSdelta ra m =>
    exact .test_bind (needMode_run _ s) fun hm => .test_bind (needAbm_run m s) fun _ =>
      .bind_ok (Cmd.get_run s) (encoded hm (encEg0_inside _ _))
  | decSdelta ra m =>
    exact .test_bind (needMode_run _ s) fun hm => .test_bind (needAbm_run m s) fun _ =>
      decThenReg_endsIn (decEg0_inside _) (h.decFits hm) ra
  | occEncBlk ra =>
    exact .test_bind (needMode_run _ s) fun hm => occModels_bind_endsIn fun _ =>
      .bind_ok (readReg_run ra s) (encoded hm (occEncBlock_inside _ _ _))
  | occDecBlk ra =>
    exact .test_bind (needMode_run _ s) fun hm => occModels_bind_endsIn fun _ =>
      decThenReg_endsIn (occDecBlock_inside _ _) (h.decFits hm) ra
  | occEncPatch =>
    exact .test_bind (needMode_run _ s) fun hm => occModels_bind_endsIn fun o =>
      .test_bind (patchCheck_run s) fun hfits =>
        (scanPatch_endsIn (h.encFits hm) hfits fun _ hpos => encPatchBlock_inside o hpos).mono fun _ _ => trivial
  | occDecPatch =>
    exact .test_bind (needMode_run _ s) fun hm => occModels_bind_endsIn fun o =>
      .test_bind (patchCheck_run s) fun hfits =>
        (scanPatch_endsIn (h.decFits hm) hfits fun _ hpos => decPatchBlock_inside o hpos).mono fun _ _ => trivial

/-- A command whose pseudocode answers is answered. -/
theorem command_of_answers {i : Instr} {body : Cmd Unit} {s : State} (hf : s.fault = false) (h : body.Answers s) :
    ∃ t, command i body s = .next t := by
  cases hb : body s with
  | ok a t => exact ⟨_, command_of_ok hf hb⟩
  | error e t =>
    cases e with
    | raise f info => exact ⟨_, command_of_raise hf hb⟩
    | outside r => exact absurd hb (h r t)

theorem presentWord_answers {s : State} (h : s.Inv) (cw : Word) : ∃ t, presentWord cw s = .next t := by
  cases hf : s.fault with
  | true => exact ⟨_, if_pos hf⟩
  | false =>
    cases hd : decode cw with
    | ok i =>
      rw [presentWord_of_ok hf hd, exec_eq_command]
      exact command_of_answers hf (bodyOf_endsIn (h.sound hf) i).1
    | error e => exact ⟨_, presentWord_of_error hf hd⟩

/-- Settles O15: a presented word is refused, illegal, or a command, and no command's pseudocode leaves the memories. -/
theorem everyWordIsAnswered : Obligations.EveryWordIsAnswered := by
  intro s cw rest h hport
  have hinv : State.Inv { s with port := rest } := h
  rw [step_of_issue hport]
  exact presentWord_answers hinv cw

end Sys2Proof.Machine
end

section
/-! The adaptation of the models in exact integers (spec/41_bit_and_symbol_coding.md R118, R122 to R124): in a slot in
its ranges nothing is lost when a field is stored. -/

namespace Sys2Proof.Machine

/-! ### Bit models (R118, R122) -/

/-- Settles O17: the count of 0 bits stays below that of all bits, which is at most 8192 and a cycle more. -/
theorem bitModelRanges : Obligations.BitModelRanges := by
  refine ⟨AbmSlot.fresh_ok, fun a bit h => h.count bit, fun a h => ?_⟩
  obtain ⟨_, _, ⟨_, hcn⟩, ⟨_, hcyc⟩, ⟨hleft, _⟩, hsum⟩ := h
  have hp0 := a.p0.isLt
  unfold bmMax at hcn
  omega

/-- The new cycle of an update as it is stored: a quarter longer, up to its limit (R118, R123). -/
theorem grownCycle_toNat {w c most : Nat} (hw : most < 2 ^ w) :
    (BitVec.ofNat w (if (5 * c) >>> 2 > most then most else (5 * c) >>> 2)).toNat = min (5 * c / 4) most := by
  have hquarter : (5 * c) >>> 2 = 5 * c / 4 := Nat.shiftRight_eq_div_pow _ 2
  rw [BitVec.toNat_ofNat, hquarter]
  split
  · rw [Nat.mod_eq_of_lt hw]
    omega
  · rw [Nat.mod_eq_of_lt (by omega)]
    omega

/-- An update whose counters are in range stores them exactly (R118, R122). -/
theorem AbmSlot.update_exact {a : AbmSlot} (hc : 1 ≤ a.c0.toNat) (hlt : a.c0.toNat < a.cn.toNat + a.cyc.toNat)
    (hcn : a.cn.toNat + a.cyc.toNat ≤ bmMax + 64) :
    let counts := abmHalve a.c0.toNat (a.cn.toNat + a.cyc.toNat)
    a.update.c0.toNat = counts.1 ∧ a.update.cn.toNat = counts.2 ∧
      a.update.p0.toNat = counts.1 * (2 ^ 31 / counts.2) / 2 ^ 18 ∧
      a.update.cyc.toNat = min (5 * a.cyc.toNat / 4) 64 ∧ a.update.left = a.update.cyc := by
  intro counts
  obtain ⟨h1, h2, h3⟩ := abmHalve_range hc hlt hcn
  obtain ⟨_, hp⟩ := abmProbability_range h1 h2 h3
  unfold bmMax at h3
  refine ⟨?_, ?_, ?_, grownCycle_toNat (by decide), rfl⟩
  · exact (BitVec.toNat_ofNat _ _).trans (Nat.mod_eq_of_lt (by omega))
  · exact (BitVec.toNat_ofNat _ _).trans (Nat.mod_eq_of_lt (by omega))
  · exact (BitVec.toNat_ofNat _ _).trans ((Nat.mod_eq_of_lt hp).trans (Nat.shiftRight_eq_div_pow _ 18))

/-- The halving of R118 as a claim states it. -/
theorem abmHalve_eq (c0 cn : Nat) :
    abmHalve c0 cn = (if cn ≤ 8192 then c0 else (c0 + 1) / 2,
      if cn ≤ 8192 then cn
      else if (if cn ≤ 8192 then c0 else (c0 + 1) / 2) = (cn + 1) / 2 then (cn + 1) / 2 + 1 else (cn + 1) / 2) := by
  rcases abmHalve_cases c0 cn with ⟨hle, h⟩ | ⟨hlt, heq, h⟩ | ⟨hlt, hne, h⟩ <;> unfold bmMax at *
  · simp [h, hle]
  · simp [h, Nat.not_le.mpr hlt, heq]
  · simp [h, Nat.not_le.mpr hlt, hne]

/-- `left` counts down (R118, R123). -/
theorem countdown_eq {w n : Nat} {left : BitVec w} (hw : 1 < 2 ^ w) (hleft : left.toNat = n + 1) :
    left - 1#w = BitVec.ofNat w n := by
  have hlt := left.isLt
  have hone : (1#w).toNat = 1 := Nat.mod_eq_of_lt hw
  refine BitVec.eq_of_toNat_eq ?_
  rw [BitVec.toNat_sub_of_le (by rw [BitVec.le_def]; omega), hone, BitVec.toNat_ofNat, Nat.mod_eq_of_lt (by omega)]
  omega

/-- Settles O19: a counted bit moves the counters without a wrap, and the update at the end of a cycle stores what R118
computes. -/
theorem bitModelAdaptation : Obligations.BitModelAdaptation := by
  intro a bit h c0
  have hc0 : (if bit then a.c0 else a.c0 + 1#14).toNat = c0 := h.counted_c0 bit
  obtain ⟨_, hc, ⟨_, hcn⟩, ⟨_, hcyc⟩, _, hsum⟩ := h
  have hbit : a.c0.toNat ≤ c0 ∧ c0 ≤ a.c0.toNat + 1 := by
    cases bit
    · exact ⟨Nat.le_succ _, Nat.le_refl _⟩
    · exact ⟨Nat.le_refl _, Nat.le_succ _⟩
  constructor
  · intro hleft
    have hdown : a.left - 1#7 = BitVec.ofNat 7 (a.left.toNat - 1) := countdown_eq (by decide) (by omega)
    have hne : a.left - 1#7 ≠ 0#7 := fun hzero => by
      have hlt := a.left.isLt
      have hval := congrArg BitVec.toNat (hdown.symm.trans hzero)
      simp only [BitVec.toNat_ofNat] at hval
      omega
    rw [AbmSlot.count_of_left_ne hne, hdown, ← hc0, BitVec.ofNat_toNat, BitVec.setWidth_eq]
  · intro hleft cn c0h cnh
    have hlast : a.left - 1#7 = 0#7 := countdown_eq (by decide) hleft
    rw [AbmSlot.count_of_left_eq hlast]
    have hexact := AbmSlot.update_exact
      (a := { a with c0 := if bit then a.c0 else a.c0 + 1#14, left := a.left - 1#7 })
      (by simp only [hc0]; omega) (by simp only [hc0]; omega) (by simp only []; omega)
    simp only [hc0, abmHalve_eq] at hexact
    exact hexact

/-! ### Data models (R123, R124) -/

/-- Settles O18: both the initial slot and a counted one are in the ranges. -/
theorem dataModelRanges : Obligations.DataModelRanges :=
  ⟨fun _ _ hmax h2 hn => AdmSlot.reset_okInit hmax h2 hn, fun _ _ _ hmax h hk => h.count hmax hk⟩

/-- Counting a symbol of the alphabet adds 1 to its count and moves no other, as no count wraps (R124). -/
theorem AdmSlot.okInit.counted_toNat {maxSym : Nat} {d : AdmSlot} (h : d.okInit maxSym) {k : Nat}
    (hk : k < d.nsym.toNat) :
    (d.cnt.set k (d.cnt.getD k 0#16 + 1#16)).map BitVec.toNat =
      (d.cnt.map BitVec.toNat).set k ((d.cnt.getD k 0#16).toNat + 1) := by
  obtain ⟨_, ⟨_, hlen⟩, _, _, ⟨_, htotal⟩, ⟨_, hcyc⟩, _, hsum⟩ := h
  have hk' : k < d.cnt.length := hlen ▸ hk
  have hle : (d.cnt.getD k 0#16).toNat ≤ cntSum d.cnt := by
    rw [List.getD_eq_getElem _ _ hk']
    exact le_cntSum (List.getElem_mem hk')
  unfold dmMax at htotal
  have hone : (d.cnt.getD k 0#16 + 1#16).toNat = (d.cnt.getD k 0#16).toNat + 1 := by
    rw [BitVec.toNat_add]
    exact Nat.mod_eq_of_lt (show _ < 2 ^ 16 by simp only [BitVec.toNat_ofNat]; omega)
  rw [List.map_set, hone]

/-- The halving of R123 as a claim states it. -/
theorem admHalve_eq (cnt : List (BitVec 16)) (total : Nat) :
    (admHalve cnt total).1.map BitVec.toNat =
        (if dmMax < total then (cnt.map BitVec.toNat).map (fun c => (c + 1) / 2) else cnt.map BitVec.toNat) ∧
      (admHalve cnt total).2 =
        (if dmMax < total then ((admHalve cnt total).1.map BitVec.toNat).sum else total) := by
  rcases admHalve_cases cnt total with ⟨hle, h⟩ | ⟨hlt, h⟩
  · rw [h, if_neg (Nat.not_lt.mpr hle), if_neg (Nat.not_lt.mpr hle)]
    exact ⟨rfl, rfl⟩
  · rw [h, if_pos hlt, if_pos hlt]
    have hstored (c : BitVec 16) : (BitVec.ofNat 16 ((c.toNat + 1) / 2)).toNat = (c.toNat + 1) / 2 := by
      have hc := c.isLt
      exact (BitVec.toNat_ofNat _ _).trans (Nat.mod_eq_of_lt (by omega))
    refine ⟨?_, rfl⟩
    simp only [List.map_map, Function.comp_def, hstored]

/-- The sum of the first counts, as claims write it. -/
theorem cntSum_take (cnt : List (BitVec 16)) (j : Nat) : cntSum (cnt.take j) = ((cnt.map BitVec.toNat).take j).sum := by
  unfold cntSum
  rw [List.map_take]

/-- An entry of the new distribution is stored exactly, as the counts below it do not reach the total (R123, R124). -/
theorem admDist_toNat {cnt : List (BitVec 16)} (h : ∀ n ∈ cnt.map BitVec.toNat, 1 ≤ n) {j : Nat} (hj : j < cnt.length) :
    ((admDist (2 ^ 31 / cntSum cnt) cnt 0).getD j 0#15).toNat =
      2 ^ 31 / cntSum cnt * ((cnt.map BitVec.toNat).take j).sum / 2 ^ 16 := by
  have hbelow := cntSum_take_lt h hj (Nat.le_refl _)
  rw [List.take_length] at hbelow
  have hwhole : 2 ^ 31 / cntSum cnt * cntSum cnt ≤ 2 ^ 31 := Nat.div_mul_le_self _ _
  have hpart : 2 ^ 31 / cntSum cnt * cntSum (cnt.take j) < 2 ^ 31 := by
    rcases Nat.eq_zero_or_pos (2 ^ 31 / cntSum cnt) with hzero | hpos
    · rw [hzero, Nat.zero_mul]
      decide
    · exact Nat.lt_of_lt_of_le (Nat.mul_lt_mul_of_pos_left hbelow hpos) hwhole
  unfold List.getD
  rw [admDist_getElem? _ _ _ _ hj, Option.getD_some, BitVec.toNat_ofNat, Nat.shiftRight_eq_div_pow, Nat.zero_add,
    ← cntSum_take]
  omega

/-- An update on counts that add up stores everything exactly (R123, R124). -/
theorem AdmSlot.update_exact {d : AdmSlot} (hpos : ∀ n ∈ d.cnt.map BitVec.toNat, 1 ≤ n)
    (hsum : cntSum d.cnt = d.total.toNat + d.cyc.toNat) (hmax : cntSum d.cnt + d.cnt.length ≤ 2 * dmMax) :
    let counts := admHalve d.cnt (d.total.toNat + d.cyc.toNat)
    d.update.cnt = counts.1 ∧ d.update.total.toNat = counts.2 ∧
      (∀ j, j < d.cnt.length → (d.update.dist.getD j 0#15).toNat =
        2 ^ 31 / counts.2 * ((counts.1.map BitVec.toNat).take j).sum / 2 ^ 16) ∧
      d.update.cyc.toNat = min (5 * d.cyc.toNat / 4) ((d.nsym.toNat + 6) * 8) ∧ d.update.left = d.update.cyc := by
  intro counts
  obtain ⟨h1, h2, h3⟩ := admHalve_range hpos hmax
  rw [hsum] at h1 h2 h3
  unfold dmMax at h3
  have hsize := d.nsym.isLt
  have hlimit : (d.nsym.toNat + 6) <<< 3 = (d.nsym.toNat + 6) * 8 := Nat.shiftLeft_eq _ 3
  refine ⟨rfl, (BitVec.toNat_ofNat _ _).trans (Nat.mod_eq_of_lt (by omega)), fun j hj => ?_, ?_, rfl⟩
  · have hdist : d.update.dist = admDist (2 ^ 31 / cntSum counts.1) counts.1 0 := by
      rw [← h2]
      rfl
    rw [hdist, h2]
    exact admDist_toNat h1 (by rw [admHalve_length]; exact hj)
  · have hgrown : d.update.cyc.toNat = min (5 * d.cyc.toNat / 4) ((d.nsym.toNat + 6) <<< 3) :=
      grownCycle_toNat (by omega)
    rw [hgrown, hlimit]

/-- Settles O20: a counted symbol moves the counters without a wrap, and the update at the end of a cycle stores what
R123 computes. -/
theorem dataModelAdaptation : Obligations.DataModelAdaptation := by
  intro maxSym d k hmax h hk cnt
  have hcnt : (d.cnt.set k (d.cnt.getD k 0#16 + 1#16)).map BitVec.toNat = cnt := h.counted_toNat hk
  obtain ⟨hpos, hadd⟩ := h.counted_cnt hmax hk
  have hrange := h.count hmax hk
  obtain ⟨⟨_, hn⟩, ⟨_, hlen⟩, _, _, ⟨_, htotal⟩, ⟨_, hcyc⟩, _, hsum⟩ := h
  constructor
  · intro hleft
    have hdown : d.left - 1#12 = BitVec.ofNat 12 (d.left.toNat - 1) := countdown_eq (by decide) (by omega)
    have hne : d.left - 1#12 ≠ 0#12 := fun hzero => by
      have hlt := d.left.isLt
      have hval := congrArg BitVec.toNat (hdown.symm.trans hzero)
      simp only [BitVec.toNat_ofNat] at hval
      omega
    rw [AdmSlot.count_of_left_ne hne, hdown, ← hcnt, List.map_map]
    simp [Function.comp_def]
  · intro hleft halve cnth total
    have hlast : d.left - 1#12 = 0#12 := countdown_eq (by decide) hleft
    obtain ⟨_, ⟨hdlen, _⟩, _⟩ := hrange
    rw [AdmSlot.count_nsym] at hdlen
    rw [AdmSlot.count_of_left_eq hlast] at hdlen ⊢
    unfold dmMax at htotal
    obtain ⟨ucnt, utotal, udist, ucyc, uleft⟩ := AdmSlot.update_exact
      (d := { d with cnt := d.cnt.set k (d.cnt.getD k 0#16 + 1#16), left := d.left - 1#12 }) hpos
      (by simp only [hadd]; omega) (by simp only [hadd, List.length_set]; unfold dmMax; omega)
    obtain ⟨hhalved, hnew⟩ := admHalve_eq (d.cnt.set k (d.cnt.getD k 0#16 + 1#16)) (d.total.toNat + d.cyc.toNat)
    rw [hcnt] at hhalved
    change _ = cnth at hhalved
    rw [hhalved] at hnew
    simp only [hhalved, hnew, List.length_set, hlen] at utotal udist
    exact ⟨rfl, by rw [ucnt]; exact hhalved, utotal, hdlen, udist, ucyc, uleft⟩

end Sys2Proof.Machine
end

section
/-! The bit and symbol commands (spec/41_bit_and_symbol_coding.md R126 to R131): each codes the one decision that its
operands name, or decodes the one that `VALUE` selects. -/

namespace Sys2Proof.Machine

/-! ### The encode commands (R126, R127, R130) -/

/-- A command that codes one decision for which there is room (R114, R116, R120). -/
theorem exec_of_enc {i : Instr} {d : Decision} {s : State} {x r : Word} (hbody : bodyOf i s = d.enc s)
    (hbase : d.base s = x) (hwidth : d.width s = r) (h : s.encReady (renormTurns r)) (hf : d.fits s) :
    ∃ u, exec i s = .next (d.counted u).counted ∧ EncMoves s u ∧ s.encodedTo (d.counted u).counted x r := by
  subst hbase hwidth
  obtain ⟨u, hu, hmoves, henc⟩ := Decision.enc_ok h hf
  obtain ⟨_, hfault, _⟩ := h
  obtain ⟨hptr, hrange, hcode, hout⟩ := henc.counted d
  have hnumber : (d.counted u).counted.codeNumber = (d.counted u).codeNumber :=
    State.codeNumber_congr rfl rfl rfl rfl rfl
  exact ⟨u, exec_of_ok hfault (hbody.trans hu), hmoves, hptr, hrange, hnumber.trans hcode, hout⟩

section Checks

variable {s : State} {f : Unit → Cmd Unit} {m : Slot} {ra : Reg}

theorem needAbm_bind_of_lt (h : m.toNat < s.params.nAbm) : (needAbm m >>= f) s = f () s :=
  Cmd.bind_of_ok ((needAbm_run m s).trans (if_pos h))

theorem needAdmInit_bind_of (h : m.toNat < s.params.nAdm ∧ (s.admSlot m.toNat).nsym ≠ 0#8) :
    (needAdmInit m >>= f) s = f () s :=
  Cmd.bind_of_ok ((needAdmInit_run m s).trans (if_pos h))

theorem needBit_bind_of_le (h : (s.reg ra).toNat ≤ 1) : (needBit ra >>= f) s = f () s :=
  Cmd.bind_of_ok ((needBit_run ra s).trans (if_pos h))

theorem needSymbol_bind_of_lt (h : (s.reg ra).toNat < (s.admSlot m.toNat).nsym.toNat) :
    (needSymbol ra m >>= f) s = f () s :=
  Cmd.bind_of_ok ((needSymbol_run ra m s).trans (if_pos h))

end Checks

theorem encBitABody_eq {s : State} {ra : Reg} {m : Slot} (hm : s.mode = .enc) (hslot : m.toNat < s.params.nAbm)
    (hbit : (s.reg ra).toNat ≤ 1) :
    encBitABody ra m s = (Decision.bitA m.toNat (decide (s.reg ra = 1#32))).enc s :=
  (needMode_bind_of_eq hm).trans ((needAbm_bind_of_lt hslot).trans (needBit_bind_of_le hbit))

theorem encBitSBody_eq {s : State} {ra : Reg} (hm : s.mode = .enc) (hbit : (s.reg ra).toNat ≤ 1) :
    encBitSBody ra s = (Decision.bitS (decide (s.reg ra = 1#32))).enc s :=
  (needMode_bind_of_eq hm).trans (needBit_bind_of_le hbit)

theorem encSymBody_eq {s : State} {ra : Reg} {m : Slot} (hm : s.mode = .enc) (hslot : m.toNat < s.params.nAdm)
    (hk : (s.reg ra).toNat < (s.admSlot m.toNat).nsym.toNat) :
    encSymBody ra m s = (Decision.sym m.toNat (s.reg ra).toNat).enc s :=
  (needMode_bind_of_eq hm).trans
    ((needAdmInit_bind_of ⟨hslot, AdmSlot.inUse hk⟩).trans (needSymbol_bind_of_lt hk))

/-- What a coded decision leaves, field by field. -/
theorem EncMoves.counted_bitA {s u : State} (h : EncMoves s u) (m : Nat) (b : Bool) :
    (Decision.bitA m b).counted u = { s with
      low := u.low, range := u.range, ptr := u.ptr, cb := u.cb, abm := s.abm.set m ((s.abmSlot m).count b) } := by
  show u.setAbm m ((u.abmSlot m).count b) = _
  rw [h.abmSlot]
  unfold EncMoves at h
  rw [h]
  rfl

theorem EncMoves.counted_sym {s u : State} (h : EncMoves s u) (j k : Nat) :
    (Decision.sym j k).counted u = { s with
      low := u.low, range := u.range, ptr := u.ptr, cb := u.cb, adm := s.adm.set j ((s.admSlot j).count k) } := by
  show u.setAdm j ((u.admSlot j).count k) = _
  rw [h.admSlot]
  unfold EncMoves at h
  rw [h]
  rfl

/-- The parts of a bit that is given by a condition (R116). -/
theorem bitParts_decide (x range : Word) (c : Prop) [Decidable c] :
    (if decide c = true then x else 0#32) = (if c then x else 0#32) ∧
      (if decide c = true then range - x else x) = (if c then range - x else x) := by
  by_cases hc : c <;> simp [hc]

/-- Settles O44: each command codes its one bit, `ENC_BIT_A` counting it in the slot it names. -/
theorem encodedBitNarrowsTheInterval : Obligations.EncodedBitNarrowsTheInterval := by
  intro s ra m hbit
  constructor
  · intro hslot x r h
    obtain ⟨hbase, hwidth⟩ := bitParts_decide x s.range (s.reg ra = 1#32)
    obtain ⟨_, _, hmode, _⟩ := id h
    obtain ⟨u, hexec, hmoves, henc⟩ :=
      exec_of_enc (i := .encBitA ra m) (encBitABody_eq hmode hslot hbit) hbase hwidth h hslot
    exact ⟨_, hexec, congrArg State.counted (hmoves.counted_bitA _ _), henc⟩
  · intro x r h
    obtain ⟨hbase, hwidth⟩ := bitParts_decide x s.range (s.reg ra = 1#32)
    obtain ⟨_, _, hmode, _⟩ := id h
    obtain ⟨u, hexec, hmoves, henc⟩ :=
      exec_of_enc (i := .encBitS ra) (encBitSBody_eq hmode hbit) hbase hwidth h trivial
    exact ⟨_, hexec, congrArg State.counted hmoves, henc⟩

/-- The width of a symbol's part in exact integers (R120). -/
theorem symWidth_eq {maxSym : Nat} {d : AdmSlot} (h : d.okInit maxSym) {k : Nat} (hk : k < d.nsym.toNat) {r : Word}
    (hr : minRange ≤ r) :
    symWidth d k r = BitVec.ofNat 32 (if k + 1 = d.nsym.toNat then
        r.toNat - (d.dist.getD k 0#15).toNat * (r.toNat / 2 ^ 15)
      else (d.dist.getD (k + 1) 0#15).toNat * (r.toNat / 2 ^ 15) -
        (d.dist.getD k 0#15).toNat * (r.toNat / 2 ^ 15)) := by
  obtain ⟨hwidth, _⟩ := symWidth_spec h hk hr
  refine BitVec.eq_of_toNat_eq ?_
  rw [BitVec.toNat_ofNat, ← hwidth]
  exact (Nat.mod_eq_of_lt (symWidth d k r).isLt).symm

/-- Settles O46: `ENC_SYM` codes its one symbol. -/
theorem encodedSymbolNarrowsTheInterval : Obligations.EncodedSymbolNarrowsTheInterval := by
  intro s ra m hslot hk k d part r h
  obtain ⟨_, hr⟩ := h.coder
  obtain ⟨hinv, _, hmode, _⟩ := id h
  have hwidth : (Decision.sym m.toNat k).width s = r :=
    (Decision.width_sym s m.toNat k).trans (symWidth_eq (hinv.admSlot_ok hslot (AdmSlot.inUse hk)) hk hr)
  obtain ⟨u, hexec, hmoves, henc⟩ :=
    exec_of_enc (i := .encSym ra m) (encSymBody_eq hmode hslot hk) rfl hwidth h ⟨hslot, hk⟩
  exact ⟨_, hexec, congrArg State.counted (hmoves.counted_sym _ _), henc⟩

/-! ### The decode commands (R128, R129, R131) -/

/-- A decoded bit as it is written to its register (R128). -/
theorem bitWord_decide (c : Prop) [Decidable c] : bitWord (decide c) = if c then 1#32 else 0#32 := by
  by_cases hc : c <;> simp [bitWord, hc]

/-- What the decoder leaves after a counted bit, its register written. -/
theorem DecMoves.bitA_written {s u : State} (h : DecMoves s u) (m : Nat) (b : Bool) (ra : Reg) (v : Word) :
    (u.setAbm m ((s.abmSlot m).count b)).setReg ra v = { s with
      x := (s.setReg ra v).x, range := u.range, value := u.value, ptr := u.ptr, overread := u.overread
      abm := s.abm.set m ((s.abmSlot m).count b) } := by
  unfold DecMoves at h
  rw [h]
  rfl

theorem DecMoves.written {s u : State} (h : DecMoves s u) (ra : Reg) (v : Word) :
    u.setReg ra v = { s with
      x := (s.setReg ra v).x, range := u.range, value := u.value, ptr := u.ptr, overread := u.overread } := by
  unfold DecMoves at h
  rw [h]
  rfl

theorem DecMoves.sym_written {s u : State} (h : DecMoves s u) (j k : Nat) (ra : Reg) (v : Word) :
    (u.setAdm j ((s.admSlot j).count k)).setReg ra v = { s with
      x := (s.setReg ra v).x, range := u.range, value := u.value, ptr := u.ptr, overread := u.overread
      adm := s.adm.set j ((s.admSlot j).count k) } := by
  unfold DecMoves at h
  rw [h]
  rfl

/-- Settles O45: each command decodes the bit that `VALUE` selects, `DEC_BIT_A` counting it in the slot it names. -/
theorem decodedBitNarrowsTheInterval : Obligations.DecodedBitNarrowsTheInterval := by
  intro s ra m
  constructor
  · intro hslot x r h
    obtain ⟨hw, hr⟩ := h.coder
    obtain ⟨hinv, hf, hmode, hroom⟩ := h
    have hx : zeroPart (s.abmSlot m.toNat).p0 s.range = x := (bitPart_eq _ _).symm
    have hdecodes := decBitA_ok hw hr (hinv.abmSlot_ok hslot)
    simp only [hx] at hdecodes
    obtain ⟨u, hu, hmoves, hdec⟩ := hdecodes hroom
    have hbody : decBitABody ra m s = .ok () ((u.setAbm m.toNat
        ((s.abmSlot m.toNat).count (decide (x ≤ s.value)))).setReg ra (if x ≤ s.value then 1#32 else 0#32)) := by
      unfold decBitABody
      rw [needMode_bind_of_eq hmode, needAbm_bind_of_lt hslot, Cmd.bind_of_ok hu, writeReg_run, bitWord_decide]
    exact ⟨_, exec_of_ok (i := .decBitA ra m) hf hbody, congrArg State.counted (hmoves.bitA_written _ _ _ _), hdec⟩
  · intro x r h
    obtain ⟨hw, hr⟩ := h.coder
    obtain ⟨_, hf, hmode, hroom⟩ := h
    have hx : zeroPart pHalf s.range = x := (bitPart_eq _ _).symm
    have hdecodes := decBit_ok hw hr (p0 := pHalf) (by decide)
    simp only [hx] at hdecodes
    obtain ⟨u, hu, hmoves, hdec⟩ := hdecodes hroom
    have hbody : decBitSBody ra s = .ok () (u.setReg ra (if x ≤ s.value then 1#32 else 0#32)) := by
      unfold decBitSBody
      rw [needMode_bind_of_eq hmode, Cmd.bind_of_ok hu, writeReg_run, bitWord_decide]
    exact ⟨_, exec_of_ok (i := .decBitS ra) hf hbody, congrArg State.counted (hmoves.written _ _), hdec⟩

/-- Settles O47: `DEC_SYM` decodes the symbol that its scan finds, the last whose part starts at or below `VALUE`. -/
theorem decodedSymbolNarrowsTheInterval : Obligations.DecodedSymbolNarrowsTheInterval := by
  intro s ra m h hslot huse d part
  obtain ⟨hw, hr⟩ := h.coder
  obtain ⟨hinv, hf, hmode, _⟩ := h
  have hd := hinv.admSlot_ok hslot huse
  have hpart (j : Nat) : (d.distAt j * (s.range >>> 15)).toNat = part j := distAt_mul_toNat d j s.range
  generalize hscan : scanSym (s.range >>> 15) s.value (s.admSlot m.toNat).dist 0 0 = k
  obtain ⟨hk, hle, hlt⟩ := scanSym_selects hd hscan
  refine ⟨k, ⟨hk, ?_, fun j hkj hj => ?_⟩, fun hready => ?_⟩
  · rw [← hpart]
    exact hle
  · rw [← hpart]
    exact hlt j hkj hj
  · have hwidth := symWidth_eq hd hk hr
    obtain ⟨_, _, _, hroom⟩ := hready
    obtain ⟨u, hu, hmoves, hdec⟩ := decSym_ok hw hr hd hscan (by rw [hwidth]; exact hroom)
    have hvalue : s.value - d.distAt k * (s.range >>> 15) = BitVec.ofNat 32 (s.value.toNat - part k) := by
      refine BitVec.eq_of_toNat_eq ?_
      rw [BitVec.toNat_sub_of_le hle, hpart, BitVec.toNat_ofNat]
      exact (Nat.mod_eq_of_lt (Nat.lt_of_le_of_lt (Nat.sub_le _ _) s.value.isLt)).symm
    rw [hwidth, hvalue] at hdec
    have hbody : decSymBody ra m s = .ok () ((u.setAdm m.toNat (d.count k)).setReg ra (BitVec.ofNat 32 k)) := by
      unfold decSymBody
      rw [needMode_bind_of_eq hmode, needAdmInit_bind_of ⟨hslot, huse⟩, Cmd.bind_of_ok hu, writeReg_run]
    exact ⟨_, exec_of_ok (i := .decSym ra m) hf hbody, congrArg State.counted (hmoves.sym_written _ _ _ _), hdec⟩

end Sys2Proof.Machine
end

section
/-! The Exp-Golomb delta codec (spec/42_expgolomb_delta.md R141 to R149): the zig-zag map in exact integers, and the two
coders as the sequences of decisions of a code word. -/

namespace Sys2Proof.Machine

/-! ### The zig-zag map (R141 to R143) -/

theorem Word.shiftLeft_one_toNat {v : Word} (hv : v.toNat < 2 ^ 31) : (v <<< 1).toNat = 2 * v.toNat := by
  rw [BitVec.toNat_shiftLeft, Nat.shiftLeft_eq]
  omega

/-- The double of a number that is not negative; for a negative one the double of its complement, and one (R141). -/
theorem zigzag_toNat (v : Word) :
    ((zigzag v).toNat : Int) = if 0 ≤ v.toInt then 2 * v.toInt else -2 * v.toInt - 1 := by
  have hsign : v.getLsbD 31 = decide (2 ^ 31 ≤ v.toNat) := BitVec.msb_eq_decide v
  have hv := v.isLt
  unfold zigzag
  rw [BitVec.toInt_eq_toNat_cond]
  by_cases hneg : 2 ^ 31 ≤ v.toNat
  · have hnot : (~~~v).toNat = 2 ^ 32 - 1 - v.toNat := BitVec.toNat_not
    have hodd : (~~~v <<< 1 ||| 1#32).toNat = 2 * (2 ^ 32 - 1 - v.toNat) + 1 := by
      rw [BitVec.toNat_or, Word.shiftLeft_one_toNat (by omega), hnot]
      exact (Nat.two_pow_add_eq_or_of_lt (i := 1) (by decide) _).symm
    rw [if_pos (hsign.trans (decide_eq_true hneg)), hodd]
    split <;> split <;> omega
  · rw [if_neg (Bool.eq_false_iff.mp (hsign.trans (decide_eq_false hneg))),
      Word.shiftLeft_one_toNat (Nat.not_le.mp hneg)]
    split <;> split <;> omega

/-- The half of an even number; for an odd one the complement of its half (R141). -/
theorem unzigzag_toInt (u : Word) :
    (unzigzag u).toInt = if u.toNat % 2 = 0 then (u.toNat : Int) / 2 else -((u.toNat : Int) + 1) / 2 := by
  have hparity : u.getLsbD 0 = decide (u.toNat % 2 = 1) := Nat.testBit_zero _
  have hhalf : (u >>> 1).toNat = u.toNat / 2 := BitVec.toNat_ushiftRight u 1
  have hu := u.isLt
  unfold unzigzag
  by_cases hodd : u.toNat % 2 = 1
  · rw [if_pos (hparity.trans (decide_eq_true hodd)), BitVec.toInt_eq_toNat_cond, BitVec.toNat_not, hhalf]
    split <;> split <;> omega
  · rw [if_neg (Bool.eq_false_iff.mp (hparity.trans (decide_eq_false hodd))), BitVec.toInt_eq_toNat_cond, hhalf]
    split <;> split <;> omega

theorem unzigzag_zigzag (v : Word) : unzigzag (zigzag v) = v := by
  have hz := zigzag_toNat v
  refine BitVec.eq_of_toInt_eq ?_
  rw [unzigzag_toInt]
  split at hz <;> split <;> omega

theorem zigzag_unzigzag (u : Word) : zigzag (unzigzag u) = u := by
  have hz := zigzag_toNat (unzigzag u)
  rw [unzigzag_toInt] at hz
  refine BitVec.eq_of_toNat_eq ?_
  split at hz <;> split at hz <;> omega

/-- Settles O52: by what the two maps are in exact integers. -/
theorem zigzagCommands : Obligations.ZigzagCommands := by
  refine ⟨fun s ra rb hf => ⟨zigzag (s.reg rb), unzigzag (s.reg rb), ?_, ?_, zigzag_toNat _, unzigzag_toInt _⟩,
    fun v => ⟨unzigzag_zigzag v, zigzag_unzigzag v⟩⟩
  · exact exec_of_ok (i := .zzenc ra rb) hf rfl
  · exact exec_of_ok (i := .zzdec ra rb) hf rfl

/-! ### The parts of a code word (R144) -/

/-- A number of one bit more begins with that bit. -/
theorem bitsDown_succ (v n : Nat) : bitsDown v (n + 1) = v.testBit n :: bitsDown v n := by
  unfold bitsDown
  rw [List.range_succ, List.reverse_append, List.map_append]
  rfl

theorem egCodeWord_length (m n r : Nat) : (egCodeWord m n r).length = 2 * n + 1 := by
  simp only [egCodeWord, bitsDown, List.length_append, List.length_map, List.length_replicate, List.length_reverse,
    List.length_range, List.length_singleton]
  omega

/-- A code word names one bit model. -/
theorem egCodeWord_fits {s : State} {m : Nat} (hm : m < s.params.nAbm) (n r : Nat) :
    ∀ d ∈ egCodeWord m n r, d.fits s := by
  intro d hd
  simp only [egCodeWord, List.mem_append, List.mem_singleton, List.mem_map] at hd
  rcases hd with (hd | rfl) | ⟨b, _, rfl⟩
  · rw [List.eq_of_mem_replicate hd]
    exact hm
  · exact hm
  · trivial

/-- Every `u + 1` is `2^n + r` in one way only. -/
theorem egOnes_egRest_eq {u : Word} {n r : Nat} (hr : r < 2 ^ n) (hu : u.toNat + 1 = 2 ^ n + r) :
    egOnes u = n ∧ egRest u = r := by
  have hones : egOnes u = n := (Nat.log2_eq_iff (Nat.succ_ne_zero _)).mpr ⟨by omega, by omega⟩
  refine ⟨hones, ?_⟩
  unfold egRest
  rw [hones]
  omega

/-! ### The encoder codes the code word (R144, R146, R148) -/

theorem encDecisions_append (ds es : List Decision) :
    encDecisions (ds ++ es) = (do encDecisions ds; encDecisions es) := by
  induction ds with
  | nil => rfl
  | cons d ds ih =>
    show (do d.enc; encDecisions (ds ++ es)) = _
    rw [ih]
    exact (bind_assoc _ _ _).symm

/-- The ones of the length part. -/
theorem forUp_encBitA (m first n : Nat) :
    forUp first n (fun _ => encBitA m true) = encDecisions (List.replicate n (.bitA m true)) := by
  induction n generalizing first with
  | zero => rfl
  | succ n ih =>
    rw [forUp_succ, ih]
    rfl

/-- The bits of the value part. -/
theorem encBitsDown_eq (v n : Nat) : encBitsDown v n = encDecisions ((bitsDown v n).map .bitS) := by
  induction n with
  | zero => rfl
  | succ n ih =>
    rw [bitsDown_succ]
    unfold encBitsDown
    rw [ih]
    rfl

theorem encEg0_eq (u : Word) (m : Nat) : encEg0 u m = encDecisions (egCodeWord m (egOnes u) (egRest u)) := by
  unfold encEg0 egCodeWord
  rw [forUp_encBitA, encBitsDown_eq, List.append_assoc, encDecisions_append]
  rfl

/-- Decisions that are coded in a ready session leave it ready, and write only the part of the window below `PTR`. -/
theorem encDecisions_eq_ok {ds : List Decision} {s t : State} (h : s.encReady 0) (hfits : ∀ d ∈ ds, d.fits s)
    (hds : encDecisions ds s = .ok () t) : t.encReady 0 ∧ s.ptr.toNat ≤ t.ptr.toNat ∧ s.encFrame t := by
  induction ds generalizing s with
  | nil =>
    cases hds
    exact ⟨h, Nat.le_refl _, State.encFrame.refl _⟩
  | cons d ds ih =>
    obtain ⟨v, hv, hrest⟩ := encDecisions_cons_eq_ok.mp hds
    obtain ⟨hd, htail⟩ := List.forall_mem_cons.mp hfits
    obtain ⟨w, hw, hready, hcodes, henc⟩ := Decision.enc_ready (n := 0) (Decision.room_of_enc h hd hv) hd
    rw [hv] at hw
    cases hw
    obtain ⟨hparams, _⟩ := hcodes.sameWindow
    obtain ⟨hready', hptr', hframe'⟩ := ih hready (fun e he => Decision.enc_fits hv hparams (htail e he)) hrest
    obtain ⟨hptr, _⟩ := id henc
    exact ⟨hready', by omega, (hcodes.encFrame henc).trans hframe' hptr'⟩

/-- Past their checks both encode commands are `enc_eg0`, `ENC_SDELTA` of the zig-zag of its register. -/
theorem bodyOf_egEncoder {s : State} {ra : Reg} {m : Slot} {n r : Nat} {i : Instr} (hmode : s.mode = .enc)
    (hslot : m.toNat < s.params.nAbm) (hr : r < 2 ^ n)
    (hi : (i = .encEg0 ra m ∧ (s.reg ra).toNat + 1 = 2 ^ n + r) ∨
      (i = .encSdelta ra m ∧ (zigzag (s.reg ra)).toNat + 1 = 2 ^ n + r)) :
    ∃ u : Word, bodyOf i s = encEg0 u m.toNat s ∧ egOnes u = n ∧ egRest u = r := by
  rcases hi with ⟨rfl, hu⟩ | ⟨rfl, hu⟩
  · exact ⟨s.reg ra, (needMode_bind_of_eq hmode).trans (needAbm_bind_of_lt hslot), egOnes_egRest_eq hr hu⟩
  · exact ⟨zigzag (s.reg ra), (needMode_bind_of_eq hmode).trans (needAbm_bind_of_lt hslot), egOnes_egRest_eq hr hu⟩

/-- Settles O53: past its checks each command is the sequence of the decisions of its code word. -/
theorem expGolombEncodersCodeTheCodeWord : Obligations.ExpGolombEncodersCodeTheCodeWord := by
  intro s ra m n r i hslot hr h hi
  obtain ⟨_, hf, hmode, _⟩ := id h
  obtain ⟨u, hbody, rfl, rfl⟩ := bodyOf_egEncoder hmode hslot hr hi
  have hfits := egCodeWord_fits hslot (egOnes u) (egRest u)
  have hexec {t : State} (ht : encDecisions (egCodeWord m.toNat (egOnes u) (egRest u)) s = .ok () t) :
      exec i s = .next t.counted :=
    exec_of_ok hf (by rw [hbody, encEg0_eq, ht])
  refine ⟨fun t ht => ?_, fun hroom => ?_⟩
  · obtain ⟨_, _, hframe⟩ := encDecisions_eq_ok h hfits ht
    have hmodels := encEg0_onlyAbm u m.toNat s
    rw [encEg0_eq, ht] at hmodels
    obtain ⟨hadm, habm⟩ := hmodels
    exact ⟨hexec ht, hframe, hadm, habm⟩
  · obtain ⟨t, ht, _⟩ := encodingNeverRunsOffTheWindow s _ 0 (by rw [egCodeWord_length]; exact hroom) hfits
    exact ⟨t, ht, hexec ht⟩

/-! ### The decoder's part of a code word (R144, R145) -/

/-- A result that is only wrapped: the wrapped value came out exactly when the value did. -/
theorem Cmd.bind_pure_eq_ok {α β : Type} {x : Cmd α} {g : α → β} (hg : Function.Injective g) {s t : State} {a : α} :
    (x >>= fun b => pure (g b)) s = .ok (g a) t ↔ x s = .ok a t := by
  constructor
  · intro h
    obtain ⟨b, u, hx, hp⟩ := Cmd.bind_eq_ok.mp h
    injection hp with hb hu
    rwa [hg hb, hu] at hx
  · exact fun h => Cmd.bind_of_ok h

theorem Decision.dec_bitA_eq_ok {m : Nat} {b c : Bool} {s t : State} :
    (Decision.bitA m b).dec s = .ok (.bitA m c) t ↔ decBitA m s = .ok c t :=
  Cmd.bind_pure_eq_ok fun _ _ h => (Decision.bitA.inj h).2

theorem Decision.dec_bitS_eq_ok {b c : Bool} {s t : State} :
    (Decision.bitS b).dec s = .ok (.bitS c) t ↔ decBit pHalf s = .ok c t :=
  Cmd.bind_pure_eq_ok fun _ _ h => Decision.bitS.inj h

/-- Admitted ones are counted. -/
theorem decOnes_of_ones {m k : Nat} {s t : State} (n more : Nat)
    (h : decDecisions (List.replicate k (.bitA m true)) s = .ok (List.replicate k (.bitA m true)) t) :
    decOnes m (more + k) n s = decOnes m more (n + k) t := by
  induction k generalizing n s with
  | zero =>
    cases h
    rfl
  | succ k ih =>
    obtain ⟨v, hv, hrest⟩ := decDecisions_cons_eq_ok.mp h
    calc decOnes m (more + (k + 1)) n s
      _ = decOnes m (more + k) (n + 1) v := Cmd.bind_of_ok (Decision.dec_bitA_eq_ok.mp hv)
      _ = decOnes m more (n + (k + 1)) t := by rw [ih (n + 1) hrest, Nat.add_assoc, Nat.add_comm 1]

/-- The closing zero ends the length part. -/
theorem decOnes_of_zero {m : Nat} {s t : State} (more n : Nat) (h : decBitA m s = .ok false t) :
    decOnes m more n s = .ok n t := by
  cases more <;> exact Cmd.bind_of_ok h

/-- A one where none is admitted is corrupt (R145). -/
theorem decOnes_of_one {m : Nat} {s t : State} (n : Nat) (h : decBitA m s = .ok true t) :
    decOnes m 0 n s = .error (.raise .corruptBitstream (BitVec.ofNat 32 (n + 1))) t :=
  Cmd.bind_of_ok h

/-- The value part adds its bits to those read before. -/
theorem decBitsDown_of_bits {v n : Nat} {s t : State} (r : Nat)
    (h : decDecisions ((bitsDown v n).map .bitS) s = .ok ((bitsDown v n).map .bitS) t) :
    decBitsDown n r s = .ok (r + v % 2 ^ n) t := by
  induction n generalizing r s with
  | zero =>
    cases h
    rw [pow_zero, Nat.mod_one]
    rfl
  | succ n ih =>
    rw [bitsDown_succ] at h
    obtain ⟨w, hw, hrest⟩ := decDecisions_cons_eq_ok.mp h
    have hsum : r + v % 2 ^ (n + 1) = (if v.testBit n then r + 2 ^ n else r) + v % 2 ^ n := by
      rw [Nat.mod_pow_succ, ← Nat.toNat_testBit]
      cases v.testBit n with
      | false => rw [Bool.toNat_false, Nat.mul_zero, Nat.add_zero, if_neg Bool.false_ne_true]
      | true => rw [Bool.toNat_true, Nat.mul_one, if_pos rfl, Nat.add_comm (v % 2 ^ n), Nat.add_assoc]
    rw [hsum, ← ih _ hrest]
    exact Cmd.bind_of_ok (Decision.dec_bitS_eq_ok.mp hw)

/-- On a code word `dec_eg0` reads all of it; what is left is the test of R145. -/
theorem decEg0_of_codeWord {m n r : Nat} {s t : State} (hn : n ≤ 32) (hr : r < 2 ^ n)
    (h : decDecisions (egCodeWord m n r) s = .ok (egCodeWord m n r) t) :
    decEg0 m s = (do
      check (¬ (n = 32 ∧ r ≠ 0)) .corruptBitstream 32#32
      pure (BitVec.ofNat 32 (2 ^ n + r - 1)) : Cmd Word) t := by
  obtain ⟨w, hlength, hvalue⟩ := (decDecisions_append_eq_ok rfl).mp h
  obtain ⟨v, hones, hclose⟩ := (decDecisions_append_eq_ok rfl).mp hlength
  obtain ⟨w', hzero, hw⟩ := decDecisions_cons_eq_ok.mp hclose
  cases hw
  have hcount : decOnes m 32 0 s = .ok n w := by
    rw [← Nat.sub_add_cancel hn, decOnes_of_ones 0 (32 - n) hones, Nat.zero_add]
    exact decOnes_of_zero _ _ (Decision.dec_bitA_eq_ok.mp hzero)
  have hbits := decBitsDown_of_bits 0 hvalue
  rw [Nat.zero_add, Nat.mod_eq_of_lt hr] at hbits
  unfold decEg0
  rw [Cmd.bind_of_ok hcount, Cmd.bind_of_ok hbits]

/-- The code word of a 32-bit value gives that value back. -/
theorem decEg0_ok {m n r : Nat} {s t : State} (hr : r < 2 ^ n) (hn : n < 32 ∨ (n = 32 ∧ r = 0))
    (h : decDecisions (egCodeWord m n r) s = .ok (egCodeWord m n r) t) :
    decEg0 m s = .ok (BitVec.ofNat 32 (2 ^ n + r - 1)) t := by
  rw [decEg0_of_codeWord (by omega) hr h]
  exact Cmd.bind_of_ok (check_of (by omega) _ _ _)

/-- The code word of a larger number is corrupt (R145). -/
theorem decEg0_corrupt {m r : Nat} {s t : State} (hr : r < 2 ^ 32) (hpos : 0 < r)
    (h : decDecisions (egCodeWord m 32 r) s = .ok (egCodeWord m 32 r) t) :
    decEg0 m s = .error (.raise .corruptBitstream 32#32) t := by
  rw [decEg0_of_codeWord (Nat.le_refl _) hr h]
  exact Cmd.bind_of_error (check_of_not (by omega) _ _ _)

/-- Of 33 ones the last is corrupt (R145). -/
theorem decEg0_of_ones {m : Nat} {s t : State}
    (h : decDecisions (List.replicate 33 (.bitA m true)) s = .ok (List.replicate 33 (.bitA m true)) t) :
    decEg0 m s = .error (.raise .corruptBitstream 33#32) t := by
  rw [List.replicate_succ'] at h
  obtain ⟨v, hones, hlast⟩ := (decDecisions_append_eq_ok rfl).mp h
  obtain ⟨w, hw, hend⟩ := decDecisions_cons_eq_ok.mp hlast
  cases hend
  exact Cmd.bind_of_error ((decOnes_of_ones 0 0 hones).trans (decOnes_of_one 32 (Decision.dec_bitA_eq_ok.mp hw)))

/-! ### The decode commands (R145, R147, R149; spec/60_exceptions.md R225) -/

section Decoders

variable {s t : State} {ra : Reg} {m : Slot}

theorem decEg0Body_of_ok (hmode : s.mode = .dec) (hslot : m.toNat < s.params.nAbm) {u : Word}
    (h : decEg0 m.toNat s = .ok u t) : decEg0Body ra m s = .ok () (t.setReg ra u) :=
  (needMode_bind_of_eq hmode).trans ((needAbm_bind_of_lt hslot).trans (Cmd.bind_of_ok h))

theorem decSdeltaBody_of_ok (hmode : s.mode = .dec) (hslot : m.toNat < s.params.nAbm) {u : Word}
    (h : decEg0 m.toNat s = .ok u t) : decSdeltaBody ra m s = .ok () (t.setReg ra (unzigzag u)) :=
  (needMode_bind_of_eq hmode).trans ((needAbm_bind_of_lt hslot).trans (Cmd.bind_of_ok h))

/-- A corrupt code word abandons both commands before they write their register. -/
theorem exec_egDecoder_of_raise {i : Instr} {f : FaultKind} {info : Word} (hf : s.fault = false) (hmode : s.mode = .dec)
    (hslot : m.toNat < s.params.nAbm) (hi : i = .decEg0 ra m ∨ i = .decSdelta ra m)
    (h : decEg0 m.toNat s = .error (.raise f info) t) : exec i s = .next (t.faulted f.code info (encode i)) := by
  have hbody : bodyOf i s = .error (.raise f info) t := by
    rcases hi with rfl | rfl <;>
      exact (needMode_bind_of_eq hmode).trans ((needAbm_bind_of_lt hslot).trans (Cmd.bind_of_error h))
  exact (exec_eq_command i s).trans (command_of_raise hf hbody)

/-- Both commands on the code word of a 32-bit value. -/
theorem exec_egDecoders_of_codeWord {n r : Nat} (hf : s.fault = false) (hmode : s.mode = .dec)
    (hslot : m.toNat < s.params.nAbm) (hr : r < 2 ^ n) (hn : n < 32 ∨ (n = 32 ∧ r = 0))
    (h : decDecisions (egCodeWord m.toNat n r) s = .ok (egCodeWord m.toNat n r) t) :
    exec (.decEg0 ra m) s = .next (t.setReg ra (BitVec.ofNat 32 (2 ^ n + r - 1))).counted ∧
      exec (.decSdelta ra m) s = .next (t.setReg ra (unzigzag (BitVec.ofNat 32 (2 ^ n + r - 1)))).counted := by
  have hvalue := decEg0_ok hr hn h
  exact ⟨exec_of_ok (i := .decEg0 ra m) hf (decEg0Body_of_ok hmode hslot hvalue),
    exec_of_ok (i := .decSdelta ra m) hf (decSdeltaBody_of_ok hmode hslot hvalue)⟩

end Decoders

/-- Settles O54: both commands read the code word, the one of 0 being a single zero. -/
theorem expGolombDecodersReturnTheValue : Obligations.ExpGolombDecodersReturnTheValue := by
  refine ⟨fun s t ra m n r => exec_egDecoders_of_codeWord, fun s ra m hslot hlt h => ?_⟩
  have hselected : (Decision.bitA m.toNat false).selected s := by
    refine (decide_eq_false (BitVec.not_le.mpr ?_)).symm
    rw [BitVec.lt_def, bitPart_eq, zeroPart_toNat]
    exact hlt
  obtain ⟨u, hu, hmoves, _⟩ := Decision.dec_ok (d := .bitA m.toNat false) h hslot hselected
  obtain ⟨_, hf, hmode, _⟩ := h
  have hword : decDecisions (egCodeWord m.toNat 0 0) s = .ok (egCodeWord m.toNat 0 0) _ :=
    decDecisions_cons_eq_ok.mpr ⟨_, hu, decDecisions_nil _⟩
  obtain ⟨heg0, hsdelta⟩ := exec_egDecoders_of_codeWord (ra := ra) hf hmode hslot Nat.one_pos (.inl (by omega)) hword
  refine ⟨_, heg0, hsdelta, ?_⟩
  show (State.setReg (u.setAbm m.toNat ((u.abmSlot m.toNat).count false)) ra 0#32).counted = _
  rw [hmoves.abmSlot]
  exact congrArg State.counted (hmoves.bitA_written _ _ _ _)

/-- Settles O55: the length part ends at its 33rd one, and after 32 ones the value part must be zero. -/
theorem overlongCodeWordsAreCorrupt : Obligations.OverlongCodeWordsAreCorrupt :=
  fun _ _ _ _ _ hf hmode hslot hi =>
    ⟨fun h => exec_egDecoder_of_raise hf hmode hslot hi (decEg0_of_ones h),
      fun _ hpos hr h => exec_egDecoder_of_raise hf hmode hslot hi (decEg0_corrupt hr hpos h)⟩

end Sys2Proof.Machine
end

section
/-! The fixed-width commands (spec/43_fixed_width.md R160 to R163): both coders as the sequence of static decisions of
the bits of a number, the least significant first. -/

namespace Sys2Proof.Machine

/-! ### The decisions of a number (R160) -/

/-- A number of one bit more begins with its lowest bit, and goes on as its half. -/
theorem uintDecisions_succ (v n : Nat) :
    uintDecisions v (n + 1) = .bitS (v.testBit 0) :: uintDecisions (v / 2) n := by
  unfold uintDecisions
  rw [List.range_succ_eq_map, List.map_cons, List.map_map]
  refine congrArg _ (List.map_congr_left fun i _ => ?_)
  exact congrArg Decision.bitS (Nat.testBit_succ v i)

/-- A bit put below a number is decided before the number's own bits. -/
theorem uintDecisions_bit (b : Bool) (v n : Nat) :
    uintDecisions (Nat.bit b v) (n + 1) = .bitS b :: uintDecisions v n := by
  rw [uintDecisions_succ, Nat.testBit_bit_zero, Nat.bit_div_two]

theorem uintDecisions_length (v n : Nat) : (uintDecisions v n).length = n := by
  unfold uintDecisions
  rw [List.length_map, List.length_range]

/-- The static model is in no slot. -/
theorem uintDecisions_fits (s : State) (v n : Nat) : ∀ d ∈ uintDecisions v n, d.fits s := by
  intro d hd
  obtain ⟨_, _, rfl⟩ := List.mem_map.mp hd
  trivial

/-! ### The checks (R161, R162) -/

section Checks

variable {s : State} {g : Unit → Cmd Unit} {f : BitVec 8} {ra : Reg}

theorem needCount_bind_of_le (h : f.toNat ≤ 32) : (needCount f >>= g) s = g () s :=
  Cmd.bind_of_ok ((needCount_run f s).trans (if_pos h))

theorem needFits_bind_of_lt (h : (s.reg ra).toNat < 2 ^ f.toNat) : (needFits ra f >>= g) s = g () s :=
  Cmd.bind_of_ok ((needFits_run ra f s).trans (if_pos fun _ => h))

end Checks

/-! ### The encoder codes the bits (R161, R163) -/

/-- From bit `lo` on the encoder codes the number without its bits below. -/
theorem encBitsUp_eq (v lo n : Nat) : encBitsUp v lo n = encDecisions (uintDecisions (v >>> lo) n) := by
  induction n generalizing lo with
  | zero => rfl
  | succ n ih =>
    have hbit : (v >>> lo).testBit 0 = v.testBit lo := by rw [Nat.testBit_shiftRight, Nat.add_zero]
    have hrest : v >>> lo / 2 = v >>> (lo + 1) := (Nat.shiftRight_succ v lo).symm
    calc encBitsUp v lo (n + 1)
      _ = (do encBit (v.testBit lo) pHalf; encBitsUp v (lo + 1) n) := forUp_succ _ _ _
      _ = encDecisions (.bitS (v.testBit lo) :: uintDecisions (v >>> (lo + 1)) n) := by rw [ih]; rfl
      _ = encDecisions (uintDecisions (v >>> lo) (n + 1)) := by rw [uintDecisions_succ, hbit, hrest]

/-- Past its checks `ENC_UINT` is the decisions of its register. -/
theorem encUintBody_eq {s : State} {ra : Reg} {f : BitVec 8} (hf : f.toNat ≤ 32) (hmode : s.mode = .enc)
    (hfits : (s.reg ra).toNat < 2 ^ f.toNat) :
    encUintBody ra f s = encDecisions (uintDecisions (s.reg ra).toNat f.toNat) s :=
  calc encUintBody ra f s
    _ = encBitsUp (s.reg ra).toNat 0 f.toNat s :=
      (needCount_bind_of_le hf).trans ((needMode_bind_of_eq hmode).trans (needFits_bind_of_lt hfits))
    _ = encDecisions (uintDecisions (s.reg ra).toNat f.toNat) s := by rw [encBitsUp_eq, Nat.shiftRight_zero]

/-- The static model leaves no trace in the banks (R118). -/
theorem encDecisions_uint_noModel (v n : Nat) : Cmd.Keeps NoModel (encDecisions (uintDecisions v n)) := by
  have hmoves := encBitsUp_encMoves v 0 n
  rw [encBitsUp_eq, Nat.shiftRight_zero] at hmoves
  exact hmoves.mono fun _ _ => EncMoves.noModel

/-- Settles O50: past its checks the command is the sequence of the decisions of its bits. -/
theorem encUintCodesItsBits : Obligations.EncUintCodesItsBits := by
  intro s ra f hf hlt h ds
  obtain ⟨_, hfault, hmode, _⟩ := id h
  have hfits : ∀ d ∈ ds, d.fits s := uintDecisions_fits s _ _
  have hexec {t : State} (ht : encDecisions ds s = .ok () t) : exec (.encUint ra f) s = .next t.counted :=
    exec_of_ok hfault ((encUintBody_eq hf hmode hlt).trans ht)
  refine ⟨fun t ht => ?_, fun hroom => ?_⟩
  · obtain ⟨_, _, hframe⟩ := encDecisions_eq_ok h hfits ht
    have hmodels := encDecisions_uint_noModel (s.reg ra).toNat f.toNat s
    rw [ht] at hmodels
    exact ⟨hexec ht, hframe, hmodels⟩
  · obtain ⟨t, ht, _⟩ := encodingNeverRunsOffTheWindow s ds 0 (by rw [uintDecisions_length]; exact hroom) hfits
    exact ⟨t, ht, hexec ht⟩

/-! ### The decoder returns the bits (R162) -/

/-- From bit `lo` on the decoder adds to the bits read before the decoded ones, each at its own weight. -/
theorem decBitsUp_of_bits {v n : Nat} {s t : State} (lo w : Nat)
    (h : decDecisions (uintDecisions v n) s = .ok (uintDecisions v n) t) :
    decBitsUp lo n w s = .ok (w + 2 ^ lo * (v % 2 ^ n)) t := by
  induction n generalizing v lo w s with
  | zero =>
    cases h
    rw [pow_zero, Nat.mod_one]
    rfl
  | succ n ih =>
    rw [uintDecisions_succ] at h
    obtain ⟨u, hu, hrest⟩ := decDecisions_cons_eq_ok.mp h
    have hbit : (if v.testBit 0 then w + 2 ^ lo else w) = w + 2 ^ lo * (v % 2) := by
      rw [Nat.testBit_zero]
      rcases Nat.mod_two_eq_zero_or_one v with hv | hv <;> simp [hv]
    have hsum : w + 2 ^ lo * (v % 2 ^ (n + 1)) = w + 2 ^ lo * (v % 2) + 2 ^ (lo + 1) * (v / 2 % 2 ^ n) := by
      rw [Nat.pow_succ' (n := n), Nat.mod_mul, Nat.pow_succ]
      ring
    calc decBitsUp lo (n + 1) w s
      _ = decBitsUp (lo + 1) n (if v.testBit 0 then w + 2 ^ lo else w) u :=
        Cmd.bind_of_ok (Decision.dec_bitS_eq_ok.mp hu)
      _ = .ok (w + 2 ^ lo * (v % 2 ^ (n + 1))) t := by rw [hbit, ih (lo + 1) _ hrest, hsum]

/-- The selected decision with more bytes at hand than its own leaves a session in which the others can be fetched. -/
theorem Decision.dec_ready_room {s : State} {d : Decision} {n : Nat} (h : s.decReady (renormTurns (d.width s) + n))
    (hu : d.usable s) (hsel : d.selected s) :
    ∃ t, d.dec s = .ok d (d.counted t) ∧ DecMoves s t ∧ (d.counted t).decReady n := by
  obtain ⟨hinv, hfault, hmode, hroom⟩ := h
  obtain ⟨t, ht, hmoves, ⟨hinv', hfault', hmode', _⟩, hptr, _⟩ :=
    Decision.dec_ready ⟨hinv, hfault, hmode, by omega⟩ hu hsel
  obtain ⟨_, hwlen, _⟩ := (hmoves.counted d).sameStream
  exact ⟨t, ht, hmoves, hinv', hfault', hmode', by rw [hptr, hwlen]; omega⟩

/-- Less is asked to be fetched. -/
theorem State.decReady.mono {s : State} {m n : Nat} (h : s.decReady m) (hle : n ≤ m) : s.decReady n := by
  obtain ⟨hinv, hf, hm, hroom⟩ := h
  exact ⟨hinv, hf, hm, by omega⟩

/-- `VALUE` always selects a bit, so that with two bytes per bit at hand some number is decoded. -/
theorem exists_decDecisions_uint {s : State} {n : Nat} (h : s.decReady (2 * n)) :
    ∃ v t, v < 2 ^ n ∧ decDecisions (uintDecisions v n) s = .ok (uintDecisions v n) t := by
  induction n generalizing s with
  | zero => exact ⟨0, s, Nat.one_pos, decDecisions_nil s⟩
  | succ n ih =>
    obtain ⟨b, hselected⟩ : ∃ b, (Decision.bitS b).selected s := ⟨_, rfl⟩
    have hturns := renormTurns_le ((Decision.bitS b).width s)
    obtain ⟨u, hu, _, hready⟩ := Decision.dec_ready_room (n := 2 * n) (h.mono (by omega)) trivial hselected
    obtain ⟨v, t, hv, ht⟩ := ih hready
    refine ⟨Nat.bit b v, t, Nat.bit_lt_two_pow_succ_iff.mpr hv, ?_⟩
    rw [uintDecisions_bit]
    exact decDecisions_cons_eq_ok.mpr ⟨u, hu, ht⟩

/-- The bits of a number give that number back, and the decoder alone has moved. -/
theorem decBitsUp_of_uint {v n : Nat} {s t : State} (hv : v < 2 ^ n)
    (h : decDecisions (uintDecisions v n) s = .ok (uintDecisions v n) t) :
    decBitsUp 0 n 0 s = .ok v t ∧ DecMoves s t := by
  have hbits := decBitsUp_of_bits 0 0 h
  rw [Nat.mod_eq_of_lt hv, pow_zero, Nat.one_mul, Nat.zero_add] at hbits
  have hmoves := decBitsUp_decMoves 0 n 0 s
  rw [hbits] at hmoves
  exact ⟨hbits, hmoves⟩

/-- Past its checks `DEC_UINT` writes what the bits give to its register. -/
theorem decUintBody_of_ok {s t : State} {ra : Reg} {f : BitVec 8} {v : Nat} (hf : f.toNat ≤ 32) (hmode : s.mode = .dec)
    (h : decBitsUp 0 f.toNat 0 s = .ok v t) : decUintBody ra f s = .ok () (t.setReg ra (BitVec.ofNat 32 v)) :=
  (needCount_bind_of_le hf).trans ((needMode_bind_of_eq hmode).trans (Cmd.bind_of_ok h))

/-- Settles O51: the bits are read back into the number they are of, and every stream has some bits next. -/
theorem decUintReturnsItsBits : Obligations.DecUintReturnsItsBits := by
  intro s ra f hf h
  obtain ⟨_, hfault, hmode, _⟩ := h
  have hreturns {v : Nat} {t : State} (hv : v < 2 ^ f.toNat)
      (ht : decDecisions (uintDecisions v f.toNat) s = .ok (uintDecisions v f.toNat) t) :
      exec (.decUint ra f) s = .next (t.setReg ra (BitVec.ofNat 32 v)).counted ∧ DecMoves s t := by
    obtain ⟨hvalue, hmoves⟩ := decBitsUp_of_uint hv ht
    exact ⟨exec_of_ok (i := .decUint ra f) hfault (decUintBody_of_ok hf hmode hvalue), hmoves⟩
  refine ⟨fun v t hv ht => hreturns hv ht, fun hroom => ?_⟩
  obtain ⟨v, t, hv, ht⟩ := exists_decDecisions_uint hroom
  obtain ⟨hexec, _⟩ := hreturns hv ht
  exact ⟨v, t, hv, ht, hexec⟩

end Sys2Proof.Machine
end

section
/-! The fields of a block record (spec/44_occupancy.md R170), and the record that a decoded block leaves (R174). -/

namespace Sys2Proof.Machine

/-! ### Replaced fields -/

/-- A replaced field, bit by bit. -/
theorem setField_getLsbD {w : Nat} (r : Word) (lo : Nat) (v : BitVec w) {i : Nat} (hi : i < 32) :
    (setField r lo v).getLsbD i = if lo ≤ i ∧ i < lo + w then v.getLsbD (i - lo) else r.getLsbD i := by
  unfold setField
  simp only [BitVec.getLsbD_or, BitVec.getLsbD_and, BitVec.getLsbD_not, BitVec.getLsbD_shiftLeft,
    BitVec.getLsbD_setWidth, BitVec.getLsbD_allOnes, hi, decide_true, Bool.true_and]
  by_cases hlo : i < lo
  · simp [hlo, Nat.not_le.mpr hlo]
  · by_cases hw : i - lo < w
    · simp [hlo, hw, show i - lo < 32 by omega, show lo ≤ i ∧ i < lo + w by omega]
    · simp [hlo, hw, show ¬ (lo ≤ i ∧ i < lo + w) by omega, BitVec.getLsbD_of_ge v _ (Nat.not_lt.mp hw)]

/-- The same as simp writes a bit. -/
theorem setField_getElem {w : Nat} (r : Word) (lo : Nat) (v : BitVec w) {i : Nat} (hi : i < 32) :
    (setField r lo v)[i] = if lo ≤ i ∧ i < lo + w then v.getLsbD (i - lo) else r[i] := by
  rw [← BitVec.getLsbD_eq_getElem, setField_getLsbD r lo v hi, BitVec.getLsbD_eq_getElem hi]

/-- A replaced field reads back. -/
theorem setField_extractLsb'_self {w : Nat} (r : Word) {lo : Nat} (v : BitVec w) (h : lo + w ≤ 32) :
    (setField r lo v).extractLsb' lo w = v := by
  refine BitVec.eq_of_getLsbD_eq fun i hi => ?_
  rw [BitVec.getLsbD_extractLsb', setField_getLsbD _ _ _ (by omega), if_pos (by omega), Nat.add_sub_cancel_left,
    decide_eq_true hi, Bool.true_and]

/-- A replaced field leaves the fields beside it alone. -/
theorem setField_extractLsb'_of_disjoint {w : Nat} (r : Word) {lo first n : Nat} (v : BitVec w) (hn : first + n ≤ 32)
    (h : first + n ≤ lo ∨ lo + w ≤ first) : (setField r lo v).extractLsb' first n = r.extractLsb' first n := by
  refine BitVec.eq_of_getLsbD_eq fun i hi => ?_
  rw [BitVec.getLsbD_extractLsb', BitVec.getLsbD_extractLsb', setField_getLsbD _ _ _ (by omega), if_neg (by omega)]

/-- Two records with the same fields are one. -/
theorem record_ext {p q : Word} (hocc : recOcc p = recOcc q) (hinterp : recInterp p = recInterp q)
    (hneigh : recNeigh p = recNeigh q) (hmind1 : recMind1 p = recMind1 q) (hfill : recFill p = recFill q)
    (hreserved : p.getLsbD 7 = q.getLsbD 7) (howner : recOwner p = recOwner q) : p = q := by
  have hfield {lo n : Nat} (h : p.extractLsb' lo n = q.extractLsb' lo n) {i : Nat} (hi : i < n) :
      p.getLsbD (lo + i) = q.getLsbD (lo + i) := by
    have hbit := congrArg (·.getLsbD i) h
    simpa only [BitVec.getLsbD_extractLsb', decide_eq_true hi, Bool.true_and] using hbit
  refine BitVec.eq_of_getLsbD_eq fun i hi => ?_
  by_cases howned : 8 ≤ i
  · rw [← Nat.add_sub_cancel' howned]
    exact hfield howner (by omega)
  · match i, Nat.not_le.mp howned with
    | 0, _ => exact hocc
    | 1, _ => exact hinterp
    | 2, _ => exact hfield hneigh (i := 0) (by decide)
    | 3, _ => exact hfield hneigh (i := 1) (by decide)
    | 4, _ => exact hfield hmind1 (i := 0) (by decide)
    | 5, _ => exact hfield hmind1 (i := 1) (by decide)
    | 6, _ => exact hfill
    | 7, _ => exact hreserved

/-! ### The record of a decoded block (R174, R180) -/

/-- What `occ_dec_block` makes of a record when the elements of an occupied block have the given values; of `neigh` and
`fill` only what the stream carries counts. -/
def decodedRecord (interp : Bool) (neigh mind1 : BitVec 2) (fill : Bool) (old : Word) : Word :=
  let r1 := setInterp (setOcc old) interp
  let r2 := setMind1 (if interp then setNeigh r1 neigh else r1) mind1
  if fillCoded interp mind1.toNat then setFill r2 fill else r2

/-- Each field is decoded or kept. -/
theorem decodedRecord_fields (interp : Bool) (neigh mind1 : BitVec 2) (fill : Bool) (old : Word) :
    let new := decodedRecord interp neigh mind1 fill old
    recOcc new = true ∧ recInterp new = interp ∧ recMind1 new = mind1 ∧
      recNeigh new = (if interp then neigh else recNeigh old) ∧
      recFill new = (if fillCoded interp mind1.toNat then fill else recFill old) ∧
      new.getLsbD 7 = old.getLsbD 7 ∧ recOwner new = recOwner old := by
  unfold decodedRecord
  cases interp <;> cases fillCoded _ mind1.toNat <;>
    simp [recOcc, recInterp, recMind1, recNeigh, recFill, recOwner, setOcc, setInterp, setMind1, setNeigh, setFill,
      setField_getElem, setField_extractLsb'_self, setField_extractLsb'_of_disjoint]

/-- The owner is stored beside the decoded fields. -/
theorem setOwner_fields (r : Word) (v : BitVec 24) :
    recOcc (setOwner r v) = recOcc r ∧ recInterp (setOwner r v) = recInterp r ∧
      recMind1 (setOwner r v) = recMind1 r ∧ recNeigh (setOwner r v) = recNeigh r ∧
      recFill (setOwner r v) = recFill r ∧ (setOwner r v).getLsbD 7 = r.getLsbD 7 ∧ recOwner (setOwner r v) = v := by
  simp [recOcc, recInterp, recMind1, recNeigh, recFill, recOwner, setOwner,
    setField_getElem, setField_extractLsb'_self, setField_extractLsb'_of_disjoint]

end Sys2Proof.Machine
end

section
/-! The occupancy encoders (spec/44_occupancy.md R171 to R179): the elements of a block as decisions, the scan of a patch
as its blocks one after the other, and both encode commands as the sequence of the decisions of their records. -/

namespace Sys2Proof.Machine

/-! ### The elements of a block (R171) -/

/-- The "neighbor" element, when it is in the stream. -/
def neighDecisions (o : OccModels) (interp : Bool) (neigh : BitVec 2) : List Decision :=
  if interp then [.sym o.dNei (neigh.toNat - 1)] else []

/-- The "filling" element, when it is in the stream. -/
def fillDecisions (o : OccModels) (interp : Bool) (mind1 : BitVec 2) (fill : Bool) : List Decision :=
  if fillCoded interp mind1.toNat then [.bitA o.mFil fill] else []

/-- The elements of an occupied block after the "occupied" bit. -/
def occupiedDecisions (o : OccModels) (interp : Bool) (neigh mind1 : BitVec 2) (fill : Bool) : List Decision :=
  .bitA o.mInt interp :: (neighDecisions o interp neigh ++ .sym o.dMin mind1.toNat :: fillDecisions o interp mind1 fill)

theorem blockDecisions_false (o : OccModels) (r : Word) : blockDecisions o false r = [.bitA o.mOcc false] := rfl

theorem blockDecisions_true (o : OccModels) (r : Word) :
    blockDecisions o true r =
      .bitA o.mOcc true :: occupiedDecisions o (recInterp r) (recNeigh r) (recMind1 r) (recFill r) := by
  simp [blockDecisions, occupiedDecisions, neighDecisions, fillDecisions, fillCoded]

/-- A block has at most five elements. -/
theorem blockDecisions_length_le (o : OccModels) (occupied : Bool) (r : Word) :
    (blockDecisions o occupied r).length ≤ 5 := by
  have hneigh : (neighDecisions o (recInterp r) (recNeigh r)).length ≤ 1 := by
    unfold neighDecisions
    split <;> simp
  have hfill : (fillDecisions o (recInterp r) (recMind1 r) (recFill r)).length ≤ 1 := by
    unfold fillDecisions
    split <;> simp
  cases occupied with
  | false => exact Nat.le_add_left 1 4
  | true =>
    rw [blockDecisions_true]
    simp only [occupiedDecisions, List.length_cons, List.length_append]
    omega

/-- The five slots of a binding are usable (R173). -/
abbrev State.Binds (s : State) (o : OccModels) : Prop :=
  o.mOcc < s.params.nAbm ∧ o.mInt < s.params.nAbm ∧ o.mFil < s.params.nAbm ∧ s.admTernary o.dNei ∧ s.admTernary o.dMin

/-- A 3-ary slot has the symbols 0 to 2. -/
theorem State.admTernary.sym_fits {s : State} {j k : Nat} (h : s.admTernary j) (hk : k < 3) :
    (Decision.sym j k).fits s := by
  obtain ⟨hj, hsize⟩ := h
  exact ⟨hj, by rw [hsize]; exact hk⟩

theorem mind1_lt_three {v : BitVec 2} (h : v ≠ 3#2) : v.toNat < 3 := by
  have hne : v.toNat ≠ 3 := fun e => h (BitVec.eq_of_toNat_eq e)
  omega

/-- The elements of a record that the syntax can carry fit the bound models (R173, R174). -/
theorem blockDecisions_fits {s : State} {o : OccModels} (ho : s.Binds o) {occupied : Bool} {r : Word}
    (hr : occupied = true → recCodable r) : ∀ d ∈ blockDecisions o occupied r, d.fits s := by
  obtain ⟨hocc, hint, hfil, hnei, hmin⟩ := ho
  intro d hd
  cases occupied with
  | false =>
    rw [List.mem_singleton.mp hd]
    exact hocc
  | true =>
    obtain ⟨_, hmind1⟩ := hr rfl
    simp only [blockDecisions_true, occupiedDecisions, neighDecisions, fillDecisions, List.mem_cons, List.mem_append,
      List.mem_ite_nil_right, List.not_mem_nil, or_false] at hd
    rcases hd with rfl | rfl | ⟨_, rfl⟩ | rfl | ⟨_, rfl⟩
    · exact hocc
    · exact hint
    · exact hnei.sym_fits (by omega)
    · exact hmin.sym_fits (mind1_lt_three hmind1)
    · exact hfil

/-! ### The encoder of a block codes its elements (R174) -/

theorem encDecisions_singleton (d : Decision) : encDecisions [d] = d.enc := bind_pure_unit

theorem onlyIf_enc (c : Bool) (d : Decision) : onlyIf c d.enc = encDecisions (if c then [d] else []) := by
  cases c
  · rfl
  · exact (encDecisions_singleton d).symm

theorem occEncFields_eq (o : OccModels) (r : Word) :
    occEncFields o r = encDecisions (occupiedDecisions o (recInterp r) (recNeigh r) (recMind1 r) (recFill r)) :=
  calc occEncFields o r
    _ = (do
          (Decision.bitA o.mInt (recInterp r)).enc
          encDecisions (neighDecisions o (recInterp r) (recNeigh r))
          (Decision.sym o.dMin (recMind1 r).toNat).enc
          encDecisions (fillDecisions o (recInterp r) (recMind1 r) (recFill r))) := by
      unfold neighDecisions fillDecisions
      rw [← onlyIf_enc, ← onlyIf_enc]
      rfl
    _ = _ := by
      show _ = (do
        (Decision.bitA o.mInt (recInterp r)).enc
        encDecisions (neighDecisions o (recInterp r) (recNeigh r) ++ _))
      rw [encDecisions_append]
      rfl

theorem occCheck_of_codable {occupied : Bool} {r : Word} (h : occupied = true → recCodable r) :
    occCheck occupied r = pure () := by
  refine if_pos fun ⟨hocc, huncodable⟩ => ?_
  obtain ⟨hneigh, hmind1⟩ := h hocc
  rcases Bool.or_eq_true_iff.mp huncodable with hbad | hbad
  · obtain ⟨hinterp, hzero⟩ := Bool.and_eq_true_iff.mp hbad
    exact hneigh hinterp (of_decide_eq_true hzero)
  · exact hmind1 (of_decide_eq_true hbad)

theorem occEncBlock_eq (o : OccModels) {occupied : Bool} {r : Word} (h : occupied = true → recCodable r) :
    occEncBlock o occupied r = encDecisions (blockDecisions o occupied r) := by
  unfold occEncBlock
  rw [occCheck_of_codable h, pure_bind]
  cases occupied with
  | false => rfl
  | true =>
    rw [blockDecisions_true, onlyIf_true, occEncFields_eq]
    rfl

/-! ### `OCC_ENC_BLK` (R175) -/

/-- Usable bindings pass their check (R173). -/
theorem occModels_of_ok {s : State} (h : s.occModelsOk) : occModels s = .ok s.occBinding s := by
  obtain ⟨hocc, hint, hfil, hnei, hmin⟩ := h
  exact (Cmd.bind_of_ok (check_of hocc _ _ s)).trans <| (Cmd.bind_of_ok (check_of hint _ _ s)).trans <|
    (Cmd.bind_of_ok (check_of hfil _ _ s)).trans <| (Cmd.bind_of_ok (check_of hnei _ _ s)).trans <|
    Cmd.bind_of_ok (check_of hmin _ _ s)

/-- In its mode and with usable bindings an occupancy command goes on with them (R173). -/
theorem occChecks_bind_of_ok {s : State} {need : Mode} (hmode : s.mode = need) (ho : s.occModelsOk)
    (f : OccModels → Cmd Unit) : (needMode need >>= fun _ => occModels >>= f) s = f s.occBinding s :=
  (needMode_bind_of_eq hmode).trans (Cmd.bind_of_ok (occModels_of_ok ho))

/-- An encode command that is the sequence of decisions `ds`: it completes when they can be coded, and with two bytes
for each they can. -/
theorem exec_of_encDecisions {i : Instr} {s : State} {ds : List Decision} {n : Nat} (h : s.encReady 0)
    (hbody : bodyOf i s = encDecisions ds s) (hfits : ∀ d ∈ ds, d.fits s) (hn : 2 * ds.length ≤ n) :
    (∀ t, encDecisions ds s = .ok () t → exec i s = .next t.counted ∧ s.encFrame t) ∧
      (s.encReady n → ∃ t, encDecisions ds s = .ok () t ∧ exec i s = .next t.counted) := by
  obtain ⟨_, hf, _⟩ := id h
  have hexec {t : State} (ht : encDecisions ds s = .ok () t) : exec i s = .next t.counted :=
    exec_of_ok hf (hbody.trans ht)
  refine ⟨fun t ht => ?_, fun hroom => ?_⟩
  · obtain ⟨_, _, hframe⟩ := encDecisions_eq_ok h hfits ht
    exact ⟨hexec ht, hframe⟩
  · obtain ⟨t, ht, _⟩ := encodingNeverRunsOffTheWindow s ds 0 (hroom.mono hn) hfits
    exact ⟨t, ht, hexec ht⟩

/-- Settles O56: past its checks the command is the sequence of the elements of its record, at most five. -/
theorem occEncBlkCodesTheBlock : Obligations.OccEncBlkCodesTheBlock := by
  intro s ra h ho hr ds
  obtain ⟨_, _, hmode, _⟩ := id h
  have hbody : bodyOf (.occEncBlk ra) s = encDecisions ds s :=
    calc occEncBlkBody ra s
      _ = occEncBlock s.occBinding (recOcc (s.reg ra)) (s.reg ra) s :=
        (occChecks_bind_of_ok hmode ho _).trans (Cmd.bind_of_ok (readReg_run ra s))
      _ = encDecisions ds s := by rw [occEncBlock_eq _ hr]
  exact exec_of_encDecisions h hbody (blockDecisions_fits ho hr)
    (Nat.mul_le_mul_left 2 (blockDecisions_length_le s.occBinding _ _))

/-! ### The scan of a patch, block after block (R177) -/

theorem forUp_eq_forM (first count : Nat) (body : Nat → Cmd Unit) :
    forUp first count body = (List.range' first count).forM body := by
  induction count generalizing first with
  | zero => rfl
  | succ k ih =>
    rw [forUp_succ, ih]
    rfl

/-- A list of lists run through in order. -/
theorem forM_flatMap (l : List Nat) (f : Nat → List Nat) (body : Nat → Cmd Unit) :
    (l.flatMap f).forM body = l.forM fun a => (f a).forM body := by
  induction l with
  | nil => rfl
  | cons a l ih =>
    rw [List.flatMap_cons]
    exact List.forM_append.trans (congrArg ((f a).forM body >>= fun _ => ·) ih)

theorem scanPatch_eq (block : Nat → Cmd Unit) (s : State) : scanPatch block s = s.patchBlocks.forM block s := by
  unfold scanPatch State.patchBlocks
  rw [Cmd.get_bind_run, forM_flatMap, forUp_eq_forM, ← List.range_eq_range']
  refine congrFun (congrArg (List.forM _) (funext fun v0 => ?_)) s
  rw [forUp_eq_forM, ← List.range_eq_range']
  exact List.forM_map.symm

/-- The scan of a footprint that fits (R178). -/
theorem patchCheck_bind_scanPatch {s : State} (h : s.patchFits) (block : Nat → Cmd Unit) :
    (patchCheck >>= fun _ => scanPatch block) s = s.patchBlocks.forM block s :=
  (Cmd.bind_of_ok ((patchCheck_run s).trans (if_pos h))).trans (scanPatch_eq block s)

theorem patchBlocks_length (s : State) : s.patchBlocks.length = s.pszu.toNat * s.pszv.toNat := by
  simp [State.patchBlocks, List.length_flatMap, Nat.mul_comm]

/-- Every block of a footprint that fits is a record of BM (R178). -/
theorem State.patchFits.block_lt {s : State} (h : s.patchFits) : ∀ i ∈ s.patchBlocks, i < s.params.nblk := by
  intro i hi
  obtain ⟨v0, hv, hi⟩ := List.mem_flatMap.mp hi
  obtain ⟨u0, hu, rfl⟩ := List.mem_map.mp hi
  exact State.blockPos_lt h (List.mem_range.mp hu) (List.mem_range.mp hv)

/-! ### `OCC_ENC_PATCH` (R179) -/

theorem State.ownedBy_bmRecord (s : State) (i : Nat) : s.ownedBy (s.bmRecord i) = s.patchOccupied i := by
  have howner : ((recOwner (s.bmRecord i)).setWidth 32 == s.pidx) =
      decide ((recOwner (s.bmRecord i)).toNat = s.pidx.toNat) := by
    have hlt := (recOwner (s.bmRecord i)).isLt
    refine decide_eq_decide.mpr ?_
    rw [← BitVec.toNat_inj, BitVec.toNat_setWidth, Nat.mod_eq_of_lt (by omega)]
  unfold State.ownedBy
  rw [howner]

/-- One block is the sequence of its elements. -/
theorem encPatchBlock_eq {s : State} {i : Nat} (hi : i < s.params.nblk)
    (hr : s.patchOccupied i = true → recCodable (s.bmRecord i)) (o : OccModels) :
    encPatchBlock o i s = encDecisions (blockDecisions o (s.patchOccupied i) (s.bmRecord i)) s := by
  unfold encPatchBlock
  rw [Cmd.get_bind_run, Cmd.bind_of_ok (mapRead_of_lt hi), s.ownedBy_bmRecord, occEncBlock_eq o hr]

/-- Encoding changes neither what the blocks of the map are nor how they are coded. -/
theorem EncCodes.sameBlocks {s t : State} (h : EncCodes s t) (blocks : List Nat) :
    t.params = s.params ∧ t.occBinding = s.occBinding ∧ t.blocksDecisions blocks = s.blocksDecisions blocks ∧
      (s.blocksCodable blocks → t.blocksCodable blocks) := by
  unfold EncCodes at h
  rw [h]
  exact ⟨rfl, rfl, rfl, id⟩

/-- Blocks one after the other are the sequence of their elements. -/
theorem forM_encPatchBlock {s : State} {blocks : List Nat} (hin : ∀ i ∈ blocks, i < s.params.nblk)
    (hr : s.blocksCodable blocks) :
    blocks.forM (encPatchBlock s.occBinding) s = encDecisions (s.blocksDecisions blocks) s := by
  induction blocks generalizing s with
  | nil => rfl
  | cons i rest ih =>
    obtain ⟨hi, hin⟩ := List.forall_mem_cons.mp hin
    obtain ⟨hri, hr⟩ := List.forall_mem_cons.mp hr
    have hfirst := encPatchBlock_eq hi hri s.occBinding
    have hcodes := encPatchBlock_encCodes s.occBinding i s
    show (encPatchBlock s.occBinding i >>= fun _ => rest.forM (encPatchBlock s.occBinding)) s =
      encDecisions (blockDecisions _ _ _ ++ s.blocksDecisions rest) s
    rw [encDecisions_append, Cmd.bind_run, Cmd.bind_run, ← hfirst]
    cases hrun : encPatchBlock s.occBinding i s with
    | error e t => rfl
    | ok _ t =>
      rw [hrun] at hcodes
      obtain ⟨hparams, hbinding, hblocks, hcodable⟩ := EncCodes.sameBlocks hcodes rest
      show rest.forM (encPatchBlock s.occBinding) t = encDecisions (s.blocksDecisions rest) t
      rw [← hbinding, ← hblocks]
      exact ih (by rw [hparams]; exact hin) (hcodable hr)

/-- A list of blocks has at most five elements for each. -/
theorem blocksDecisions_length_le (s : State) (blocks : List Nat) :
    (s.blocksDecisions blocks).length ≤ 5 * blocks.length := by
  induction blocks with
  | nil => exact Nat.le_refl 0
  | cons i rest ih =>
    have hfirst := blockDecisions_length_le s.occBinding (s.patchOccupied i) (s.bmRecord i)
    show (blockDecisions _ _ _ ++ s.blocksDecisions rest).length ≤ _
    rw [List.length_append, List.length_cons]
    omega

/-- Settles O58: past its checks the command is the sequence of the elements of its blocks. -/
theorem occEncPatchCodesTheFootprint : Obligations.OccEncPatchCodesTheFootprint := by
  intro s h ho hpatch hr
  obtain ⟨_, _, hmode, _⟩ := id h
  have hbody : bodyOf .occEncPatch s = encDecisions s.patchDecisions s :=
    calc occEncPatchBody s
      _ = s.patchBlocks.forM (encPatchBlock s.occBinding) s :=
        (occChecks_bind_of_ok hmode ho _).trans (patchCheck_bind_scanPatch hpatch _)
      _ = encDecisions s.patchDecisions s := forM_encPatchBlock hpatch.block_lt hr
  have hfits : ∀ d ∈ s.patchDecisions, d.fits s := by
    intro d hd
    obtain ⟨i, hi, hd⟩ := List.mem_flatMap.mp hd
    exact blockDecisions_fits ho (hr i hi) d hd
  have hlength := Nat.mul_le_mul_left 2 (blocksDecisions_length_le s s.patchBlocks)
  rw [patchBlocks_length, ← Nat.mul_assoc] at hlength
  exact exec_of_encDecisions h hbody hfits hlength

end Sys2Proof.Machine
end

section
/-! The decoder of a block (spec/44_occupancy.md R171, R174, R176): what it makes of the elements of a record, and that
every stream has the elements of some canonical record next. -/

namespace Sys2Proof.Machine

/-! ### The decoder of a block reads its elements (R174) -/

theorem Decision.dec_sym_eq_ok {j k l : Nat} {s t : State} :
    (Decision.sym j k).dec s = .ok (.sym j l) t ↔ decSym j s = .ok l t :=
  Cmd.bind_pure_eq_ok fun _ _ h => (Decision.sym.inj h).2

theorem decDecisions_singleton {d f : Decision} {s t : State} :
    decDecisions [d] s = .ok [f] t ↔ d.dec s = .ok f t := by
  rw [decDecisions_cons_eq_ok]
  constructor
  · rintro ⟨u, hu, h⟩
    cases h
    exact hu
  · exact fun h => ⟨t, h, rfl⟩

section Elements

variable {o : OccModels} {interp fill : Bool} {neigh mind1 : BitVec 2} {s t : State}

/-- The neighbor is stored as `code + 1` (R171). -/
theorem occDecNeigh_of_decoded (hneigh : interp = true → neigh ≠ 0#2)
    (h : decDecisions (neighDecisions o interp neigh) s = .ok (neighDecisions o interp neigh) t) (r : Word) :
    occDecNeigh o interp r s = .ok (if interp then setNeigh r neigh else r) t := by
  cases interp with
  | false =>
    cases h
    rfl
  | true =>
    have hsym : decSym o.dNei s = .ok (neigh.toNat - 1) t :=
      Decision.dec_sym_eq_ok.mp (decDecisions_singleton.mp h)
    have hpos : neigh.toNat ≠ 0 := fun h0 => hneigh rfl (BitVec.eq_of_toNat_eq h0)
    have hcode : BitVec.ofNat 2 (neigh.toNat - 1 + 1) = neigh := by
      rw [Nat.sub_add_cancel (Nat.one_le_iff_ne_zero.mpr hpos), BitVec.ofNat_toNat, BitVec.setWidth_eq]
    refine (Cmd.bind_of_ok hsym).trans ?_
    rw [hcode]
    rfl

theorem occDecFill_of_decoded
    (h : decDecisions (fillDecisions o interp mind1 fill) s = .ok (fillDecisions o interp mind1 fill) t) (r : Word) :
    occDecFill o (fillCoded interp mind1.toNat) r s =
      .ok (if fillCoded interp mind1.toNat then setFill r fill else r) t := by
  unfold fillDecisions at h
  cases hcoded : fillCoded interp mind1.toNat with
  | false =>
    rw [hcoded] at h
    cases h
    rfl
  | true =>
    rw [hcoded] at h
    exact Cmd.bind_of_ok (Decision.dec_bitA_eq_ok.mp (decDecisions_singleton.mp h))

theorem occDecFields_of_decoded (hneigh : interp = true → neigh ≠ 0#2)
    (h : decDecisions (occupiedDecisions o interp neigh mind1 fill) s =
      .ok (occupiedDecisions o interp neigh mind1 fill) t) (old : Word) :
    occDecFields o (setOcc old) s = .ok (decodedRecord interp neigh mind1 fill old) t := by
  obtain ⟨u, hinterp, h⟩ := decDecisions_cons_eq_ok.mp h
  obtain ⟨v, hnei, h⟩ := (decDecisions_append_eq_ok rfl).mp h
  obtain ⟨w, hmin, hfill⟩ := decDecisions_cons_eq_ok.mp h
  have hmind1 : BitVec.ofNat 2 mind1.toNat = mind1 := by rw [BitVec.ofNat_toNat, BitVec.setWidth_eq]
  refine (Cmd.bind_of_ok (Decision.dec_bitA_eq_ok.mp hinterp)).trans ?_
  refine (Cmd.bind_of_ok (occDecNeigh_of_decoded hneigh hnei _)).trans ?_
  refine (Cmd.bind_of_ok (Decision.dec_sym_eq_ok.mp hmin)).trans ?_
  rw [hmind1]
  exact occDecFill_of_decoded hfill _

end Elements

/-- What a block with the elements of `r` makes of the record `old` (R174). -/
def decodedOver (r old : Word) : Word :=
  if recOcc r then decodedRecord (recInterp r) (recNeigh r) (recMind1 r) (recFill r) old else old

theorem occDecBlock_of_decoded {o : OccModels} {r : Word} {s t : State} (hr : recOcc r = true → recCodable r)
    (h : decDecisions (blockDecisions o (recOcc r) r) s = .ok (blockDecisions o (recOcc r) r) t) (old : Word) :
    occDecBlock o old s = .ok (recOcc r, decodedOver r old) t := by
  unfold decodedOver
  cases hocc : recOcc r with
  | false =>
    rw [hocc] at h
    exact Cmd.bind_of_ok (Decision.dec_bitA_eq_ok.mp (decDecisions_singleton.mp h))
  | true =>
    obtain ⟨hneigh, _⟩ := hr hocc
    rw [hocc, blockDecisions_true] at h
    obtain ⟨u, hbit, hfields⟩ := decDecisions_cons_eq_ok.mp h
    exact (Cmd.bind_of_ok (Decision.dec_bitA_eq_ok.mp hbit)).trans
      (Cmd.bind_of_ok (occDecFields_of_decoded hneigh hfields old))

/-! ### Canonical records (R170) -/

theorem recCanonical_zero : recCanonical 0#32 = true := by decide

theorem recCanonical_of_not_occ {r : Word} (hr : recCanonical r = true) (hocc : recOcc r = false) : r = 0#32 := by
  unfold recCanonical at hr
  rw [hocc] at hr
  exact of_decide_eq_true hr

/-- The fields of an occupied canonical record. -/
theorem recCanonical_iff {r : Word} (hocc : recOcc r = true) :
    recCanonical r = true ↔ recMind1 r ≤ 2#2 ∧ (recInterp r = true ↔ recNeigh r ≠ 0#2) ∧
      (recFill r = true → fillCoded (recInterp r) (recMind1 r).toNat = true) ∧ r.getLsbD 7 = false := by
  have hmind1 : ∀ v : BitVec 2, v ≤ 2#2 → (v = 2#2 ↔ 1 < v.toNat) := by decide
  unfold recCanonical
  rw [if_pos hocc]
  by_cases hle : recMind1 r ≤ 2#2
  · cases hinterp : recInterp r <;> cases hfill : recFill r <;> simp [hle, fillCoded, hmind1 _ hle, and_assoc]
  · simp [hle]

theorem recCanonical.codable {r : Word} (hr : recCanonical r = true) (hocc : recOcc r = true) : recCodable r := by
  obtain ⟨hmind1, hneigh, _⟩ := (recCanonical_iff hocc).mp hr
  refine ⟨hneigh.mp, fun h3 => ?_⟩
  rw [h3] at hmind1
  exact absurd hmind1 (by decide)

/-- A canonical record of no patch is what its elements make of a cleared record (R176). -/
theorem decodedOver_zero {r : Word} (hr : recCanonical r = true) (howner : recOwner r = 0#24) :
    decodedOver r 0#32 = r := by
  unfold decodedOver
  cases hocc : recOcc r with
  | false => exact (recCanonical_of_not_occ hr hocc).symm
  | true =>
    obtain ⟨_, hneigh, hfill, hreserved⟩ := (recCanonical_iff hocc).mp hr
    obtain ⟨hocc', hinterp', hmind1', hneigh', hfill', hreserved', howner'⟩ :=
      decodedRecord_fields (recInterp r) (recNeigh r) (recMind1 r) (recFill r) 0#32
    refine record_ext (hocc'.trans hocc.symm) hinterp' (hneigh'.trans ?_) hmind1' (hfill'.trans ?_)
      (hreserved'.trans hreserved.symm) (howner'.trans howner.symm)
    · split
      · rfl
      · exact (not_not.mp (mt hneigh.mpr ‹_›)).symm
    · split
      · rfl
      · exact (Bool.eq_false_iff.mpr (mt hfill ‹_›)).symm

/-- Decoded into a cleared record, the elements of an occupied block make a canonical one. -/
theorem decodedRecord_zero_canonical {interp : Bool} {neigh mind1 : BitVec 2} (hneigh : interp = true → neigh ≠ 0#2)
    (hmind1 : mind1.toNat < 3) (fill : Bool) :
    recCanonical (decodedRecord interp neigh mind1 fill 0#32) = true ∧
      recOwner (decodedRecord interp neigh mind1 fill 0#32) = 0#24 := by
  obtain ⟨hocc, hinterp, hmin, hnei, hfill, hreserved, howner⟩ := decodedRecord_fields interp neigh mind1 fill 0#32
  refine ⟨(recCanonical_iff hocc).mpr ⟨?_, ?_, ?_, hreserved⟩, howner⟩
  · rw [hmin, BitVec.le_def]
    exact Nat.le_of_lt_succ hmind1
  · rw [hinterp, hnei]
    cases interp with
    | false => simp [recNeigh]
    | true => simpa using hneigh rfl
  · rw [hinterp, hmin, hfill]
    cases fillCoded interp mind1.toNat with
    | false => simp [recFill]
    | true => simp

/-- The elements of the record that they have made are the same again. -/
theorem blockDecisions_decodedRecord (o : OccModels) (interp : Bool) (neigh mind1 : BitVec 2) (fill : Bool)
    (old : Word) :
    let r := decodedRecord interp neigh mind1 fill old
    blockDecisions o (recOcc r) r = .bitA o.mOcc true :: occupiedDecisions o interp neigh mind1 fill := by
  intro r
  obtain ⟨hocc, hinterp, hmin, hnei, hfill, _⟩ := decodedRecord_fields interp neigh mind1 fill old
  have hneigh : neighDecisions o interp (recNeigh r) = neighDecisions o interp neigh := by
    unfold neighDecisions
    rw [hnei]
    cases interp <;> rfl
  have hfilled : fillDecisions o interp mind1 (recFill r) = fillDecisions o interp mind1 fill := by
    unfold fillDecisions
    rw [hfill]
    cases fillCoded interp mind1.toNat <;> rfl
  rw [hocc, blockDecisions_true, hinterp, hmin]
  unfold occupiedDecisions
  rw [hneigh, hfilled]

/-! ### Every stream has some elements next -/

/-- Counting a decision changes no alphabet. -/
theorem Decision.counted_sameAlphabets (d : Decision) (s : State) : SameAlphabets s (d.counted s) := by
  cases d with
  | bitS b => exact SameAlphabets.frame.refl s
  | bitA m b => exact SameAlphabets.frame.refl s
  | sym j k => exact admCount_sameAlphabets j k s

/-- A decode session with `n` bytes at hand and the binding `o` usable. -/
structure State.DecBinds (s : State) (o : OccModels) (n : Nat) : Prop where
  ready : s.decReady n
  binds : s.Binds o

section Next

variable {s : State} {o : OccModels} {n : Nat}

/-- The selected decision, with two bytes at hand for it. -/
theorem State.DecBinds.next (h : s.DecBinds o (2 + n)) {d : Decision} (hu : d.usable s) (hsel : d.selected s) :
    ∃ t, d.dec s = .ok d t ∧ t.DecBinds o n := by
  have hturns := renormTurns_le (d.width s)
  obtain ⟨t, ht, hmoves, hready⟩ := Decision.dec_ready_room (h.ready.mono (Nat.add_le_add_right hturns n)) hu hsel
  obtain ⟨hparams, _⟩ := (hmoves.counted d).sameStream
  have hsize := SameAlphabets.frame.trans _ _ _ hmoves.noModel.sameAlphabets (d.counted_sameAlphabets t)
  refine ⟨_, ht, hready, ?_⟩
  unfold State.Binds State.admTernary
  rw [hparams, hsize, hsize]
  exact h.binds

/-- `VALUE` selects a bit. -/
theorem State.DecBinds.next_bitA (h : s.DecBinds o (2 + n)) {m : Nat} (hm : m < s.params.nAbm) :
    ∃ b t, (Decision.bitA m b).dec s = .ok (.bitA m b) t ∧ t.DecBinds o n :=
  ⟨_, h.next (d := .bitA m _) hm rfl⟩

/-- `VALUE` selects a symbol of a 3-ary alphabet. -/
theorem State.DecBinds.next_sym (h : s.DecBinds o (2 + n)) {j : Nat} (hj : s.admTernary j) :
    ∃ k t, k < 3 ∧ (Decision.sym j k).dec s = .ok (.sym j k) t ∧ t.DecBinds o n := by
  obtain ⟨hslot, hsize⟩ := hj
  have huse : (s.admSlot j).nsym ≠ 0#8 := by
    rw [hsize]
    decide
  obtain ⟨hinv, _⟩ := h.ready
  obtain ⟨hk, hle, hlt⟩ := scanSym_selects (hinv.admSlot_ok hslot huse) rfl
  have hselected : (Decision.sym j (scanSym (s.range >>> 15) s.value (s.admSlot j).dist 0 0)).selected s :=
    ⟨hk, by rw [symPart_eq]; exact hle, fun l hkl hl => by rw [symPart_eq]; exact hlt l hkl hl⟩
  obtain ⟨t, ht⟩ := h.next (d := .sym j _) ⟨hslot, huse⟩ hselected
  exact ⟨_, t, by rw [hsize] at hk; exact hk, ht⟩

theorem State.DecBinds.next_neigh (h : s.DecBinds o (2 + n)) (interp : Bool) :
    ∃ neigh t, (interp = true → neigh ≠ 0#2) ∧
      decDecisions (neighDecisions o interp neigh) s = .ok (neighDecisions o interp neigh) t ∧ t.DecBinds o n := by
  cases interp with
  | false => exact ⟨0#2, s, fun h => Bool.noConfusion h, rfl, h.ready.mono (Nat.le_add_left n 2), h.binds⟩
  | true =>
    obtain ⟨_, _, _, hnei, _⟩ := h.binds
    obtain ⟨k, t, hk, ht, hbinds⟩ := h.next_sym hnei
    have hvalue : (BitVec.ofNat 2 (k + 1)).toNat = k + 1 := Nat.mod_eq_of_lt (Nat.succ_lt_succ hk)
    refine ⟨BitVec.ofNat 2 (k + 1), t, fun _ h0 => ?_, ?_, hbinds⟩
    · rw [h0] at hvalue
      cases hvalue
    · unfold neighDecisions
      rw [hvalue]
      exact decDecisions_singleton.mpr ht

theorem State.DecBinds.next_fill (h : s.DecBinds o (2 + n)) (interp : Bool) (mind1 : BitVec 2) :
    ∃ fill t, decDecisions (fillDecisions o interp mind1 fill) s = .ok (fillDecisions o interp mind1 fill) t ∧
      t.DecBinds o n := by
  unfold fillDecisions
  cases fillCoded interp mind1.toNat with
  | false => exact ⟨false, s, rfl, h.ready.mono (Nat.le_add_left n 2), h.binds⟩
  | true =>
    obtain ⟨_, _, hfil, _⟩ := h.binds
    obtain ⟨b, t, ht, hbinds⟩ := h.next_bitA hfil
    exact ⟨b, t, decDecisions_singleton.mpr ht, hbinds⟩

theorem State.DecBinds.next_occupied (h : s.DecBinds o (8 + n)) :
    ∃ interp neigh mind1 fill t, (interp = true → neigh ≠ 0#2) ∧ mind1.toNat < 3 ∧
      decDecisions (occupiedDecisions o interp neigh mind1 fill) s = .ok (occupiedDecisions o interp neigh mind1 fill) t ∧
      t.DecBinds o n := by
  rw [show 8 + n = 2 + (2 + (2 + (2 + n))) by omega] at h
  obtain ⟨_, hint, _⟩ := h.binds
  obtain ⟨interp, u, hu, h⟩ := h.next_bitA hint
  obtain ⟨neigh, v, hneigh, hv, h⟩ := h.next_neigh interp
  obtain ⟨_, _, _, _, hmin⟩ := h.binds
  obtain ⟨k, w, hk, hw, h⟩ := h.next_sym hmin
  have hvalue : (BitVec.ofNat 2 k).toNat = k := Nat.mod_eq_of_lt (Nat.lt_succ_of_lt hk)
  obtain ⟨fill, t, ht, h⟩ := h.next_fill interp (BitVec.ofNat 2 k)
  refine ⟨interp, neigh, BitVec.ofNat 2 k, fill, t, hneigh, hvalue.symm ▸ hk, ?_, h⟩
  refine decDecisions_cons_eq_ok.mpr ⟨u, hu, (decDecisions_append_eq_ok rfl).mpr ⟨v, hv, ?_⟩⟩
  rw [hvalue]
  exact decDecisions_cons_eq_ok.mpr ⟨w, hw, ht⟩

/-- Ten bytes are enough for the elements of some canonical record of no patch. -/
theorem State.DecBinds.next_block (h : s.DecBinds o (10 + n)) :
    ∃ r t, recCanonical r = true ∧ recOwner r = 0#24 ∧
      decDecisions (blockDecisions o (recOcc r) r) s = .ok (blockDecisions o (recOcc r) r) t ∧ t.DecBinds o n := by
  rw [show 10 + n = 2 + (8 + n) by omega] at h
  obtain ⟨hocc, _⟩ := h.binds
  obtain ⟨occupied, u, hu, h⟩ := h.next_bitA hocc
  cases occupied with
  | false =>
    exact ⟨0#32, u, recCanonical_zero, by decide, decDecisions_singleton.mpr hu, h.ready.mono (Nat.le_add_left n 8),
      h.binds⟩
  | true =>
    obtain ⟨interp, neigh, mind1, fill, t, hneigh, hmind1, ht, h⟩ := h.next_occupied
    obtain ⟨hcanonical, howner⟩ := decodedRecord_zero_canonical hneigh hmind1 fill
    refine ⟨_, t, hcanonical, howner, ?_, h⟩
    rw [blockDecisions_decodedRecord]
    exact decDecisions_cons_eq_ok.mpr ⟨u, hu, ht⟩

end Next

/-! ### `OCC_DEC_BLK` (R176) -/

/-- Decoding an element moves the decoder and the models alone. -/
theorem Decision.dec_decCodes (d : Decision) : Cmd.Keeps DecCodes d.dec := by
  have h := DecCodes.frame
  cases d with
  | bitS b => exact h.bind ((decBit_decMoves _).mono fun _ _ => DecMoves.codes) fun _ => h.pure _
  | bitA m b => exact h.bind (decBitA_decCodes m) fun _ => h.pure _
  | sym j k => exact h.bind (decSym_decCodes j) fun _ => h.pure _

theorem decDecisions_decCodes (ds : List Decision) : Cmd.Keeps DecCodes (decDecisions ds) := by
  have h := DecCodes.frame
  induction ds with
  | nil => exact h.pure []
  | cons d ds ih => exact h.bind d.dec_decCodes fun _ => h.bind ih fun _ => h.pure _

theorem DecCodes.of_decDecisions {ds es : List Decision} {s t : State} (h : decDecisions ds s = .ok es t) :
    DecCodes s t := by
  have hcodes := decDecisions_decCodes ds s
  rwa [h] at hcodes

/-- Settles O57: the elements of a canonical record make that record of a cleared one, and every stream has those of one
next. -/
theorem occDecBlkReturnsACanonicalRecord : Obligations.OccDecBlkReturnsACanonicalRecord := by
  intro s ra h ho ds
  obtain ⟨_, hf, hmode, _⟩ := h
  have hexec {t : State} {r : Word} (hr : recCanonical r = true) (howner : recOwner r = 0#24)
      (ht : decDecisions (ds r) s = .ok (ds r) t) : exec (.occDecBlk ra) s = .next (t.setReg ra r).counted := by
    have hblock := occDecBlock_of_decoded (recCanonical.codable hr) ht 0#32
    rw [decodedOver_zero hr howner] at hblock
    exact exec_of_ok (i := .occDecBlk ra) hf ((occChecks_bind_of_ok hmode ho _).trans (Cmd.bind_of_ok hblock))
  refine ⟨fun t r hr howner ht => ⟨hexec hr howner ht, DecCodes.of_decDecisions ht⟩, fun hroom => ?_⟩
  obtain ⟨r, t, hr, howner, ht, _⟩ := State.DecBinds.next_block (n := 0) ⟨hroom, ho⟩
  exact ⟨t, r, hr, howner, ht, hexec hr howner ht⟩

end Sys2Proof.Machine
end

section
/-! The decoder of a patch (spec/44_occupancy.md R177, R178, R180): decoding does not look at BM, so that the blocks of a
footprint, which are all different, are decoded as one sequence of decisions while their records are written. -/

namespace Sys2Proof.Machine

/-! ### Decoding does not look at BM (R115, R117, R121) -/

/-- The state with another content of BM. -/
def State.withBm (s : State) (m : Memory) : State := { s with bm := m }

/-- The pseudocode, where it is completed, is completed in the same way with any other content of BM. -/
def Cmd.IgnoresBm {α : Type} (c : Cmd α) : Prop :=
  ∀ s t a, c s = .ok a t → ∀ m, c (s.withBm m) = .ok a (t.withBm m)

namespace Cmd.IgnoresBm

variable {α β : Type}

theorem pure (a : α) : Cmd.IgnoresBm (Pure.pure a : Cmd α) := fun _ _ _ h _ => by
  cases h
  rfl

theorem throw (e : Stop) : Cmd.IgnoresBm (MonadExcept.throw e : Cmd α) := fun _ _ _ h _ => by cases h

theorem bind {x : Cmd α} {f : α → Cmd β} (hx : x.IgnoresBm) (hf : ∀ a, (f a).IgnoresBm) :
    Cmd.IgnoresBm (x >>= f) := fun s u b h m => by
  obtain ⟨a, t, ht, hu⟩ := Cmd.bind_eq_ok.mp h
  exact (Cmd.bind_of_ok (hx s t a ht m)).trans (hf a t u b hu m)

/-- Pseudocode that goes on as `c s` says after the update `g`. -/
theorem update_then {x : Cmd α} {g : State → State} {c : State → Cmd α} (hx : ∀ s, x s = c s (g s))
    (hc : ∀ s m, c (s.withBm m) = c s) (hg : ∀ s m, g (s.withBm m) = (g s).withBm m) (h : ∀ s, (c s).IgnoresBm) :
    x.IgnoresBm := fun s t a hs m => by
  rw [hx] at hs ⊢
  rw [hc, hg]
  exact h s (g s) t a hs m

theorem update {g : State → State} (hg : ∀ s m, g (s.withBm m) = (g s).withBm m) :
    Cmd.IgnoresBm (modify g : Cmd PUnit) :=
  update_then (c := fun _ => Pure.pure ⟨⟩) (fun _ => rfl) (fun _ _ => rfl) hg fun _ => pure _

theorem get_bind {f : State → Cmd β} (hf : ∀ s m, f (s.withBm m) = f s) (h : ∀ s, (f s).IgnoresBm) :
    Cmd.IgnoresBm ((MonadState.get : Cmd State) >>= f) :=
  update_then (g := id) (c := f) (fun _ => rfl) hf (fun _ _ => rfl) h

theorem ite {c : Prop} [Decidable c] {x y : Cmd α} (hx : x.IgnoresBm) (hy : y.IgnoresBm) :
    Cmd.IgnoresBm (if c then x else y) := by
  split <;> assumption

end Cmd.IgnoresBm

theorem memRead_ignoresBm (a : Nat) : (memRead a).IgnoresBm :=
  .get_bind (fun _ _ => rfl) fun _ => .ite (.pure _) (.throw _)

theorem getByte_ignoresBm : getByte.IgnoresBm :=
  .get_bind (fun _ _ => rfl) fun _ =>
    .ite (.bind (memRead_ignoresBm _) fun _ => .bind (.update fun _ _ => rfl) fun _ => .pure _)
      (.ite (.bind (.update fun _ _ => rfl) fun _ => .bind (.update fun _ _ => rfl) fun _ => .pure _) (.throw _))

theorem renormDecLoop_ignoresBm (fuel : Nat) : (renormDecLoop fuel).IgnoresBm := by
  induction fuel with
  | zero => exact .pure ()
  | succ k ih =>
    exact .bind getByte_ignoresBm fun _ => .bind (.update fun _ _ => rfl) fun _ => .bind (.update fun _ _ => rfl) fun _ =>
      .get_bind (fun _ _ => rfl) fun _ => .ite (.pure ()) ih

theorem renormDecIfSmall_ignoresBm : renormDecIfSmall.IgnoresBm :=
  .get_bind (fun _ _ => rfl) fun _ =>
    .ite (.get_bind (fun _ _ => rfl) fun _ => renormDecLoop_ignoresBm _) (.pure ())

theorem decBit_ignoresBm (p0 : BitVec 13) : (decBit p0).IgnoresBm :=
  .update_then (decBit_eq p0) (fun _ _ => rfl) (fun _ _ => rfl) fun _ =>
    .bind renormDecIfSmall_ignoresBm fun _ => .pure _

theorem decBitA_ignoresBm (m : Nat) : (decBitA m).IgnoresBm :=
  .get_bind (fun _ _ => rfl) fun _ => .bind (decBit_ignoresBm _) fun _ => .bind (.update fun _ _ => rfl) fun _ => .pure _

/-- `dec_sym` (R121) from the narrowing on. -/
theorem decSym_eq (j : Nat) (s : State) :
    decSym j s =
      let k := scanSym (s.range >>> 15) s.value (s.admSlot j).dist 0 0
      (do renormDecIfSmall; admCount j k; pure k : Cmd Nat)
        { s with
          value := s.value - (s.admSlot j).distAt k * (s.range >>> 15), range := symWidth (s.admSlot j) k s.range } :=
  rfl

theorem decSym_ignoresBm (j : Nat) : (decSym j).IgnoresBm :=
  .update_then (decSym_eq j) (fun _ _ => rfl) (fun _ _ => rfl) fun _ =>
    .bind renormDecIfSmall_ignoresBm fun _ => .bind (.update fun _ _ => rfl) fun _ => .pure _

theorem Decision.dec_ignoresBm (d : Decision) : d.dec.IgnoresBm := by
  cases d with
  | bitS b => exact .bind (decBit_ignoresBm _) fun _ => .pure _
  | bitA m b => exact .bind (decBitA_ignoresBm m) fun _ => .pure _
  | sym j k => exact .bind (decSym_ignoresBm j) fun _ => .pure _

theorem decDecisions_ignoresBm (ds : List Decision) : (decDecisions ds).IgnoresBm := by
  induction ds with
  | nil => exact .pure []
  | cons d ds ih => exact .bind d.dec_ignoresBm fun _ => .bind ih fun _ => .pure _

/-! ### The blocks of a footprint are all different (R177, R178) -/

theorem State.blockPos_inj {s : State} (h : s.patchFits) {u v u' v' : Nat} (hu : u < s.pszu.toNat)
    (hu' : u' < s.pszu.toNat) (heq : s.blockPos u v = s.blockPos u' v') : u = u' ∧ v = v' := by
  obtain ⟨hwidth, _⟩ := h
  have hrow {x y : Nat} (hx : x < s.pszu.toNat) : s.blockPos x y / s.btpw.toNat = s.pv0.toNat + y := by
    unfold State.blockPos
    rw [Nat.add_mul_div_right _ _ (by omega), Nat.div_eq_of_lt (by omega), Nat.zero_add]
  have hrows := (hrow hu).symm.trans ((congrArg (· / s.btpw.toNat) heq).trans (hrow hu'))
  have hv : v = v' := by omega
  subst hv
  unfold State.blockPos at heq
  exact ⟨by omega, rfl⟩

theorem State.patchFits.nodup {s : State} (h : s.patchFits) : s.patchBlocks.Nodup := by
  refine List.nodup_flatMap.mpr ⟨fun v _ => ?_, List.nodup_range.imp fun hne => ?_⟩
  · refine List.nodup_range.map_on fun u hu u' hu' heq => ?_
    exact (State.blockPos_inj h (List.mem_range.mp hu) (List.mem_range.mp hu') heq).1
  · intro i hi hi'
    obtain ⟨u, hu, rfl⟩ := List.mem_map.mp hi
    obtain ⟨u', hu', heq⟩ := List.mem_map.mp hi'
    exact hne (State.blockPos_inj h (List.mem_range.mp hu) (List.mem_range.mp hu') heq.symm).2

/-! ### The record that a decoded block leaves (R180) -/

/-- The hardwired-zero bits of `PIDX` make it fit an owner field (R35, R170). -/
theorem State.Inv.pidx_lt {s : State} (h : s.Inv) : s.pidx.toNat < 2 ^ 24 := by
  obtain ⟨_, _, _, ⟨hpidx, _⟩, _⟩ := h
  have hmask : ∀ i : Fin 32, 24 ≤ i.val → (0xFF000000#32).getLsbD i = true := by decide
  refine Nat.lt_pow_two_of_testBit _ fun i hi => ?_
  show s.pidx.getLsbD i = false
  by_cases h32 : i < 32
  · have hbit := congrArg (·.getLsbD i) hpidx
    simpa only [BitVec.getLsbD_and, hmask ⟨i, h32⟩ hi, Bool.and_true, BitVec.getLsbD_zero] using hbit
  · exact BitVec.getLsbD_of_ge _ _ (Nat.not_lt.mp h32)

/-- Block `i` decoded as the elements of `r`: only an occupied block's record is written. -/
def State.storeDecoded (s : State) (i : Nat) (r : Word) : State :=
  if recOcc r then s.setBmRecord i (setOwner (decodedOver r (s.bmRecord i)) (s.pidx.setWidth 24)) else s

theorem State.storeDecoded_eq_withBm (s : State) (i : Nat) (r : Word) :
    s.storeDecoded i r = s.withBm (s.storeDecoded i r).bm := by
  unfold State.storeDecoded
  split <;> rfl

/-- A decoder's move leaves the map and `PIDX` as they were. -/
theorem DecCodes.sameMap {s t : State} (h : DecCodes s t) :
    t.params = s.params ∧ t.pidx = s.pidx ∧ ∀ i, t.bmRecord i = s.bmRecord i := by
  unfold DecCodes at h
  rw [h]
  exact ⟨rfl, rfl, fun _ => rfl⟩

/-- One block of the scan with the elements of `r` next. -/
theorem decPatchBlock_of_decoded {s t : State} {o : OccModels} {i : Nat} {r : Word} (hi : i < s.params.nblk)
    (hr : recOcc r = true → recCodable r)
    (h : decDecisions (blockDecisions o (recOcc r) r) s = .ok (blockDecisions o (recOcc r) r) t) :
    decPatchBlock o i s = .ok () (t.storeDecoded i r) := by
  obtain ⟨hparams, hpidx, hmap⟩ := (DecCodes.of_decDecisions h).sameMap
  have hblock := occDecBlock_of_decoded hr h (s.bmRecord i)
  unfold decPatchBlock
  rw [Cmd.get_bind_run, Cmd.bind_of_ok (mapRead_of_lt hi), Cmd.bind_of_ok hblock]
  unfold State.storeDecoded
  cases hocc : recOcc r with
  | false => rfl
  | true =>
    rw [if_pos rfl, hpidx, hmap]
    exact mapWrite_of_lt _ (by rw [hparams]; exact hi)

theorem State.recordsDecoded.of_storeDecoded {s : State} (hp : s.pidx.toNat < 2 ^ 24) (i : Nat) (r : Nat → Word) :
    s.recordsDecoded (s.storeDecoded i (r i)) r [i] := by
  unfold State.storeDecoded
  refine ⟨fun j hj => ?_, fun j hj hocc => ?_⟩
  · split
    next hocc =>
      refine s.setBmRecord_bmRecord_of_ne _ fun hji => ?_
      rw [hji, hocc] at hj
      exact hj.elim (fun hne => hne (List.mem_singleton_self i)) Bool.noConfusion
    next => rfl
  · obtain rfl := List.mem_singleton.mp hj
    rw [if_pos hocc, State.setBmRecord_bmRecord_self, decodedOver, if_pos hocc]
    obtain ⟨hocc', hinterp, hmind1, hneigh, hfill, hreserved, howner⟩ :=
      setOwner_fields (decodedRecord (recInterp (r j)) (recNeigh (r j)) (recMind1 (r j)) (recFill (r j)) (s.bmRecord j))
        (s.pidx.setWidth 24)
    obtain ⟨hocc'', hinterp', hmind1', hneigh', hfill', hreserved', _⟩ :=
      decodedRecord_fields (recInterp (r j)) (recNeigh (r j)) (recMind1 (r j)) (recFill (r j)) (s.bmRecord j)
    refine ⟨hocc'.trans hocc'', hinterp.trans hinterp', hmind1.trans hmind1', hneigh.trans hneigh',
      hfill.trans (hfill'.trans ?_), hreserved.trans hreserved', ?_⟩
    · simp [fillCoded]
    · rw [howner, BitVec.toNat_setWidth, Nat.mod_eq_of_lt hp]

/-- Records decoded after another block's. -/
theorem State.recordsDecoded.cons {s t u : State} {r : Nat → Word} {i : Nat} {rest : List Nat} (hi : i ∉ rest)
    (hpidx : t.pidx = s.pidx) (h : s.recordsDecoded t r [i]) (k : t.recordsDecoded u r rest) :
    s.recordsDecoded u r (i :: rest) := by
  obtain ⟨hkept, hnew⟩ := h
  obtain ⟨kkept, knew⟩ := k
  refine ⟨fun j hj => ?_, fun j hj hocc => ?_⟩
  · rw [List.mem_cons, not_or] at hj
    have hfirst : j ∉ [i] ∨ recOcc (r j) = false := hj.imp_left fun h => mt List.mem_singleton.mp h.1
    exact (kkept j (hj.imp_left And.right)).trans (hkept j hfirst)
  · rcases List.mem_cons.mp hj with rfl | hrest
    · rw [kkept j (.inl hi)]
      exact hnew j (List.mem_singleton_self j) hocc
    · have hother : j ∉ [i] := fun hji => hi (List.mem_singleton.mp hji ▸ hrest)
      rw [← hkept j (.inl hother), ← hpidx]
      exact knew j hrest hocc

/-! ### `OCC_DEC_PATCH` (R180) -/

/-- Different blocks one after the other, the elements of their records being next in the stream. -/
theorem forM_decPatchBlock {o : OccModels} {r : Nat → Word} {blocks : List Nat} {s t : State} (hdiff : blocks.Nodup)
    (hin : ∀ i ∈ blocks, i < s.params.nblk) (hr : ∀ i ∈ blocks, recOcc (r i) = true → recCodable (r i))
    (hp : s.pidx.toNat < 2 ^ 24)
    (h : decDecisions (recordsDecisions o r blocks) s = .ok (recordsDecisions o r blocks) t) :
    ∃ u, blocks.forM (decPatchBlock o) s = .ok () u ∧ u = t.withBm u.bm ∧ s.recordsDecoded u r blocks := by
  induction blocks generalizing s t with
  | nil =>
    cases h
    exact ⟨s, rfl, rfl, fun _ _ => rfl, fun _ hi => absurd hi List.not_mem_nil⟩
  | cons i rest ih =>
    obtain ⟨hi, hdiff⟩ := List.nodup_cons.mp hdiff
    obtain ⟨hlt, hin⟩ := List.forall_mem_cons.mp hin
    obtain ⟨hri, hr⟩ := List.forall_mem_cons.mp hr
    obtain ⟨v, hv, hrest⟩ := (decDecisions_append_eq_ok rfl).mp h
    obtain ⟨hparams, hpidx, hmap⟩ := (DecCodes.of_decDecisions hv).sameMap
    have hfirst := decPatchBlock_of_decoded hlt hri hv
    have hstored := State.recordsDecoded.of_storeDecoded (s := v) (by rw [hpidx]; exact hp) i r
    have hwrites := v.storeDecoded_eq_withBm i (r i)
    generalize v.storeDecoded i (r i) = w at hfirst hstored hwrites
    obtain ⟨hparams', hpidx'⟩ : w.params = s.params ∧ w.pidx = s.pidx := by
      rw [hwrites]
      exact ⟨hparams, hpidx⟩
    have hrest' := decDecisions_ignoresBm _ v t _ hrest w.bm
    rw [← hwrites] at hrest'
    obtain ⟨u, hu, hframe, hdecoded⟩ := ih hdiff (by rw [hparams']; exact hin) hr (by rw [hpidx']; exact hp) hrest'
    refine ⟨u, (Cmd.bind_of_ok hfirst).trans hu, hframe, .cons hi hpidx' ?_ hdecoded⟩
    unfold State.recordsDecoded at hstored ⊢
    simpa only [hmap, hpidx] using hstored

/-- With ten bytes for each of some different blocks, the stream has the elements of canonical records for them next. -/
theorem State.DecBinds.next_blocks {s : State} {o : OccModels} {blocks : List Nat} (hdiff : blocks.Nodup)
    (h : s.DecBinds o (10 * blocks.length)) :
    ∃ (r : Nat → Word) (t : State), (∀ i, recCanonical (r i) = true) ∧
      decDecisions (recordsDecisions o r blocks) s = .ok (recordsDecisions o r blocks) t := by
  induction blocks generalizing s with
  | nil => exact ⟨fun _ => 0#32, s, fun _ => recCanonical_zero, rfl⟩
  | cons i rest ih =>
    obtain ⟨hi, hdiff⟩ := List.nodup_cons.mp hdiff
    rw [List.length_cons, Nat.mul_succ, Nat.add_comm] at h
    obtain ⟨q, v, hq, _, hv, h⟩ := h.next_block
    obtain ⟨r, t, hr, ht⟩ := ih hdiff h
    refine ⟨Function.update r i q, t, (Function.forall_update_iff r fun _ p => recCanonical p = true).mpr
      ⟨hq, fun j _ => hr j⟩, ?_⟩
    have hrest : recordsDecisions o (Function.update r i q) rest = recordsDecisions o r rest :=
      List.flatMap_congr fun j hj => by rw [Function.update_of_ne (ne_of_mem_of_not_mem hj hi)]
    have hsplit : recordsDecisions o (Function.update r i q) (i :: rest) =
        blockDecisions o (recOcc q) q ++ recordsDecisions o r rest := by
      rw [← hrest, recordsDecisions, List.flatMap_cons, Function.update_self]
      rfl
    rw [hsplit]
    exact (decDecisions_append_eq_ok rfl).mpr ⟨v, hv, ht⟩

/-- Settles O59: the decisions of the footprint are decoded as if no record were written, and each record is written once,
over the one that the scan found. -/
theorem occDecPatchWritesTheFootprint : Obligations.OccDecPatchWritesTheFootprint := by
  intro s h ho hpatch ds
  obtain ⟨hinv, hf, hmode, _⟩ := h
  have hwrites {t : State} {r : Nat → Word} (hr : ∀ i ∈ s.patchBlocks, recOcc (r i) = true → recCodable (r i))
      (ht : decDecisions (ds r) s = .ok (ds r) t) :
      ∃ u : State, exec .occDecPatch s = .next u.counted ∧ u = t.withBm u.bm ∧ s.recordsDecoded u r s.patchBlocks := by
    obtain ⟨u, hu, hframe, hdecoded⟩ := forM_decPatchBlock hpatch.nodup hpatch.block_lt hr hinv.pidx_lt ht
    have hbody : occDecPatchBody s = .ok () u :=
      calc occDecPatchBody s
        _ = s.patchBlocks.forM (decPatchBlock s.occBinding) s :=
          (occChecks_bind_of_ok hmode ho _).trans (patchCheck_bind_scanPatch hpatch _)
        _ = .ok () u := hu
    exact ⟨u, exec_of_ok (i := .occDecPatch) hf hbody, hframe, hdecoded⟩
  refine ⟨fun t r hr ht => ⟨DecCodes.of_decDecisions ht, hwrites hr ht⟩, fun hroom => ?_⟩
  rw [← patchBlocks_length] at hroom
  obtain ⟨r, t, hr, ht⟩ := State.DecBinds.next_blocks hpatch.nodup ⟨hroom, ho⟩
  have hcodable : ∀ i ∈ s.patchBlocks, recOcc (r i) = true → recCodable (r i) := fun i _ => recCanonical.codable (hr i)
  obtain ⟨u, hu, _⟩ := hwrites hcodable ht
  exact ⟨t, u, r, hcodable, ht, hu⟩

end Sys2Proof.Machine
end

section
/-! The host-support commands (spec/45_host_support.md R190 to R198): constants, the CSRs, and the loads and stores of CB
and BM. None of them looks at `MODE`. -/

namespace Sys2Proof.Machine

/-! ### Constants (R190 to R192) -/

theorem zextImm_eq_ofNat (imm : BitVec 16) : zextImm imm = BitVec.ofNat 32 imm.toNat := (BitVec.ofNat_toNat 32 imm).symm

theorem upperImm_eq_ofNat (imm : BitVec 16) (v : Word) :
    upperImm imm v = BitVec.ofNat 32 (imm.toNat * 2 ^ 16 + v.toNat % 2 ^ 16) := by
  have hvalue : (upperImm imm v).toNat = imm.toNat * 2 ^ 16 + v.toNat % 2 ^ 16 := by
    unfold upperImm
    rw [toNat_append_eq, BitVec.extractLsb'_toNat, Nat.shiftRight_zero]
  rw [← hvalue, BitVec.ofNat_toNat, BitVec.setWidth_eq]

theorem exec_li {s : State} (hf : s.fault = false) (ra : Reg) (imm : BitVec 16) :
    exec (.li ra imm) s = .next (s.setReg ra (zextImm imm)).counted :=
  exec_of_ok (i := .li ra imm) hf (writeReg_run ra (zextImm imm) s)

theorem exec_lih {s : State} (hf : s.fault = false) (ra : Reg) (imm : BitVec 16) :
    exec (.lih ra imm) s = .next (s.setReg ra (upperImm imm (s.reg ra))).counted :=
  exec_of_ok (i := .lih ra imm) hf ((Cmd.bind_of_ok (readReg_run ra s)).trans (writeReg_run ra _ s))

/-- Settles O32: `LI` and `LIH` each write one register, with the operand form of their immediate. -/
theorem hostSupportRegisterCommands : Obligations.HostSupportRegisterCommands := by
  intro s ra imm hf
  rw [← zextImm_eq_ofNat, ← upperImm_eq_ofNat]
  exact ⟨exec_of_ok (i := .nop) hf rfl, exec_li hf ra imm, exec_lih hf ra imm⟩

/-! ### Reading a CSR (spec/10_state.md R35; R193) -/

/-- The numbers that the table of R35 implements, each with its register. -/
def numberedCsrs : List (BitVec 8 × Csr) :=
  [(0x00#8, .status), (0x01#8, .fcmd), (0x02#8, .finfo), (0x03#8, .fseq), (0x04#8, .cmdcnt), (0x08#8, .acLow),
    (0x09#8, .acRange), (0x0A#8, .acValue), (0x0B#8, .acPtr), (0x0C#8, .wbase), (0x0D#8, .wlen), (0x10#8, .occm),
    (0x11#8, .pu0), (0x12#8, .pv0), (0x13#8, .pszu), (0x14#8, .pszv), (0x15#8, .btpw), (0x16#8, .btph),
    (0x17#8, .pidx), (0x20#8, .cfgNabm), (0x21#8, .cfgNadm), (0x22#8, .cfgMaxsym), (0x23#8, .cfgCbsize),
    (0x24#8, .cfgNblk), (0x25#8, .version), (0x30#8, .msel), (0x31#8, .mvP0), (0x32#8, .mvC0), (0x33#8, .mvCn),
    (0x34#8, .mvCyc), (0x35#8, .mvLeft), (0x36#8, .mvNsym)]

theorem ofNumber_of_mem_numberedCsrs : ∀ e ∈ numberedCsrs, Csr.ofNumber e.1 = some e.2 := by decide

/-- The table gives for each number what its register reads. -/
theorem csrTable_eq_map (s : State) : csrTable s = numberedCsrs.map fun e => (e.1, s.csrRead e.2) := rfl

theorem csrRead_of_mem_csrTable {s : State} {f : BitVec 8} {v : Word} (h : (f, v) ∈ csrTable s) :
    ∃ c, Csr.ofNumber f = some c ∧ s.csrRead c = v := by
  rw [csrTable_eq_map] at h
  obtain ⟨⟨n, c⟩, hmem, heq⟩ := List.mem_map.mp h
  cases heq
  exact ⟨c, ofNumber_of_mem_numberedCsrs _ hmem, rfl⟩

theorem State.observeCsr_of_ofNumber {s : State} {f : BitVec 8} {c : Csr} (hc : Csr.ofNumber f = some c) :
    s.observeCsr f = s.csrRead c := by
  unfold State.observeCsr
  rw [hc]

/-- Settles O34: every number of the table has a register, and the table gives what that register reads. -/
theorem csrrReadsEveryCsr : Obligations.CsrrReadsEveryCsr := by
  intro s ra f v hf hmem
  obtain ⟨c, hc, hread⟩ := csrRead_of_mem_csrTable hmem
  rw [exec_csrr hf hc ra, State.observeCsr_of_ofNumber hc, hread]

/-! ### Writing a CSR (R36, R194) -/

section Csrw

variable {s : State} {ra : Reg} {f : BitVec 8} {c : Csr}

theorem exec_csrw {t : State} (hf : s.fault = false) (hc : Csr.ofNumber f = some c)
    (hw : s.csrWrite c (s.reg ra) = some t) : exec (.csrw ra f) s = .next t.counted := by
  have hnumber : s.csrWriteNumber f (s.reg ra) = some t := by
    unfold State.csrWriteNumber
    rw [hc]
    exact hw
  refine exec_of_ok (i := .csrw ra f) hf ?_
  show csrwBody ra f s = .ok () t
  unfold csrwBody
  rw [Cmd.get_bind_run, hnumber]
  rfl

/-- A register without hardwired bits takes the whole of `x[ra]`; `put` is the write of its field. -/
theorem exec_csrw_unmasked {put : Word → State} (hf : s.fault = false) (hc : Csr.ofNumber f = some c)
    (hmask : c.wmask = BitVec.allOnes 32) (hw : s.csrWrite c (s.reg ra) = some (put (s.reg ra &&& c.wmask))) :
    exec (.csrw ra f) s = .next (put (s.reg ra)).counted := by
  rw [exec_csrw hf hc hw, hmask, BitVec.and_allOnes]

end Csrw

/-- Settles O37: a write of an RW register writes its field through its mask, which only `PIDX` and `MSEL` have. -/
theorem csrwWritesTheRwCsrs : Obligations.CsrwWritesTheRwCsrs := by
  intro s ra hf
  refine ⟨?occm, ?pu0, ?pv0, ?pszu, ?pszv, ?btpw, ?btph, ?pidx, ?msel⟩
  case occm => exact exec_csrw_unmasked (put := fun v => { s with occm := v }) hf rfl rfl rfl
  case pu0 => exact exec_csrw_unmasked (put := fun v => { s with pu0 := v }) hf rfl rfl rfl
  case pv0 => exact exec_csrw_unmasked (put := fun v => { s with pv0 := v }) hf rfl rfl rfl
  case pszu => exact exec_csrw_unmasked (put := fun v => { s with pszu := v }) hf rfl rfl rfl
  case pszv => exact exec_csrw_unmasked (put := fun v => { s with pszv := v }) hf rfl rfl rfl
  case btpw => exact exec_csrw_unmasked (put := fun v => { s with btpw := v }) hf rfl rfl rfl
  case btph => exact exec_csrw_unmasked (put := fun v => { s with btph := v }) hf rfl rfl rfl
  case pidx => exact exec_csrw (c := .pidx) hf rfl rfl
  case msel => exact exec_csrw (c := .msel) hf rfl rfl

/-! ### Loads and stores (spec/20_memory.md R54, R60; R195 to R198) -/

theorem zextByte_eq_ofNat (b : Byte) : zextByte b = BitVec.ofNat 32 b.toNat := (BitVec.ofNat_toNat 32 b).symm

theorem lowByte_toNat (v : Word) : (lowByte v).toNat = v.toNat % 256 := by
  unfold lowByte
  rw [BitVec.extractLsb'_toNat, Nat.shiftRight_zero]

section Transfers

variable {s : State} {ra rb : Reg}

theorem ldcbBody_of_lt (ha : (s.reg rb).toNat < s.params.cbSize) :
    ldcbBody ra rb s = .ok () (s.setReg ra (zextByte (s.cbByte (s.reg rb).toNat))) :=
  (Cmd.bind_of_ok (check_of ha _ _ s)).trans (Cmd.bind_of_ok (memRead_of_lt ha))

theorem stcbBody_of_lt (ha : (s.reg rb).toNat < s.params.cbSize) :
    stcbBody ra rb s = .ok () (s.setCbByte (s.reg rb).toNat (lowByte (s.reg ra))) :=
  (Cmd.bind_of_ok (check_of ha _ _ s)).trans (memWrite_of_lt _ ha)

theorem ldbmBody_of_lt (hi : (s.reg rb).toNat < s.params.nblk) :
    ldbmBody ra rb s = .ok () (s.setReg ra (s.bmRecord (s.reg rb).toNat)) :=
  (Cmd.bind_of_ok (check_of hi _ _ s)).trans (Cmd.bind_of_ok (mapRead_of_lt hi))

theorem stbmBody_of_lt (hi : (s.reg rb).toNat < s.params.nblk) :
    stbmBody ra rb s = .ok () (s.setBmRecord (s.reg rb).toNat (s.reg ra)) :=
  (Cmd.bind_of_ok (check_of hi _ _ s)).trans (mapWrite_of_lt _ hi)

end Transfers

/-- Counting a command shows the same bytes of CB. -/
theorem State.counted_cbByte (s : State) (a : Nat) : s.counted.cbByte a = s.cbByte a := State.cbByte_congr rfl rfl a

/-- Counting a command shows the same records of BM. -/
theorem State.counted_bmRecord (s : State) (i : Nat) : s.counted.bmRecord i = s.bmRecord i :=
  State.bmRecord_congr rfl rfl i

/-- Settles O38: below `CB_SIZE` both commands pass their check; the rest is reading CB after a byte was stored. -/
theorem cbLoadAndStore : Obligations.CbLoadAndStore := by
  intro s ra rb hf ha
  rw [← zextByte_eq_ofNat]
  refine ⟨exec_of_ok (i := .ldcb ra rb) hf (ldcbBody_of_lt ha),
    _, exec_of_ok (i := .stcb ra rb) hf (stcbBody_of_lt ha), rfl, ?_, fun a hne => ?_⟩
  · rw [State.counted_cbByte, State.setCbByte_cbByte_self, lowByte_toNat]
  · rw [State.counted_cbByte, State.setCbByte_cbByte_of_ne s _ hne]

/-- Settles O39: below `NBLK` both commands pass their check; the rest is reading BM after a record was stored. -/
theorem bmLoadAndStore : Obligations.BmLoadAndStore := by
  intro s ra rb hf hi
  refine ⟨exec_of_ok (i := .ldbm ra rb) hf (ldbmBody_of_lt hi),
    _, exec_of_ok (i := .stbm ra rb) hf (stbmBody_of_lt hi), rfl, ?_, fun a hne => ?_⟩
  · rw [State.counted_bmRecord, State.setBmRecord_bmRecord_self]
  · rw [State.counted_bmRecord, State.setBmRecord_bmRecord_of_ne s _ hne]

end Sys2Proof.Machine
end

section
/-! Faults that leave nothing behind (spec/60_exceptions.md R213, R215 to R217, R219, R221, R226 to R228): the fault state
and the idle ECU, what a failing check raises, and the faults that a command cannot raise at all. -/

namespace Sys2Proof.Machine

/-! ### The idle ECU and the fault state (R216, R217, R236) -/

theorem step_of_idle {s : State} (hport : s.port = []) : step s = .next s := by
  unfold step takeEvent
  rw [hport]

/-- Settles O9: with no event on the port the step is the idle one. -/
theorem idleWithoutAnEvent : Obligations.IdleWithoutAnEvent := fun _ => step_of_idle

/-- In the fault state a presented word is not even decoded. -/
theorem presentWord_of_fault {s : State} (hf : s.fault = true) (cw : Word) : presentWord cw s = .next s.refuse :=
  if_pos hf

/-- Settles O6: the word is taken off the port and refused. -/
theorem faultStateRefusesEveryWord : Obligations.FaultStateRefusesEveryWord := by
  intro s cw rest hf hport
  have hrefused := presentWord_of_fault (s := { s with port := rest }) hf cw
  exact (step_of_issue hport).trans hrefused

/-- Only the host's side and the two memories may differ. -/
def HostMoves (s t : State) : Prop := t = { s with port := t.port, response := t.response, cb := t.cb, bm := t.bm }

/-- In the fault state the host refuses words and writes memory, but for a reset (R216, R246). -/
theorem hostEvent_hostMoves_of_fault {e : HostEvent} {s t : State} (hf : s.fault = true) (he : e ≠ .reset)
    (h : hostEvent e s = .next t) : HostMoves s t := by
  cases e with
  | issue cw =>
    cases (presentWord_of_fault hf cw).symm.trans h
    rfl
  | cbWrite a v =>
    obtain ⟨_, rfl⟩ := hostWriteCb_eq_next h
    rfl
  | bmWrite i v =>
    obtain ⟨_, rfl⟩ := hostWriteBm_eq_next h
    rfl
  | reset => exact absurd rfl he

/-- Settles O7: of the host's acts in the fault state only reset touches more than memory and the host's own side. -/
theorem onlyResetLeavesTheFaultState : Obligations.OnlyResetLeavesTheFaultState := by
  intro s t hf hstep
  rcases step_eq_next hstep with ⟨hport, rfl⟩ | ⟨e, rest, hport, hevent⟩
  · exact ⟨fun _ => rfl, fun rest hreset => absurd (hport.symm.trans hreset) (List.cons_ne_nil _ _).symm⟩
  · have hf' : State.fault { s with port := rest } = true := hf
    refine ⟨fun hne => ?_, fun rest' hreset => ?_⟩
    · have hmoves := hostEvent_hostMoves_of_fault hf' (fun he => hne rest (he ▸ hport)) hevent
      unfold HostMoves at hmoves
      rw [hmoves]
    · obtain ⟨rfl, rfl⟩ := List.cons_eq_cons.mp (hport.symm.trans hreset)
      cases hevent
      exact ⟨rfl, rfl, rfl, rfl, rfl⟩

/-! ### Commands abandoned by a raise (R214, R215) -/

/-- The fault state of an abandoned command (R214). -/
theorem exec_of_raise {i : Instr} {s t : State} {f : FaultKind} {info : Word} (hf : s.fault = false)
    (h : bodyOf i s = .error (.raise f info) t) : exec i s = .next (t.faulted f.code info (encode i)) :=
  (exec_eq_command i s).trans (command_of_raise hf h)

section FailingChecks

variable {s : State} {g : Unit → Cmd Unit} {m : Slot} {ra : Reg} {f : BitVec 8}

theorem needAbm_bind_of_le (h : s.params.nAbm ≤ m.toNat) :
    (needAbm m >>= g) s = .error (.raise .model (m.setWidth 32)) s :=
  Cmd.bind_of_error ((needAbm_run m s).trans (if_neg (Nat.not_lt.mpr h)))

theorem needAdm_bind_of_le (h : s.params.nAdm ≤ m.toNat) :
    (needAdm m >>= g) s = .error (.raise .model (m.setWidth 32)) s :=
  Cmd.bind_of_error ((needAdm_run m s).trans (if_neg (Nat.not_lt.mpr h)))

theorem needAdm_bind_of_lt (h : m.toNat < s.params.nAdm) : (needAdm m >>= g) s = g () s :=
  Cmd.bind_of_ok ((needAdm_run m s).trans (if_pos h))

/-- The slot does not exist, or it is not in use. -/
theorem needAdmInit_bind_of_unusable (h : s.params.nAdm ≤ m.toNat ∨ (s.admSlot m.toNat).nsym = 0#8) :
    (needAdmInit m >>= g) s = .error (.raise .model (m.setWidth 32)) s :=
  Cmd.bind_of_error ((needAdmInit_run m s).trans (if_neg fun ⟨hlt, huse⟩ =>
    h.elim (fun hle => absurd hlt (Nat.not_lt.mpr hle)) huse))

theorem needAlphabet_bind_of_outside (h : f.toNat < 2 ∨ s.params.maxSym < f.toNat) :
    (needAlphabet f >>= g) s = .error (.raise .model (f.setWidth 32)) s :=
  Cmd.bind_of_error ((needAlphabet_run f s).trans (if_neg (by omega)))

theorem needBit_bind_of_lt (h : 1 < (s.reg ra).toNat) :
    (needBit ra >>= g) s = .error (.raise .operandRange (s.reg ra)) s :=
  Cmd.bind_of_error ((needBit_run ra s).trans (if_neg (Nat.not_le.mpr h)))

theorem needSymbol_bind_of_le (h : (s.admSlot m.toNat).nsym.toNat ≤ (s.reg ra).toNat) :
    (needSymbol ra m >>= g) s = .error (.raise .operandRange (s.reg ra)) s :=
  Cmd.bind_of_error ((needSymbol_run ra m s).trans (if_neg (Nat.not_lt.mpr h)))

theorem needFits_bind_of_le (hf : f.toNat < 32) (h : 2 ^ f.toNat ≤ (s.reg ra).toNat) :
    (needFits ra f >>= g) s = .error (.raise .operandRange (s.reg ra)) s :=
  Cmd.bind_of_error ((needFits_run ra f s).trans (if_neg fun hfits => absurd (hfits hf) (Nat.not_lt.mpr h)))

end FailingChecks

/-! ### What a piece of pseudocode never raises -/

/-- Wherever the pseudocode is abandoned, it is not with the fault `f`. -/
def Cmd.NeverRaises {α : Type} (f : FaultKind) (c : Cmd α) : Prop := ∀ s t info, c s ≠ .error (.raise f info) t

namespace Cmd.NeverRaises

variable {α β : Type} {f : FaultKind}

theorem pure (a : α) : Cmd.NeverRaises f (Pure.pure a : Cmd α) := fun _ _ _ h => by cases h

theorem get : Cmd.NeverRaises f (MonadState.get : Cmd State) := fun _ _ _ h => by cases h

theorem set (t : State) : Cmd.NeverRaises f (MonadStateOf.set t : Cmd PUnit) := fun _ _ _ h => by cases h

theorem update (g : State → State) : Cmd.NeverRaises f (modify g : Cmd PUnit) := fun _ _ _ h => by cases h

/-- The model's own stop is no fault of the ECU (log 13). -/
theorem outside (r : Fault) : Cmd.NeverRaises f (MonadExcept.throw (Stop.outside r) : Cmd α) := fun _ _ _ h => by cases h

theorem raise {k : FaultKind} (hne : k ≠ f) (info : Word) : Cmd.NeverRaises f (Machine.raise k info : Cmd α) :=
  fun _ _ _ h => by
    cases h
    exact hne rfl

theorem bind {x : Cmd α} {g : α → Cmd β} (hx : x.NeverRaises f) (hg : ∀ a, (g a).NeverRaises f) :
    Cmd.NeverRaises f (x >>= g) := fun s u info h => by
  rcases Cmd.bind_eq_error.mp h with h | ⟨a, t, _, h⟩
  · exact hx s u info h
  · exact hg a t u info h

theorem ite {c : Prop} [Decidable c] {x y : Cmd α} (hx : x.NeverRaises f) (hy : y.NeverRaises f) :
    Cmd.NeverRaises f (if c then x else y) := by
  split <;> assumption

theorem check {k : FaultKind} (hne : k ≠ f) (c : Prop) [Decidable c] (info : Word) :
    Cmd.NeverRaises f (Machine.check c k info) := ite (pure ()) (raise hne info)

theorem forUp {body : Nat → Cmd Unit} (hb : ∀ i, (body i).NeverRaises f) (first count : Nat) :
    Cmd.NeverRaises f (Machine.forUp first count body) := by
  induction count generalizing first with
  | zero => exact pure ()
  | succ k ih =>
    rw [forUp_succ]
    exact (hb first).bind fun _ => ih (first + 1)

end Cmd.NeverRaises

theorem FaultKind.code_inj {f g : FaultKind} (h : f.code = g.code) : f = g := by
  cases f <;> cases g <;> simp [FaultKind.code] at h ⊢

/-- A fault that a command's pseudocode never raises is never in the fault record it leaves. -/
theorem exec_fcode_ne {i : Instr} {s t : State} {f : FaultKind} (hnever : (bodyOf i).NeverRaises f)
    (hf : s.fault = false) (h : exec i s = .next t) (hfault : t.fault = true) : t.fcode ≠ f.code := by
  intro hcode
  rcases exec_outcome h with ⟨hf', _⟩ | ⟨_, u, _, hframe, rfl⟩ | ⟨_, k, info, u, hu, _, rfl⟩
  · exact Bool.noConfusion (hf.symm.trans hf')
  · obtain ⟨hkept, _⟩ := hframe.faultRecord_eq
    exact Bool.noConfusion (hf.symm.trans (hkept.symm.trans hfault))
  · rw [FaultKind.code_inj hcode] at hu
    exact hnever s u info hu

section Memories

variable {f : FaultKind}

theorem memRead_neverRaises (a : Nat) : (memRead a).NeverRaises f := .bind .get fun _ => .ite (.pure _) (.outside _)

theorem memWrite_neverRaises (a : Nat) (v : Byte) : (memWrite a v).NeverRaises f :=
  .bind .get fun _ => .ite (.set _) (.outside _)

theorem mapRead_neverRaises (i : Nat) : (mapRead i).NeverRaises f := .bind .get fun _ => .ite (.pure _) (.outside _)

theorem mapWrite_neverRaises (i : Nat) (v : Word) : (mapWrite i v).NeverRaises f :=
  .bind .get fun _ => .ite (.set _) (.outside _)

end Memories

/-! ### The mode (R219) -/

/-- `MODE` as the information of a fault (R219). -/
theorem Mode.code_setWidth (m : Mode) :
    m.code.setWidth 32 = if m = .idle then 0#32 else if m = .enc then 1#32 else 2#32 := by
  cases m <;> rfl

/-- The mode is the first thing that a legal command checks (R213). -/
theorem bodyOf_of_wrongMode {i : Instr} {s : State} {need : Mode} (hwf : i.wf = true) (hneed : i.needs = some need)
    (hm : s.mode ≠ need) : bodyOf i s = .error (.raise .sessionState (s.mode.code.setWidth 32)) s := by
  cases i with
  | nop | li | lih | csrr | csrw | ldcb | stcb | ldbm | stbm | abmReset | admInit | admReset | allReset | zzenc
  | zzdec => cases hneed
  | encUint ra f | decUint ra f =>
    cases hneed
    exact (needCount_bind_of_le (of_decide_eq_true hwf)).trans (needMode_bind_of_ne hm)
  | _ =>
    cases hneed
    exact needMode_bind_of_ne hm

/-- A command that is legal in every mode never looks at it. -/
theorem bodyOf_neverRaises_sessionState {i : Instr} (hneed : i.needs = none) :
    (bodyOf i).NeverRaises .sessionState := by
  have reg (r : Reg) (v : Word) : (writeReg r v).NeverRaises .sessionState := .update _
  have read (r : Reg) : (readReg r).NeverRaises .sessionState := .bind .get fun _ => .pure _
  have slot (c : State → Prop) [DecidablePred c] (info : Word) :
      Cmd.NeverRaises .sessionState (get >>= fun s => check (c s) .model info) :=
    .bind .get fun _ => .check (by decide) _ _
  cases i with
  | nop => exact .pure ()
  | li ra imm => exact reg _ _
  | lih ra imm => exact .bind (read _) fun _ => reg _ _
  | csrr ra f =>
    refine .bind .get fun s => ?_
    cases Csr.ofNumber f with
    | some c => exact reg _ _
    | none => exact .raise (by decide) _
  | csrw ra f =>
    refine .bind .get fun s => ?_
    cases s.csrWriteNumber f (s.reg ra) with
    | some t => exact .set t
    | none => exact .raise (by decide) _
  | ldcb ra rb =>
    exact .bind .get fun _ => .bind (.check (by decide) _ _) fun _ => .bind (memRead_neverRaises _) fun _ => reg _ _
  | stcb ra rb => exact .bind .get fun _ => .bind (.check (by decide) _ _) fun _ => memWrite_neverRaises _ _
  | ldbm ra rb =>
    exact .bind .get fun _ => .bind (.check (by decide) _ _) fun _ => .bind (mapRead_neverRaises _) fun _ => reg _ _
  | stbm ra rb => exact .bind .get fun _ => .bind (.check (by decide) _ _) fun _ => mapWrite_neverRaises _ _
  | abmReset m => exact .bind (slot _ _) fun _ => .update _
  | admInit m f => exact .bind (slot _ _) fun _ => .bind (slot _ _) fun _ => .update _
  | admReset m => exact .bind (slot _ _) fun _ => .update _
  | allReset => exact .update _
  | zzenc ra rb => exact .bind (read _) fun _ => reg _ _
  | zzdec ra rb => exact .bind (read _) fun _ => reg _ _
  | _ => cases hneed

/-- Settles O27: the mode is checked first or not at all. -/
theorem wrongModeIsASessionFault : Obligations.WrongModeIsASessionFault := by
  refine ⟨fun i s m hwf hf hneed hm => ?_, fun i s t hf hneed h => ?_⟩
  · rw [← Mode.code_setWidth]
    exact faultsPrecisely_of_raise hf (bodyOf_of_wrongMode hwf hneed hm)
  · exact exec_fcode_ne (f := .sessionState) (bodyOf_neverRaises_sessionState hneed) hf h

/-! ### Model slots (R173, R221) -/

/-- A command that names a bit model which does not exist checks nothing before it but the mode (R213). -/
theorem bodyOf_of_noAbm {i : Instr} {s : State} {ra : Reg} {m : Slot} (h : s.params.nAbm ≤ m.toNat)
    (hi : i = .abmReset m ∨ (s.mode = .enc ∧ (i = .encBitA ra m ∨ i = .encEg0 ra m ∨ i = .encSdelta ra m)) ∨
      (s.mode = .dec ∧ (i = .decBitA ra m ∨ i = .decEg0 ra m ∨ i = .decSdelta ra m))) :
    bodyOf i s = .error (.raise .model (m.setWidth 32)) s := by
  rcases hi with rfl | ⟨hm, rfl | rfl | rfl⟩ | ⟨hm, rfl | rfl | rfl⟩
  · exact needAbm_bind_of_le h
  all_goals exact (needMode_bind_of_eq hm).trans (needAbm_bind_of_le h)

/-- The same for a data model which does not exist or is not in use. -/
theorem bodyOf_of_unusableAdm {i : Instr} {s : State} {ra : Reg} {m : Slot}
    (h : s.params.nAdm ≤ m.toNat ∨ (s.admSlot m.toNat).nsym = 0#8)
    (hi : i = .admReset m ∨ (s.mode = .enc ∧ i = .encSym ra m) ∨ (s.mode = .dec ∧ i = .decSym ra m)) :
    bodyOf i s = .error (.raise .model (m.setWidth 32)) s := by
  rcases hi with rfl | ⟨hm, rfl⟩ | ⟨hm, rfl⟩
  · exact needAdmInit_bind_of_unusable h
  all_goals exact (needMode_bind_of_eq hm).trans (needAdmInit_bind_of_unusable h)

/-- An occupancy command in its mode looks at its binding next; what that raises abandons it with nothing changed. -/
theorem bodyOf_of_binding {i : Instr} {s : State} {ra : Reg} {e : Stop} (h : occModels s = .error e s)
    (hi : (s.mode = .enc ∧ (i = .occEncBlk ra ∨ i = .occEncPatch)) ∨
      (s.mode = .dec ∧ (i = .occDecBlk ra ∨ i = .occDecPatch))) : bodyOf i s = .error e s := by
  rcases hi with ⟨hm, rfl | rfl⟩ | ⟨hm, rfl | rfl⟩ <;>
    exact (needMode_bind_of_eq hm).trans (Cmd.bind_of_error h)

/-- Settles O28: each slot is checked before anything is written, and the five of a binding in order. -/
theorem unusableModelSlotsFault : Obligations.UnusableModelSlotsFault := by
  refine ⟨fun i s ra m hf h hi => faultsPrecisely_of_raise hf (bodyOf_of_noAbm h hi),
    fun i s ra m hf h hi => faultsPrecisely_of_raise hf (bodyOf_of_unusableAdm h hi),
    fun s m f hf => ⟨fun h => ?_, fun hslot h => ?_⟩, fun i s ra hf hi => ?_⟩
  · exact faultsPrecisely_of_raise (i := .admInit m f) (f := .model) hf (needAdm_bind_of_le h)
  · exact faultsPrecisely_of_raise (i := .admInit m f) (f := .model) hf
      ((needAdm_bind_of_lt hslot).trans (needAlphabet_bind_of_outside h))
  · have faults {w : Nat} {v : BitVec w} (h : occModels s = .error (.raise .model (v.setWidth 32)) s) :
        faultsPrecisely i s 7#8 (BitVec.ofNat 32 v.toNat) := by
      rw [BitVec.ofNat_toNat]
      exact faultsPrecisely_of_raise (f := .model) hf (bodyOf_of_binding h hi)
    have pass {c : Prop} [Decidable c] (hc : c) {info : Word} {x : Cmd OccModels}
        {r : EStateM.Result Stop State OccModels} (h : x s = r) : (check c .model info >>= fun _ => x) s = r :=
      (Cmd.bind_of_ok (check_of hc _ _ s)).trans h
    have fail {c : Prop} [Decidable c] (hc : ¬ c) {info : Word} {x : Cmd OccModels} :
        (check c .model info >>= fun _ => x) s = .error (.raise .model info) s :=
      Cmd.bind_of_error (check_of_not hc _ _ s)
    refine ⟨fun h => faults ?_, fun h1 h => faults ?_, fun h1 h2 h => faults ?_, fun h1 h2 h3 h => faults ?_,
      fun h1 h2 h3 h4 h => faults ?_⟩
    · exact fail (Nat.not_lt.mpr h)
    · exact pass h1 (fail (Nat.not_lt.mpr h))
    · exact pass h1 (pass h2 (fail (Nat.not_lt.mpr h)))
    · exact pass h1 (pass h2 (pass h3 (fail h)))
    · exact pass h1 (pass h2 (pass h3 (pass h4 (fail h))))

/-! ### Addresses and numbers outside their space (R226 to R228) -/

section Transfers

variable {s : State} {ra rb : Reg}

/-- Both commands check the index before they use it. -/
theorem bmTransfers_of_le (h : s.params.nblk ≤ (s.reg rb).toNat) :
    bodyOf (.ldbm ra rb) s = .error (.raise .mapRange (s.reg rb)) s ∧
      bodyOf (.stbm ra rb) s = .error (.raise .mapRange (s.reg rb)) s :=
  have hfails := check_of_not (Nat.not_lt.mpr h)
  ⟨(Cmd.get_bind_run _ s).trans (Cmd.bind_of_error (hfails _ _ s)),
    (Cmd.get_bind_run _ s).trans (Cmd.bind_of_error (hfails _ _ s))⟩

/-- Both commands check the address before they use it. -/
theorem cbTransfers_of_le (h : s.params.cbSize ≤ (s.reg rb).toNat) :
    bodyOf (.ldcb ra rb) s = .error (.raise .memRange (s.reg rb)) s ∧
      bodyOf (.stcb ra rb) s = .error (.raise .memRange (s.reg rb)) s :=
  have hfails := check_of_not (Nat.not_lt.mpr h)
  ⟨(Cmd.get_bind_run _ s).trans (Cmd.bind_of_error (hfails _ _ s)),
    (Cmd.get_bind_run _ s).trans (Cmd.bind_of_error (hfails _ _ s))⟩

end Transfers

/-- The footprint is checked before the first block (R178). -/
theorem patchCheck_bind_of_not {s : State} (h : ¬ s.patchFits) (g : Unit → Cmd Unit) :
    (patchCheck >>= g) s = .error (.raise .mapRange 0#32) s :=
  Cmd.bind_of_error ((patchCheck_run s).trans (if_neg h))

/-- The decoder of CSR numbers knows those of the table alone (R35). -/
theorem mem_numberedCsrs_of_ofNumber {f : BitVec 8} {c : Csr} (h : Csr.ofNumber f = some c) : (f, c) ∈ numberedCsrs := by
  unfold Csr.ofNumber at h
  have hf : f = BitVec.ofNat 8 f.toNat := by rw [BitVec.ofNat_toNat, BitVec.setWidth_eq]
  split at h <;> cases h <;>
  · rename_i hnumber
    rw [hf, hnumber]
    decide

theorem ofNumber_eq_none {s : State} {f : BitVec 8} (h : f ∉ (csrTable s).map Prod.fst) : Csr.ofNumber f = none := by
  cases hc : Csr.ofNumber f with
  | none => rfl
  | some c =>
    refine absurd ?_ h
    rw [csrTable_eq_map, List.map_map]
    exact List.mem_map_of_mem (f := Prod.fst ∘ _) (mem_numberedCsrs_of_ofNumber hc)

/-- The registers marked RW (R35). -/
def rwCsrs : List Csr := [.occm, .pu0, .pv0, .pszu, .pszv, .btpw, .btph, .pidx, .msel]

theorem not_mem_rwCsrs_of_numbered : ∀ e ∈ numberedCsrs, e.1 ∉ rwCsrNumbers → e.2 ∉ rwCsrs := by decide

/-- A register marked RO is not written (R36). -/
theorem State.csrWrite_eq_none {c : Csr} (h : c ∉ rwCsrs) (s : State) (v : Word) : s.csrWrite c v = none := by
  cases c with
  | occm | pu0 | pv0 | pszu | pszv | btpw | btph | pidx | msel => exact absurd (by decide) h
  | _ => rfl

theorem State.csrWriteNumber_eq_none {f : BitVec 8} (h : f ∉ rwCsrNumbers) (s : State) (v : Word) :
    s.csrWriteNumber f v = none := by
  unfold State.csrWriteNumber
  cases hc : Csr.ofNumber f with
  | none => rfl
  | some c => exact State.csrWrite_eq_none (not_mem_rwCsrs_of_numbered _ (mem_numberedCsrs_of_ofNumber hc) h) s v

theorem csrrBody_of_none {f : BitVec 8} (h : Csr.ofNumber f = none) (ra : Reg) (s : State) :
    csrrBody ra f s = .error (.raise .csrAccess (f.setWidth 32)) s := by
  unfold csrrBody
  rw [Cmd.get_bind_run, h]
  rfl

theorem csrwBody_of_none {f : BitVec 8} {ra : Reg} {s : State} (h : s.csrWriteNumber f (s.reg ra) = none) :
    csrwBody ra f s = .error (.raise .csrAccess (f.setWidth 32)) s := by
  unfold csrwBody
  rw [Cmd.get_bind_run, h]
  rfl

/-- Settles O30: each of these commands makes its check before its access. -/
theorem addressesOutsideTheSpacesFault : Obligations.AddressesOutsideTheSpacesFault := by
  refine ⟨fun s ra rb hf h => ?_, fun s hf ho h => ⟨fun hm => ?_, fun hm => ?_⟩, fun s ra rb hf h => ?_,
    fun s ra f hf => ⟨fun h => ?_, fun h => ?_⟩⟩
  · obtain ⟨hload, hstore⟩ := bmTransfers_of_le (ra := ra) h
    exact ⟨faultsPrecisely_of_raise hf hload, faultsPrecisely_of_raise hf hstore⟩
  · exact faultsPrecisely_of_raise (i := .occEncPatch) (f := .mapRange) hf
      ((occChecks_bind_of_ok hm ho _).trans (patchCheck_bind_of_not h _))
  · exact faultsPrecisely_of_raise (i := .occDecPatch) (f := .mapRange) hf
      ((occChecks_bind_of_ok hm ho _).trans (patchCheck_bind_of_not h _))
  · obtain ⟨hload, hstore⟩ := cbTransfers_of_le (ra := ra) h
    exact ⟨faultsPrecisely_of_raise hf hload, faultsPrecisely_of_raise hf hstore⟩
  · exact faultsPrecisely_of_raise (i := .csrr ra f) (f := .csrAccess) hf (csrrBody_of_none (ofNumber_eq_none h) ra s)
  · exact faultsPrecisely_of_raise (i := .csrw ra f) (f := .csrAccess) hf
      (csrwBody_of_none (s.csrWriteNumber_eq_none h _))

end Sys2Proof.Machine
end

section
/-! Encode commands that are abandoned (spec/60_exceptions.md R215, R222, R223): on an operand that the code cannot carry,
and in a window that is full. Every encode command is the sequence of decisions of its operands, so a full window stops
it at one of them. -/

namespace Sys2Proof.Machine

/-! ### Operands that the code cannot carry (R222) -/

theorem recUncodable_of {r : Word} (h : (recInterp r = true ∧ recNeigh r = 0#2) ∨ recMind1 r = 3#2) :
    recUncodable r = true := by
  unfold recUncodable
  rcases h with ⟨hinterp, hneigh⟩ | hmind1
  · rw [hinterp, decide_eq_true hneigh]
    rfl
  · rw [decide_eq_true hmind1, Bool.or_true]

/-- The record of an occupied block is checked before its first element is coded (R174). -/
theorem occEncBlock_of_uncodable {r : Word}
    (h : (recInterp r = true ∧ recNeigh r = 0#2) ∨ recMind1 r = 3#2) (o : OccModels) (s : State) :
    occEncBlock o true r s = .error (.raise .operandRange r) s :=
  Cmd.bind_of_error (check_of_not (not_not_intro ⟨rfl, recUncodable_of h⟩) _ _ s)

/-- Blocks one after the other, and then some more. -/
theorem forM_append_run (done rest : List Nat) (block : Nat → Cmd Unit) (s : State) :
    (done ++ rest).forM block s = (done.forM block >>= fun _ => rest.forM block) s := congrFun List.forM_append s

/-- Blocks that can be coded and then one that cannot: the scan stops where these have been coded. -/
theorem forM_encPatchBlock_of_uncodable {s t : State} {done rest : List Nat} {bad : Nat}
    (hin : ∀ i ∈ done ++ bad :: rest, i < s.params.nblk) (hr : s.blocksCodable done)
    (hocc : s.patchOccupied bad = true)
    (hbad : (recInterp (s.bmRecord bad) = true ∧ recNeigh (s.bmRecord bad) = 0#2) ∨ recMind1 (s.bmRecord bad) = 3#2)
    (ht : encDecisions (s.blocksDecisions done) s = .ok () t) (hcodes : EncCodes s t) :
    (done ++ bad :: rest).forM (encPatchBlock s.occBinding) s =
      .error (.raise .operandRange (s.bmRecord bad)) t := by
  have hdone := (forM_encPatchBlock (fun i hi => hin i (List.mem_append_left _ hi)) hr).trans ht
  have hlt : bad < t.params.nblk := by
    obtain ⟨hparams, _⟩ := EncCodes.sameWindow hcodes
    rw [hparams]
    exact hin bad (List.mem_append_right _ List.mem_cons_self)
  obtain ⟨hrecord, howned⟩ : t.bmRecord bad = s.bmRecord bad ∧ t.ownedBy (t.bmRecord bad) = true := by
    rw [t.ownedBy_bmRecord]
    unfold EncCodes at hcodes
    rw [hcodes]
    exact ⟨rfl, hocc⟩
  have hblock : encPatchBlock s.occBinding bad t = .error (.raise .operandRange (s.bmRecord bad)) t := by
    unfold encPatchBlock
    rw [Cmd.get_bind_run, Cmd.bind_of_ok (mapRead_of_lt hlt), howned, hrecord]
    exact occEncBlock_of_uncodable hbad _ t
  rw [forM_append_run, Cmd.bind_of_ok hdone]
  exact Cmd.bind_of_error hblock

/-- The elements of blocks that can be coded fit the bound models. -/
theorem State.blocksCodable.fits {s : State} {blocks : List Nat} (h : s.blocksCodable blocks) (ho : s.occModelsOk) :
    ∀ d ∈ s.blocksDecisions blocks, d.fits s := by
  intro d hd
  obtain ⟨i, hi, hd⟩ := List.mem_flatMap.mp hd
  exact blockDecisions_fits ho (h i hi) d hd

section Never

variable {f : FaultKind} (hf : FaultKind.codeBufferOverflow ≠ f)
include hf

theorem putByte_neverRaises (b : Byte) : (putByte b).NeverRaises f :=
  .bind .get fun _ => .bind (.check hf _ _) fun _ => .bind (memWrite_neverRaises _ _) fun _ => .update _

theorem carryFrom_neverRaises (n : Nat) : (carryFrom n).NeverRaises f := by
  induction n with
  | zero => exact .raise hf _
  | succ i ih =>
    exact .bind .get fun _ => .bind (memRead_neverRaises _) fun _ =>
      .ite (.bind (memWrite_neverRaises _ _) fun _ => ih) (memWrite_neverRaises _ _)

theorem addLow_neverRaises (x r : Word) : (addLow x r).NeverRaises f :=
  .bind .get fun _ => .bind (.set _) fun _ => .ite (.bind .get fun _ => carryFrom_neverRaises hf _) (.pure _)

theorem renormEncLoop_neverRaises (fuel : Nat) : (renormEncLoop fuel).NeverRaises f := by
  induction fuel with
  | zero => exact .pure ()
  | succ k ih =>
    exact .bind .get fun _ => .bind (putByte_neverRaises hf _) fun _ => .bind (.update _) fun _ => .bind .get fun _ =>
      .ite (.pure ()) ih

theorem encBit_neverRaises (bit : Bool) (p0 : BitVec 13) : (encBit bit p0).NeverRaises f :=
  .bind (.bind .get fun _ => .ite (addLow_neverRaises hf _ _) (.set _)) fun _ =>
    .bind .get fun _ => .ite (.bind .get fun _ => renormEncLoop_neverRaises hf _) (.pure ())

theorem encBitA_neverRaises (m : Nat) (bit : Bool) : (encBitA m bit).NeverRaises f :=
  .bind .get fun _ => .bind (encBit_neverRaises hf _ _) fun _ => .update _

theorem encBitsDown_neverRaises (v count : Nat) : (encBitsDown v count).NeverRaises f := by
  induction count with
  | zero => exact .pure ()
  | succ i ih => exact .bind (encBit_neverRaises hf _ _) fun _ => ih

/-- Past its checks the encoder of a code word raises nothing but a full window. -/
theorem encEg0_neverRaises (u : Word) (m : Nat) : (encEg0 u m).NeverRaises f :=
  .bind (.forUp (fun _ => encBitA_neverRaises hf _ _) _ _) fun _ => .bind (encBitA_neverRaises hf _ _) fun _ =>
    encBitsDown_neverRaises hf _ _

end Never

/-- Every 32-bit value has a code word (R144), so neither command has an operand to check. -/
theorem egEncoders_neverRaise_operandRange (ra : Reg) (m : Slot) :
    (bodyOf (.encEg0 ra m)).NeverRaises .operandRange ∧ (bodyOf (.encSdelta ra m)).NeverRaises .operandRange := by
  have past {c : State → Cmd Unit} (hc : ∀ s, (c s).NeverRaises .operandRange) :
      Cmd.NeverRaises .operandRange (needMode .enc >>= fun _ => needAbm m >>= fun _ => get >>= c) :=
    .bind (.bind .get fun _ => .check (by decide) _ _) fun _ =>
      .bind (.bind .get fun _ => .check (by decide) _ _) fun _ => .bind .get hc
  exact ⟨past fun _ => encEg0_neverRaises (by decide) _ _, past fun _ => encEg0_neverRaises (by decide) _ _⟩

/-- Settles O29: an operand is checked before its first decision is coded, in a patch block by block. -/
theorem outOfRangeOperandsFault : Obligations.OutOfRangeOperandsFault := by
  refine ⟨fun s ra m f hf hm => ⟨fun hslot h => ?bitA, fun h => ?bitS, fun hslot huse h => ?sym, fun hlt h => ?uint,
    fun ho hocc h => ?block⟩, fun s done rest bad h ho hpatch hblocks hr hocc hbad => ⟨fun t ht => ?patch, fun hroom => ?room⟩,
    fun s t ra m hf h hfault => ?never⟩
  case bitA =>
    exact faultsPrecisely_of_raise (i := .encBitA ra m) (f := .operandRange) hf
      ((needMode_bind_of_eq hm).trans ((needAbm_bind_of_lt hslot).trans (needBit_bind_of_lt h)))
  case bitS =>
    exact faultsPrecisely_of_raise (i := .encBitS ra) (f := .operandRange) hf
      ((needMode_bind_of_eq hm).trans (needBit_bind_of_lt h))
  case sym =>
    exact faultsPrecisely_of_raise (i := .encSym ra m) (f := .operandRange) hf
      ((needMode_bind_of_eq hm).trans ((needAdmInit_bind_of ⟨hslot, huse⟩).trans (needSymbol_bind_of_le h)))
  case uint =>
    exact faultsPrecisely_of_raise (i := .encUint ra f) (f := .operandRange) hf
      ((needCount_bind_of_le (Nat.le_of_lt hlt)).trans ((needMode_bind_of_eq hm).trans (needFits_bind_of_le hlt h)))
  case block =>
    have hblock := occEncBlock_of_uncodable h s.occBinding s
    rw [← hocc] at hblock
    exact faultsPrecisely_of_raise (i := .occEncBlk ra) (f := .operandRange) hf
      ((occChecks_bind_of_ok hm ho _).trans ((Cmd.bind_of_ok (readReg_run ra s)).trans hblock))
  case patch =>
    obtain ⟨_, hf, hm, _⟩ := id h
    obtain ⟨_, _, hframe⟩ := encDecisions_eq_ok h (hr.fits ho) ht
    have hscan := forM_encPatchBlock_of_uncodable (hblocks ▸ hpatch.block_lt) hr hocc hbad ht hframe.1
    rw [← hblocks] at hscan
    exact ⟨exec_of_raise (i := .occEncPatch) (f := .operandRange) hf
      ((occChecks_bind_of_ok hm ho _).trans ((patchCheck_bind_scanPatch hpatch _).trans hscan)), hframe⟩
  case room =>
    have hlength := Nat.mul_le_mul_left 2 (blocksDecisions_length_le s done)
    rw [← Nat.mul_assoc] at hlength
    obtain ⟨t, ht, _⟩ := encodingNeverRunsOffTheWindow s _ 0 (hroom.mono hlength) (hr.fits ho)
    exact ⟨t, ht⟩
  case never =>
    obtain ⟨heg0, hsdelta⟩ := egEncoders_neverRaise_operandRange ra m
    rcases h with h | h
    · exact exec_fcode_ne (f := .operandRange) heg0 hf h hfault
    · exact exec_fcode_ne (f := .operandRange) hsdelta hf h hfault

/-! ### Encode commands as sequences of decisions -/

/-- The decisions of an encode command fit their models once its checks have passed. -/
theorem Encodes.fits {s : State} {i : Instr} {ds : List Decision} (h : Encodes s i ds) : ∀ d ∈ ds, d.fits s := by
  cases h with
  | bitA ra m hslot hbit => exact List.forall_mem_singleton.mpr hslot
  | bitS ra hbit => exact List.forall_mem_singleton.mpr trivial
  | sym ra m hslot hk => exact List.forall_mem_singleton.mpr ⟨hslot, hk⟩
  | uint ra f hf hlt => exact uintDecisions_fits s _ _
  | eg0 ra m n r hslot hr hu => exact egCodeWord_fits hslot n r
  | sdelta ra m n r hslot hr hu => exact egCodeWord_fits hslot n r
  | occBlk ra ho hr => exact blockDecisions_fits ho hr
  | occPatch done rest ho hpatch hblocks hr => exact State.blocksCodable.fits hr ho

/-- Past its checks an encode command is the sequence of its decisions; a patch goes on with the blocks after them. -/
theorem Encodes.bodyOf_eq {s : State} {i : Instr} {ds : List Decision} (h : Encodes s i ds) (hm : s.mode = .enc) :
    ∃ more : Cmd Unit, bodyOf i s = (encDecisions ds >>= fun _ => more) s := by
  have whole {i : Instr} {ds : List Decision} (hbody : bodyOf i s = encDecisions ds s) :
      ∃ more : Cmd Unit, bodyOf i s = (encDecisions ds >>= fun _ => more) s :=
    ⟨pure (), hbody.trans (congrFun bind_pure_unit.symm s)⟩
  have codeWord {ra : Reg} {m : Slot} {n r : Nat} {i : Instr} (hslot : m.toNat < s.params.nAbm) (hr : r < 2 ^ n)
      (hi : (i = .encEg0 ra m ∧ (s.reg ra).toNat + 1 = 2 ^ n + r) ∨
        (i = .encSdelta ra m ∧ (zigzag (s.reg ra)).toNat + 1 = 2 ^ n + r)) :
      bodyOf i s = encDecisions (egCodeWord m.toNat n r) s := by
    obtain ⟨u, hbody, rfl, rfl⟩ := bodyOf_egEncoder hm hslot hr hi
    rw [hbody, encEg0_eq]
  cases h with
  | bitA ra m hslot hbit =>
    exact whole ((encBitABody_eq hm hslot hbit).trans (congrFun (encDecisions_singleton _).symm s))
  | bitS ra hbit => exact whole ((encBitSBody_eq hm hbit).trans (congrFun (encDecisions_singleton _).symm s))
  | sym ra m hslot hk =>
    exact whole ((encSymBody_eq hm hslot hk).trans (congrFun (encDecisions_singleton _).symm s))
  | uint ra f hf hlt => exact whole (encUintBody_eq hf hm hlt)
  | eg0 ra m n r hslot hr hu => exact whole (codeWord hslot hr (.inl ⟨rfl, hu⟩))
  | sdelta ra m n r hslot hr hu => exact whole (codeWord hslot hr (.inr ⟨rfl, hu⟩))
  | occBlk ra ho hr =>
    refine whole ((occChecks_bind_of_ok hm ho _).trans ((Cmd.bind_of_ok (readReg_run ra s)).trans ?_))
    rw [occEncBlock_eq _ hr]
  | occPatch done rest ho hpatch hblocks hr =>
    refine ⟨rest.forM (encPatchBlock s.occBinding), ?_⟩
    have hdone := forM_encPatchBlock
      (fun i hi => hpatch.block_lt i (hblocks ▸ List.mem_append_left _ hi)) hr
    calc occEncPatchBody s
      _ = s.patchBlocks.forM (encPatchBlock s.occBinding) s :=
        (occChecks_bind_of_ok hm ho _).trans (patchCheck_bind_scanPatch hpatch _)
      _ = (done.forM (encPatchBlock s.occBinding) >>= fun _ => rest.forM (encPatchBlock s.occBinding)) s := by
        rw [hblocks, forM_append_run]
      _ = (encDecisions (s.blocksDecisions done) >>= fun _ => rest.forM (encPatchBlock s.occBinding)) s := by
        rw [Cmd.bind_run, Cmd.bind_run, hdone]

/-! ### A full window (R111, R223) -/

theorem encDecisions_sameAlphabets (ds : List Decision) : Cmd.Keeps SameAlphabets (encDecisions ds) := by
  induction ds with
  | nil => exact SameAlphabets.frame.pure ()
  | cons d ds ih => exact SameAlphabets.frame.bind d.enc_sameAlphabets fun _ => ih

/-- A sequence that reaches a decision for whose bytes there is no room: what fits of them is sent, nothing is counted. -/
theorem encDecisions_full {pre post : List Decision} {d : Decision} {s t : State} (h : s.encReady 0)
    (hfits : ∀ e ∈ pre ++ d :: post, e.fits s) (hpre : encDecisions pre s = .ok () t)
    (hp : t.wlen.toNat < t.ptr.toNat + renormTurns (d.width t)) :
    ∃ u, encDecisions (pre ++ d :: post) s = .error (.raise .codeBufferOverflow s.wlen) u ∧ EncMoves t u ∧
      t.encodedBy u (d.base t) (d.width t) (t.wlen.toNat - t.ptr.toNat) := by
  obtain ⟨hfitsPre, hfitsRest⟩ := List.forall_mem_append.mp hfits
  obtain ⟨hready, _, hcodes, _⟩ := encDecisions_eq_ok h hfitsPre hpre
  obtain ⟨hparams, _, hwlen, _⟩ := EncCodes.sameWindow hcodes
  have hsize := encDecisions_sameAlphabets pre s
  rw [hpre] at hsize
  have hfit : d.fits t := Decision.fits.congr (hfitsRest d List.mem_cons_self) hparams hsize
  obtain ⟨u, hu, hmoves, hencoded⟩ := Decision.enc_full hready hfit hp
  rw [hwlen] at hu
  refine ⟨u, ?_, hmoves, hencoded⟩
  rw [encDecisions_append, Cmd.bind_of_ok hpre]
  exact Cmd.bind_of_error hu

/-- An encode command that reaches such a decision (R223). -/
theorem exec_of_full {i : Instr} {pre post : List Decision} {d : Decision} {s t : State} (h : s.encReady 0)
    (hi : Encodes s i (pre ++ d :: post)) (hpre : encDecisions pre s = .ok () t)
    (hp : t.wlen.toNat < t.ptr.toNat + renormTurns (d.width t)) :
    ∃ u, exec i s = .next (u.faulted 4#8 s.wlen (encode i)) ∧ EncMoves t u ∧
      t.encodedBy u (d.base t) (d.width t) (t.wlen.toNat - t.ptr.toNat) := by
  obtain ⟨_, hf, hm, _⟩ := id h
  obtain ⟨u, hu, hmoves, hencoded⟩ := encDecisions_full h hi.fits hpre hp
  obtain ⟨more, hbody⟩ := hi.bodyOf_eq hm
  exact ⟨u, exec_of_raise (f := .codeBufferOverflow) hf (hbody.trans (Cmd.bind_of_error hu)), hmoves, hencoded⟩

/-- Narrowing to a width below the threshold and renormalising without a test, with fewer bytes left (R94). -/
theorem addLow_renormEnc_full {s : State} (hw : s.windowFits) (x r : Word) (hr : r < minRange)
    (hle : s.ptr.toNat ≤ s.wlen.toNat) (hp : s.wlen.toNat < s.ptr.toNat + renormTurns r)
    (hc : s.codeNumber + x.toNat < 256 ^ s.ptr.toNat * 2 ^ 32) :
    ∃ t, (do addLow x r; renormEnc : Cmd Unit) s = .error (.raise .codeBufferOverflow s.wlen) t ∧ EncMoves s t ∧
      s.encodedBy t x r (s.wlen.toNat - s.ptr.toNat) := by
  obtain ⟨u, hu, hframe, _⟩ := addLow_ok hw hle x r hc
  obtain ⟨t, ht, hcoded⟩ := addLow_renorm_full hw x r hle hp hc
  have hrange : u.range = r := by rw [hframe]
  rw [Cmd.bind_of_ok hu, renormEncIfSmall_of_lt (hrange ▸ hr)] at ht
  exact ⟨t, (Cmd.bind_of_ok hu).trans ht, hcoded⟩

/-- `ENC_STOP` without room for its last bytes (R94, R223). -/
theorem exec_encStop_of_full {s : State} (h : s.encReady 0)
    (hp : s.wlen.toNat < s.ptr.toNat + (if 2 ^ 25 < s.range.toNat then 1 else 2)) (ra : Reg) :
    ∃ u, exec (.encStop ra) s = .next (u.faulted 4#8 s.wlen (encode (.encStop ra))) ∧ EncMoves s u ∧
      s.encodedBy u s.stopAdd s.stopWidth (s.wlen.toNat - s.ptr.toNat) := by
  obtain ⟨hw, hr⟩ := h.coder
  obtain ⟨_, hf, hm, hcarry, hle⟩ := h
  obtain ⟨_, hlt, hturns⟩ := s.stopWidth_spec
  obtain ⟨u, hu, hcoded⟩ := addLow_renormEnc_full hw s.stopAdd s.stopWidth hlt hle (hturns ▸ hp)
    (Nat.lt_of_lt_of_le (Nat.add_lt_add_left (State.stopAdd_lt hr) _) hcarry)
  refine ⟨u, exec_of_raise (i := .encStop ra) (f := .codeBufferOverflow) hf ((needMode_bind_of_eq hm).trans ?_), hcoded⟩
  rcases Cmd.bind_eq_error.mp hu with hadded | ⟨_, t, hadded, hrenorm⟩
  · exact Cmd.bind_of_error ((terminate_run s).trans hadded)
  · exact (Cmd.bind_of_ok ((terminate_run s).trans hadded)).trans (Cmd.bind_of_error hrenorm)

end Sys2Proof.Machine
end

section
/-! Decode commands in a stream that is used up (spec/60_exceptions.md R215, R224): a decoder that has followed a sequence
of decisions up to one whose bytes are not there is abandoned at that decision, whatever the command. -/

namespace Sys2Proof.Machine

/-! ### Decoding keeps a session ready -/

theorem State.decReady.of_open {s t : State} (h : s.decReady 0) (hframe : BodyFrame s t) (hopen : t.DecOpen) :
    t.decReady 0 := by
  obtain ⟨hinv, hf, _⟩ := h
  obtain ⟨hfault, _⟩ := hframe.faultRecord_eq
  exact ⟨hinv.of_sound hframe hopen.sound, hfault.trans hf, hopen.mode, hopen.ptr.2⟩

/-- Decoding an element changes no alphabet. -/
theorem Decision.dec_sameAlphabets (d : Decision) : Cmd.Keeps SameAlphabets d.dec := by
  have h := SameAlphabets.frame
  cases d with
  | bitS b => exact h.bind ((decBit_decMoves _).mono fun _ _ hst => hst.noModel.sameAlphabets) fun _ => h.pure _
  | bitA m b => exact h.bind ((decBitA_onlyAbm m).mono fun _ _ hst => hst.sameAlphabets) fun _ => h.pure _
  | sym j k => exact h.bind (decSym_sameAlphabets j) fun _ => h.pure _

theorem decDecisions_sameAlphabets (ds : List Decision) : Cmd.Keeps SameAlphabets (decDecisions ds) := by
  have h := SameAlphabets.frame
  induction ds with
  | nil => exact h.pure []
  | cons d ds ih => exact h.bind d.dec_sameAlphabets fun _ => h.bind ih fun _ => h.pure _

theorem SameAlphabets.of_decDecisions {ds es : List Decision} {s t : State} (h : decDecisions ds s = .ok es t) :
    SameAlphabets s t := by
  have hsize := decDecisions_sameAlphabets ds s
  rwa [h] at hsize

/-- Whether a decision's slot is usable is a matter of the parameters and the alphabets. -/
theorem Decision.usable.congr {s t : State} {d : Decision} (h : d.usable s) (hparams : t.params = s.params)
    (hsize : SameAlphabets s t) : d.usable t := by
  cases d with
  | bitS b => trivial
  | bitA m b =>
    show m < t.params.nAbm
    rw [hparams]
    exact h
  | sym j k =>
    show j < t.params.nAdm ∧ (t.admSlot j).nsym ≠ 0#8
    rw [hparams, hsize j]
    exact h

/-- Decisions that are decoded in a ready session leave it ready. -/
theorem decDecisions_eq_ok {ds : List Decision} {s t : State} (h : s.decReady 0) (hu : ∀ d ∈ ds, d.usable s)
    (hds : decDecisions ds s = .ok ds t) : t.decReady 0 := by
  induction ds generalizing s with
  | nil =>
    cases hds
    exact h
  | cons d ds ih =>
    obtain ⟨v, hv, hrest⟩ := decDecisions_cons_eq_ok.mp hds
    obtain ⟨hd, htail⟩ := List.forall_mem_cons.mp hu
    have hcodes := d.dec_decCodes s
    have hsize := d.dec_sameAlphabets s
    obtain ⟨hinv, hf, hm, _⟩ := id h
    have hopen := Decision.dec_leads ((hinv.sound hf).decOpen hm) hd
    unfold Cmd.Leads at hopen
    rw [hv] at hcodes hsize hopen
    obtain ⟨hparams, _⟩ := DecCodes.sameStream hcodes
    exact ih (h.of_open hcodes.bodyFrame hopen) (fun e he => (htail e he).congr hparams hsize) hrest

/-! ### A decoder that stops on the way -/

/-- A decoder that takes the decisions `ds` in order is abandoned with `e` in the state `u` at one of them. -/
inductive DecStops (e : Stop) (u : State) : List Decision → State → Prop where
  | here {d : Decision} {ds : List Decision} {s : State} : d.dec s = .error e u → DecStops e u (d :: ds) s
  | later {d : Decision} {ds : List Decision} {s t : State} : d.dec s = .ok d t → DecStops e u ds t →
      DecStops e u (d :: ds) s

/-- A result that is only wrapped is wrong only where the value is. -/
theorem Cmd.bind_pure_eq_error {α β : Type} {x : Cmd α} {g : α → β} {s u : State} {e : Stop} :
    (x >>= fun b => pure (g b)) s = .error e u ↔ x s = .error e u := by
  constructor
  · intro h
    rcases Cmd.bind_eq_error.mp h with h | ⟨b, t, _, h⟩
    · exact h
    · cases h
  · exact fun h => Cmd.bind_of_error h

namespace DecStops

variable {e : Stop} {u s : State}

theorem of_decoded {taken later : List Decision} {d : Decision} {t : State}
    (htaken : decDecisions taken s = .ok taken t) (hd : d.dec t = .error e u) : DecStops e u (taken ++ d :: later) s := by
  induction taken generalizing s with
  | nil =>
    cases htaken
    exact .here hd
  | cons f taken ih =>
    obtain ⟨v, hv, hrest⟩ := decDecisions_cons_eq_ok.mp htaken
    exact .later hv (ih hrest)

theorem not_nil : ¬ DecStops e u [] s := fun h => nomatch h

/-- A sequence stops in its first part, or that is decoded and the second stops. -/
theorem append {ds es : List Decision} (h : DecStops e u (ds ++ es) s) :
    DecStops e u ds s ∨ ∃ t, decDecisions ds s = .ok ds t ∧ DecStops e u es t := by
  induction ds generalizing s with
  | nil => exact .inr ⟨s, rfl, h⟩
  | cons d ds ih =>
    cases h with
    | here hd => exact .inl (.here hd)
    | later hd hrest =>
      rcases ih hrest with hds | ⟨t, hds, hes⟩
      · exact .inl (.later hd hds)
      · exact .inr ⟨t, decDecisions_cons_eq_ok.mpr ⟨_, hd, hds⟩, hes⟩

section Bind

variable {α : Type} {ds : List Decision}

/-- Pseudocode that begins with a static bit stops with the sequence that begins with it. -/
theorem bitS_bind {b : Bool} {f : Bool → Cmd α} (h : DecStops e u (.bitS b :: ds) s)
    (hf : ∀ t, DecStops e u ds t → f b t = .error e u) : (decBit pHalf >>= f) s = .error e u := by
  cases h with
  | here hd => exact Cmd.bind_of_error (Cmd.bind_pure_eq_error.mp hd)
  | later hd hrest => exact (Cmd.bind_of_ok (Decision.dec_bitS_eq_ok.mp hd)).trans (hf _ hrest)

/-- The same for a bit with a model. -/
theorem bitA_bind {m : Nat} {b : Bool} {f : Bool → Cmd α} (h : DecStops e u (.bitA m b :: ds) s)
    (hf : ∀ t, DecStops e u ds t → f b t = .error e u) : (decBitA m >>= f) s = .error e u := by
  cases h with
  | here hd => exact Cmd.bind_of_error (Cmd.bind_pure_eq_error.mp hd)
  | later hd hrest => exact (Cmd.bind_of_ok (Decision.dec_bitA_eq_ok.mp hd)).trans (hf _ hrest)

/-- The same for a symbol. -/
theorem sym_bind {j k : Nat} {f : Nat → Cmd α} (h : DecStops e u (.sym j k :: ds) s)
    (hf : ∀ t, DecStops e u ds t → f k t = .error e u) : (decSym j >>= f) s = .error e u := by
  cases h with
  | here hd => exact Cmd.bind_of_error (Cmd.bind_pure_eq_error.mp hd)
  | later hd hrest => exact (Cmd.bind_of_ok (Decision.dec_sym_eq_ok.mp hd)).trans (hf _ hrest)

end Bind

/-! ### The decoders of numbers (R144, R162) -/

theorem decBitsUp {v n : Nat} (lo w : Nat) (h : DecStops e u (uintDecisions v n) s) :
    Machine.decBitsUp lo n w s = .error e u := by
  induction n generalizing v lo w s with
  | zero => exact absurd h not_nil
  | succ n ih =>
    rw [uintDecisions_succ] at h
    exact h.bitS_bind fun t ht => ih (lo + 1) _ ht

theorem decBitsDown {v n : Nat} (r : Nat) (h : DecStops e u ((bitsDown v n).map .bitS) s) :
    Machine.decBitsDown n r s = .error e u := by
  induction n generalizing r s with
  | zero => exact absurd h not_nil
  | succ n ih =>
    rw [bitsDown_succ] at h
    exact h.bitS_bind fun t ht => ih _ ht

/-- Ones that are admitted, and perhaps one more. -/
theorem decOnes_of_ones {m k more : Nat} (n : Nat) (hk : k ≤ more + 1)
    (h : DecStops e u (List.replicate k (.bitA m true)) s) : decOnes m more n s = .error e u := by
  induction k generalizing more n s with
  | zero => exact absurd h not_nil
  | succ k ih =>
    cases more with
    | zero =>
      obtain rfl : k = 0 := by omega
      exact h.bitA_bind fun t ht => absurd ht not_nil
    | succ more => exact h.bitA_bind fun t ht => ih (n + 1) (by omega) ht

/-- The length part, its closing zero included. -/
theorem decOnes_of_length {m n : Nat} (hn : n ≤ 32)
    (h : DecStops e u (List.replicate n (.bitA m true) ++ [.bitA m false]) s) : decOnes m 32 0 s = .error e u := by
  rcases h.append with hones | ⟨t, hones, hclose⟩
  · exact decOnes_of_ones 0 (Nat.le_succ_of_le hn) hones
  · have hzero {more : Nat} : decOnes m more (0 + n) t = .error e u := by
      cases more <;> exact hclose.bitA_bind fun _ ht => absurd ht not_nil
    rw [← Nat.sub_add_cancel hn, Machine.decOnes_of_ones 0 (32 - n) hones]
    exact hzero

theorem decEg0_of_codeWord {m n r : Nat} (hn : n ≤ 32) (h : DecStops e u (egCodeWord m n r) s) :
    decEg0 m s = .error e u := by
  rcases h.append with hlength | ⟨t, hlength, hvalue⟩
  · exact Cmd.bind_of_error (decOnes_of_length hn hlength)
  · obtain ⟨v, hones, hclose⟩ := (decDecisions_append_eq_ok rfl).mp hlength
    have hcount : decOnes m 32 0 s = .ok n t := by
      rw [← Nat.sub_add_cancel hn, Machine.decOnes_of_ones 0 (32 - n) hones, Nat.zero_add]
      exact decOnes_of_zero _ _ (Decision.dec_bitA_eq_ok.mp (decDecisions_singleton.mp hclose))
    exact (Cmd.bind_of_ok hcount).trans (Cmd.bind_of_error (decBitsDown 0 hvalue))

theorem decEg0_of_ones {m : Nat} (h : DecStops e u (List.replicate 33 (.bitA m true)) s) :
    decEg0 m s = .error e u :=
  Cmd.bind_of_error (decOnes_of_ones 0 (Nat.le_refl _) h)

/-! ### The decoder of a block (R174) -/

section Block

variable {o : OccModels} {interp fill : Bool} {neigh mind1 : BitVec 2} {ds : List Decision}

theorem occDecNeigh_bind {f : Word → Cmd Word} (r : Word) (h : DecStops e u (neighDecisions o interp neigh ++ ds) s)
    (hf : ∀ q t, DecStops e u ds t → f q t = .error e u) : (occDecNeigh o interp r >>= f) s = .error e u := by
  cases interp with
  | false => exact hf r s h
  | true =>
    show ((decSym o.dNei >>= fun k => pure (setNeigh r (BitVec.ofNat 2 (k + 1)))) >>= f) s = _
    rw [bind_assoc]
    exact sym_bind h fun t ht => hf _ t ht

theorem occDecFill (r : Word) (h : DecStops e u (fillDecisions o interp mind1 fill) s) :
    Machine.occDecFill o (fillCoded interp mind1.toNat) r s = .error e u := by
  unfold fillDecisions at h
  cases hcoded : fillCoded interp mind1.toNat with
  | false =>
    rw [hcoded] at h
    exact absurd h not_nil
  | true =>
    rw [hcoded] at h
    exact bitA_bind h fun t ht => absurd ht not_nil

theorem occDecFields (r : Word) (h : DecStops e u (occupiedDecisions o interp neigh mind1 fill) s) :
    Machine.occDecFields o r s = .error e u :=
  bitA_bind h fun _ hneigh => occDecNeigh_bind _ hneigh fun _ _ hmin => sym_bind hmin fun _ hfill => occDecFill _ hfill

theorem occDecBlock {r : Word} (old : Word) (h : DecStops e u (blockDecisions o (recOcc r) r) s) :
    Machine.occDecBlock o old s = .error e u := by
  cases hocc : recOcc r with
  | false =>
    rw [hocc] at h
    exact bitA_bind h fun t ht => absurd ht not_nil
  | true =>
    rw [hocc, blockDecisions_true] at h
    exact bitA_bind h fun t ht => Cmd.bind_of_error (occDecFields _ ht)

end Block

end DecStops

/-! ### The decode commands (R128, R129, R131, R147, R149, R162, R176) -/

/-- Whatever record its elements are of, a block names the slots of its binding. -/
theorem blockDecisions_usable {s : State} {o : OccModels} (ho : s.Binds o) (occupied : Bool) (r : Word) :
    ∀ d ∈ blockDecisions o occupied r, d.usable s := by
  obtain ⟨hocc, hint, hfil, hnei, hmin⟩ := ho
  have hternary {j k : Nat} (h : s.admTernary j) : (Decision.sym j k).usable s :=
    (h.sym_fits (k := 0) (by decide)).usable
  intro d hd
  cases occupied with
  | false =>
    rw [List.mem_singleton.mp hd]
    exact hocc
  | true =>
    simp only [blockDecisions_true, occupiedDecisions, neighDecisions, fillDecisions, List.mem_cons, List.mem_append,
      List.mem_ite_nil_right, List.not_mem_nil, or_false] at hd
    rcases hd with rfl | rfl | ⟨_, rfl⟩ | rfl | ⟨_, rfl⟩
    · exact hocc
    · exact hint
    · exact hternary hnei
    · exact hternary hmin
    · exact hfil

/-- The decisions that a decode command can take name usable slots once its checks have passed. -/
theorem Decodes.usable {s : State} {i : Instr} {ds : List Decision} (h : Decodes s i ds) : ∀ d ∈ ds, d.usable s := by
  have ones {m : Nat} (hm : m < s.params.nAbm) : ∀ d ∈ List.replicate 33 (Decision.bitA m true), d.usable s := by
    intro d hd
    rw [List.eq_of_mem_replicate hd]
    exact hm
  cases h with
  | bitA ra m b hslot => exact List.forall_mem_singleton.mpr hslot
  | bitS ra b => exact List.forall_mem_singleton.mpr trivial
  | sym ra m k hslot huse => exact List.forall_mem_singleton.mpr ⟨hslot, huse⟩
  | uint ra f v hf => exact fun d hd => (uintDecisions_fits s _ _ d hd).usable
  | eg0 ra m n r hslot hn => exact fun d hd => (egCodeWord_fits hslot n r d hd).usable
  | eg0Ones ra m hslot => exact ones hslot
  | sdelta ra m n r hslot hn => exact fun d hd => (egCodeWord_fits hslot n r d hd).usable
  | sdeltaOnes ra m hslot => exact ones hslot
  | occBlk ra r ho => exact blockDecisions_usable ho _ _

/-- A decode command stops where its decisions do, and its register is not written. -/
theorem Decodes.bodyOf_of_stops {s u : State} {i : Instr} {ds : List Decision} {e : Stop} (h : Decodes s i ds)
    (hm : s.mode = .dec) (hstops : DecStops e u ds s) : bodyOf i s = .error e u := by
  have codec {ra : Reg} {m : Slot} {v : Word → Word} (hslot : m.toNat < s.params.nAbm)
      (hdec : decEg0 m.toNat s = .error e u) :
      (needMode .dec >>= fun _ => needAbm m >>= fun _ => decEg0 m.toNat >>= fun w => writeReg ra (v w)) s =
        .error e u :=
    (needMode_bind_of_eq hm).trans ((needAbm_bind_of_lt hslot).trans (Cmd.bind_of_error hdec))
  cases h with
  | bitA ra m b hslot =>
    exact (needMode_bind_of_eq hm).trans
      ((needAbm_bind_of_lt hslot).trans (hstops.bitA_bind fun t ht => absurd ht DecStops.not_nil))
  | bitS ra b =>
    exact (needMode_bind_of_eq hm).trans (hstops.bitS_bind fun t ht => absurd ht DecStops.not_nil)
  | sym ra m k hslot huse =>
    exact (needMode_bind_of_eq hm).trans
      ((needAdmInit_bind_of ⟨hslot, huse⟩).trans (hstops.sym_bind fun t ht => absurd ht DecStops.not_nil))
  | uint ra f v hf =>
    exact (needCount_bind_of_le hf).trans ((needMode_bind_of_eq hm).trans (Cmd.bind_of_error (hstops.decBitsUp 0 0)))
  | eg0 ra m n r hslot hn => exact codec (v := id) hslot (hstops.decEg0_of_codeWord hn)
  | eg0Ones ra m hslot => exact codec (v := id) hslot hstops.decEg0_of_ones
  | sdelta ra m n r hslot hn => exact codec hslot (hstops.decEg0_of_codeWord hn)
  | sdeltaOnes ra m hslot => exact codec hslot hstops.decEg0_of_ones
  | occBlk ra r ho => exact (occChecks_bind_of_ok hm ho _).trans (Cmd.bind_of_error (hstops.occDecBlock 0#32))

/-- A decode command whose next decision needs a byte at offset `WLEN + 3` (R224). -/
theorem exec_of_short {i : Instr} {pre post : List Decision} {d : Decision} {s t : State} (h : s.decReady 0)
    (hi : Decodes s i (pre ++ d :: post)) (hpre : decDecisions pre s = .ok pre t) (hsel : d.selected t)
    (hp : t.wlen.toNat + 3 < t.ptr.toNat + renormTurns (d.width t)) :
    ∃ u, exec i s = .next (u.faulted 5#8 (s.wlen + 3#32) (encode i)) ∧ DecMoves t u ∧
      t.decodedBy u (t.value - d.base t) (d.width t) (t.wlen.toNat + 3 - t.ptr.toNat) := by
  obtain ⟨_, hf, hm, _⟩ := id h
  obtain ⟨husable, hrest⟩ := List.forall_mem_append.mp hi.usable
  obtain ⟨hparams, hwlen, _⟩ := (DecCodes.of_decDecisions hpre).sameStream
  have huse := (hrest d List.mem_cons_self).congr hparams (SameAlphabets.of_decDecisions hpre)
  obtain ⟨u, hu, hmoves, hdecoded⟩ := Decision.dec_short (decDecisions_eq_ok h husable hpre) huse hsel hp
  rw [hwlen] at hu
  exact ⟨u, exec_of_raise (f := .streamOverrun) hf (hi.bodyOf_of_stops hm (.of_decoded hpre hu)), hmoves, hdecoded⟩

/-! ### A decode session on an empty window (R92) -/

/-- Beyond an empty window three bytes are served, all zero (R113). -/
theorem getByte_of_empty {s : State} (hlen : s.wlen = 0#32) :
    getByte s = if s.ptr.toNat < 3 then .ok 0x00#8 { s with ptr := s.ptr + 1#32, overread := true }
      else .error (.raise .streamOverrun s.ptr) s := by
  have hbeyond : ¬ s.ptr < s.wlen := by rw [hlen]; exact BitVec.not_lt_zero
  have hallowed : (s.ptr.toNat < s.wlen.toNat + 3) = (s.ptr.toNat < 3) := by rw [hlen]; rfl
  unfold getByte
  rw [Cmd.get_bind_run, if_neg hbeyond]
  simp only [hallowed]
  split <;> rfl

theorem loadByte_of_empty {s : State} {p : Word} (hlen : s.wlen = 0#32) (hvalue : s.value = 0#32) (hptr : s.ptr = p)
    (hp : p.toNat < 3) : loadByte s = .ok () { s with ptr := p + 1#32, overread := true } := by
  subst hptr
  have hzero : (s.value <<< 8) ||| (0x00#8).setWidth 32 = s.value := by rw [hvalue]; decide
  unfold loadByte
  rw [Cmd.bind_of_ok ((getByte_of_empty hlen).trans (if_pos hp))]
  simp only [appendByte, Cmd.modify_run, hzero]

/-- The fourth byte is not there. -/
theorem forUp_loadByte_of_empty (s : State) (base : Word) :
    forUp 0 4 (fun _ => loadByte) (s.openWindow base 0#32) =
      .error (.raise .streamOverrun 3#32) { s.openWindow base 0#32 with ptr := 3#32, overread := true } :=
  (Cmd.bind_of_ok (loadByte_of_empty (p := 0#32) rfl rfl rfl (by decide))).trans <|
    (Cmd.bind_of_ok (loadByte_of_empty (p := 1#32) rfl rfl rfl (by decide))).trans <|
    (Cmd.bind_of_ok (loadByte_of_empty (p := 2#32) rfl rfl rfl (by decide))).trans <|
    Cmd.bind_of_error (Cmd.bind_of_error ((getByte_of_empty rfl).trans (if_neg (show ¬ (3#32).toNat < 3 by decide))))

theorem decStartBody_of_empty {s : State} {ra rb : Reg} (hm : s.mode = .idle) (hbase : (s.reg ra).toNat ≤ s.params.cbSize)
    (hlen : s.reg rb = 0#32) :
    decStartBody ra rb s = .error (.raise .streamOverrun 3#32)
      { s.openWindow (s.reg ra) 0#32 with ptr := 3#32, overread := true } := by
  have hfits : (s.reg ra).toNat + (0#32).toNat ≤ s.params.cbSize := hbase
  unfold decStartBody
  rw [needMode_bind_of_eq hm, Cmd.get_bind_run, hlen, needWindow_bind_of_le hfits, Cmd.modify_bind_run,
    Cmd.bind_of_error (forUp_loadByte_of_empty s _)]

/-- Settles O31: an encode command is the sequence of its decisions and stops at the one that does not fit, `ENC_STOP` at
its one narrowing; a decode command follows the decisions that `VALUE` selects up to the one whose bytes are not there. -/
theorem fullWindowsAndShortStreamsFault : Obligations.FullWindowsAndShortStreamsFault := by
  refine ⟨fun s t i pre post d h hi hpre hp => exec_of_full h hi hpre hp, fun s ra h => ?_,
    fun s ra rb hf hm hbase hlen => ?_, fun s t i pre post d h hi hpre hsel hp => exec_of_short h hi hpre hsel hp⟩
  · intro add r hp
    exact exec_encStop_of_full h hp ra
  · exact exec_of_raise (i := .decStart ra rb) (f := .streamOverrun) hf (decStartBody_of_empty hm hbase hlen)

end Sys2Proof.Machine
end

section
/-! The decoder of a patch in a stream that is used up (spec/44_occupancy.md R180, spec/60_exceptions.md R215, R224): the
records of the blocks before have been written, and the block it stops in leaves BM as it is. -/

namespace Sys2Proof.Machine

/-! ### A session with another content of BM -/

theorem State.withBm_bodyFrame (s : State) (m : Memory) : BodyFrame s (s.withBm m) := rfl

/-- What a decision needs of the state, and the interval it leaves, are not a matter of BM. -/
theorem Decision.withBm_part (d : Decision) (s : State) (m : Memory) :
    d.base (s.withBm m) = d.base s ∧ d.width (s.withBm m) = d.width s := d.part_congr rfl rfl rfl

theorem Decision.selected.withBm {s : State} {d : Decision} (h : d.selected s) (m : Memory) :
    d.selected (s.withBm m) := by
  cases d <;> exact h

theorem State.decodedBy_of_withBm {s u : State} {m : Memory} {v r : Word} {n : Nat}
    (h : (s.withBm m).decodedBy u v r n) : s.decodedBy u v r n := by
  obtain ⟨hptr, hrange, hvalue, hover⟩ := h
  rw [State.servedNumber_congr (s := s) (t := s.withBm m) rfl rfl rfl rfl] at hvalue
  exact ⟨hptr, hrange, hvalue, hover⟩

/-- Moving the decoder leaves BM as it is. -/
theorem DecMoves.of_withBm {s u : State} {m : Memory} (h : DecMoves (s.withBm m) u) :
    u = { s with range := u.range, value := u.value, ptr := u.ptr, overread := u.overread, bm := u.bm } := by
  unfold DecMoves at h
  rw [h]
  rfl

/-! ### Blocks of a footprint -/

/-- What every block keeps, a sequence of blocks keeps. -/
theorem Cmd.Leads.forM {I : State → Prop} {block : Nat → Cmd Unit} (hb : ∀ i s, I s → (block i).Leads s fun _ t => I t)
    (blocks : List Nat) {s : State} (h : I s) : (blocks.forM block).Leads s fun _ t => I t := by
  induction blocks generalizing s with
  | nil => exact h
  | cons i rest ih => exact (hb i s h).bind fun _ _ ht => ih ht

/-- Blocks that have been decoded leave a ready session ready. -/
theorem State.decReady.of_forM_decPatchBlock {s w : State} {o : OccModels} {blocks : List Nat} (h : s.decReady 0)
    (ho : s.Binds o) (hw : blocks.forM (decPatchBlock o) s = .ok () w) (hframe : BodyFrame s w) : w.decReady 0 := by
  obtain ⟨hinv, hf, hm, _⟩ := id h
  obtain ⟨_, _, _, ⟨_, hnei⟩, ⟨_, hmin⟩⟩ := ho
  have hopen : s.DecOcc o := ⟨(hinv.sound hf).decOpen hm, hnei, hmin⟩
  have hleads := Cmd.Leads.forM (I := fun t => t.DecOcc o) (fun i _ hu => decPatchBlock_leads hu i) blocks hopen
  unfold Cmd.Leads at hleads
  rw [hw] at hleads
  exact h.of_open hframe hleads.1

/-- A block in whose elements the decoder stops is not written. -/
theorem decPatchBlock_of_stops {s u : State} {o : OccModels} {i : Nat} {r : Word} {e : Stop} (hi : i < s.params.nblk)
    (h : DecStops e u (blockDecisions o (recOcc r) r) s) : decPatchBlock o i s = .error e u := by
  unfold decPatchBlock
  rw [Cmd.get_bind_run, Cmd.bind_of_ok (mapRead_of_lt hi), Cmd.bind_of_error (h.occDecBlock _)]

/-- Different blocks, the elements of their records being next in the stream, leave a ready session that differs in BM
alone from the one that their decisions leave. -/
theorem forM_decPatchBlock_ready {s v : State} {o : OccModels} {r : Nat → Word} {blocks : List Nat} (h : s.decReady 0)
    (ho : s.Binds o) (hdiff : blocks.Nodup) (hin : ∀ i ∈ blocks, i < s.params.nblk)
    (hr : ∀ i ∈ blocks, recOcc (r i) = true → recCodable (r i))
    (hv : decDecisions (recordsDecisions o r blocks) s = .ok (recordsDecisions o r blocks) v) :
    ∃ m, blocks.forM (decPatchBlock o) s = .ok () (v.withBm m) ∧ (v.withBm m).decReady 0 ∧
      s.recordsDecoded (v.withBm m) r blocks := by
  obtain ⟨hinv, _⟩ := id h
  obtain ⟨w, hw, hwrites, hdecoded⟩ := forM_decPatchBlock hdiff hin hr hinv.pidx_lt hv
  rw [hwrites] at hw hdecoded
  have hframe := BodyFrame.frame.trans _ _ _ (DecCodes.of_decDecisions hv).bodyFrame (v.withBm_bodyFrame w.bm)
  exact ⟨w.bm, hw, h.of_forM_decPatchBlock ho hw hframe, hdecoded⟩

/-- The decoder is abandoned at a decision whose bytes are not there with any content of BM. -/
theorem DecStops.of_short_withBm {v t : State} {m : Memory} {pre post : List Decision} {d : Decision}
    (h : (v.withBm m).decReady 0) (husable : ∀ e ∈ pre ++ d :: post, e.usable (v.withBm m))
    (hpre : decDecisions pre v = .ok pre t) (hsel : d.selected t)
    (hp : t.wlen.toNat + 3 < t.ptr.toNat + renormTurns (d.width t)) :
    ∃ u, DecStops (.raise .streamOverrun (v.wlen + 3#32)) u (pre ++ d :: post) (v.withBm m) ∧
      DecMoves (t.withBm m) u ∧ t.decodedBy u (t.value - d.base t) (d.width t) (t.wlen.toNat + 3 - t.ptr.toNat) := by
  obtain ⟨husablePre, husableRest⟩ := List.forall_mem_append.mp husable
  have hpre' : decDecisions pre (v.withBm m) = .ok pre (t.withBm m) := decDecisions_ignoresBm _ _ _ _ hpre m
  obtain ⟨hparams, hwlen, _⟩ := (DecCodes.of_decDecisions hpre').sameStream
  obtain ⟨hbase, hwidth⟩ := d.withBm_part t m
  have huse := (husableRest d List.mem_cons_self).congr hparams (SameAlphabets.of_decDecisions hpre')
  obtain ⟨u, hu, hmoves, hby⟩ := Decision.dec_short (decDecisions_eq_ok h husablePre hpre') huse (hsel.withBm m)
    (by rw [hwidth]; exact hp)
  rw [hbase, hwidth] at hby
  rw [hwlen] at hu
  exact ⟨u, .of_decoded hpre' hu, hmoves, State.decodedBy_of_withBm hby⟩

/-- The scan stops in a block after the blocks before it. -/
theorem exec_occDecPatch_of_stops {s w u : State} {done rest : List Nat} {b : Nat} {r info : Word} {f : FaultKind}
    (h : s.decReady 0) (ho : s.occModelsOk) (hpatch : s.patchFits) (hblocks : s.patchBlocks = done ++ b :: rest)
    (hw : done.forM (decPatchBlock s.occBinding) s = .ok () w) (hparams : w.params = s.params)
    (hstops : DecStops (.raise f info) u (blockDecisions s.occBinding (recOcc r) r) w) :
    exec .occDecPatch s = .next (u.faulted f.code info (encode .occDecPatch)) := by
  obtain ⟨_, hf, hm, _⟩ := h
  have hb : b < w.params.nblk := by
    rw [hparams]
    exact hpatch.block_lt b (hblocks ▸ List.mem_append_right _ List.mem_cons_self)
  refine exec_of_raise (i := .occDecPatch) hf ?_
  calc occDecPatchBody s
    _ = s.patchBlocks.forM (decPatchBlock s.occBinding) s :=
      (occChecks_bind_of_ok hm ho _).trans (patchCheck_bind_scanPatch hpatch _)
    _ = (done.forM (decPatchBlock s.occBinding) >>= fun _ => (b :: rest).forM (decPatchBlock s.occBinding)) s := by
      rw [hblocks, forM_append_run]
    _ = (b :: rest).forM (decPatchBlock s.occBinding) w := Cmd.bind_of_ok hw
    _ = .error (.raise f info) u := Cmd.bind_of_error (decPatchBlock_of_stops hb hstops)

/-- Settles O60: the blocks before are decoded and written as in `occDecPatchWritesTheFootprint`; the session they leave
differs from that of their decisions alone in BM, at which the decoder does not look. -/
theorem shortStreamsStopPatchDecoding : Obligations.ShortStreamsStopPatchDecoding := by
  intro s t r done rest b pre post d h ho hpatch hblocks hr hblock ds hds hsel hp
  obtain ⟨v, hv, hpre⟩ := (decDecisions_append_eq_ok rfl).mp hds
  have hdiff : done.Nodup := (List.nodup_append.mp (hblocks ▸ hpatch.nodup)).1
  have hin : ∀ i ∈ done, i < s.params.nblk := fun i hi =>
    hpatch.block_lt i (hblocks ▸ List.mem_append_left _ hi)
  obtain ⟨m, hw, hready, hdecoded⟩ := forM_decPatchBlock_ready h ho hdiff hin hr hv
  obtain ⟨hparams, hwlen, _⟩ := (DecCodes.of_decDecisions hv).sameStream
  have hsize : SameAlphabets s v := SameAlphabets.of_decDecisions hv
  have husable : ∀ e ∈ pre ++ d :: post, e.usable (v.withBm m) := fun e he =>
    (blockDecisions_usable ho _ _ e (hblock ▸ he)).congr hparams hsize
  obtain ⟨u, hstops, hmoves, hby⟩ := DecStops.of_short_withBm hready husable hpre hsel hp
  rw [hwlen, ← hblock] at hstops
  refine ⟨u, exec_occDecPatch_of_stops h ho hpatch hblocks hw hparams hstops, hmoves.of_withBm, hby, ?_⟩
  have hmoved : DecCodes (v.withBm m) u :=
    DecCodes.frame.trans _ _ _ (DecCodes.of_decDecisions (decDecisions_ignoresBm _ _ _ _ hpre m)) hmoves.codes
  have hrecords (i : Nat) : u.bmRecord i = (v.withBm m).bmRecord i := SameMemories.bmRecord_eq hmoved.sameMemories i
  unfold State.recordsDecoded at hdecoded ⊢
  simpa only [hrecords] using hdecoded

end Sys2Proof.Machine
end

section
/-! The host's side of the machine (spec/70_reset_and_hazards.md R240, R244 to R246): one step for each act of the host,
the reset state, and the observation port. -/

namespace Sys2Proof.Machine

/-! ### The next act of the host (R244) -/

/-- The first event of the port is taken off it, and the ECU acts on it. -/
theorem step_of_port {s : State} {e : HostEvent} {rest : List HostEvent} (hport : s.port = e :: rest) :
    step s = hostEvent e { s with port := rest } := by
  unfold step takeEvent
  rw [hport]

/-! ### A presented word that decodes (R244; spec/40_session_and_models.md R89) -/

/-- In the fault state `exec` refuses a command, just as the command port refuses its word (R216). -/
theorem exec_of_fault {s : State} (hf : s.fault = true) (i : Instr) : exec i s = .next s.refuse := by
  rw [exec_eq_command, command_of_fault hf]

theorem presentWord_of_decode {cw : Word} {i : Instr} (hd : decode cw = .ok i) (s : State) :
    presentWord cw s = exec i s := by
  cases hf : s.fault with
  | true => rw [presentWord_of_fault hf, exec_of_fault hf]
  | false => exact presentWord_of_ok hf hd

theorem decodeTableWord_eq_some {nbits w : Nat} {i : Instr} (h : decodeTableWord nbits w = some i) :
    decode (tableWord nbits w) = .ok i := by
  unfold decodeTableWord at h
  split at h
  case h_1 j hd =>
    cases h
    exact hd
  case h_2 => cases h

/-- Settles O4: taking the presented word of a table row off the port gives back the state it was presented to. -/
theorem stepRunsTheDecodedCommand : Obligations.StepRunsTheDecodedCommand := by
  refine ⟨fun s cw rest i hport hd => ?_, fun s nbits w i hrow => ?_⟩
  · rw [step_of_issue hport, presentWord_of_decode hd]
  · have hport : (s.withFetchWord nbits w).port = .issue (tableWord nbits w) :: s.port := rfl
    rw [step_of_issue hport, presentWord_of_decode (decodeTableWord_eq_some hrow)]
    rfl

/-! ### Reset (R240; spec/10_state.md R45) -/

theorem State.resetWith_reg (p : Params) (epoch : Nat) (events : List HostEvent) (r : Reg) :
    (State.resetWith p epoch events).reg r = 0#32 := Vector.getElem_replicate r.isLt

/-- No fault, `IDLE`, no overread and no fault code: all fields of `STATUS` are 0 (spec/10_state.md R24). -/
theorem State.resetWith_statusWord (p : Params) (epoch : Nat) (events : List HostEvent) :
    (State.resetWith p epoch events).statusWord = 0#32 := by
  refine BitVec.eq_of_toNat_eq ?_
  rw [State.statusWord_toNat]
  rfl

/-- Since reset nothing has been written to CB (log 6). -/
theorem State.resetWith_cbByte (p : Params) (epoch : Nat) (events : List HostEvent) (a : Nat) :
    (State.resetWith p epoch events).cbByte a = Config.cbUnwritten epoch a := rfl

/-- Since reset nothing has been written to BM (log 6). -/
theorem State.resetWith_bmByte (p : Params) (epoch : Nat) (events : List HostEvent) (a : Nat) :
    (State.resetWith p epoch events).bmByte a = Config.bmUnwritten epoch a := rfl

theorem step_of_reset {s : State} {rest : List HostEvent} (hport : s.port = .reset :: rest) :
    step s = .next (State.resetWith s.params (s.memEpoch + 1) rest) := step_of_port hport

/-- Settles O8: the step answers the reset state of the same implementation; every scalar register of that state is its
reset value by definition, and the slots of each bank are copies of one slot. -/
theorem resetGivesTheResetState : Obligations.ResetGivesTheResetState := by
  intro s t rest hport hstep
  cases (step_of_reset hport).symm.trans hstep
  refine ⟨State.resetWith_reg _ _ _, rfl, State.resetWith_statusWord _ _ _, ⟨rfl, rfl, rfl⟩,
    ⟨rfl, rfl, rfl, rfl, rfl, rfl⟩, ⟨rfl, rfl, rfl, rfl, rfl, rfl, rfl, rfl, rfl⟩,
    ⟨List.length_replicate, fun a ha => ?abm⟩, ⟨List.length_replicate, fun d hd => ?adm⟩,
    State.resetWith_cbByte _ _ _, State.resetWith_bmByte _ _ _, rfl, rfl, rfl⟩
  case abm => exact List.eq_of_mem_replicate ha
  case adm =>
    rw [List.eq_of_mem_replicate hd]
    rfl

/-! ### The memory port (R246; spec/20_memory.md R63) -/

theorem step_of_cbWrite {s : State} {a : Nat} {v : Byte} {rest : List HostEvent} (hport : s.port = .cbWrite a v :: rest)
    (ha : a < s.params.cbSize) : step s = .next (State.setCbByte { s with port := rest } a v) :=
  (step_of_port hport).trans (if_pos ha)

theorem step_of_cbWrite_outside {s : State} {a : Nat} {v : Byte} {rest : List HostEvent}
    (hport : s.port = .cbWrite a v :: rest) (ha : s.params.cbSize ≤ a) : step s = .fault .cbAddressOutside :=
  (step_of_port hport).trans (if_neg (Nat.not_lt.mpr ha))

theorem step_of_bmWrite {s : State} {i : Nat} {v : Word} {rest : List HostEvent} (hport : s.port = .bmWrite i v :: rest)
    (hi : i < s.params.nblk) : step s = .next (State.setBmRecord { s with port := rest } i v) :=
  (step_of_port hport).trans (if_pos hi)

theorem step_of_bmWrite_outside {s : State} {i : Nat} {v : Word} {rest : List HostEvent}
    (hport : s.port = .bmWrite i v :: rest) (hi : s.params.nblk ≤ i) : step s = .fault .bmIndexOutside :=
  (step_of_port hport).trans (if_neg (Nat.not_lt.mpr hi))

/-- Settles O10: neither write looks at `STATUS.FAULT`; inside its space it is the store of one cell. -/
theorem memoryPortWritesOneCell : Obligations.MemoryPortWritesOneCell := by
  refine ⟨fun s a v rest hport => ⟨fun ha => ?cbInside, step_of_cbWrite_outside hport⟩,
    fun s i v rest hport => ⟨fun hi => ?bmInside, step_of_bmWrite_outside hport⟩⟩
  case cbInside =>
    exact ⟨_, step_of_cbWrite hport ha, rfl, State.setCbByte_cbByte_self _ a v,
      fun _ hne => State.setCbByte_cbByte_of_ne _ v hne⟩
  case bmInside =>
    exact ⟨_, step_of_bmWrite hport hi, rfl, State.setBmRecord_bmRecord_self _ i v,
      fun _ hne => State.setBmRecord_bmRecord_of_ne _ v hne⟩

/-! ### The observation port (R245; spec/10_state.md R35) -/

theorem State.observeCsr_of_none {s : State} {f : BitVec 8} (hc : Csr.ofNumber f = none) : s.observeCsr f = 0#32 := by
  unfold State.observeCsr
  rw [hc]

/-- Settles O35: the numbers of the table are exactly those that have a register. -/
theorem observationPortReads : Obligations.ObservationPortReads := by
  refine fun s => ⟨fun r => rfl, fun f v hmem => ?_, fun f hf => ?_⟩
  · obtain ⟨c, hc, hread⟩ := csrRead_of_mem_csrTable hmem
    rw [State.observeCsr_of_ofNumber hc, hread]
  · exact State.observeCsr_of_none (ofNumber_eq_none hf)

end Sys2Proof.Machine
end
